-- ==== Sys2Proof/Word.lean ====
section
/-! DEFINITION. The data widths of the block: 8-bit bytes and 32-bit words (spec/00_scope.md R10). -/

namespace Sys2Proof

/-- A FIFO word, a shift register or an operation word: 32 bits (00_scope.md R10, 30_encoding.md R80). -/
abbrev Word := BitVec 32

/-- A data-bus byte: 8 bits (00_scope.md R10). -/
abbrev Byte := BitVec 8

/-- The operand bits [15:0] of an operation word, and an instruction-memory word (30_encoding.md R80, 20_memory.md R60). -/
abbrev Half := BitVec 16

/-- A block or channel number of an operation word: 4 bits (30_encoding.md R80). -/
abbrev Nibble := BitVec 4

end Sys2Proof
end

