-- ==== Sys2Proof/Config.lean ====
section
/-! DEFINITION. The implementation parameters of spec/00_scope.md R9, with the spec's defaults, and the free values
(opaque, without a body) that stand for every draw and every value the spec leaves open. -/

namespace Sys2Proof

/-- The build role (00_scope.md R4): exactly one is present. -/
inductive Role where
  | peripheral
  | master
deriving DecidableEq, Repr

/-- How an agent observes WAIT (00_scope.md R9, 44_peripheral_fsm.md R220, 45_master_fsm.md R240). -/
inductive Handshake where
  | full
  | releaseOnly
deriving DecidableEq, Repr

/-- The five state-machine programs (00_scope.md R18). -/
inductive Template where
  | rdw
  | wrw
  | waite
  | rcd
  | wcd
deriving DecidableEq, Repr

/-- The pull of a pin (10_state.md R29). -/
inductive Pull where
  | none
  | up
  | down
deriving DecidableEq, Repr

/-- The logical bus lines (10_state.md R31). -/
inductive Line where
  | data (i : Fin 8)
  | modsel
  | rd
  | wr
  | wait
  | ad
deriving DecidableEq, Repr

/-- `BYTE_SOURCE` (46_engine_sequences.md R278): the reference decrementing counter, or whatever the application
wires in, which is then a free value (log 28). -/
inductive ByteSource where
  | counter
  | external
deriving DecidableEq, Repr

/-- `BYTE_SINK` (46_engine_sequences.md R280): append to the log list, or a consumer outside the model (log 28). -/
inductive ByteSink where
  | log
  | external
deriving DecidableEq, Repr

/-- `ALLOC` (41_configurator.md R103): any free range, drawn; or the lowest, the "ALLOC-low" of 95_test_vectors.md
section 0, which is one allowed choice (log 20). -/
inductive Alloc where
  | any
  | low
deriving DecidableEq, Repr

/-- The board map `PIN` (42_pin_binder.md R131); the data lines are `d0`, `d0 + 1`, …, `d0 + 7`. -/
structure BoardMap where
  d0 : Nat
  modsel : Nat
  rd : Nat
  wr : Nat
  wait : Nat
  ad : Nat
deriving DecidableEq, Repr

/-- The five words of a CONFIGURE descriptor (30_encoding.md R83). -/
structure DescWords where
  d0 : Word
  d1 : Word
  d2 : Word
  d3 : Word
  d4 : Word
deriving DecidableEq, Repr

/-- The implementation parameters (00_scope.md R9, R38), fixed for a run; and the descriptors of the engine
initialisations (42_pin_binder.md R150, R151; log 35). -/
structure Params where
  role : Role
  numBlocks : Nat
  numCh : Nat
  imemWords : Nat
  fifoDepth : Nat
  numFlags : Nat
  numGpio : Nat
  maxSet : Nat
  maxSideset : Nat
  lenRdw : Nat
  lenWrw : Nat
  lenWaite : Nat
  lenRcd : Nat
  lenWcd : Nat
  pins : BoardMap
  irqRd : Nat
  irqWr : Nat
  irqHold : Nat
  irqMrd : Nat
  pulls : List Pull
  byteSource : ByteSource
  counter0 : Byte
  byteSink : ByteSink
  masterHandshake : Handshake
  hostHandshake : Handshake
  alloc : Alloc
  rdw : DescWords
  wrw : DescWords
  waite : DescWords
  wcd : DescWords
  rcd : DescWords
deriving DecidableEq, Repr

/-- The defaults of 00_scope.md R9, 42_pin_binder.md R132, R150 and R151. R9 gives `ROLE` no default: PERIPHERAL is
the model's DESIGN CHOICE (log 1); every statement about a run takes the parameters as they stand in the state. -/
def Params.default : Params where
  role := .peripheral
  numBlocks := 2
  numCh := 4
  imemWords := 32
  fifoDepth := 4
  numFlags := 8
  numGpio := 30
  maxSet := 5
  maxSideset := 5
  lenRdw := 4
  lenWrw := 4
  lenWaite := 4
  lenRcd := 4
  lenWcd := 4
  pins := ⟨0, 8, 9, 10, 11, 12⟩
  irqRd := 0
  irqWr := 1
  irqHold := 4
  irqMrd := 0
  pulls := [.none, .none, .none, .none, .none, .none, .none, .none, .up, .up, .up, .up]
  byteSource := .counter
  counter0 := 0x05
  byteSink := .log
  masterHandshake := .full
  hostHandshake := .full
  alloc := .any
  rdw := ⟨0x00602000, 0x00010000, 0x00000208, 0x00000000, 0x000000FF⟩
  wrw := ⟨0x00602001, 0x00010000, 0x00000308, 0x00000000, 0x000000FF⟩
  waite := ⟨0x00602002, 0x00010000, 0x00000000, 0x0000010B, 0x000000FF⟩
  wcd := ⟨0x00C82004, 0x00010000, 0x08000000, 0x00000308, 0x0000000B⟩
  rcd := ⟨0x0060C803, 0x00010000, 0x00000800, 0x00000208, 0x0000000B⟩

/-- `LEN(t)` (00_scope.md R9). -/
def Params.len (p : Params) : Template → Nat
  | .rdw => p.lenRdw
  | .wrw => p.lenWrw
  | .waite => p.lenWaite
  | .rcd => p.lenRcd
  | .wcd => p.lenWcd

/-- `PIN(X)` (42_pin_binder.md R131): `PIN(Di) = PIN(D0) + i`. -/
def Params.pin (p : Params) : Line → Nat
  | .data i => p.pins.d0 + i.val
  | .modsel => p.pins.modsel
  | .rd => p.pins.rd
  | .wr => p.pins.wr
  | .wait => p.pins.wait
  | .ad => p.pins.ad

/-- The thirteen lines (10_state.md R31), the data lines first. -/
def Line.all : List Line :=
  [.data 0, .data 1, .data 2, .data 3, .data 4, .data 5, .data 6, .data 7, .modsel, .rd, .wr, .wait, .ad]

/-- What the spec asks of the parameters: the number fields of 30_encoding.md R80 and R82 hold them, the flag numbers
of 10_state.md R28 exist and differ where they must, and the board map is injective onto existing pins
(42_pin_binder.md R131). No step checks it; statements that need it say so. -/
def Params.valid (p : Params) : Bool :=
  decide (p.numBlocks ≤ 16) && decide (p.numCh ≤ 16) && decide (p.numFlags ≤ 16) && decide (p.numGpio ≤ 256)
    && decide (p.irqRd < p.numFlags) && decide (p.irqWr < p.numFlags) && decide (p.irqHold < p.numFlags)
    && decide (p.irqMrd < p.numFlags)
    && decide (p.irqHold ≠ p.irqRd) && decide (p.irqHold ≠ p.irqWr) && decide (p.irqRd ≠ p.irqWr)
    && Line.all.all (fun X => decide (p.pin X < p.numGpio))
    && decide (Line.all.map p.pin).Nodup

/-- The channel of the read-cycle driver, sm0 (42_pin_binder.md R151). -/
def Config.cRcd : Nat := 0

/-- The channel of the write-cycle driver, sm1 (42_pin_binder.md R151). -/
def Config.cWcd : Nat := 1

/-! ### Free values

Each is an uninterpreted constant: a claim holds for every value. The first argument of each is the model's turn
counter `State.tick`, so that a later turn draws afresh. -/

/-- The level read from a pin that neither side drives and no pull holds (10_state.md R32: a draw at each read); the
second argument is the read within the step, the third the pin (log 5). -/
opaque Config.floatLevel : Nat → Nat → Nat → Bool

/-- The level read from a pin that both sides drive, for which 10_state.md R32 states no value (log 6). -/
opaque Config.contendedLevel : Nat → Nat → Nat → Bool

/-- The bit that HOST_RD_BEGIN and HOST_WR_BEGIN draw for AD (44_peripheral_fsm.md R221, R225; log 19). -/
opaque Config.adLevel : Nat → Bool

/-- The level of AD at reset, drawn (44_peripheral_fsm.md R227; log 19). -/
opaque Config.resetAd : Bool

/-- The external peripheral's byte before any write, drawn (45_master_fsm.md R260; log 19). -/
opaque Config.resetEcho : Byte

/-- The draw that picks one of the free ranges (41_configurator.md R103; log 20). -/
opaque Config.allocDraw : Nat → Nat

/-- The instruction words of a template's program, by index (41_configurator.md R100: "whose contents no rule
reads"; log 22). -/
opaque Config.progWord : Template → Nat → Half

/-- The status of a failed initialisation before it is made nonzero (46_engine_sequences.md R287; log 29). -/
opaque Config.failStatus : Nat → Word

/-- The status word of a POST performed outside a handler (30_encoding.md R82 puts it in no operand; log 13). -/
opaque Config.postStatus : Nat → Word

/-- The byte an application's own BYTE_SOURCE gives (46_engine_sequences.md R278; log 28). -/
opaque Config.sourceByte : Nat → Byte

end Sys2Proof
end

