-- ==== Sys2Proof/Syntax.lean ====
section
/-! DEFINITION. The operations of spec/30_encoding.md R89, one constructor per row of spec/opcode_table.json, with the
operands of R80, R82 and R83 as the word holds them. -/

namespace Sys2Proof

/-- The kind of a deferred work item (10_state.md R35; operand code 0 or 1, 30_encoding.md R82). -/
inductive Kind where
  | read
  | write
deriving DecidableEq, Repr

/-- One operation. `b` and `c` are block and channel numbers, `m` masks, `p` pins; a function or pull code and a
CONFIGURE descriptor stand as the word holds them, and the operation itself refuses a reserved one
(30_encoding.md R87, R90; 41_configurator.md R101; log 11). -/
inductive Instr where
  | configure (b c : Nibble) (d : DescWords)
  | enable (b : Nibble) (m : Half)
  | disable (b : Nibble) (m : Half)
  | txPush (b c : Nibble) (w : Word)
  | rxPop (b c : Nibble)
  | irqClear (b : Nibble) (m : Half)
  | irqRead (b : Nibble)
  | irqForce (b : Nibble) (m : Half)
  | irqInte (b : Nibble) (m : Half)
  | irqGlobal (v : Bool)
  | gpioSetFunc (p : Byte) (f : Byte)
  | gpioSetDir (p : Byte) (oe : Bool)
  | gpioPut (p : Byte) (v : Bool)
  | gpioGet (p : Byte)
  | gpioSetPull (p : Byte) (pull : BitVec 2)
  | busSetDir (oe : Bool)
  | busPut (v : Byte)
  | busGet
  | chWaitIdle (b c : Nibble)
  | rdwFire (b c : Nibble)
  | rdwRearm (b c : Nibble)
  | wrwFire (b c : Nibble)
  | wrwRearm (b c : Nibble)
  | waiteAssert (b c : Nibble)
  | waiteRelease (b c : Nibble)
  | rcdStrobe (b c : Nibble)
  | rcdSeewait (b c : Nibble)
  | rcdSample (b c : Nibble)
  | wcdStart (b c : Nibble)
  | wcdSeewait (b c : Nibble)
  | wcdFinish (b c : Nibble)
  | hostRdBegin
  | hostSeeWait
  | hostRdEnd
  | hostWrBegin (v : Byte)
  | hostWrEnd
  | perRdAck
  | perRdReady
  | perRdDone
  | perWrAck
  | perWrLatch
  | perWrDone
  | post (k : Kind)
  | register (b : Nibble) (k : Kind)
  | isrRd (b : Nibble)
  | isrWr (b : Nibble)
  | serviceRead (b : Nibble)
  | serviceWrite (b : Nibble)
  | masterRead (b : Nibble)
  | masterWrite (b : Nibble) (v : Byte)
  | periphInit
  | masterInit
  | dispatch
deriving DecidableEq, Repr

end Sys2Proof
end

