-- ==== Sys2Proof/Machine/State.lean ====
section
/-! DEFINITION. The machine's state as plain data: every piece of state of spec/10_state.md and the sequences of
spec/46_engine_sequences.md, the records of faults and refusals of spec/60_exceptions.md, and reset
(spec/70_reset_and_hazards.md R341 to R347). -/

namespace Sys2Proof.Machine

/-! ### Bindings and channels -/

/-- A pin group: a base pin and a count of consecutive pins (42_pin_binder.md R130). -/
structure PinGroup where
  base : Nat
  count : Nat
deriving DecidableEq, Repr

/-- A shift configuration: bit width, direction (true: right), autopush or autopull (10_state.md R20). -/
structure ShiftCfg where
  bits : Nat
  right : Bool
  auto : Bool
deriving DecidableEq, Repr

/-- The FIFO join mode (10_state.md R20). -/
inductive Join where
  | separate
  | joinRx
  | joinTx
deriving DecidableEq, Repr

/-- The binding fields but block and channel (10_state.md R20, R24), and the `default-config-fn` identity, which no
rule reads (41_configurator.md R107, R110). `clkdiv` is the divider in 1/256 (30_encoding.md R83). `offset` is an
integer without a bound, where 30_encoding.md R83 makes it a signed 32-bit value: the model's choice, since
00_scope.md R9 bounds IMEM_WORDS nowhere (log 42). -/
structure ChanCfg where
  offset : Int
  template : Template
  inShift : ShiftCfg
  outShift : ShiftCfg
  clkdiv : Nat
  join : Join
  inPins : PinGroup
  outPins : PinGroup
  setPins : PinGroup
  sidesetPins : PinGroup
  jmpPin : Option Nat
  configFn : Byte
deriving DecidableEq, Repr

/-- The binding CONFIGURE returns (10_state.md R20). -/
structure Binding where
  block : Nat
  channel : Nat
  cfg : ChanCfg
deriving DecidableEq, Repr

/-- The owner of a channel (10_state.md R23). -/
inductive Owner where
  | none
  | peripheral
  | master
deriving DecidableEq, Repr

/-- A channel's template state (10_state.md R30): RDW and WRW use `armed` and `fired`, WAITE `idle` and `holding`, RCD
the `r` states and WCD the `w` states. -/
inductive TState where
  | armed
  | fired
  | idle
  | holding
  | rIdle
  | rWaitLow
  | rWaitRel
  | wIdle
  | wWaitLow
  | wWaitRel
deriving DecidableEq, Repr

/-- A channel (10_state.md R24). `cfg` and `pc` are meaningful while `owner ≠ none`; `rx` and `tx` are oldest first. -/
structure Channel where
  enabled : Bool
  owner : Owner
  cfg : ChanCfg
  pc : TState
  isr : Word
  isrCount : Nat
  osr : Word
  osrCount : Nat
  rx : List Word
  tx : List Word
deriving DecidableEq, Repr

/-! ### Blocks and pins -/

/-- The tag of an instruction-memory word (10_state.md R27). An allocation is named by the channel whose program it
holds, which R23 makes unique (log 21). -/
inductive Tag where
  | free
  | used (a : Nat)
deriving DecidableEq, Repr

/-- The two interrupt handlers, the identities `vec` holds (10_state.md R34, 46_engine_sequences.md R271). -/
inductive Handler where
  | isrRd
  | isrWr
deriving DecidableEq, Repr

/-- A programmable block (10_state.md R27), its channels (R24) and the processor's vectors for its flags (R34).
Lists are indexed by word, pin, flag and channel number; past a list's end stands the reset value. -/
structure Block where
  imem : List Host.Cell
  tags : List Tag
  flags : Half
  inte : Half
  pinOut : List Bool
  pinOe : List Bool
  vec : List (Option Handler)
  chs : List Channel
deriving DecidableEq, Repr

/-- The agent that controls a pin (10_state.md R29). -/
inductive PinFunc where
  | null
  | sio
  | pio (b : Nat)
deriving DecidableEq, Repr

/-- A GPIO pin (10_state.md R29). `drive` is stored and read by no rule. -/
structure Pin where
  func : PinFunc
  sioOe : Bool
  sioOut : Bool
  pull : Pull
  drive : Nat
deriving DecidableEq, Repr

/-- What the environment presents on one bus line (10_state.md R36). -/
structure EnvLine where
  drive : Bool
  val : Bool
deriving DecidableEq, Repr

/-! ### Processor and environment -/

/-- A module with a one-time initialisation (10_state.md R33). -/
inductive Module where
  | peripheral
  | master
deriving DecidableEq, Repr

/-- Whether a module has been initialised (10_state.md R33). -/
inductive InitState where
  | uninit
  | done
deriving DecidableEq, Repr

/-- The processor's context (10_state.md R34). -/
inductive Ctx where
  | task
  | isr (b i : Nat)
deriving DecidableEq, Repr

/-- A deferred work item (10_state.md R35). -/
structure WorkItem where
  kind : Kind
  status : Word
deriving DecidableEq, Repr

/-- The next step of a running deferred handler: the numbered steps of 46_engine_sequences.md R277 and R279. -/
inductive ServiceStep where
  | readDirOut
  | readPut
  | readRelease
  | readDirIn
  | writeDirIn
  | writeSample
  | writeRelease
  | writeSink
deriving DecidableEq, Repr

/-- A running deferred handler (46_engine_sequences.md R276): the engine's block, the next step and the byte
SERVICE_WRITE has sampled. -/
structure Service where
  block : Nat
  next : ServiceStep
  byte : Byte
deriving DecidableEq, Repr

/-- A running master call and its next step (46_engine_sequences.md R281, R282). -/
inductive MasterCall where
  | readPop (b : Nat)
  | readReturn (b : Nat) (w : Word)
  | writePush (b : Nat) (v : Byte)
  | writeWait (b : Nat)
deriving DecidableEq, Repr

/-- A running initialisation: the module and the index of its next processor operation (46_engine_sequences.md R284,
R285). -/
structure Boot where
  module : Module
  next : Nat
deriving DecidableEq, Repr

/-- The host's state (44_peripheral_fsm.md R220). -/
inductive HostPc where
  | idle
  | rdWaitLow
  | rdWaitRel
  | wrWaitLow
  | wrWaitRel
deriving DecidableEq, Repr

/-- The external peripheral's state (45_master_fsm.md R260). -/
inductive PerPc where
  | idle
  | rdStall
  | rdHold
  | wrStall
  | wrHold
deriving DecidableEq, Repr

/-! ### Faults, refusals and results of the spec -/

/-- State without a reset value that a rule would read (70_reset_and_hazards.md R347). -/
inductive Unwritten where
  | cfg (b c : Nat)
  | pc (b c : Nat)
  | hostLatch
  | imem (b a : Nat)
deriving DecidableEq, Repr

/-- A fault record (60_exceptions.md R305). The step of a contention or an overlap is named by the operation
performed (log 7). -/
inductive FaultRec where
  | enableInvalid (b c : Nat)
  | busContention (pin : Nat) (step : Instr)
  | strobeOverlap (b : Nat) (step : Instr)
  | doubleInit (m : Module)
  | unwrittenRead (what : Unwritten)
deriving DecidableEq, Repr

/-- The refusal reasons (60_exceptions.md R306). -/
inductive Reason where
  | illegalOperation
  | wrongTemplate
  | wrongRole
  | channelOwned
  | pinGroupInvalid
  | templatePins
  | pinRange
  | blockingInIsr
  | masterInIsr
  | concurrentMasterCall
  | doubleRegister
  | noHandler
deriving DecidableEq, Repr

/-- What the turn just taken returned (log 31): a value of the spec's "Result", a binding, an initialisation status,
or that the agent was held, the operation refused, or a fault recorded that ended it; `running` when a sequence has
taken a step that is not its last. -/
inductive Result where
  | none
  | running
  | held
  | refused (r : Reason)
  | faulted
  | level (v : Bool)
  | byte (v : Byte)
  | word (w : Word)
  | binding (b : Binding)
  | status (w : Word)
deriving DecidableEq, Repr

/-! ### The schedule -/

/-- The activities of the processor's task context that a turn can resume (00_scope.md R15). -/
inductive Activity where
  | boot
  | consumer
  | master
deriving DecidableEq, Repr

/-- One entry of the schedule (log 2): a word of an operation, or "this activity takes its next step". -/
inductive Turn where
  | word (w : Word)
  | resume (a : Activity)
deriving DecidableEq, Repr

/-! ### The state -/

/-- The whole machine: the parameters, the schedule and the model's counters, then the state of 10_state.md. -/
structure State where
  par : Params
  schedule : List Turn
  tick : Nat
  result : Result
  blks : List Block
  gpio : List Pin
  env : List EnvLine
  hostPc : HostPc
  hostLatch : Byte
  hostLatchWritten : Bool
  hostLatched : Bool
  perPc : PerPc
  echo : Byte
  initPeripheral : InitState
  initMaster : InitState
  halted : Bool
  errorLed : Bool
  diag : Option String
  ctx : Ctx
  irqEnabled : Bool
  queue : List WorkItem
  handlerRead : Option Nat
  handlerWrite : Option Nat
  consumer : Option Service
  master : Option MasterCall
  boot : Option Boot
  counter : Byte
  sink : List Byte
  faults : List FaultRec
  refused : Bool
deriving DecidableEq, Repr

/-! ### Reasons the model itself stops -/

/-- Why a step stops with a fault of the model. The spec's own faults (60_exceptions.md R305) are records in
`State.faults`, not these. -/
inductive Fault where
  /-- Raised by `step` when the schedule ends, or goes on with a resume turn, before the argument words of a CONFIGURE
  or a TX_PUSH (30_encoding.md R81; log 12). Safe: the machine stops. -/
  | truncatedOperation
deriving DecidableEq, Repr

/-- Why a step is refused by the model. The spec's own refusals (60_exceptions.md R306) are `State.refused` with a
`Reason`, not these. -/
inductive Refusal where
  /-- Raised by `exec` for an instruction whose arm has no meaning; no arm is such. Safe: the machine stops. -/
  | notModelled (mnemonic : String)
deriving DecidableEq, Repr

/-! ### Reset -/

/-- A channel at reset (70_reset_and_hazards.md R341). `cfg` and `pc` are unwritten in the spec: their values here are
the model's, and no rule reads them while `owner = none` (log 17). -/
def Channel.reset : Channel where
  enabled := false
  owner := .none
  cfg := ⟨0, .rdw, ⟨0, false, false⟩, ⟨0, false, false⟩, 0, .separate, ⟨0, 0⟩, ⟨0, 0⟩, ⟨0, 0⟩, ⟨0, 0⟩, none, 0⟩
  pc := .armed
  isr := 0
  isrCount := 0
  osr := 0
  osrCount := 32
  rx := []
  tx := []

/-- A block at reset, its channels to be filled in (70_reset_and_hazards.md R342, R344). -/
def Block.reset : Block where
  imem := []
  tags := []
  flags := 0
  inte := 0
  pinOut := []
  pinOe := []
  vec := []
  chs := []

/-- A pin at reset but for its pull (70_reset_and_hazards.md R343; `drive`: log 18). -/
def Pin.reset : Pin := ⟨.null, false, false, .none, 0⟩

/-- A line the environment does not drive (70_reset_and_hazards.md R345, R346; the value: log 19). -/
def EnvLine.off : EnvLine := ⟨false, false⟩

/-- The pull of pin `p` at reset: UP on the data bus, `PULL(p)` elsewhere (42_pin_binder.md R149). -/
def resetPull (par : Params) (p : Nat) : Pull :=
  if par.pins.d0 ≤ p ∧ p < par.pins.d0 + 8 then .up else par.pulls.getD p .none

/-- The environment's lines at reset, D0 to D7, MODSEL, RD, WR, WAIT, AD (44_peripheral_fsm.md R227,
70_reset_and_hazards.md R345, R346). -/
def resetEnv : Role → List EnvLine
  | .peripheral =>
    [.off, .off, .off, .off, .off, .off, .off, .off, ⟨true, true⟩, ⟨true, true⟩, ⟨true, true⟩, .off, ⟨true, Config.resetAd⟩]
  | .master => [.off, .off, .off, .off, .off, .off, .off, .off, .off, .off, .off, ⟨true, true⟩, .off]

/-- The reset state for given parameters (70_reset_and_hazards.md R341 to R347). -/
def State.resetWith (par : Params) : State where
  par := par
  schedule := []
  tick := 0
  result := .none
  blks := List.replicate par.numBlocks
    { Block.reset with
      tags := List.replicate par.imemWords .free
      pinOut := List.replicate par.numGpio false
      pinOe := List.replicate par.numGpio false
      vec := List.replicate par.numFlags none
      chs := List.replicate par.numCh Channel.reset }
  gpio := (List.range par.numGpio).map fun p => { Pin.reset with pull := resetPull par p }
  env := resetEnv par.role
  hostPc := .idle
  hostLatch := 0
  hostLatchWritten := false
  hostLatched := false
  perPc := .idle
  echo := Config.resetEcho
  initPeripheral := .uninit
  initMaster := .uninit
  halted := false
  errorLed := false
  diag := none
  ctx := .task
  irqEnabled := false
  queue := []
  handlerRead := none
  handlerWrite := none
  consumer := none
  master := none
  boot := none
  counter := par.counter0
  sink := []
  faults := []
  refused := false

/-- The machine right after reset, with the default parameters (70_reset_and_hazards.md R340). -/
def State.reset : State := State.resetWith Params.default

end Sys2Proof.Machine
end

