-- ==== Sys2Proof/Machine/Table.lean ====
section
/-! DEFINITION. Lists as tables indexed by number: past its end a table holds its reset value, so that reading and
writing need no bound. The named reads and writes of the state's tables (blocks, channels, pins, lines). -/

namespace Sys2Proof.Machine

/-- Write entry `i` of a table whose entries past the end are `d`. -/
def tabSet {α : Type} (d : α) : List α → Nat → α → List α
  | [], 0, v => [v]
  | [], n + 1, v => d :: tabSet d [] n v
  | _ :: xs, 0, v => v :: xs
  | x :: xs, n + 1, v => x :: tabSet d xs n v

/-- Change entry `i` of a table. -/
def tabModify {α : Type} (d : α) (l : List α) (i : Nat) (f : α → α) : List α :=
  tabSet d l i (f (l.getD i d))

/-- Change the `n` entries from `base`; `f` is given each entry's place in the run. -/
def tabModifyRun {α : Type} (d : α) (l : List α) (base : Nat) : Nat → (Nat → α → α) → List α
  | 0, _ => l
  | n + 1, f => tabModify d (tabModifyRun d l base n f) (base + n) (f n)

/-- Apply `f` to every entry of a list with its index, the first index being `k`. -/
def mapFrom {α : Type} (f : Nat → α → α) : Nat → List α → List α
  | _, [] => []
  | k, x :: xs => f k x :: mapFrom f (k + 1) xs

/-- The index of a line in `State.env`. -/
def lineIdx : Line → Nat
  | .data i => i.val
  | .modsel => 8
  | .rd => 9
  | .wr => 10
  | .wait => 11
  | .ad => 12

/-- Channel `c` of a block (10_state.md R24). -/
def Block.chan (k : Block) (c : Nat) : Channel := k.chs.getD c Channel.reset

/-- `pin_out[p]` of a block (10_state.md R27). -/
def Block.out (k : Block) (p : Nat) : Bool := k.pinOut.getD p false

/-- `pin_oe[p]` of a block (10_state.md R27). -/
def Block.oe (k : Block) (p : Nat) : Bool := k.pinOe.getD p false

/-- The tag of instruction-memory word `a` (10_state.md R27). -/
def Block.tag (k : Block) (a : Nat) : Tag := k.tags.getD a .free

/-- The handler bound to flag `i` of a block (10_state.md R34). -/
def Block.vector (k : Block) (i : Nat) : Option Handler := k.vec.getD i none

/-- Block `b` (10_state.md R27). -/
def State.blk (s : State) (b : Nat) : Block := s.blks.getD b Block.reset

/-- Channel `c` of block `b` (10_state.md R24). -/
def State.chan (s : State) (b c : Nat) : Channel := (s.blk b).chan c

/-- Pin `p` (10_state.md R29). -/
def State.pin (s : State) (p : Nat) : Pin := s.gpio.getD p Pin.reset

/-- What the environment presents on line `X` (10_state.md R36). -/
def State.envLine (s : State) (X : Line) : EnvLine := s.env.getD (lineIdx X) EnvLine.off

/-- Change channel `c` of a block. -/
def Block.modChan (k : Block) (c : Nat) (f : Channel → Channel) : Block :=
  { k with chs := tabModify Channel.reset k.chs c f }

/-- Drive pin `p` of a block at level `v`: `pin_out[p] <- v`. -/
def Block.setOut (k : Block) (p : Nat) (v : Bool) : Block := { k with pinOut := tabSet false k.pinOut p v }

/-- Change block `b`. -/
def State.modBlk (s : State) (b : Nat) (f : Block → Block) : State :=
  { s with blks := tabModify Block.reset s.blks b f }

/-- Change channel `c` of block `b`. -/
def State.modChan (s : State) (b c : Nat) (f : Channel → Channel) : State :=
  s.modBlk b fun k => k.modChan c f

/-- Change pin `p`. -/
def State.modPin (s : State) (p : Nat) (f : Pin → Pin) : State :=
  { s with gpio := tabModify Pin.reset s.gpio p f }

/-- Change the `n` pins from `base`. -/
def State.modPins (s : State) (base n : Nat) (f : Nat → Pin → Pin) : State :=
  { s with gpio := tabModifyRun Pin.reset s.gpio base n f }

/-- Change what the environment presents on line `X`. -/
def State.modEnv (s : State) (X : Line) (f : EnvLine → EnvLine) : State :=
  { s with env := tabModify EnvLine.off s.env (lineIdx X) f }

/-- Change what the environment presents on D0 to D7. -/
def State.modEnvData (s : State) (f : Nat → EnvLine → EnvLine) : State :=
  { s with env := tabModifyRun EnvLine.off s.env 0 8 f }

end Sys2Proof.Machine
end

