-- ==== Sys2Proof/Machine/Operands.lean ====
section
/-! DEFINITION. Operand forms: block, channel and mask ranges, function, pull and template codes, the CONFIGURE
descriptor (spec/30_encoding.md R82 to R88) and the legality of its pin groups (spec/42_pin_binder.md R135, R136). -/

namespace Sys2Proof.Machine

/-- The block exists (10_state.md R20: 0 to NUM_BLOCKS-1; log 10). -/
def blockOk (par : Params) (b : Nibble) : Bool := decide (b.toNat < par.numBlocks)

/-- The channel exists in its block (10_state.md R20: 0 to NUM_CH-1; log 10). -/
def chanOk (par : Params) (c : Nibble) : Bool := decide (c.toNat < par.numCh)

/-- A channel mask has only bits [NUM_CH-1:0] (30_encoding.md R82). -/
def chanMaskOk (par : Params) (m : Half) : Bool := decide (m.toNat < 2 ^ par.numCh)

/-- A flag mask has only bits [NUM_FLAGS-1:0] (30_encoding.md R82). -/
def flagMaskOk (par : Params) (m : Half) : Bool := decide (m.toNat < 2 ^ par.numFlags)

/-- The function codes of 30_encoding.md R87. -/
def pinFuncOf (par : Params) (f : Byte) : Option PinFunc :=
  if f.toNat = 0 then some .null
  else if f.toNat = 1 then some .sio
  else if f.toNat < 2 + par.numBlocks then some (.pio (f.toNat - 2))
  else none

/-- The pull codes of 30_encoding.md R87. -/
def pullOf (code : BitVec 2) : Option Pull :=
  match code.toNat with
  | 0 => some .none
  | 1 => some .up
  | 2 => some .down
  | _ => none

/-- The template ids of 30_encoding.md R88. -/
def templateOf (id : Nat) : Option Template :=
  match id with
  | 0 => some .rdw
  | 1 => some .wrw
  | 2 => some .waite
  | 3 => some .rcd
  | 4 => some .wcd
  | _ => none

/-- The join codes of 30_encoding.md R83, R86. -/
def joinOf (code : Nat) : Option Join :=
  match code with
  | 0 => some .separate
  | 1 => some .joinRx
  | 2 => some .joinTx
  | _ => none

/-- The unsigned field of `n` bits of a word from bit `lo`. -/
def field (w : Word) (lo n : Nat) : Nat := (w.extractLsb' lo n).toNat

/-- A shift width is 1 to 32 (30_encoding.md R84). -/
def shiftBitsOk (n : Nat) : Bool := decide (1 ≤ n) && decide (n ≤ 32)

/-- A pin group of a descriptor half: base in the low byte, count in the high one (30_encoding.md R85). -/
def groupAt (w : Word) (lo : Nat) : PinGroup := ⟨field w lo 8, field w (lo + 8) 8⟩

/-- The clock divider in 1/256; an integer part of 0 encodes 65536 (30_encoding.md R83; log 23). -/
def clkdivOf (d1 : Word) : Nat :=
  (if field d1 16 16 = 0 then 65536 else field d1 16 16) * 256 + field d1 8 8

/-- `decodes(d)` and the fields of `d` (30_encoding.md R83 to R86, R88, R90): `none` for a reserved template id or
join code, a shift width of 0 or above 32, or a nonzero unused field. The offset is not the descriptor's: it stands
at the sentinel -1 until the program is loaded (41_configurator.md R103, R104). -/
def decodeDescriptor (d : DescWords) : Option ChanCfg :=
  match templateOf (field d.d0 0 8), joinOf (field d.d0 24 2) with
  | some t, some j =>
    if shiftBitsOk (field d.d0 8 6) && shiftBitsOk (field d.d0 16 6) && decide (field d.d0 26 6 = 0)
        && decide (field d.d1 0 8 = 0) && decide (field d.d4 16 16 = 0) then
      some
        { offset := -1
          template := t
          inShift := ⟨field d.d0 8 6, d.d0.getLsbD 14, d.d0.getLsbD 15⟩
          outShift := ⟨field d.d0 16 6, d.d0.getLsbD 22, d.d0.getLsbD 23⟩
          clkdiv := clkdivOf d.d1
          join := j
          inPins := groupAt d.d2 0
          outPins := groupAt d.d2 16
          setPins := groupAt d.d3 0
          sidesetPins := groupAt d.d3 16
          jmpPin := if field d.d4 0 8 = 0xFF then none else some (field d.d4 0 8)
          configFn := d.d4.extractLsb' 8 8 }
    else none
  | _, _ => none

/-- `p ∈ pins(g)` (41_configurator.md R100). -/
def PinGroup.has (g : PinGroup) (p : Nat) : Bool := decide (g.base ≤ p) && decide (p < g.base + g.count)

/-- `p ∈ strobe(d)`: the set and side-set groups (42_pin_binder.md R135). -/
def ChanCfg.strobe (d : ChanCfg) (p : Nat) : Bool := d.setPins.has p || d.sidesetPins.has p

/-- `p ∈ outgroups(d)`: the out, set and side-set groups (41_configurator.md R100). -/
def ChanCfg.outgroup (d : ChanCfg) (p : Nat) : Bool := d.outPins.has p || d.strobe p

/-- `p ∈ watch(d)`: the in group and the jump pin (42_pin_binder.md R135). -/
def ChanCfg.watch (d : ChanCfg) (p : Nat) : Bool := d.inPins.has p || decide (d.jmpPin = some p)

/-- A group with pins does not pass the last pin (42_pin_binder.md R136). -/
def groupFits (par : Params) (g : PinGroup) : Bool := decide (g.count = 0) || decide (g.base + g.count ≤ par.numGpio)

/-- `groups_legal(d)` (42_pin_binder.md R136). -/
def groupsLegal (par : Params) (d : ChanCfg) : Bool :=
  decide (d.inPins.count ≤ 32) && decide (d.outPins.count ≤ 32) && decide (d.setPins.count ≤ par.maxSet)
    && decide (d.sidesetPins.count ≤ par.maxSideset)
    && groupFits par d.inPins && groupFits par d.outPins && groupFits par d.setPins && groupFits par d.sidesetPins
    && (match d.jmpPin with | none => true | some p => decide (p < par.numGpio))

/-- No output group holds a line of the list (42_pin_binder.md R135, "must not drive"). -/
def drivesNone (par : Params) (d : ChanCfg) (ls : List Line) : Bool := ls.all fun X => !d.outgroup (par.pin X)

/-- The eight data lines (10_state.md R31). -/
def dataLines : List Line := [.data 0, .data 1, .data 2, .data 3, .data 4, .data 5, .data 6, .data 7]

/-- `template_pins_ok(d)`, the table of 42_pin_binder.md R135. An RCD's strobe group may hold WR, which the other
driver strobes: only its out group may not (log 24). -/
def templatePinsOk (par : Params) (d : ChanCfg) : Bool :=
  match d.template with
  | .rdw => d.watch par.pins.modsel && d.watch par.pins.rd && drivesNone par d Line.all
  | .wrw => d.watch par.pins.modsel && d.watch par.pins.wr && drivesNone par d Line.all
  | .waite => d.outgroup par.pins.wait && drivesNone par d (dataLines ++ [.modsel, .rd, .wr, .ad])
  | .rcd =>
    d.strobe par.pins.modsel && d.strobe par.pins.rd && decide (d.inPins = ⟨par.pins.d0, 8⟩) && d.watch par.pins.wait
      && drivesNone par d (.wait :: dataLines) && !d.outPins.has par.pins.wr
  | .wcd =>
    d.strobe par.pins.modsel && d.strobe par.pins.wr && decide (d.outPins = ⟨par.pins.d0, 8⟩) && d.watch par.pins.wait
      && drivesNone par d [.wait]

/-- The owner CONFIGURE writes: the engine the build contains (41_configurator.md R109). -/
def ownerOf : Role → Owner
  | .peripheral => .peripheral
  | .master => .master

/-- `entry(t)` (10_state.md R30, 41_configurator.md R100). -/
def entryState : Template → TState
  | .rdw => .armed
  | .wrw => .armed
  | .waite => .idle
  | .rcd => .rIdle
  | .wcd => .wIdle

/-- The byte of eight levels, `f 7 ++ ... ++ f 0` (10_state.md R31, 42_pin_binder.md R147). -/
def byteOf (f : Nat → Bool) : Byte :=
  BitVec.ofBool (f 7) ++ BitVec.ofBool (f 6) ++ BitVec.ofBool (f 5) ++ BitVec.ofBool (f 4)
    ++ BitVec.ofBool (f 3) ++ BitVec.ofBool (f 2) ++ BitVec.ofBool (f 1) ++ BitVec.ofBool (f 0)

end Sys2Proof.Machine
end

