-- ==== Sys2Proof/Machine/Flags.lean ====
section
/-! DEFINITION. The interrupt flags of a block (spec/43_fifo_irq.md R165 to R169) and when one is pending or taken
(spec/60_exceptions.md R314, spec/46_engine_sequences.md R272). -/

namespace Sys2Proof.Machine

/-- The mask of one flag. -/
def flagBit (i : Nat) : Half := 1#16 <<< i

/-- `flags[i]` of a block. -/
def Block.flag (k : Block) (i : Nat) : Bool := k.flags.getLsbD i

/-- `inte[i]` of a block. -/
def Block.routed (k : Block) (i : Nat) : Bool := k.inte.getLsbD i

/-- Set the flags of a mask; a flag already set stays set (43_fifo_irq.md R165, R168). -/
def Block.raiseFlags (k : Block) (m : Half) : Block := { k with flags := k.flags ||| m }

/-- Clear the flags of a mask; a flag already clear stays clear (43_fifo_irq.md R165, R166). -/
def Block.clearFlags (k : Block) (m : Half) : Block := { k with flags := k.flags &&& ~~~m }

/-- The raw status word: bit i is `flags[i]` for i < NUM_FLAGS, 0 above (43_fifo_irq.md R167). -/
def irqStatus (par : Params) (k : Block) : Word := (k.flags &&& BitVec.ofNat 16 (2 ^ par.numFlags - 1)).setWidth 32

/-- Flag `i` is pending (60_exceptions.md R314). -/
def Block.pending (k : Block) (i : Nat) : Bool := k.flag i && k.routed i

/-- The processor may take flag `i` of block `b` with handler `h` (46_engine_sequences.md R272). -/
def canTake (s : State) (b i : Nat) (h : Handler) : Bool :=
  s.irqEnabled && decide (s.ctx = .task) && (s.blk b).pending i && decide ((s.blk b).vector i = some h)

end Sys2Proof.Machine
end

