-- ==== Sys2Proof/WellFormed.lean ====
section
/-! DEFINITION. Which operations are well formed: the block and channel exist, masks have only bits of existing
channels or flags, and codes and descriptors are not reserved (spec/30_encoding.md R82, R84 to R88, R90;
spec/10_state.md R20). An ill-formed processor operation is refused ILLEGAL_OPERATION (log 10, log 11), a
template step of a channel that does not exist WRONG_TEMPLATE (R92; log 27). -/

namespace Sys2Proof

open Sys2Proof.Machine

/-- The operand checks of an operation for given parameters. -/
def Instr.wf (par : Params) : Instr → Bool
  | .configure b c d => blockOk par b && chanOk par c && (decodeDescriptor d).isSome
  | .enable b m => blockOk par b && chanMaskOk par m
  | .disable b m => blockOk par b && chanMaskOk par m
  | .txPush b c _ => blockOk par b && chanOk par c
  | .rxPop b c => blockOk par b && chanOk par c
  | .irqClear b m => blockOk par b && flagMaskOk par m
  | .irqRead b => blockOk par b
  | .irqForce b m => blockOk par b && flagMaskOk par m
  | .irqInte b m => blockOk par b && flagMaskOk par m
  | .irqGlobal _ => true
  | .gpioSetFunc _ f => (pinFuncOf par f).isSome
  | .gpioSetDir _ _ => true
  | .gpioPut _ _ => true
  | .gpioGet _ => true
  | .gpioSetPull _ pull => (pullOf pull).isSome
  | .busSetDir _ => true
  | .busPut _ => true
  | .busGet => true
  | .chWaitIdle b c => blockOk par b && chanOk par c
  | .rdwFire b c => blockOk par b && chanOk par c
  | .rdwRearm b c => blockOk par b && chanOk par c
  | .wrwFire b c => blockOk par b && chanOk par c
  | .wrwRearm b c => blockOk par b && chanOk par c
  | .waiteAssert b c => blockOk par b && chanOk par c
  | .waiteRelease b c => blockOk par b && chanOk par c
  | .rcdStrobe b c => blockOk par b && chanOk par c
  | .rcdSeewait b c => blockOk par b && chanOk par c
  | .rcdSample b c => blockOk par b && chanOk par c
  | .wcdStart b c => blockOk par b && chanOk par c
  | .wcdSeewait b c => blockOk par b && chanOk par c
  | .wcdFinish b c => blockOk par b && chanOk par c
  | .hostRdBegin => true
  | .hostSeeWait => true
  | .hostRdEnd => true
  | .hostWrBegin _ => true
  | .hostWrEnd => true
  | .perRdAck => true
  | .perRdReady => true
  | .perRdDone => true
  | .perWrAck => true
  | .perWrLatch => true
  | .perWrDone => true
  | .post _ => true
  | .register b _ => blockOk par b
  | .isrRd b => blockOk par b
  | .isrWr b => blockOk par b
  | .serviceRead b => blockOk par b
  | .serviceWrite b => blockOk par b
  | .masterRead b => blockOk par b
  | .masterWrite b _ => blockOk par b
  | .periphInit => true
  | .masterInit => true
  | .dispatch => true

/-- What the encoding of an operation can hold: the masks of 30_encoding.md R82 have no bit of a channel or flag that
does not exist. Every other operand field admits all its values. -/
def Instr.encodable (par : Params) : Instr → Bool
  | .enable _ m => chanMaskOk par m
  | .disable _ m => chanMaskOk par m
  | .irqClear _ m => flagMaskOk par m
  | .irqForce _ m => flagMaskOk par m
  | .irqInte _ m => flagMaskOk par m
  | .configure _ _ _ => true
  | .txPush _ _ _ => true
  | .rxPop _ _ => true
  | .irqRead _ => true
  | .irqGlobal _ => true
  | .gpioSetFunc _ _ => true
  | .gpioSetDir _ _ => true
  | .gpioPut _ _ => true
  | .gpioGet _ => true
  | .gpioSetPull _ _ => true
  | .busSetDir _ => true
  | .busPut _ => true
  | .busGet => true
  | .chWaitIdle _ _ => true
  | .rdwFire _ _ => true
  | .rdwRearm _ _ => true
  | .wrwFire _ _ => true
  | .wrwRearm _ _ => true
  | .waiteAssert _ _ => true
  | .waiteRelease _ _ => true
  | .rcdStrobe _ _ => true
  | .rcdSeewait _ _ => true
  | .rcdSample _ _ => true
  | .wcdStart _ _ => true
  | .wcdSeewait _ _ => true
  | .wcdFinish _ _ => true
  | .hostRdBegin => true
  | .hostSeeWait => true
  | .hostRdEnd => true
  | .hostWrBegin _ => true
  | .hostWrEnd => true
  | .perRdAck => true
  | .perRdReady => true
  | .perRdDone => true
  | .perWrAck => true
  | .perWrLatch => true
  | .perWrDone => true
  | .post _ => true
  | .register _ _ => true
  | .isrRd _ => true
  | .isrWr _ => true
  | .serviceRead _ => true
  | .serviceWrite _ => true
  | .masterRead _ => true
  | .masterWrite _ _ => true
  | .periphInit => true
  | .masterInit => true
  | .dispatch => true

end Sys2Proof
end

