-- ==== Sys2Proof/Machine/Ops.lean ====
section
/-! DEFINITION. The shared operations: instruction memory, line levels, FIFOs and shift registers, the reactions and the
contention and strobe-overlap records at the end of a step, the outcomes of an operation, taking an interrupt and
returning from it, and the wrappers that say who may perform an operation. -/

namespace Sys2Proof.Machine

/-! ### Instruction memory (20_memory.md R60; log 22) -/

/-- What the instruction memory holds at a byte address; `none` where nothing has been written, which is also what an
unlisted address holds. -/
def readByte : List Host.Cell → Nat → Option Byte
  | [], _ => none
  | (a, v) :: m, x => if a = x then some v else readByte m x

/-- Write a byte, keeping the addresses strictly rising. -/
def writeByte : List Host.Cell → Nat → Byte → List Host.Cell
  | [], x, v => [(x, v)]
  | (a, u) :: m, x, v =>
    if x < a then (x, v) :: (a, u) :: m else if x = a then (x, v) :: m else (a, u) :: writeByte m x v

/-- Every listed address is at least `lo` and the addresses rise strictly. -/
def risingFrom : Nat → List Host.Cell → Bool
  | _, [] => true
  | lo, (a, _) :: m => decide (lo ≤ a) && risingFrom (a + 1) m

/-- The canonical form: addresses strictly rising. No value stands for "nothing written", so no entry can equal what
an unlisted address holds. -/
def Memory.wf (m : List Host.Cell) : Bool := risingFrom 0 m

/-- Write instruction word `a`, low byte first. -/
def writeWord (m : List Host.Cell) (a : Nat) (w : Half) : List Host.Cell :=
  writeByte (writeByte m (2 * a) (w.extractLsb' 0 8)) (2 * a + 1) (w.extractLsb' 8 8)

/-- Instruction word `a`, if both its bytes have been written. -/
def readWord (m : List Host.Cell) (a : Nat) : Option Half :=
  match readByte m (2 * a), readByte m (2 * a + 1) with
  | some lo, some hi => some (hi ++ lo)
  | _, _ => none

/-- `MemWrite`: write `n` consecutive words from `a` (20_memory.md R60). -/
def writeWords (m : List Host.Cell) (a : Nat) : Nat → (Nat → Half) → List Host.Cell
  | 0, _ => m
  | n + 1, f => writeWord (writeWords m a n f) (a + n) (f n)

/-- Words `o` to `o + n - 1` are all free (41_configurator.md R101). -/
def allFree (k : Block) (o n : Nat) : Bool := (List.range n).all fun i => decide (k.tag (o + i) = .free)

/-- The offsets of the free ranges of `n` words (41_configurator.md R101, R103). -/
def freeOffsets (par : Params) (k : Block) (n : Nat) : List Nat :=
  (List.range (par.imemWords + 1 - n)).filter fun o => allFree k o n

/-- The allocation's choice among the free ranges (41_configurator.md R103; log 20). -/
def chooseOffset (par : Params) (tick : Nat) (fs : List Nat) : Option Nat :=
  match par.alloc with
  | .any => fs[Config.allocDraw tick % fs.length]?
  | .low => fs.head?

/-! ### Line levels (10_state.md R32) -/

/-- The reads of one step that can draw a floating level: each has its own number, so that no two reads share a draw
(log 5). The guard and operand reads come first; the watchers and drivers read at `chanSite`. -/
inductive Site where
  | guard
  | sample
  | waitBefore
  | waitAfter
  | latch
  | hostSees
  | perReads
  | channel (b c : Nat)
deriving DecidableEq, Repr

/-- The number of a read. -/
def Site.number : Site → Nat
  | .guard => 0
  | .sample => 1
  | .waitBefore => 2
  | .waitAfter => 3
  | .latch => 4
  | .hostSees => 5
  | .perReads => 6
  | .channel b c => 7 + (16 * b + c)

/-- What the engine drives on pin `p`, if it does (10_state.md R32). -/
def engineDrive (s : State) (p : Nat) : Option Bool :=
  match (s.pin p).func with
  | .null => none
  | .sio => if (s.pin p).sioOe then some (s.pin p).sioOut else none
  | .pio b => if (s.blk b).oe p then some ((s.blk b).out p) else none

/-- What the environment drives on pin `p`, if it does (10_state.md R32, R36). -/
def envDrive (s : State) (p : Nat) : Option Bool :=
  (Line.all.find? fun X => decide (s.par.pin X = p) && (s.envLine X).drive).map fun X => (s.envLine X).val

/-- `level(p)` as one read of the step sees it (10_state.md R32); a level both sides drive is a free value (log 6), and
so is a floating one (log 5). -/
def level (s : State) (site : Site) (p : Nat) : Bool :=
  match engineDrive s p, envDrive s p with
  | some v, none => v
  | none, some v => v
  | some _, some _ => Config.contendedLevel s.tick site.number p
  | none, none =>
    match (s.pin p).pull with
    | .up => true
    | .down => false
    | .none => Config.floatLevel s.tick site.number p

/-- `line(X)` (10_state.md R31). -/
def lineLevel (s : State) (site : Site) (X : Line) : Bool := level s site (s.par.pin X)

/-- `asserted(X)`: the level is 0 (00_scope.md R14). -/
def asserted (s : State) (site : Site) (X : Line) : Bool := !lineLevel s site X

/-- The byte on D7 to D0, all eight levels read in one step (10_state.md R31, 20_memory.md R69). -/
def dataByte (s : State) (site : Site) : Byte := byteOf fun i => level s site (s.par.pins.d0 + i)

/-- `cond_rd` (44_peripheral_fsm.md R201). -/
def condRd (s : State) (site : Site) : Bool := asserted s site .modsel && asserted s site .rd

/-- `cond_wr` (44_peripheral_fsm.md R201). -/
def condWr (s : State) (site : Site) : Bool := asserted s site .modsel && asserted s site .wr

/-- Both sides drive pin `p` (10_state.md R32). -/
def bothDrive (s : State) (p : Nat) : Bool := (engineDrive s p).isSome && (envDrive s p).isSome

/-! ### FIFOs and shift registers (43_fifo_irq.md) -/

/-- `cap_rx` (10_state.md R25). -/
def capRx (par : Params) (ch : Channel) : Nat :=
  match ch.cfg.join with
  | .separate => par.fifoDepth
  | .joinRx => 2 * par.fifoDepth
  | .joinTx => 0

/-- `cap_tx` (10_state.md R25). -/
def capTx (par : Params) (ch : Channel) : Nat :=
  match ch.cfg.join with
  | .separate => par.fifoDepth
  | .joinRx => 0
  | .joinTx => 2 * par.fifoDepth

/-- Shift `n` bits of `v` into the input shift register (43_fifo_irq.md R170). -/
def shiftIn (ch : Channel) (v : Word) (n : Nat) : Channel :=
  let low := v &&& (BitVec.ofNat 32 (2 ^ n - 1))
  { ch with
    isr := if ch.cfg.inShift.right then (ch.isr >>> n) ||| (low <<< (32 - n)) else (ch.isr <<< n) ||| low
    isrCount := min 32 (ch.isrCount + n) }

/-- The push of 43_fifo_irq.md R171 is due after the IN. -/
def pushDue (ch : Channel) : Bool := !ch.cfg.inShift.auto || decide (ch.cfg.inShift.bits ≤ ch.isrCount)

/-- Append the input shift register to RX and clear it (43_fifo_irq.md R171). -/
def pushIsr (ch : Channel) : Channel := { ch with rx := ch.rx ++ [ch.isr], isr := 0, isrCount := 0 }

/-- IN of `n` bits and the push it may bring (43_fifo_irq.md R170, R171). -/
def sampleIn (ch : Channel) (v : Word) (n : Nat) : Channel :=
  let ch' := shiftIn ch v n
  if pushDue ch' then pushIsr ch' else ch'

/-- The channel has room for the sample: RX is not full, if this sample pushes (43_fifo_irq.md R171). -/
def sampleFits (par : Params) (ch : Channel) (n : Nat) : Bool :=
  !pushDue (shiftIn ch 0 n) || decide (ch.rx.length < capRx par ch)

/-- Take the word `w` from TX, whose rest is `ws`, into the output shift register (43_fifo_irq.md R172). -/
def pullOsr (ch : Channel) (w : Word) (ws : List Word) : Channel := { ch with osr := w, tx := ws, osrCount := 0 }

/-- The `n` bits OUT takes (43_fifo_irq.md R173). -/
def outBits (ch : Channel) (n : Nat) : Word :=
  if ch.cfg.outShift.right then ch.osr &&& (BitVec.ofNat 32 (2 ^ n - 1)) else ch.osr >>> (32 - n)

/-- Shift `n` bits out of the output shift register (43_fifo_irq.md R173). -/
def shiftOut (ch : Channel) (n : Nat) : Channel :=
  { ch with
    osr := if ch.cfg.outShift.right then ch.osr >>> n else ch.osr <<< n
    osrCount := min 32 (ch.osrCount + n) }

/-- The sampled bits of a popped word (43_fifo_irq.md R164; log 39). -/
def extractSample (sh : ShiftCfg) (w : Word) : Word :=
  if sh.right then w >>> (32 - sh.bits) else w &&& (BitVec.ofNat 32 (2 ^ sh.bits - 1))

/-! ### Reactions at the end of a step -/

/-- The state an enforcer that reacts goes to, and whether it reacts, for a hold flag at `hold`
(44_peripheral_fsm.md R211 to R213). -/
def waiteReacts (hold : Bool) (ch : Channel) : Bool :=
  ch.enabled && decide (ch.owner ≠ .none) && decide (ch.cfg.template = .waite)
    && decide (ch.pc = (if hold then .idle else .holding))

/-- WAITE_ASSERT or WAITE_RELEASE on the enforcer's own state (44_peripheral_fsm.md R212, R213). -/
def waiteMove (hold : Bool) (ch : Channel) : Channel :=
  if waiteReacts hold ch then { ch with pc := if hold then .holding else .idle } else ch

/-- The reaction of every enabled enforcer of a block to its hold flag, in the step that wrote it
(44_peripheral_fsm.md R211): the enforcers that are not where the flag asks go there and drive WAIT. -/
def Block.enforce (par : Params) (k : Block) : Block :=
  if k.chs.any (waiteReacts (k.flag par.irqHold)) then
    { k with
      pinOut := tabSet false k.pinOut par.pins.wait (!k.flag par.irqHold)
      chs := k.chs.map (waiteMove (k.flag par.irqHold)) }
  else k

/-- Apply 44_peripheral_fsm.md R211 to block `b`, where the step wrote its flags or enabled an enforcer. -/
def enforce (s : State) : Option Nat → State
  | some b => s.modBlk b (Block.enforce s.par)
  | none => s

/-- The host latch (44_peripheral_fsm.md R223): in the step in which WAIT has gone from 0 to 1 while the host waits for
that in a read cycle, it takes the byte on the bus (log 26). There is a host in the PERIPHERAL role only (R220). -/
def hostLatches (s t : State) : State :=
  if t.par.role = .peripheral ∧ t.hostPc = .rdWaitRel ∧ lineLevel s .waitBefore .wait = false ∧
      lineLevel t .waitAfter .wait = true then
    { t with hostLatch := dataByte t .latch, hostLatchWritten := true, hostLatched := true }
  else t

/-- The state to which an enabled channel's own observation takes it (44_peripheral_fsm.md R208,
45_master_fsm.md R246): a watcher re-arms, a driver sees WAIT asserted. -/
def observeChan (s : State) (b c : Nat) (ch : Channel) : Channel :=
  if ch.enabled && decide (ch.owner ≠ .none) then
    match s.par.role, ch.cfg.template, ch.pc with
    | .peripheral, .rdw, .fired => if condRd s (.channel b c) then ch else { ch with pc := .armed }
    | .peripheral, .wrw, .fired => if condWr s (.channel b c) then ch else { ch with pc := .armed }
    | .master, .rcd, .rWaitLow => if asserted s (.channel b c) .wait then { ch with pc := .rWaitRel } else ch
    | .master, .wcd, .wWaitLow => if asserted s (.channel b c) .wait then { ch with pc := .wWaitRel } else ch
    | _, _, _ => ch
  else ch

/-- The observations of all channels. -/
def observeChans (s : State) : State :=
  { s with blks := mapFrom (fun b k => { k with chs := mapFrom (fun c ch => observeChan s b c ch) 0 k.chs }) 0 s.blks }

/-- The host's move when it sees WAIT asserted (44_peripheral_fsm.md R222). -/
def hostSeesWait (s : State) : State :=
  match s.hostPc with
  | .rdWaitLow => { s with hostPc := .rdWaitRel }
  | .wrWaitLow => { s with hostPc := .wrWaitRel }
  | .idle => s
  | .rdWaitRel => s
  | .wrWaitRel => s

/-- The external peripheral stops driving the data bus and is idle (45_master_fsm.md R263). -/
def perReadDone (s : State) : State :=
  { s.modEnvData (fun _ e => { e with drive := false }) with perPc := .idle }

/-- The external peripheral is idle after a write (45_master_fsm.md R266). -/
def perWriteDone (s : State) : State := { s with perPc := .idle }

/-- The environment's observations: the host sees WAIT asserted (44_peripheral_fsm.md R208); the external peripheral
sees the strobes released (45_master_fsm.md R246). Each belongs to its own role (log 40). -/
def observeEnv (s : State) : State :=
  match s.par.role with
  | .peripheral =>
    if (s.hostPc = .rdWaitLow ∨ s.hostPc = .wrWaitLow) ∧ asserted s .hostSees .wait = true then hostSeesWait s else s
  | .master =>
    match s.perPc with
    | .rdHold => if condRd s .perReads then s else perReadDone s
    | .wrHold => if condWr s .perReads then s else perWriteDone s
    | .idle => s
    | .rdStall => s
    | .wrStall => s

/-- Record a fault; a fault already recorded is not recorded again (10_state.md R37; log 38). -/
def addFault (fs : List FaultRec) (f : FaultRec) : List FaultRec := if f ∈ fs then fs else fs ++ [f]

/-- The pins that both sides drive after a step that ends in `t` (60_exceptions.md R305, 42_pin_binder.md R148). -/
def contendedPins (t : State) : List Nat := (List.range t.par.numGpio).filter fun p => bothDrive t p

/-- RD and WR are both driven low by block `b` (45_master_fsm.md R256). -/
def strobesOverlap (s : State) (b : Nat) : Bool :=
  !(s.blk b).out s.par.pins.rd && !(s.blk b).out s.par.pins.wr && (s.blk b).oe s.par.pins.rd
    && (s.blk b).oe s.par.pins.wr

/-- The blocks that drive both strobes low after a step that ends in `t` (45_master_fsm.md R256). -/
def overlappedBlocks (t : State) : List Nat := (List.range t.par.numBlocks).filter fun b => strobesOverlap t b

/-- The faults that the state `t` at the end of a step raises: BUS_CONTENTION for each contended pin, STROBE_OVERLAP for
each overlapped block (60_exceptions.md R305, R307, R308); the operation `i` names the step (log 7, log 8). -/
def endFaults (i : Instr) (t : State) : List FaultRec :=
  (contendedPins t).map (fun p => .busContention p i) ++ (overlappedBlocks t).map fun b => .strobeOverlap b i

/-- Record them, the step's writes kept (60_exceptions.md R305). -/
def recordEndFaults (i : Instr) (t : State) : State := { t with faults := (endFaults i t).foldl addFault t.faults }

/-- The end of the step of `i` from `s` whose own writes gave `t`: the enforcers react in the block whose flags it
wrote, the host latches, every other observer reacts, and contention and strobe overlap are recorded. -/
def settle (i : Instr) (s t : State) (wrote : Option Nat) : State :=
  recordEndFaults i (observeEnv (observeChans (hostLatches s (enforce t wrote))))

/-! ### Outcomes (60_exceptions.md R300) -/

/-- What an operation does, before the end of its step: its own writes, what it returns and the block whose flags it
wrote; or a hold, a refusal (R303, R306) or a fault that ends it with no further write (R305). -/
inductive Effect where
  | done (t : State) (r : Result) (wrote : Option Nat)
  | hold
  | refuse (r : Reason)
  | raise (f : FaultRec)
deriving DecidableEq, Repr

/-- The outcome of an operation as a next state. A hold changes nothing (log 4); a refusal sets `refused` and a fault
is recorded, and neither writes anything else of the spec's state (log 9). Every turn advances the draw counter. -/
def conclude (i : Instr) (s : State) : Effect → Host.Outcome State Fault Refusal
  | .done t r wrote => .next { settle i s t wrote with result := r, tick := s.tick + 1 }
  | .hold => .next { s with result := .held, tick := s.tick + 1 }
  | .refuse r => .next { s with refused := true, result := .refused r, tick := s.tick + 1 }
  | .raise f => .next { s with faults := addFault s.faults f, result := .faulted, tick := s.tick + 1 }

/-- The outcome of one step of a running sequence: a refusal or a fault in it also ends the sequence, which `drop`
does (log 15). -/
def concludeStep (i : Instr) (s : State) (drop : State → State) : Effect → Host.Outcome State Fault Refusal
  | .done t r wrote => conclude i s (.done t r wrote)
  | .hold => conclude i s .hold
  | .refuse r => conclude i (drop s) (.refuse r)
  | .raise f => conclude i (drop s) (.raise f)

/-- Go on from an effect that is done: change its state and its result. -/
def Effect.andThen (e : Effect) (f : State → Result → State × Result) : Effect :=
  match e with
  | .done t r wrote => .done (f t r).1 (f t r).2 wrote
  | .hold => .hold
  | .refuse r => .refuse r
  | .raise g => .raise g

/-- A step that writes nothing itself. The operations "performed only through" 44_peripheral_fsm.md R208 and
45_master_fsm.md R246 are such steps where their reaction is due: the end of the step performs it (log 33). -/
def reactionOnly (s : State) : Effect := .done s .none none

/-! ### Who performs an operation -/

/-- A processor operation: refused if ill formed, held once the processor is halted (60_exceptions.md R303, R310;
log 41). -/
def processorOp (i : Instr) (s : State) (e : Effect) : Host.Outcome State Fault Refusal :=
  if i.wf s.par = false then conclude i s (.refuse .illegalOperation)
  else if s.halted then conclude i s .hold
  else conclude i s e

/-- An operation of the task context: not enabled while a handler runs (60_exceptions.md R317, R321; log 16). -/
def taskOp (i : Instr) (s : State) (e : Effect) : Host.Outcome State Fault Refusal :=
  processorOp i s (if s.ctx = .task then e else .hold)

/-- A template step of channel `c` of block `b`: only a channel whose template owns the operation performs it
(30_encoding.md R92: any other pairing is WRONG_TEMPLATE; a channel that is unowned or does not exist has no template,
log 27), and only while it is enabled (44_peripheral_fsm.md R200). -/
def channelOp (i : Instr) (t : Template) (b c : Nat) (s : State) (e : Effect) : Host.Outcome State Fault Refusal :=
  if i.wf s.par = false ∨ (s.chan b c).owner = .none ∨ (s.chan b c).cfg.template ≠ t then
    conclude i s (.refuse .wrongTemplate)
  else if (s.chan b c).enabled = false then conclude i s .hold
  else conclude i s e

/-- A step of the environment agent of role `r` (30_encoding.md R92). -/
def environmentOp (i : Instr) (r : Role) (s : State) (e : Effect) : Host.Outcome State Fault Refusal :=
  if s.par.role = r then conclude i s e else conclude i s (.refuse .wrongRole)

/-! ### Interrupts (60_exceptions.md R317, R318) -/

/-- Taking flag `i` of block `b`: the context becomes its handler's. The block saves no state (R317). -/
def interruptEntry (s : State) (b i : Nat) : State := { s with ctx := .isr b i }

/-- The return of a handler: back to the task context (R318). -/
def interruptReturn (s : State) : State := { s with ctx := .task }

/-- The fatal halt (60_exceptions.md R310): the indicator, the diagnostic, the halt. -/
def fatal (s : State) (m : String) : State := { s with errorLed := true, diag := some m, halted := true }

/-- The reading of `host_latch` (44_peripheral_fsm.md R227, 60_exceptions.md R311): before the host's first read cycle
it is the fault UNWRITTEN_READ. -/
def readHostLatch (s : State) : Effect :=
  if s.hostLatchWritten then .done s (.byte s.hostLatch) none else .raise (.unwrittenRead .hostLatch)

/-- The reading of an instruction-memory word as a value (70_reset_and_hazards.md R347): one that no load has written
is the fault UNWRITTEN_READ. No operation reads one. -/
def readImem (s : State) (b a : Nat) : Effect :=
  match readWord (s.blk b).imem a with
  | some w => .done s (.word (w.setWidth 32)) none
  | none => .raise (.unwrittenRead (.imem b a))

end Sys2Proof.Machine
end

