-- ==== Sys2Proof/Machine/Configurator.lean ====
section
/-! DEFINITION. The state-machine configurator: CONFIGURE, ENABLE, DISABLE (spec/41_configurator.md). -/

namespace Sys2Proof.Machine

/-- The pin directions of a binding (41_configurator.md R105): the in group is made input, then the out, set and
side-set groups output at level 1. -/
def initDirections (k : Block) (d : ChanCfg) : Block :=
  let oe := tabModifyRun false k.pinOe d.inPins.base d.inPins.count fun _ _ => false
  let oe := tabModifyRun false oe d.outPins.base d.outPins.count fun _ _ => true
  let oe := tabModifyRun false oe d.setPins.base d.setPins.count fun _ _ => true
  let oe := tabModifyRun false oe d.sidesetPins.base d.sidesetPins.count fun _ _ => true
  let out := tabModifyRun false k.pinOut d.outPins.base d.outPins.count fun _ _ => true
  let out := tabModifyRun false out d.setPins.base d.setPins.count fun _ _ => true
  let out := tabModifyRun false out d.sidesetPins.base d.sidesetPins.count fun _ _ => true
  { k with pinOe := oe, pinOut := out }

/-- Give the pins of a group to block `b`. -/
def attachGroup (s : State) (b : Nat) (g : PinGroup) : State :=
  s.modPins g.base g.count fun _ p => { p with func := .pio b }

/-- Pin attachment (41_configurator.md R106): the in, out, set and side-set groups; the jump pin is not touched. -/
def attachPins (s : State) (b : Nat) (d : ChanCfg) : State :=
  attachGroup (attachGroup (attachGroup (attachGroup s b d.inPins) b d.outPins) b d.setPins) b d.sidesetPins

/-- Program load (41_configurator.md R103): the words are tagged with the channel's allocation and written. -/
def loadProgram (k : Block) (c o n : Nat) (t : Template) : Block :=
  { k with
    tags := tabModifyRun .free k.tags o n fun _ _ => .used c
    imem := writeWords k.imem o n (Config.progWord t) }

/-- The channel CONFIGURE leaves (41_configurator.md R107, R109): configured, owned, empty, at its entry state,
disabled. -/
def configuredChannel (r : Role) (d : ChanCfg) : Channel where
  enabled := false
  owner := ownerOf r
  cfg := d
  pc := entryState d.template
  isr := 0
  isrCount := 0
  osr := 0
  osrCount := 32
  rx := []
  tx := []

/-- Disable channel `c` of block `b`: nothing else of it changes (41_configurator.md R102, R115). -/
def disableChannel (s : State) (b c : Nat) : State := s.modChan b c fun ch => { ch with enabled := false }

/-- The writes of a CONFIGURE whose program loads at `o` (41_configurator.md R101). -/
def configureAt (s : State) (b c o : Nat) (d : ChanCfg) : State :=
  attachPins
    (s.modBlk b fun k =>
      (initDirections (loadProgram k c o (s.par.len d.template) d.template) d).modChan c fun _ =>
        configuredChannel s.par.role { d with offset := o })
    b d

/-- CONFIGURE (41_configurator.md R101 to R109). -/
def effConfigure (b c : Nat) (d : DescWords) (s : State) : Effect :=
  match decodeDescriptor d with
  | none => .refuse .illegalOperation
  | some cfg =>
    if (s.chan b c).owner ≠ .none then .refuse .channelOwned
    else if groupsLegal s.par cfg = false then .refuse .pinGroupInvalid
    else if templatePinsOk s.par cfg = false then .refuse .templatePins
    else
      match chooseOffset s.par s.tick (freeOffsets s.par (s.blk b) (s.par.len cfg.template)) with
      | none => .done (disableChannel s b c) (.binding ⟨b, c, cfg⟩) none
      | some o => .done (configureAt s b c o cfg) (.binding ⟨b, c, { cfg with offset := o }⟩) none

/-- The channels of a mask, in rising order (30_encoding.md R82). -/
def maskChannels (par : Params) (m : Half) : List Nat := (List.range par.numCh).filter fun c => m.getLsbD c

/-- Enable the listed channels of block `b` (41_configurator.md R112). -/
def enableChannels (s : State) (b : Nat) (cs : List Nat) : State :=
  cs.foldl (fun t c => t.modChan b c fun ch => { ch with enabled := true }) s

/-- ENABLE (41_configurator.md R112): every channel of the mask in one step, or the fault ENABLE_INVALID for the first
that has no binding and no write at all (R114). The rule gives its loop no order and the fault ends the step: that the
one recorded is the lowest-numbered is the model's choice (log 43). The enforcers react when the mask names one
(log 25). -/
def effEnable (b : Nat) (m : Half) (s : State) : Effect :=
  match (maskChannels s.par m).find? fun c => decide ((s.chan b c).owner = .none) with
  | some c => .raise (.enableInvalid b c)
  | none =>
    .done (enableChannels s b (maskChannels s.par m)) .none
      (if (maskChannels s.par m).any fun c => decide ((s.chan b c).cfg.template = .waite) then some b else none)

/-- DISABLE (41_configurator.md R115). -/
def effDisable (b : Nat) (m : Half) (s : State) : Effect :=
  .done ((maskChannels s.par m).foldl (fun t c => disableChannel t b c) s) .none none

/-- CONFIGURE. -/
def execConfigure (b c : Nibble) (d : DescWords) (s : State) : Host.Outcome State Fault Refusal :=
  processorOp (.configure b c d) s (effConfigure b.toNat c.toNat d s)

/-- ENABLE. -/
def execEnable (b : Nibble) (m : Half) (s : State) : Host.Outcome State Fault Refusal :=
  processorOp (.enable b m) s (effEnable b.toNat m s)

/-- DISABLE. -/
def execDisable (b : Nibble) (m : Half) (s : State) : Host.Outcome State Fault Refusal :=
  processorOp (.disable b m) s (effDisable b.toNat m s)

end Sys2Proof.Machine
end

