-- ==== Sys2Proof/Machine/Peripheral.lean ====
section
/-! DEFINITION. The peripheral templates: read watcher, write watcher, wait-stall enforcer (spec/44_peripheral_fsm.md
R202 to R205, R212, R213). -/

namespace Sys2Proof.Machine

/-- Write a channel's template state: `pc <- p`. -/
def setPc (s : State) (b c : Nat) (p : TState) : State := s.modChan b c fun ch => { ch with pc := p }

/-- `drive(X, v)`: `blk[b].pin_out[PIN(X)] <- v` (45_master_fsm.md header, 44_peripheral_fsm.md R212). -/
def driveLine (s : State) (b : Nat) (X : Line) (v : Bool) : State := s.modBlk b fun k => k.setOut (s.par.pin X) v

/-- A step that its guard enables, held otherwise (44_peripheral_fsm.md R200). -/
def guarded (g : Bool) (e : Effect) : Effect := if g then e else .hold

/-- RDW_FIRE (44_peripheral_fsm.md R202). -/
def effRdwFire (b c : Nat) (s : State) : Effect :=
  guarded (decide ((s.chan b c).pc = .armed) && condRd s .guard)
    (.done (setPc (s.modBlk b fun k => k.raiseFlags (flagBit s.par.irqRd ||| flagBit s.par.irqHold)) b c .fired) .none
      (some b))

/-- RDW_REARM (44_peripheral_fsm.md R203): performed only through R208, in the PERIPHERAL role, at the end of this step
as of any other; the guard is the read that R208 makes there (log 33). -/
def effRdwRearm (b c : Nat) (s : State) : Effect :=
  guarded (decide (s.par.role = .peripheral) && decide ((s.chan b c).pc = .fired) && !condRd s (.channel b c))
    (reactionOnly s)

/-- WRW_FIRE (44_peripheral_fsm.md R204). -/
def effWrwFire (b c : Nat) (s : State) : Effect :=
  guarded (decide ((s.chan b c).pc = .armed) && condWr s .guard)
    (.done (setPc (s.modBlk b fun k => k.raiseFlags (flagBit s.par.irqWr ||| flagBit s.par.irqHold)) b c .fired) .none
      (some b))

/-- WRW_REARM (44_peripheral_fsm.md R205): performed only through R208, as RDW_REARM (log 33). -/
def effWrwRearm (b c : Nat) (s : State) : Effect :=
  guarded (decide (s.par.role = .peripheral) && decide ((s.chan b c).pc = .fired) && !condWr s (.channel b c))
    (reactionOnly s)

/-- WAITE_ASSERT (44_peripheral_fsm.md R212) as a word of its own: held wherever R211 has been applied (log 33). -/
def effWaiteAssert (b c : Nat) (s : State) : Effect :=
  guarded (decide ((s.chan b c).pc = .idle) && (s.blk b).flag s.par.irqHold)
    (.done (setPc (driveLine s b .wait false) b c .holding) .none none)

/-- WAITE_RELEASE (44_peripheral_fsm.md R213) as a word of its own: held wherever R211 has been applied (log 33). The
host latch of R223 is at the end of the step. -/
def effWaiteRelease (b c : Nat) (s : State) : Effect :=
  guarded (decide ((s.chan b c).pc = .holding) && !(s.blk b).flag s.par.irqHold)
    (.done (setPc (driveLine s b .wait true) b c .idle) .none none)

/-- RDW_FIRE. -/
def execRdwFire (b c : Nibble) (s : State) : Host.Outcome State Fault Refusal :=
  channelOp (.rdwFire b c) .rdw b.toNat c.toNat s (effRdwFire b.toNat c.toNat s)

/-- RDW_REARM. -/
def execRdwRearm (b c : Nibble) (s : State) : Host.Outcome State Fault Refusal :=
  channelOp (.rdwRearm b c) .rdw b.toNat c.toNat s (effRdwRearm b.toNat c.toNat s)

/-- WRW_FIRE. -/
def execWrwFire (b c : Nibble) (s : State) : Host.Outcome State Fault Refusal :=
  channelOp (.wrwFire b c) .wrw b.toNat c.toNat s (effWrwFire b.toNat c.toNat s)

/-- WRW_REARM. -/
def execWrwRearm (b c : Nibble) (s : State) : Host.Outcome State Fault Refusal :=
  channelOp (.wrwRearm b c) .wrw b.toNat c.toNat s (effWrwRearm b.toNat c.toNat s)

/-- WAITE_ASSERT. -/
def execWaiteAssert (b c : Nibble) (s : State) : Host.Outcome State Fault Refusal :=
  channelOp (.waiteAssert b c) .waite b.toNat c.toNat s (effWaiteAssert b.toNat c.toNat s)

/-- WAITE_RELEASE. -/
def execWaiteRelease (b c : Nibble) (s : State) : Host.Outcome State Fault Refusal :=
  channelOp (.waiteRelease b c) .waite b.toNat c.toNat s (effWaiteRelease b.toNat c.toNat s)

end Sys2Proof.Machine
end

