-- ==== Sys2Proof/Machine/Drivers.lean ====
section
/-! DEFINITION. The master templates: read-cycle driver and write-cycle driver (spec/45_master_fsm.md R242 to R256). -/

namespace Sys2Proof.Machine

/-- RCD_STROBE (45_master_fsm.md R242). The overlap of R256 is checked at the end of this step as of every step. -/
def effRcdStrobe (b c : Nat) (s : State) : Effect :=
  guarded (decide ((s.chan b c).pc = .rIdle) && !(s.blk b).flag s.par.irqMrd)
    (.done
      (setPc (driveLine (driveLine s b .modsel false) b .rd false) b c
        (if s.par.masterHandshake = .full then .rWaitLow else .rWaitRel))
      .none none)

/-- RCD_SEEWAIT (45_master_fsm.md R243): performed only through R246, in the MASTER role, at the end of this step as of
any other; the guard is the read that R246 makes there (log 33). -/
def effRcdSeewait (b c : Nat) (s : State) : Effect :=
  guarded (decide (s.par.role = .master) && decide ((s.chan b c).pc = .rWaitLow) && asserted s (.channel b c) .wait)
    (reactionOnly s)

/-- RCD_SAMPLE (45_master_fsm.md R244): sample, push if due, release the strobes, raise the done flag, in one step. -/
def effRcdSample (b c : Nat) (s : State) : Effect :=
  guarded
    (decide ((s.chan b c).pc = .rWaitRel) && lineLevel s .guard .wait && sampleFits s.par (s.chan b c) 8)
    (let v := (dataByte s .sample).setWidth 32
     let t := driveLine (driveLine (s.modChan b c fun ch => sampleIn ch v 8) b .rd true) b .modsel true
     .done (setPc (t.modBlk b fun k => k.raiseFlags (flagBit s.par.irqMrd)) b c .rIdle) .none (some b))

/-- Drive the byte `v` on the data pins and make them outputs (45_master_fsm.md R252). -/
def Block.driveBus (k : Block) (d0 : Nat) (v : Byte) : Block :=
  { k with
    pinOut := tabModifyRun false k.pinOut d0 8 fun i _ => v.getLsbD i
    pinOe := tabModifyRun false k.pinOe d0 8 fun _ _ => true }

/-- Make the data pins inputs again (45_master_fsm.md R254). -/
def Block.releaseBus (k : Block) (d0 : Nat) : Block :=
  { k with pinOe := tabModifyRun false k.pinOe d0 8 fun _ _ => false }

/-- The channel after a pull of `w` (the rest of TX being `ws`) and an OUT of 8 bits (45_master_fsm.md R252). -/
def takeByte (ch : Channel) (w : Word) (ws : List Word) : Channel := shiftOut (pullOsr ch w ws) 8

/-- The byte that OUT gives after that pull (45_master_fsm.md R252, 43_fifo_irq.md R173). -/
def byteTaken (ch : Channel) (w : Word) (ws : List Word) : Byte := (outBits (pullOsr ch w ws) 8).setWidth 8

/-- WCD_START (45_master_fsm.md R252): pull, OUT, drive the bus and assert the strobes, in one step. -/
def effWcdStart (b c : Nat) (s : State) : Effect :=
  match (s.chan b c).tx with
  | [] => .hold
  | w :: ws =>
    guarded (decide ((s.chan b c).pc = .wIdle))
      (let v := byteTaken (s.chan b c) w ws
       let t := s.modChan b c fun ch => takeByte ch w ws
       let t := t.modBlk b fun k => k.driveBus s.par.pins.d0 v
       .done
        (setPc (driveLine (driveLine t b .modsel false) b .wr false) b c
          (if s.par.masterHandshake = .full then .wWaitLow else .wWaitRel))
        .none none)

/-- WCD_SEEWAIT (45_master_fsm.md R253): performed only through R246, as RCD_SEEWAIT (log 33). -/
def effWcdSeewait (b c : Nat) (s : State) : Effect :=
  guarded (decide (s.par.role = .master) && decide ((s.chan b c).pc = .wWaitLow) && asserted s (.channel b c) .wait)
    (reactionOnly s)

/-- WCD_FINISH (45_master_fsm.md R254). -/
def effWcdFinish (b c : Nat) (s : State) : Effect :=
  guarded (decide ((s.chan b c).pc = .wWaitRel) && lineLevel s .guard .wait)
    (.done
      (setPc
        ((driveLine (driveLine s b .wr true) b .modsel true).modBlk b fun k => k.releaseBus s.par.pins.d0)
        b c .wIdle)
      .none none)

/-- RCD_STROBE. -/
def execRcdStrobe (b c : Nibble) (s : State) : Host.Outcome State Fault Refusal :=
  channelOp (.rcdStrobe b c) .rcd b.toNat c.toNat s (effRcdStrobe b.toNat c.toNat s)

/-- RCD_SEEWAIT. -/
def execRcdSeewait (b c : Nibble) (s : State) : Host.Outcome State Fault Refusal :=
  channelOp (.rcdSeewait b c) .rcd b.toNat c.toNat s (effRcdSeewait b.toNat c.toNat s)

/-- RCD_SAMPLE. -/
def execRcdSample (b c : Nibble) (s : State) : Host.Outcome State Fault Refusal :=
  channelOp (.rcdSample b c) .rcd b.toNat c.toNat s (effRcdSample b.toNat c.toNat s)

/-- WCD_START. -/
def execWcdStart (b c : Nibble) (s : State) : Host.Outcome State Fault Refusal :=
  channelOp (.wcdStart b c) .wcd b.toNat c.toNat s (effWcdStart b.toNat c.toNat s)

/-- WCD_SEEWAIT. -/
def execWcdSeewait (b c : Nibble) (s : State) : Host.Outcome State Fault Refusal :=
  channelOp (.wcdSeewait b c) .wcd b.toNat c.toNat s (effWcdSeewait b.toNat c.toNat s)

/-- WCD_FINISH. -/
def execWcdFinish (b c : Nibble) (s : State) : Host.Outcome State Fault Refusal :=
  channelOp (.wcdFinish b c) .wcd b.toNat c.toNat s (effWcdFinish b.toNat c.toNat s)

end Sys2Proof.Machine
end

