-- ==== Sys2Proof/Machine/FifoIrq.lean ====
section
/-! DEFINITION. The processor's FIFO and interrupt-flag operations (spec/43_fifo_irq.md R160 to R169, R175, R176). -/

namespace Sys2Proof.Machine

/-- An operation that can block: refused in a handler (43_fifo_irq.md header, 60_exceptions.md R309). -/
def blockingOp (s : State) (e : Effect) : Effect := if s.ctx = .task then e else .refuse .blockingInIsr

/-- TX_PUSH (43_fifo_irq.md R160): held while TX is full. On an unowned channel the push reads the unwritten
`cfg.join` (70_reset_and_hazards.md R347, R362). -/
def effTxPush (b c : Nat) (w : Word) (s : State) : Effect :=
  blockingOp s
    (if (s.chan b c).owner = .none then .raise (.unwrittenRead (.cfg b c))
     else if (s.chan b c).tx.length < capTx s.par (s.chan b c) then
       .done (s.modChan b c fun ch => { ch with tx := ch.tx ++ [w] }) .none none
     else .hold)

/-- RX_POP (43_fifo_irq.md R163): held while RX is empty. -/
def effRxPop (b c : Nat) (s : State) : Effect :=
  blockingOp s
    (match (s.chan b c).rx with
     | [] => .hold
     | w :: ws => .done (s.modChan b c fun ch => { ch with rx := ws }) (.word w) none)

/-- IRQ_CLEAR (43_fifo_irq.md R166). -/
def effIrqClear (b : Nat) (m : Half) (s : State) : Effect :=
  .done (s.modBlk b fun k => k.clearFlags m) .none (some b)

/-- IRQ_READ (43_fifo_irq.md R167): nothing is written. -/
def effIrqRead (b : Nat) (s : State) : Effect := .done s (.word (irqStatus s.par (s.blk b))) none

/-- IRQ_FORCE (43_fifo_irq.md R168). -/
def effIrqForce (b : Nat) (m : Half) (s : State) : Effect :=
  .done (s.modBlk b fun k => k.raiseFlags m) .none (some b)

/-- IRQ_INTE (43_fifo_irq.md R169): the mask replaces the routing bits. -/
def effIrqInte (b : Nat) (m : Half) (s : State) : Effect :=
  .done (s.modBlk b fun k => { k with inte := m }) .none none

/-- IRQ_GLOBAL (43_fifo_irq.md R175). -/
def effIrqGlobal (v : Bool) (s : State) : Effect := .done { s with irqEnabled := v } .none none

/-- CH_WAIT_IDLE (43_fifo_irq.md R176): held until the channel is at its entry state with TX empty. On an unowned
channel it reads the unwritten `pc` (70_reset_and_hazards.md R347; log 17). -/
def effChWaitIdle (b c : Nat) (s : State) : Effect :=
  blockingOp s
    (if (s.chan b c).owner = .none then .raise (.unwrittenRead (.pc b c))
     else if (s.chan b c).pc = entryState (s.chan b c).cfg.template ∧ (s.chan b c).tx = [] then .done s .none none
     else .hold)

/-- TX_PUSH. -/
def execTxPush (b c : Nibble) (w : Word) (s : State) : Host.Outcome State Fault Refusal :=
  processorOp (.txPush b c w) s (effTxPush b.toNat c.toNat w s)

/-- RX_POP. -/
def execRxPop (b c : Nibble) (s : State) : Host.Outcome State Fault Refusal :=
  processorOp (.rxPop b c) s (effRxPop b.toNat c.toNat s)

/-- IRQ_CLEAR. -/
def execIrqClear (b : Nibble) (m : Half) (s : State) : Host.Outcome State Fault Refusal :=
  processorOp (.irqClear b m) s (effIrqClear b.toNat m s)

/-- IRQ_READ. -/
def execIrqRead (b : Nibble) (s : State) : Host.Outcome State Fault Refusal :=
  processorOp (.irqRead b) s (effIrqRead b.toNat s)

/-- IRQ_FORCE. -/
def execIrqForce (b : Nibble) (m : Half) (s : State) : Host.Outcome State Fault Refusal :=
  processorOp (.irqForce b m) s (effIrqForce b.toNat m s)

/-- IRQ_INTE. -/
def execIrqInte (b : Nibble) (m : Half) (s : State) : Host.Outcome State Fault Refusal :=
  processorOp (.irqInte b m) s (effIrqInte b.toNat m s)

/-- IRQ_GLOBAL. -/
def execIrqGlobal (v : Bool) (s : State) : Host.Outcome State Fault Refusal :=
  processorOp (.irqGlobal v) s (effIrqGlobal v s)

/-- CH_WAIT_IDLE. -/
def execChWaitIdle (b c : Nibble) (s : State) : Host.Outcome State Fault Refusal :=
  processorOp (.chWaitIdle b c) s (effChWaitIdle b.toNat c.toNat s)

end Sys2Proof.Machine
end

