-- ==== Sys2Proof/Machine/PinBinder.lean ====
section
/-! DEFINITION. The processor's GPIO and data-bus operations (spec/42_pin_binder.md R140 to R147). -/

namespace Sys2Proof.Machine

/-- An operation on pin `p`: refused PIN_RANGE when there is no such pin (42_pin_binder.md section 3). -/
def onPin (s : State) (p : Nat) (e : Effect) : Effect := if p < s.par.numGpio then e else .refuse .pinRange

/-- An operation on the data bus: all eight pins exist (42_pin_binder.md section 3; log 34). -/
def onBus (s : State) (e : Effect) : Effect := onPin s (s.par.pins.d0 + 7) e

/-- GPIO_SET_FUNC (42_pin_binder.md R140); a reserved code is refused (30_encoding.md R87). -/
def effGpioSetFunc (p : Nat) (f : Byte) (s : State) : Effect :=
  match pinFuncOf s.par f with
  | none => .refuse .illegalOperation
  | some g => onPin s p (.done (s.modPin p fun q => { q with func := g }) .none none)

/-- GPIO_SET_DIR (42_pin_binder.md R141). -/
def effGpioSetDir (p : Nat) (oe : Bool) (s : State) : Effect :=
  onPin s p (.done (s.modPin p fun q => { q with sioOe := oe }) .none none)

/-- GPIO_PUT (42_pin_binder.md R142). -/
def effGpioPut (p : Nat) (v : Bool) (s : State) : Effect :=
  onPin s p (.done (s.modPin p fun q => { q with sioOut := v }) .none none)

/-- GPIO_GET (42_pin_binder.md R143): the level; nothing is written. -/
def effGpioGet (p : Nat) (s : State) : Effect := onPin s p (.done s (.level (level s .sample p)) none)

/-- GPIO_SET_PULL (42_pin_binder.md R144); code 3 is refused (30_encoding.md R87). -/
def effGpioSetPull (p : Nat) (code : BitVec 2) (s : State) : Effect :=
  match pullOf code with
  | none => .refuse .illegalOperation
  | some u => onPin s p (.done (s.modPin p fun q => { q with pull := u }) .none none)

/-- All eight data pins' software direction (42_pin_binder.md R145). -/
def setBusDir (s : State) (oe : Bool) : State := s.modPins s.par.pins.d0 8 fun _ q => { q with sioOe := oe }

/-- All eight data pins' software output, bit i on Di (42_pin_binder.md R146). -/
def putBus (s : State) (v : Byte) : State := s.modPins s.par.pins.d0 8 fun i q => { q with sioOut := v.getLsbD i }

/-- BUS_SET_DIR (42_pin_binder.md R145). -/
def effBusSetDir (oe : Bool) (s : State) : Effect := onBus s (.done (setBusDir s oe) .none none)

/-- BUS_PUT (42_pin_binder.md R146). -/
def effBusPut (v : Byte) (s : State) : Effect := onBus s (.done (putBus s v) .none none)

/-- BUS_GET (42_pin_binder.md R147): the eight levels in one read. -/
def effBusGet (s : State) : Effect := onBus s (.done s (.byte (dataByte s .sample)) none)

/-- GPIO_SET_FUNC. -/
def execGpioSetFunc (p f : Byte) (s : State) : Host.Outcome State Fault Refusal :=
  processorOp (.gpioSetFunc p f) s (effGpioSetFunc p.toNat f s)

/-- GPIO_SET_DIR. -/
def execGpioSetDir (p : Byte) (oe : Bool) (s : State) : Host.Outcome State Fault Refusal :=
  processorOp (.gpioSetDir p oe) s (effGpioSetDir p.toNat oe s)

/-- GPIO_PUT. -/
def execGpioPut (p : Byte) (v : Bool) (s : State) : Host.Outcome State Fault Refusal :=
  processorOp (.gpioPut p v) s (effGpioPut p.toNat v s)

/-- GPIO_GET. -/
def execGpioGet (p : Byte) (s : State) : Host.Outcome State Fault Refusal :=
  processorOp (.gpioGet p) s (effGpioGet p.toNat s)

/-- GPIO_SET_PULL. -/
def execGpioSetPull (p : Byte) (pull : BitVec 2) (s : State) : Host.Outcome State Fault Refusal :=
  processorOp (.gpioSetPull p pull) s (effGpioSetPull p.toNat pull s)

/-- BUS_SET_DIR. -/
def execBusSetDir (oe : Bool) (s : State) : Host.Outcome State Fault Refusal :=
  processorOp (.busSetDir oe) s (effBusSetDir oe s)

/-- BUS_PUT. -/
def execBusPut (v : Byte) (s : State) : Host.Outcome State Fault Refusal := processorOp (.busPut v) s (effBusPut v s)

/-- BUS_GET. -/
def execBusGet (s : State) : Host.Outcome State Fault Refusal := processorOp .busGet s (effBusGet s)

end Sys2Proof.Machine
end

