-- ==== Sys2Proof/Machine/Engine.lean ====
section
/-! DEFINITION. The engine sequences (spec/46_engine_sequences.md): scheduler interface, handlers, deferred service, master
API, initialisation. An operation that names a sequence of several steps performs its first step and leaves the rest
in the state; `resume…` performs the next one, so that other agents step between (R272, R276; log 14). -/

namespace Sys2Proof.Machine

/-! ### Scheduler interface -/

/-- Append a work item: POST never blocks (46_engine_sequences.md R270). -/
def postItem (s : State) (k : Kind) (status : Word) : State := { s with queue := s.queue ++ [⟨k, status⟩] }

/-- POST (46_engine_sequences.md R270). Performed outside a handler its status word is a free value (log 13). -/
def effPost (k : Kind) (s : State) : Effect := .done (postItem s k (Config.postStatus s.tick)) .none none

/-- The flag of a kind (46_engine_sequences.md R271). -/
def kindFlag (par : Params) : Kind → Nat
  | .read => par.irqRd
  | .write => par.irqWr

/-- The handler of a kind's flag (46_engine_sequences.md R271). -/
def kindHandler : Kind → Handler
  | .read => .isrRd
  | .write => .isrWr

/-- `handlers[kind]` (10_state.md R35): the block of the engine whose handler is registered (log 32). -/
def registered (s : State) : Kind → Option Nat
  | .read => s.handlerRead
  | .write => s.handlerWrite

/-- `handlers[kind] <- handler`, the handler of block `b`'s engine. -/
def setRegistered (s : State) (b : Nat) : Kind → State
  | .read => { s with handlerRead := some b }
  | .write => { s with handlerWrite := some b }

/-- `vec[b][i] <- h` (46_engine_sequences.md R271). -/
def bindVector (s : State) (b i : Nat) (h : Handler) : State :=
  s.modBlk b fun k => { k with vec := tabSet none k.vec i (some h) }

/-- REGISTER (46_engine_sequences.md R271): the handler and the vector of its flag, in one step. -/
def effRegister (b : Nat) (k : Kind) (s : State) : Effect :=
  if (registered s k).isSome then .refuse .doubleRegister
  else .done (bindVector (setRegistered s b k) b (kindFlag s.par k) (kindHandler k)) .none none

/-! ### Interrupt handlers -/

/-- The handler of kind `k` for block `b`, entry and return included, as one step (46_engine_sequences.md R272 to
R274): the raw status is read, the originating flag cleared, the item posted. -/
def effHandler (b : Nat) (k : Kind) (s : State) : Effect :=
  let i := kindFlag s.par k
  if canTake s b i (kindHandler k) then
    let entered := interruptEntry s b i
    let status := irqStatus s.par (entered.blk b)
    let cleared := entered.modBlk b fun blk => blk.clearFlags (flagBit i)
    .done (interruptReturn (postItem cleared k status)) .none (some b)
  else .hold

/-- DISPATCH (46_engine_sequences.md R276): the single consumer takes the oldest item and its handler starts; it is
held while a handler runs or the queue is empty. -/
def effDispatch (s : State) : Effect :=
  match s.consumer, s.queue with
  | some _, _ => .hold
  | none, [] => .hold
  | none, item :: rest =>
    match registered s item.kind with
    | none => .refuse .noHandler
    | some b =>
      .done
        { s with
          queue := rest
          consumer := some ⟨b, match item.kind with | .read => .readDirOut | .write => .writeDirIn, 0⟩ }
        .running none

/-! ### Deferred service (46_engine_sequences.md R277 to R280) -/

/-- The byte BYTE_SOURCE gives (46_engine_sequences.md R278; log 28). -/
def sourceByte (s : State) : Byte :=
  match s.par.byteSource with
  | .counter => s.counter
  | .external => Config.sourceByte s.tick

/-- BYTE_SOURCE's own state after it gave a byte (46_engine_sequences.md R278). -/
def sourceNext (s : State) : State :=
  match s.par.byteSource with
  | .counter => { s with counter := s.counter - 1 }
  | .external => s

/-- BYTE_SINK (46_engine_sequences.md R280; log 28). -/
def sinkByte (s : State) (v : Byte) : State :=
  match s.par.byteSink with
  | .log => { s with sink := s.sink ++ [v] }
  | .external => s

/-- The operation a step of a deferred handler performs, as a fault record names it (log 7). -/
def serviceInstr (s : State) (v : Service) : Instr :=
  match v.next with
  | .readDirOut => .busSetDir true
  | .readPut => .busPut (sourceByte s)
  | .readRelease => .irqClear (BitVec.ofNat 4 v.block) (flagBit s.par.irqHold)
  | .readDirIn => .busSetDir false
  | .writeDirIn => .busSetDir false
  | .writeSample => .busGet
  | .writeRelease => .irqClear (BitVec.ofNat 4 v.block) (flagBit s.par.irqHold)
  | .writeSink => .serviceWrite (BitVec.ofNat 4 v.block)

/-- Leave the consumer at step `n` of its handler. -/
def consumerAt (v : Service) (n : ServiceStep) (t : State) (_ : Result) : State × Result :=
  ({ t with consumer := some { v with next := n } }, .running)

/-- The handler has ended. -/
def consumerDone (t : State) (_ : Result) : State × Result := ({ t with consumer := none }, .none)

/-- The consumer has sampled: it keeps the byte (46_engine_sequences.md R279 step 2). -/
def consumerSampled (v : Service) (t : State) (r : Result) : State × Result :=
  match r with
  | .byte x => ({ t with consumer := some { v with next := .writeRelease, byte := x } }, .running)
  | _ => ({ t with consumer := some { v with next := .writeRelease } }, .running)

/-- One step of a deferred handler (46_engine_sequences.md R277, R279). -/
def effService (v : Service) (s : State) : Effect :=
  match v.next with
  | .readDirOut => (effBusSetDir true s).andThen (consumerAt v .readPut)
  | .readPut => (effBusPut (sourceByte s) (sourceNext s)).andThen (consumerAt v .readRelease)
  | .readRelease => (effIrqClear v.block (flagBit s.par.irqHold) s).andThen (consumerAt v .readDirIn)
  | .readDirIn => (effBusSetDir false s).andThen consumerDone
  | .writeDirIn => (effBusSetDir false s).andThen (consumerAt v .writeSample)
  | .writeSample => (effBusGet s).andThen (consumerSampled v)
  | .writeRelease => (effIrqClear v.block (flagBit s.par.irqHold) s).andThen (consumerAt v .writeSink)
  | .writeSink => .done { sinkByte s v.byte with consumer := none } .none none

/-- A handler starts at `v` if none is running (46_engine_sequences.md R276). -/
def startService (v : Service) (s : State) : Effect := if s.consumer.isSome then .hold else effService v s

/-- The handler SERVICE_READ of block `b` before its first step. -/
def readService (b : Nat) : Service := ⟨b, .readDirOut, 0⟩

/-- The handler SERVICE_WRITE of block `b` before its first step. -/
def writeService (b : Nat) : Service := ⟨b, .writeDirIn, 0⟩

/-- No deferred handler runs any more. -/
def dropConsumer (s : State) : State := { s with consumer := none }

/-! ### Master API (46_engine_sequences.md R281 to R283) -/

/-- A master call: refused in a handler and while another call runs (46_engine_sequences.md R281 to R283). -/
def masterCall (s : State) (e : Effect) : Effect :=
  if s.ctx ≠ .task then .refuse .masterInIsr else if s.master.isSome then .refuse .concurrentMasterCall else e

/-- The call has gone on to `n`. -/
def masterAt (n : MasterCall) (t : State) (_ : Result) : State × Result := ({ t with master := some n }, .running)

/-- The pop of `read()` has given its word (46_engine_sequences.md R281 step 2). -/
def masterPopped (b : Nat) (t : State) (r : Result) : State × Result :=
  match r with
  | .word w => ({ t with master := some (.readReturn b w) }, .running)
  | _ => ({ t with master := none }, r)

/-- The call has ended and returns nothing. -/
def masterDone (t : State) (_ : Result) : State × Result := ({ t with master := none }, .none)

/-- The push of `write()`: done, or the call waits at it (46_engine_sequences.md R282 step 1). DESIGN CHOICE (log 14):
the turn that starts a `write()` whose push is held on a full TX is a step, though nothing is pushed and its result is
`held`: it sets the call's state, and its end performs the reactions and records a contention or an overlap that
stands then, under MASTER_WRITE. R282 makes `write()` a sequence whose first step is the push and R13 makes a held push
no step (20_memory.md R64); neither says whether the start of such a call is one. Every later turn of the call that the
push holds is no step: it changes nothing else and records nothing. -/
def effMasterPush (b : Nat) (v : Byte) (s : State) : Effect :=
  match effTxPush b Config.cWcd (v.setWidth 32) s with
  | .hold => .done { s with master := some (.writePush b v) } .held none
  | e => e.andThen (masterAt (.writeWait b))

/-- The return of `read()`: the extraction of the RCD's configuration (46_engine_sequences.md R281 step 3,
43_fifo_irq.md R164). -/
def effMasterReturn (b : Nat) (w : Word) (s : State) : Effect :=
  if (s.chan b Config.cRcd).owner = .none then .raise (.unwrittenRead (.cfg b Config.cRcd))
  else .done { s with master := none } (.word (extractSample (s.chan b Config.cRcd).cfg.inShift w)) none

/-- The first step of `read()` (46_engine_sequences.md R281 step 1). -/
def effMasterRead (b : Nat) (s : State) : Effect :=
  masterCall s ((effIrqClear b (flagBit s.par.irqMrd) s).andThen (masterAt (.readPop b)))

/-- The first step of `write(v)` (46_engine_sequences.md R282 step 1). -/
def effMasterWrite (b : Nat) (v : Byte) (s : State) : Effect := masterCall s (effMasterPush b v s)

/-- A later step of a master call (46_engine_sequences.md R281, R282). -/
def effMasterStep (m : MasterCall) (s : State) : Effect :=
  match m with
  | .readPop b => (effRxPop b Config.cRcd s).andThen (masterPopped b)
  | .readReturn b w => effMasterReturn b w s
  | .writePush b v => (effTxPush b Config.cWcd (v.setWidth 32) s).andThen (masterAt (.writeWait b))
  | .writeWait b => (effChWaitIdle b Config.cWcd s).andThen masterDone

/-- The operation a step of a master call performs, as a fault record names it (log 7). -/
def masterInstr (m : MasterCall) : Instr :=
  match m with
  | .readPop b => .rxPop (BitVec.ofNat 4 b) 0
  | .readReturn b _ => .masterRead (BitVec.ofNat 4 b)
  | .writePush b v => .txPush (BitVec.ofNat 4 b) 1 (v.setWidth 32)
  | .writeWait b => .chWaitIdle (BitVec.ofNat 4 b) 1

/-- No master call runs any more. -/
def dropMaster (s : State) : State := { s with master := none }

/-! ### Engine initialisation (46_engine_sequences.md R284 to R287) -/

/-- The processor operations of the initialisations. -/
inductive BootOp where
  | setFuncSio (p : Nat)
  | setDirIn (p : Nat)
  | setPullUp (p : Nat)
  | configure (b c : Nat) (d : DescWords)
  | register (b : Nat) (k : Kind)
  | inte (b : Nat) (m : Half)
  | force (b : Nat) (m : Half)
  | enable (b : Nat) (m : Half)
  | globalOn
deriving DecidableEq, Repr

/-- What an operation of an initialisation writes. -/
def BootOp.act (o : BootOp) (s : State) : Effect :=
  match o with
  | .setFuncSio p => effGpioSetFunc p 1 s
  | .setDirIn p => effGpioSetDir p false s
  | .setPullUp p => effGpioSetPull p 1 s
  | .configure b c d => effConfigure b c d s
  | .register b k => effRegister b k s
  | .inte b m => effIrqInte b m s
  | .force b m => effIrqForce b m s
  | .enable b m => effEnable b m s
  | .globalOn => effIrqGlobal true s

/-- The operation as a fault record names it (log 7). -/
def BootOp.instr (o : BootOp) : Instr :=
  match o with
  | .setFuncSio p => .gpioSetFunc (BitVec.ofNat 8 p) 1
  | .setDirIn p => .gpioSetDir (BitVec.ofNat 8 p) false
  | .setPullUp p => .gpioSetPull (BitVec.ofNat 8 p) 1
  | .configure b c d => .configure (BitVec.ofNat 4 b) (BitVec.ofNat 4 c) d
  | .register b k => .register (BitVec.ofNat 4 b) k
  | .inte b m => .irqInte (BitVec.ofNat 4 b) m
  | .force b m => .irqForce (BitVec.ofNat 4 b) m
  | .enable b m => .enable (BitVec.ofNat 4 b) m
  | .globalOn => .irqGlobal true

/-- What an operation of an initialisation does: what its word would, so that one which names a block, a channel or a
flag that does not exist is refused (log 10). -/
def BootOp.effect (o : BootOp) (s : State) : Effect :=
  if o.instr.wf s.par then o.act s else .refuse .illegalOperation

/-- Step 3 of PERIPH_INIT for one data pin (46_engine_sequences.md R284). -/
def bringUpPin (p : Nat) : List BootOp := [.setFuncSio p, .setDirIn p, .setPullUp p]

/-- Steps 3 to 11 of PERIPH_INIT (46_engine_sequences.md R284). -/
def periphProgram (par : Params) : List BootOp :=
  ((List.range 8).map fun i => bringUpPin (par.pins.d0 + i)).flatten ++
    [.configure 0 0 par.rdw, .configure 0 1 par.wrw, .configure 0 2 par.waite, .register 0 .read, .register 0 .write,
      .inte 0 (flagBit par.irqRd ||| flagBit par.irqWr), .enable 0 7, .globalOn]

/-- Steps 3 to 7 of MASTER_INIT (46_engine_sequences.md R285). -/
def masterProgram (par : Params) : List BootOp :=
  ((List.range 8).map fun i => BootOp.setPullUp (par.pins.d0 + i)) ++
    [.configure 0 Config.cWcd par.wcd, .configure 0 Config.cRcd par.rcd, .force 0 (flagBit par.irqMrd), .enable 0 3]

/-- The operations of a module's initialisation. -/
def bootProgram (par : Params) : Module → List BootOp
  | .peripheral => periphProgram par
  | .master => masterProgram par

/-- `init[m]` (10_state.md R33). -/
def initOf (s : State) : Module → InitState
  | .peripheral => s.initPeripheral
  | .master => s.initMaster

/-- `init[m] <- DONE`. -/
def setInit (s : State) : Module → State
  | .peripheral => { s with initPeripheral := .done }
  | .master => { s with initMaster := .done }

/-- The module whose initialisation is the first task-context operation (70_reset_and_hazards.md R350). -/
def roleModule : Role → Module
  | .peripheral => .peripheral
  | .master => .master

/-- The diagnostic that identifies a module (46_engine_sequences.md R284, R285 step 1). -/
def moduleName : Module → String
  | .peripheral => "peripheral engine"
  | .master => "master engine"

/-- Steps 1 and 2 of an initialisation (46_engine_sequences.md R284 to R286): a second call records DOUBLE_INIT and
halts (60_exceptions.md R302, R310); a call while the other module's runs is held (log 16). DESIGN CHOICE (log 7): the
step of the second call, which R305 and R310 have write the diagnostic, the halt and the record alone, is a step as
any other at its end: the end-of-step reactions are performed, and a contention or an overlap that stands then is
recorded under it, after its DOUBLE_INIT. -/
def effInit (m : Module) (s : State) : Effect :=
  if initOf s m = .done then
    .done { fatal s (moduleName m) with faults := addFault s.faults (.doubleInit m) } .faulted none
  else if s.boot.isSome then .hold
  else .done { setInit s m with boot := some ⟨m, 0⟩ } .running none

/-- The nonzero status of a failed initialisation (46_engine_sequences.md R287; log 29). -/
def failureStatus (tick : Nat) : Word := if Config.failStatus tick = 0 then 1 else Config.failStatus tick

/-- After an operation of an initialisation: a CONFIGURE that returned a negative offset ends it with a nonzero status,
the last operation ends it with 0, and otherwise it goes on (46_engine_sequences.md R284, R285, R287). -/
def bootNext (par : Params) (k : Boot) (t : State) (r : Result) : State × Result :=
  let goOn : State × Result :=
    if k.next + 1 < (bootProgram par k.module).length then
      ({ t with boot := some ⟨k.module, k.next + 1⟩ }, .running)
    else ({ t with boot := none }, .status 0)
  match r with
  | .binding bnd => if bnd.cfg.offset < 0 then ({ t with boot := none }, .status (failureStatus t.tick)) else goOn
  | _ => goOn

/-- No initialisation runs any more. -/
def dropBoot (s : State) : State := { s with boot := none }

/-! ### The next step of a running activity -/

/-- The consumer's next step; held when no handler runs. -/
def resumeConsumer (s : State) : Host.Outcome State Fault Refusal :=
  match s.consumer with
  | none => conclude .dispatch s .hold
  | some v =>
    if s.halted = false ∧ s.ctx = .task then concludeStep (serviceInstr s v) s dropConsumer (effService v s)
    else conclude (serviceInstr s v) s .hold

/-- The master call's next step; held when no call runs. -/
def resumeMaster (s : State) : Host.Outcome State Fault Refusal :=
  match s.master with
  | none => conclude (.masterRead 0) s .hold
  | some m =>
    if s.halted = false ∧ s.ctx = .task then concludeStep (masterInstr m) s dropMaster (effMasterStep m s)
    else conclude (masterInstr m) s .hold

/-- The initialisation's next step; held when none runs. -/
def resumeBoot (s : State) : Host.Outcome State Fault Refusal :=
  match s.boot with
  | none => conclude .periphInit s .hold
  | some k =>
    match (bootProgram s.par k.module)[k.next]? with
    | none => conclude .periphInit s (.done (dropBoot s) (.status 0) none)
    | some o =>
      if s.halted = false ∧ s.ctx = .task then
        concludeStep o.instr s dropBoot ((o.effect s).andThen (bootNext s.par k))
      else conclude o.instr s .hold

/-- The next step of an activity of the task context. -/
def resume (a : Activity) (s : State) : Host.Outcome State Fault Refusal :=
  match a with
  | .boot => resumeBoot s
  | .consumer => resumeConsumer s
  | .master => resumeMaster s

/-! ### The operations -/

/-- POST. -/
def execPost (k : Kind) (s : State) : Host.Outcome State Fault Refusal := processorOp (.post k) s (effPost k s)

/-- REGISTER. -/
def execRegister (b : Nibble) (k : Kind) (s : State) : Host.Outcome State Fault Refusal :=
  taskOp (.register b k) s (effRegister b.toNat k s)

/-- ISR_RD (46_engine_sequences.md R273). -/
def execIsrRd (b : Nibble) (s : State) : Host.Outcome State Fault Refusal :=
  processorOp (.isrRd b) s (effHandler b.toNat .read s)

/-- ISR_WR (46_engine_sequences.md R274). -/
def execIsrWr (b : Nibble) (s : State) : Host.Outcome State Fault Refusal :=
  processorOp (.isrWr b) s (effHandler b.toNat .write s)

/-- SERVICE_READ (46_engine_sequences.md R277): its first step, the rest by `resumeConsumer`. -/
def execServiceRead (b : Nibble) (s : State) : Host.Outcome State Fault Refusal :=
  taskOp (.serviceRead b) s (startService (readService b.toNat) s)

/-- SERVICE_WRITE (46_engine_sequences.md R279): its first step, the rest by `resumeConsumer`. -/
def execServiceWrite (b : Nibble) (s : State) : Host.Outcome State Fault Refusal :=
  taskOp (.serviceWrite b) s (startService (writeService b.toNat) s)

/-- MASTER_READ (46_engine_sequences.md R281): its first step, the rest by `resumeMaster`. -/
def execMasterRead (b : Nibble) (s : State) : Host.Outcome State Fault Refusal :=
  processorOp (.masterRead b) s (effMasterRead b.toNat s)

/-- MASTER_WRITE (46_engine_sequences.md R282): its first step, the rest by `resumeMaster`. -/
def execMasterWrite (b : Nibble) (v : Byte) (s : State) : Host.Outcome State Fault Refusal :=
  processorOp (.masterWrite b v) s (effMasterWrite b.toNat v s)

/-- PERIPH_INIT (46_engine_sequences.md R284): steps 1 and 2, the rest by `resumeBoot`. -/
def execPeriphInit (s : State) : Host.Outcome State Fault Refusal := taskOp .periphInit s (effInit .peripheral s)

/-- MASTER_INIT (46_engine_sequences.md R285): steps 1 and 2, the rest by `resumeBoot`. -/
def execMasterInit (s : State) : Host.Outcome State Fault Refusal := taskOp .masterInit s (effInit .master s)

/-- DISPATCH (46_engine_sequences.md R276). -/
def execDispatch (s : State) : Host.Outcome State Fault Refusal := taskOp .dispatch s (effDispatch s)

end Sys2Proof.Machine
end

