-- ==== Sys2Proof/Machine/HostCpu.lean ====
section
/-! DEFINITION. The host, the environment agent of the PERIPHERAL role (spec/44_peripheral_fsm.md R220 to R226). -/

namespace Sys2Proof.Machine

/-- Present level `v` on line `X`: `env_val[X] <- v`. -/
def present (s : State) (X : Line) (v : Bool) : State := s.modEnv X fun e => { e with val := v }

/-- Drive the byte `v` on the data lines: `env_drive[Di] <- 1; env_val[Di] <- v[i]`. -/
def driveData (s : State) (v : Byte) : State := s.modEnvData fun i _ => ⟨true, v.getLsbD i⟩

/-- Stop driving the data lines: `env_drive[Di] <- 0`. -/
def releaseData (s : State) : State := s.modEnvData fun _ e => { e with drive := false }

/-- HOST_RD_BEGIN (44_peripheral_fsm.md R221): AD takes a drawn level. -/
def effHostRdBegin (s : State) : Effect :=
  guarded (decide (s.hostPc = .idle))
    (.done
      { present (present (present s .ad (Config.adLevel s.tick)) .modsel false) .rd false with
        hostLatched := false
        hostPc := if s.par.hostHandshake = .full then .rdWaitLow else .rdWaitRel }
      .none none)

/-- HOST_SEE_WAIT (44_peripheral_fsm.md R222): performed only through R208, at the end of this step as of any other;
the guard is the read that R208 makes there (log 33). -/
def effHostSeeWait (s : State) : Effect :=
  guarded ((decide (s.hostPc = .rdWaitLow) || decide (s.hostPc = .wrWaitLow)) && asserted s .hostSees .wait)
    (reactionOnly s)

/-- HOST_RD_END (44_peripheral_fsm.md R224): a byte not yet latched is taken now; the cycle's result is the latch. -/
def effHostRdEnd (s : State) : Effect :=
  guarded (decide (s.hostPc = .rdWaitRel) && lineLevel s .guard .wait)
    (let v := if s.hostLatched then s.hostLatch else dataByte s .sample
     .done
      { present (present s .rd true) .modsel true with
        hostLatch := v
        hostLatchWritten := true
        hostLatched := true
        hostPc := .idle }
      (.byte v) none)

/-- HOST_WR_BEGIN (44_peripheral_fsm.md R225). -/
def effHostWrBegin (v : Byte) (s : State) : Effect :=
  guarded (decide (s.hostPc = .idle))
    (.done
      { present (present (driveData (present s .ad (Config.adLevel s.tick)) v) .modsel false) .wr false with
        hostPc := if s.par.hostHandshake = .full then .wrWaitLow else .wrWaitRel }
      .none none)

/-- HOST_WR_END (44_peripheral_fsm.md R226). -/
def effHostWrEnd (s : State) : Effect :=
  guarded (decide (s.hostPc = .wrWaitRel) && lineLevel s .guard .wait)
    (.done { releaseData (present (present s .wr true) .modsel true) with hostPc := .idle } .none none)

/-- HOST_RD_BEGIN. -/
def execHostRdBegin (s : State) : Host.Outcome State Fault Refusal :=
  environmentOp .hostRdBegin .peripheral s (effHostRdBegin s)

/-- HOST_SEE_WAIT. -/
def execHostSeeWait (s : State) : Host.Outcome State Fault Refusal :=
  environmentOp .hostSeeWait .peripheral s (effHostSeeWait s)

/-- HOST_RD_END. -/
def execHostRdEnd (s : State) : Host.Outcome State Fault Refusal :=
  environmentOp .hostRdEnd .peripheral s (effHostRdEnd s)

/-- HOST_WR_BEGIN. -/
def execHostWrBegin (v : Byte) (s : State) : Host.Outcome State Fault Refusal :=
  environmentOp (.hostWrBegin v) .peripheral s (effHostWrBegin v s)

/-- HOST_WR_END. -/
def execHostWrEnd (s : State) : Host.Outcome State Fault Refusal :=
  environmentOp .hostWrEnd .peripheral s (effHostWrEnd s)

end Sys2Proof.Machine
end

