-- ==== Sys2Proof/Machine/ExternalPeripheral.lean ====
section
/-! DEFINITION. The external peripheral, the environment agent of the MASTER role (spec/45_master_fsm.md R260 to R266). -/

namespace Sys2Proof.Machine

/-- PER_RD_ACK (45_master_fsm.md R261). -/
def effPerRdAck (s : State) : Effect :=
  guarded (decide (s.perPc = .idle) && condRd s .guard)
    (.done { present s .wait false with perPc := .rdStall } .none none)

/-- PER_RD_READY (45_master_fsm.md R262). -/
def effPerRdReady (s : State) : Effect :=
  guarded (decide (s.perPc = .rdStall))
    (.done { present (driveData s s.echo) .wait true with perPc := .rdHold } .none none)

/-- PER_RD_DONE (45_master_fsm.md R263): performed only through R246, at the end of this step as of any other; the
guard is the read that R246 makes there (log 33). -/
def effPerRdDone (s : State) : Effect :=
  guarded (decide (s.perPc = .rdHold) && !condRd s .perReads) (reactionOnly s)

/-- PER_WR_ACK (45_master_fsm.md R264). -/
def effPerWrAck (s : State) : Effect :=
  guarded (decide (s.perPc = .idle) && condWr s .guard)
    (.done { present s .wait false with perPc := .wrStall } .none none)

/-- PER_WR_LATCH (45_master_fsm.md R265). -/
def effPerWrLatch (s : State) : Effect :=
  guarded (decide (s.perPc = .wrStall))
    (.done { present s .wait true with echo := dataByte s .sample, perPc := .wrHold } .none none)

/-- PER_WR_DONE (45_master_fsm.md R266): performed only through R246, as PER_RD_DONE (log 33). -/
def effPerWrDone (s : State) : Effect :=
  guarded (decide (s.perPc = .wrHold) && !condWr s .perReads) (reactionOnly s)

/-- PER_RD_ACK. -/
def execPerRdAck (s : State) : Host.Outcome State Fault Refusal := environmentOp .perRdAck .master s (effPerRdAck s)

/-- PER_RD_READY. -/
def execPerRdReady (s : State) : Host.Outcome State Fault Refusal :=
  environmentOp .perRdReady .master s (effPerRdReady s)

/-- PER_RD_DONE. -/
def execPerRdDone (s : State) : Host.Outcome State Fault Refusal := environmentOp .perRdDone .master s (effPerRdDone s)

/-- PER_WR_ACK. -/
def execPerWrAck (s : State) : Host.Outcome State Fault Refusal := environmentOp .perWrAck .master s (effPerWrAck s)

/-- PER_WR_LATCH. -/
def execPerWrLatch (s : State) : Host.Outcome State Fault Refusal :=
  environmentOp .perWrLatch .master s (effPerWrLatch s)

/-- PER_WR_DONE. -/
def execPerWrDone (s : State) : Host.Outcome State Fault Refusal := environmentOp .perWrDone .master s (effPerWrDone s)

end Sys2Proof.Machine
end

