-- ==== Sys2Proof/Machine/Dispatch.lean ====
section
/-! DEFINITION. The dispatch of every operation of spec/30_encoding.md R89 to its meaning. -/

namespace Sys2Proof.Machine

/-- The meaning of one operation. -/
def exec (i : Instr) (s : State) : Host.Outcome State Fault Refusal :=
  match i with
  | .configure b c d => Sys2Proof.Machine.execConfigure b c d s
  | .enable b m => Sys2Proof.Machine.execEnable b m s
  | .disable b m => Sys2Proof.Machine.execDisable b m s
  | .txPush b c w => Sys2Proof.Machine.execTxPush b c w s
  | .rxPop b c => Sys2Proof.Machine.execRxPop b c s
  | .irqClear b m => Sys2Proof.Machine.execIrqClear b m s
  | .irqRead b => Sys2Proof.Machine.execIrqRead b s
  | .irqForce b m => Sys2Proof.Machine.execIrqForce b m s
  | .irqInte b m => Sys2Proof.Machine.execIrqInte b m s
  | .irqGlobal v => Sys2Proof.Machine.execIrqGlobal v s
  | .gpioSetFunc p f => Sys2Proof.Machine.execGpioSetFunc p f s
  | .gpioSetDir p oe => Sys2Proof.Machine.execGpioSetDir p oe s
  | .gpioPut p v => Sys2Proof.Machine.execGpioPut p v s
  | .gpioGet p => Sys2Proof.Machine.execGpioGet p s
  | .gpioSetPull p pull => Sys2Proof.Machine.execGpioSetPull p pull s
  | .busSetDir oe => Sys2Proof.Machine.execBusSetDir oe s
  | .busPut v => Sys2Proof.Machine.execBusPut v s
  | .busGet => Sys2Proof.Machine.execBusGet s
  | .chWaitIdle b c => Sys2Proof.Machine.execChWaitIdle b c s
  | .rdwFire b c => Sys2Proof.Machine.execRdwFire b c s
  | .rdwRearm b c => Sys2Proof.Machine.execRdwRearm b c s
  | .wrwFire b c => Sys2Proof.Machine.execWrwFire b c s
  | .wrwRearm b c => Sys2Proof.Machine.execWrwRearm b c s
  | .waiteAssert b c => Sys2Proof.Machine.execWaiteAssert b c s
  | .waiteRelease b c => Sys2Proof.Machine.execWaiteRelease b c s
  | .rcdStrobe b c => Sys2Proof.Machine.execRcdStrobe b c s
  | .rcdSeewait b c => Sys2Proof.Machine.execRcdSeewait b c s
  | .rcdSample b c => Sys2Proof.Machine.execRcdSample b c s
  | .wcdStart b c => Sys2Proof.Machine.execWcdStart b c s
  | .wcdSeewait b c => Sys2Proof.Machine.execWcdSeewait b c s
  | .wcdFinish b c => Sys2Proof.Machine.execWcdFinish b c s
  | .hostRdBegin => Sys2Proof.Machine.execHostRdBegin s
  | .hostSeeWait => Sys2Proof.Machine.execHostSeeWait s
  | .hostRdEnd => Sys2Proof.Machine.execHostRdEnd s
  | .hostWrBegin v => Sys2Proof.Machine.execHostWrBegin v s
  | .hostWrEnd => Sys2Proof.Machine.execHostWrEnd s
  | .perRdAck => Sys2Proof.Machine.execPerRdAck s
  | .perRdReady => Sys2Proof.Machine.execPerRdReady s
  | .perRdDone => Sys2Proof.Machine.execPerRdDone s
  | .perWrAck => Sys2Proof.Machine.execPerWrAck s
  | .perWrLatch => Sys2Proof.Machine.execPerWrLatch s
  | .perWrDone => Sys2Proof.Machine.execPerWrDone s
  | .post k => Sys2Proof.Machine.execPost k s
  | .register b k => Sys2Proof.Machine.execRegister b k s
  | .isrRd b => Sys2Proof.Machine.execIsrRd b s
  | .isrWr b => Sys2Proof.Machine.execIsrWr b s
  | .serviceRead b => Sys2Proof.Machine.execServiceRead b s
  | .serviceWrite b => Sys2Proof.Machine.execServiceWrite b s
  | .masterRead b => Sys2Proof.Machine.execMasterRead b s
  | .masterWrite b v => Sys2Proof.Machine.execMasterWrite b v s
  | .periphInit => Sys2Proof.Machine.execPeriphInit s
  | .masterInit => Sys2Proof.Machine.execMasterInit s
  | .dispatch => Sys2Proof.Machine.execDispatch s

end Sys2Proof.Machine
end

