-- ==== Sys2Proof/Decode.lean ====
section
/-! DEFINITION. The decoder and the encoder of operation words (spec/30_encoding.md R80 to R83, R89 to R92). The decoder
is total: a word is one operation with its fields or is rejected by name; `step` turns a rejected word into the
refusal ILLEGAL_OPERATION of R90. -/

namespace Sys2Proof

open Sys2Proof.Machine

/-- Why words are not an operation. -/
inductive DecodeError where
  /-- No word, or too few argument words for CONFIGURE or TX_PUSH (R81). -/
  | truncated
  /-- A reserved opcode (R90). -/
  | reservedOpcode
  /-- A field the operation does not use is not 0 (R80, R90). -/
  | unusedField
deriving DecidableEq, Repr

/-- An operation word from its fields: opcode [31:24], block [23:20], channel [19:16], operand [15:0] (R80). -/
def opWord (op : Byte) (b c : Nibble) (x : Half) : Word := op ++ b ++ c ++ x

/-- The opcode field (R80). -/
def opField (w : Word) : Byte := w.extractLsb' 24 8

/-- The block field (R80). -/
def blockField (w : Word) : Nibble := w.extractLsb' 20 4

/-- The channel field (R80). -/
def chanField (w : Word) : Nibble := w.extractLsb' 16 4

/-- The operand (R80). -/
def operandField (w : Word) : Half := w.extractLsb' 0 16

/-- Operand bits [15:8]. -/
def highByte (x : Half) : Byte := x.extractLsb' 8 8

/-- Operand bits [7:0]. -/
def lowByte (x : Half) : Byte := x.extractLsb' 0 8

/-- The two bytes of an operand. -/
def halfOf (hi lo : Byte) : Half := hi ++ lo

/-- A one-bit field held in a byte whose other bits are unused. -/
def bitOf (x : Byte) : Option Bool := if x = 0 then some false else if x = 1 then some true else none

/-- The byte that holds a one-bit field. -/
def byteOfBit (v : Bool) : Byte := if v then 1 else 0

/-- The work-item kind of its operand bit (R82). -/
def kindOfBit (v : Bool) : Kind := if v then .write else .read

/-- The operand bit of a work-item kind (R82). -/
def bitOfKind : Kind → Bool
  | .read => false
  | .write => true

/-- Accept `i` when the unused fields are 0. -/
def accept (ok : Bool) (i : Instr) (rest : List Word) : Except DecodeError (Instr × List Word) :=
  if ok then .ok (i, rest) else .error .unusedField

/-- Accept `f v` when a one-bit field holds `v` and the unused fields are 0. -/
def acceptBit (ok : Bool) (x : Byte) (f : Bool → Instr) (rest : List Word) : Except DecodeError (Instr × List Word) :=
  match bitOf x with
  | some v => accept ok (f v) rest
  | none => .error .unusedField

/-- The operation of given fields, and the words after it (R82, R83, R89). -/
def decodeFields (par : Params) (op : Byte) (b c : Nibble) (x : Half) (rest : List Word) :
    Except DecodeError (Instr × List Word) :=
  match op.toNat with
  | 0x01 =>
    match rest with
    | d0 :: d1 :: d2 :: d3 :: d4 :: rest' => accept (x == 0) (.configure b c ⟨d0, d1, d2, d3, d4⟩) rest'
    | _ => if x == 0 then .error .truncated else .error .unusedField
  | 0x02 => accept (c == 0 && chanMaskOk par x) (.enable b x) rest
  | 0x03 => accept (c == 0 && chanMaskOk par x) (.disable b x) rest
  | 0x08 =>
    match rest with
    | w :: rest' => accept (x == 0) (.txPush b c w) rest'
    | [] => if x == 0 then .error .truncated else .error .unusedField
  | 0x09 => accept (x == 0) (.rxPop b c) rest
  | 0x0A => accept (c == 0 && flagMaskOk par x) (.irqClear b x) rest
  | 0x0B => accept (c == 0 && x == 0) (.irqRead b) rest
  | 0x0C => accept (c == 0 && flagMaskOk par x) (.irqForce b x) rest
  | 0x0D => accept (c == 0 && flagMaskOk par x) (.irqInte b x) rest
  | 0x0E => acceptBit (b == 0 && c == 0 && highByte x == 0) (lowByte x) .irqGlobal rest
  | 0x10 => accept (b == 0 && c == 0) (.gpioSetFunc (lowByte x) (highByte x)) rest
  | 0x11 => acceptBit (b == 0 && c == 0) (highByte x) (.gpioSetDir (lowByte x)) rest
  | 0x12 => acceptBit (b == 0 && c == 0) (highByte x) (.gpioPut (lowByte x)) rest
  | 0x13 => accept (b == 0 && c == 0 && highByte x == 0) (.gpioGet (lowByte x)) rest
  | 0x14 =>
    accept (b == 0 && c == 0 && (highByte x).extractLsb' 2 6 == 0)
      (.gpioSetPull (lowByte x) ((highByte x).extractLsb' 0 2)) rest
  | 0x15 => acceptBit (b == 0 && c == 0 && lowByte x == 0) (highByte x) .busSetDir rest
  | 0x16 => accept (b == 0 && c == 0 && highByte x == 0) (.busPut (lowByte x)) rest
  | 0x17 => accept (b == 0 && c == 0 && x == 0) .busGet rest
  | 0x18 => accept (x == 0) (.chWaitIdle b c) rest
  | 0x40 => accept (x == 0) (.rdwFire b c) rest
  | 0x41 => accept (x == 0) (.rdwRearm b c) rest
  | 0x42 => accept (x == 0) (.wrwFire b c) rest
  | 0x43 => accept (x == 0) (.wrwRearm b c) rest
  | 0x44 => accept (x == 0) (.waiteAssert b c) rest
  | 0x45 => accept (x == 0) (.waiteRelease b c) rest
  | 0x48 => accept (x == 0) (.rcdStrobe b c) rest
  | 0x49 => accept (x == 0) (.rcdSeewait b c) rest
  | 0x4A => accept (x == 0) (.rcdSample b c) rest
  | 0x50 => accept (x == 0) (.wcdStart b c) rest
  | 0x51 => accept (x == 0) (.wcdSeewait b c) rest
  | 0x52 => accept (x == 0) (.wcdFinish b c) rest
  | 0x80 => accept (b == 0 && c == 0 && x == 0) .hostRdBegin rest
  | 0x81 => accept (b == 0 && c == 0 && x == 0) .hostSeeWait rest
  | 0x82 => accept (b == 0 && c == 0 && x == 0) .hostRdEnd rest
  | 0x83 => accept (b == 0 && c == 0 && highByte x == 0) (.hostWrBegin (lowByte x)) rest
  | 0x84 => accept (b == 0 && c == 0 && x == 0) .hostWrEnd rest
  | 0x88 => accept (b == 0 && c == 0 && x == 0) .perRdAck rest
  | 0x89 => accept (b == 0 && c == 0 && x == 0) .perRdReady rest
  | 0x8A => accept (b == 0 && c == 0 && x == 0) .perRdDone rest
  | 0x8B => accept (b == 0 && c == 0 && x == 0) .perWrAck rest
  | 0x8C => accept (b == 0 && c == 0 && x == 0) .perWrLatch rest
  | 0x8D => accept (b == 0 && c == 0 && x == 0) .perWrDone rest
  | 0xA0 => acceptBit (b == 0 && c == 0 && highByte x == 0) (lowByte x) (fun v => .post (kindOfBit v)) rest
  | 0xA1 => acceptBit (c == 0 && highByte x == 0) (lowByte x) (fun v => .register b (kindOfBit v)) rest
  | 0xA3 => accept (c == 0 && x == 0) (.isrRd b) rest
  | 0xA4 => accept (c == 0 && x == 0) (.isrWr b) rest
  | 0xA5 => accept (c == 0 && x == 0) (.serviceRead b) rest
  | 0xA6 => accept (c == 0 && x == 0) (.serviceWrite b) rest
  | 0xA7 => accept (c == 0 && x == 0) (.masterRead b) rest
  | 0xA8 => accept (c == 0 && highByte x == 0) (.masterWrite b (lowByte x)) rest
  | 0xA9 => accept (b == 0 && c == 0 && x == 0) .periphInit rest
  | 0xAA => accept (b == 0 && c == 0 && x == 0) .masterInit rest
  | 0xAB => accept (b == 0 && c == 0 && x == 0) .dispatch rest
  | _ => .error .reservedOpcode

/-- Read one operation from a list of words: it and the words after it, or the reason there is none (R81, R92). -/
def decode (par : Params) : List Word → Except DecodeError (Instr × List Word)
  | [] => .error .truncated
  | w :: rest => decodeFields par (opField w) (blockField w) (chanField w) (operandField w) rest

/-- The words of an operation (R80, R82, R83, R89). -/
def encode : Instr → List Word
  | .configure b c d => [opWord 0x01 b c 0, d.d0, d.d1, d.d2, d.d3, d.d4]
  | .enable b m => [opWord 0x02 b 0 m]
  | .disable b m => [opWord 0x03 b 0 m]
  | .txPush b c w => [opWord 0x08 b c 0, w]
  | .rxPop b c => [opWord 0x09 b c 0]
  | .irqClear b m => [opWord 0x0A b 0 m]
  | .irqRead b => [opWord 0x0B b 0 0]
  | .irqForce b m => [opWord 0x0C b 0 m]
  | .irqInte b m => [opWord 0x0D b 0 m]
  | .irqGlobal v => [opWord 0x0E 0 0 (halfOf 0 (byteOfBit v))]
  | .gpioSetFunc p f => [opWord 0x10 0 0 (halfOf f p)]
  | .gpioSetDir p oe => [opWord 0x11 0 0 (halfOf (byteOfBit oe) p)]
  | .gpioPut p v => [opWord 0x12 0 0 (halfOf (byteOfBit v) p)]
  | .gpioGet p => [opWord 0x13 0 0 (halfOf 0 p)]
  | .gpioSetPull p pull => [opWord 0x14 0 0 (halfOf (0#6 ++ pull) p)]
  | .busSetDir oe => [opWord 0x15 0 0 (halfOf (byteOfBit oe) 0)]
  | .busPut v => [opWord 0x16 0 0 (halfOf 0 v)]
  | .busGet => [opWord 0x17 0 0 0]
  | .chWaitIdle b c => [opWord 0x18 b c 0]
  | .rdwFire b c => [opWord 0x40 b c 0]
  | .rdwRearm b c => [opWord 0x41 b c 0]
  | .wrwFire b c => [opWord 0x42 b c 0]
  | .wrwRearm b c => [opWord 0x43 b c 0]
  | .waiteAssert b c => [opWord 0x44 b c 0]
  | .waiteRelease b c => [opWord 0x45 b c 0]
  | .rcdStrobe b c => [opWord 0x48 b c 0]
  | .rcdSeewait b c => [opWord 0x49 b c 0]
  | .rcdSample b c => [opWord 0x4A b c 0]
  | .wcdStart b c => [opWord 0x50 b c 0]
  | .wcdSeewait b c => [opWord 0x51 b c 0]
  | .wcdFinish b c => [opWord 0x52 b c 0]
  | .hostRdBegin => [opWord 0x80 0 0 0]
  | .hostSeeWait => [opWord 0x81 0 0 0]
  | .hostRdEnd => [opWord 0x82 0 0 0]
  | .hostWrBegin v => [opWord 0x83 0 0 (halfOf 0 v)]
  | .hostWrEnd => [opWord 0x84 0 0 0]
  | .perRdAck => [opWord 0x88 0 0 0]
  | .perRdReady => [opWord 0x89 0 0 0]
  | .perRdDone => [opWord 0x8A 0 0 0]
  | .perWrAck => [opWord 0x8B 0 0 0]
  | .perWrLatch => [opWord 0x8C 0 0 0]
  | .perWrDone => [opWord 0x8D 0 0 0]
  | .post k => [opWord 0xA0 0 0 (halfOf 0 (byteOfBit (bitOfKind k)))]
  | .register b k => [opWord 0xA1 b 0 (halfOf 0 (byteOfBit (bitOfKind k)))]
  | .isrRd b => [opWord 0xA3 b 0 0]
  | .isrWr b => [opWord 0xA4 b 0 0]
  | .serviceRead b => [opWord 0xA5 b 0 0]
  | .serviceWrite b => [opWord 0xA6 b 0 0]
  | .masterRead b => [opWord 0xA7 b 0 0]
  | .masterWrite b v => [opWord 0xA8 b 0 (halfOf 0 v)]
  | .periphInit => [opWord 0xA9 0 0 0]
  | .masterInit => [opWord 0xAA 0 0 0]
  | .dispatch => [opWord 0xAB 0 0 0]

/-- How many words an operation word's instruction has: CONFIGURE six, TX_PUSH two, every other one (R81). -/
def wordCount (w : Word) : Nat :=
  match (opField w).toNat with
  | 0x01 => 6
  | 0x08 => 2
  | _ => 1

/-- Word `k` of an instruction whose bits are `w`, bit 0 the least significant bit of the first word; bits from
`nbits` up are 0. -/
def tableWord (nbits w k : Nat) : Word := BitVec.ofNat 32 ((w % 2 ^ nbits) / 2 ^ (32 * k))

/-- The words of an instruction whose bits are `w`, bit 0 the least significant bit of the first word. -/
def tableWords (nbits w : Nat) : List Word :=
  (List.range (wordCount (tableWord nbits w 0))).map (tableWord nbits w)

/-- The instruction the decoder reads, with the default parameters, from an instruction whose bits are `w`. -/
def decodeTableWord (nbits w : Nat) : Option Instr :=
  match decode Params.default (tableWords nbits w) with
  | .ok (i, []) => some i
  | _ => none

end Sys2Proof
end

