-- ==== Sys2Proof/Machine/Fetch.lean ====
section
/-! DEFINITION. Reading the schedule: the words at its head, the operation they name, and what happens when the schedule
names none (log 2, log 3, log 12). -/

namespace Sys2Proof.Machine

/-- The words at the head of a schedule, up to its first resume turn. -/
def headWords : List Turn → List Word
  | .word w :: ts => w :: headWords ts
  | .resume _ :: _ => []
  | [] => []

/-- A schedule without its first `n` words, as far as words stand at its head. -/
def dropWords : Nat → List Turn → List Turn
  | 0, ts => ts
  | n + 1, .word _ :: ts => dropWords n ts
  | _ + 1, .resume a :: ts => .resume a :: ts
  | _ + 1, [] => []

/-- The operation at the head of the schedule (30_encoding.md R81, R92). -/
def fetch (s : State) : Except DecodeError Instr := (decode s.par (headWords s.schedule)).map Prod.fst

/-- The state in which an operation that starts with the word `w` runs: its words have left the schedule. -/
def afterFetch (s : State) (w : Word) : State := { s with schedule := dropWords (wordCount w) s.schedule }

/-- The refusal of words that are no operation (30_encoding.md R90, R92; 60_exceptions.md R303). -/
def refuseWords (s : State) : Host.Outcome State Fault Refusal :=
  .next { s with refused := true, result := .refused .illegalOperation, tick := s.tick + 1 }

/-- The initialisation of a module, as its word performs it. -/
def startInit (m : Module) (s : State) : Host.Outcome State Fault Refusal :=
  match m with
  | .peripheral => execPeriphInit s
  | .master => execMasterInit s

/-- A turn the schedule does not fill. The processor's first task-context step is the initialisation of the build's role
(70_reset_and_hazards.md R340, R350); after it has begun, the processor goes on with what it is running, and is idle
when it runs nothing (log 3). -/
def idleTurn (s : State) : Host.Outcome State Fault Refusal :=
  if s.boot.isSome then resumeBoot s
  else if initOf s (roleModule s.par.role) = .uninit then startInit (roleModule s.par.role) s
  else if s.consumer.isSome then resumeConsumer s
  else if s.master.isSome then resumeMaster s
  else .next s

/-- Put the words of an operation at the head of the schedule. -/
def placeWords (s : State) (ws : List Word) : State := { s with schedule := ws.map Turn.word ++ s.schedule }

end Sys2Proof.Machine
end

