-- ==== Sys2Proof/Machine/Step.lean ====
section
/-! DEFINITION. One step of the machine: the next turn of the schedule (spec/00_scope.md R12, R15; log 2). -/

namespace Sys2Proof.Machine

/-- One step: the operation at the head of the schedule, or the activity its head resumes. Words that are no operation
are refused ILLEGAL_OPERATION (30_encoding.md R90); a schedule that ends inside an operation stops the model. -/
def step (s : State) : Host.Outcome State Fault Refusal :=
  match s.schedule with
  | [] => idleTurn s
  | .resume a :: ts => resume a { s with schedule := ts }
  | .word w :: _ =>
    match fetch s with
    | .ok i => exec i (afterFetch s w)
    | .error .truncated => .fault .truncatedOperation
    | .error .reservedOpcode => refuseWords (afterFetch s w)
    | .error .unusedField => refuseWords (afterFetch s w)

/-- The state with the instruction whose bits are `w` at the head of the schedule, where `step` reads its next
operation: the operation word and as many argument words as its format has, bits from `nbits` up being 0. -/
def State.withFetchWord (s : State) (nbits w : Nat) : State := placeWords s (tableWords nbits w)

end Sys2Proof.Machine
end

