-- ==== Sys2Proof/Safety.lean ====
section
/-! DEFINITION. The terms claims use: what a good run is (spec/60_exceptions.md R303, R305), the pieces of the state, what a
step leaves alone but for the reactions of R208, R211, R223 and R246, and the invariants. -/

namespace Sys2Proof.Machine

/-- A state with no fault recorded and no operation refused (60_exceptions.md R303, R305: a claim about a run assumes
`refused = 0`, and a state with a fault recorded is no good final state). -/
def State.good (s : State) : Bool := decide (s.faults = []) && !s.refused

/-! ### What a turn that performs nothing leaves -/

/-- The state after a hold: only the model's own result and draw counter differ (60_exceptions.md R300; log 4). -/
def State.afterHold (s : State) : State := { s with result := .held, tick := s.tick + 1 }

/-- The state after a refusal: `refused` is set and nothing else of the spec's state differs (60_exceptions.md R303). -/
def State.afterRefusal (s : State) (r : Reason) : State :=
  { s with refused := true, result := .refused r, tick := s.tick + 1 }

/-- The state after a fault that ends its step with no other write (60_exceptions.md R305). -/
def State.afterFault (s : State) (f : FaultRec) : State :=
  { s with faults := addFault s.faults f, result := .faulted, tick := s.tick + 1 }

/-! ### Who is ready to perform an operation -/

/-- A processor operation is well formed and the processor is not halted. -/
def Ready (i : Instr) (s : State) : Prop := i.wf s.par = true ∧ s.halted = false

/-- The same in task context. -/
def TaskReady (i : Instr) (s : State) : Prop := Ready i s ∧ s.ctx = .task

/-- The channel an operation names exists, is owned, enabled and runs the template `t` (44_peripheral_fsm.md R200). -/
def ChannelReady (i : Instr) (t : Template) (b c : Nat) (s : State) : Prop :=
  i.wf s.par = true ∧ (s.chan b c).owner ≠ .none ∧ (s.chan b c).cfg.template = t ∧ (s.chan b c).enabled = true

/-! ### What the lines say at the end of a step

A level that floats, or that both sides drive, is drawn at each read (log 5, log 6), so these speak of steady lines. -/

/-- The level of a line is the same at every read: one side drives it, or its pin is pulled (10_state.md R32). -/
def Steady (s : State) (X : Line) : Prop :=
  (engineDrive s (s.par.pin X)).isSome ≠ (envDrive s (s.par.pin X)).isSome ∨
    ((engineDrive s (s.par.pin X)) = none ∧ (envDrive s (s.par.pin X)) = none ∧ (s.pin (s.par.pin X)).pull ≠ .none)

/-- `cond_rd` no longer holds (44_peripheral_fsm.md R201). -/
def RdEnded (t : State) : Prop := Steady t .modsel → Steady t .rd → condRd t .guard = false

/-- `cond_wr` no longer holds (44_peripheral_fsm.md R201). -/
def WrEnded (t : State) : Prop := Steady t .modsel → Steady t .wr → condWr t .guard = false

/-- WAIT is asserted. -/
def WaitSeen (t : State) : Prop := Steady t .wait → lineLevel t .guard .wait = false

/-- WAIT is released. -/
def WaitFree (t : State) : Prop := Steady t .wait → lineLevel t .guard .wait = true

/-! ### Reactions

A reaction in the MASTER role may see a line before PER_RD_DONE, in the same step, has stopped driving the data lines; that
is no difference where the lines have pins of their own (42_pin_binder.md R131), hence `valid`. -/

/-- What a reaction may make of the state `p` of channel `ch` of block `b` in a step that ends in `t` and wrote the
flags of block `wrote`: nothing, or one move of 44_peripheral_fsm.md R208 or R211 or of 45_master_fsm.md R246, with its
guard. -/
def PcReacts (t : State) (wrote : Option Nat) (b : Nat) (ch : Channel) (p p' : TState) : Prop :=
  p' = p ∨
    (ch.enabled = true ∧ ch.owner ≠ .none ∧
      ((t.par.role = .peripheral ∧ ch.cfg.template = .rdw ∧ RdEnded t ∧ p = .fired ∧ p' = .armed) ∨
        (t.par.role = .peripheral ∧ ch.cfg.template = .wrw ∧ WrEnded t ∧ p = .fired ∧ p' = .armed) ∨
        (t.par.role = .master ∧ ch.cfg.template = .rcd ∧ (t.par.valid = true → WaitSeen t) ∧
          p = .rWaitLow ∧ p' = .rWaitRel) ∨
        (t.par.role = .master ∧ ch.cfg.template = .wcd ∧ (t.par.valid = true → WaitSeen t) ∧
          p = .wWaitLow ∧ p' = .wWaitRel) ∨
        (wrote = some b ∧ ch.cfg.template = .waite ∧
          ((p = .idle ∧ p' = .holding ∧ (t.blk b).flag t.par.irqHold = true) ∨
            (p = .holding ∧ p' = .idle ∧ (t.blk b).flag t.par.irqHold = false)))))

/-- What a reaction may make of the host's state: it sees WAIT asserted (44_peripheral_fsm.md R208, R222). -/
def HostReacts (t : State) (p p' : HostPc) : Prop :=
  p' = p ∨
    (t.par.role = .peripheral ∧ WaitSeen t ∧
      ((p = .rdWaitLow ∧ p' = .rdWaitRel) ∨ (p = .wrWaitLow ∧ p' = .wrWaitRel)))

/-- What a reaction may make of the external peripheral's state: it sees the strobe it holds for released
(45_master_fsm.md R246, R263, R266). -/
def PerReacts (t : State) (p p' : PerPc) : Prop :=
  p' = p ∨
    (t.par.role = .master ∧ p' = .idle ∧
      ((p = .rdHold ∧ (t.par.valid = true → RdEnded t)) ∨ (p = .wrHold ∧ WrEnded t)))

/-- What a reaction may make of an environment line while the external peripheral is at `p`: at the end of a read cycle
PER_RD_DONE stops driving the data lines (45_master_fsm.md R246, R263). -/
def LineReacts (t : State) (p : PerPc) (X : Line) (e e' : EnvLine) : Prop :=
  e' = e ∨
    (t.par.role = .master ∧ p = .rdHold ∧ t.perPc = .idle ∧ (t.par.valid = true → RdEnded t) ∧
      lineIdx X < 8 ∧ e' = { e with drive := false })

/-- What the end of a step from `s` may make of the host latch, which the step's own writes left at the byte `v`, written
or not as `w` says, latched in this cycle or not as `l` says: in the step in which WAIT has gone from 0 to 1 while the
host waits for that in a read cycle, it takes the byte on the bus (44_peripheral_fsm.md R223). -/
def LatchReacts (s t : State) (v : Byte) (w l : Bool) : Prop :=
  (t.hostLatch = v ∧ t.hostLatchWritten = w ∧ t.hostLatched = l) ∨
    (t.par.role = .peripheral ∧ t.hostPc = .rdWaitRel ∧ WaitSeen s ∧ WaitFree t ∧
      t.hostLatchWritten = true ∧ t.hostLatched = true ∧
      ∀ i : Fin 8, Steady t (.data i) → t.hostLatch.getLsbD i = lineLevel t .guard (.data i))

/-- What a reaction may make of a channel: its template state may move, nothing else of it changes. -/
def ChannelReacts (t : State) (wrote : Option Nat) (b : Nat) (ch ch' : Channel) : Prop :=
  PcReacts t wrote b ch ch.pc ch'.pc ∧ ch' = { ch with pc := ch'.pc }

/-- What a reaction may make of a block's output on pin `p`: an enabled enforcer drives WAIT to the level its hold
flag asks for (44_peripheral_fsm.md R211 to R213). -/
def OutReacts (t : State) (wrote : Option Nat) (b p : Nat) (v v' : Bool) : Prop :=
  v' = v ∨
    (wrote = some b ∧ p = t.par.pins.wait ∧ v' = !(t.blk b).flag t.par.irqHold ∧
      ∃ c, (t.chan b c).enabled = true ∧ (t.chan b c).owner ≠ .none ∧ (t.chan b c).cfg.template = .waite)

/-- Enforcer `c` of block `b` has followed its hold flag in a step from `s` to `t`: it holds exactly if the flag is set,
and where it moved it drives WAIT to the level the flag asks for, which the line then has if the pin is the block's and
nothing else drives it (44_peripheral_fsm.md R211 to R214). -/
def EnforcerFollows (s t : State) (b c : Nat) : Prop :=
  ((t.chan b c).pc = if (t.blk b).flag t.par.irqHold then .holding else .idle) ∧
    ((t.chan b c).pc ≠ (s.chan b c).pc →
      (t.blk b).out t.par.pins.wait = !(t.blk b).flag t.par.irqHold ∧
        ((t.pin t.par.pins.wait).func = .pio b → (t.blk b).oe t.par.pins.wait = true →
          envDrive t t.par.pins.wait = none → lineLevel t .guard .wait = !(t.blk b).flag t.par.irqHold))

/-! ### The pieces of the state and the frame of a step -/

/-- A piece of the spec's state. `imem` is one byte of a block's instruction memory; `inits` and `halt` are the fields
of 10_state.md R33; the rest are named as there. -/
inductive Part where
  | imem (b a : Nat)
  | tag (b a : Nat)
  | flags (b : Nat)
  | inte (b : Nat)
  | out (b p : Nat)
  | oe (b p : Nat)
  | vec (b i : Nat)
  | chan (b c : Nat)
  | pin (p : Nat)
  | line (X : Line)
  | hostPc
  | hostLatch
  | perPc
  | echo
  | inits
  | halt
  | ctx
  | irqEnabled
  | queue
  | handlers
  | counter
  | sink
  | consumer
  | master
  | boot
deriving DecidableEq, Repr

/-- Piece `q` reads the same in `s` and `t`. -/
def Part.same (s t : State) : Part → Prop
  | .imem b a => readByte (t.blk b).imem a = readByte (s.blk b).imem a
  | .tag b a => (t.blk b).tag a = (s.blk b).tag a
  | .flags b => (t.blk b).flags = (s.blk b).flags
  | .inte b => (t.blk b).inte = (s.blk b).inte
  | .out b p => (t.blk b).out p = (s.blk b).out p
  | .oe b p => (t.blk b).oe p = (s.blk b).oe p
  | .vec b i => (t.blk b).vector i = (s.blk b).vector i
  | .chan b c => t.chan b c = s.chan b c
  | .pin p => t.pin p = s.pin p
  | .line X => t.envLine X = s.envLine X
  | .hostPc => t.hostPc = s.hostPc
  | .hostLatch =>
    t.hostLatch = s.hostLatch ∧ t.hostLatchWritten = s.hostLatchWritten ∧ t.hostLatched = s.hostLatched
  | .perPc => t.perPc = s.perPc
  | .echo => t.echo = s.echo
  | .inits => t.initPeripheral = s.initPeripheral ∧ t.initMaster = s.initMaster
  | .halt => t.halted = s.halted ∧ t.errorLed = s.errorLed ∧ t.diag = s.diag
  | .ctx => t.ctx = s.ctx
  | .irqEnabled => t.irqEnabled = s.irqEnabled
  | .queue => t.queue = s.queue
  | .handlers => t.handlerRead = s.handlerRead ∧ t.handlerWrite = s.handlerWrite
  | .counter => t.counter = s.counter
  | .sink => t.sink = s.sink
  | .consumer => t.consumer = s.consumer
  | .master => t.master = s.master
  | .boot => t.boot = s.boot

/-- Piece `q` is in `t` what the own writes of a step from `s` left it at, in `u`, but for a reaction at the end of
the step. -/
def Part.keptFrom (wrote : Option Nat) (s u t : State) : Part → Prop
  | .out b p => OutReacts t wrote b p ((u.blk b).out p) ((t.blk b).out p)
  | .chan b c => ChannelReacts t wrote b (u.chan b c) (t.chan b c)
  | .line X => LineReacts t u.perPc X (u.envLine X) (t.envLine X)
  | .hostPc => HostReacts t u.hostPc t.hostPc
  | .hostLatch => LatchReacts s t u.hostLatch u.hostLatchWritten u.hostLatched
  | .perPc => PerReacts t u.perPc t.perPc
  | q => q.same u t

/-- Piece `q` is the same in `s` and `t` but for a reaction at the end of the step. -/
def Part.kept (wrote : Option Nat) (s t : State) (q : Part) : Prop := q.keptFrom wrote s s t

/-- A fault that the state `t` at the end of a step of `i` raises: a pin which both sides drive after it
(60_exceptions.md R305, 42_pin_binder.md R148; log 7), a block which drives both strobes low after it
(45_master_fsm.md R256; log 8). -/
def EndFault (i : Instr) (t : State) (f : FaultRec) : Prop :=
  (∃ p, p < t.par.numGpio ∧ bothDrive t p = true ∧ f = .busContention p i) ∨
    ∃ b, b < t.par.numBlocks ∧ strobesOverlap t b = true ∧ f = .strobeOverlap b i

/-- The records of a step of `i` that raises and refuses nothing of its own: `refused` stays, and `faults` gains
exactly the contentions and strobe overlaps after the step (60_exceptions.md R305; 10_state.md R37). -/
def RecordsKept (i : Instr) (s t : State) : Prop :=
  t.refused = s.refused ∧ ∀ f, f ∈ t.faults ↔ f ∈ s.faults ∨ EndFault i t f

/-- The frame of a step from `s` to `t` whose own writes are to the pieces in `own`, with the flags of block `wrote`
among them: every other piece is kept but for the reactions, the parameters and the schedule stay, the draw counter
advances. -/
def Frame (s t : State) (wrote : Option Nat) (own : Part → Prop) : Prop :=
  t.par = s.par ∧ t.schedule = s.schedule ∧ t.tick = s.tick + 1 ∧ ∀ q, ¬ own q → q.kept wrote s t

/-- Nothing of the step's own is written. -/
def nothing : Part → Prop := fun _ => False

/-! ### Who performs an operation, and whose flags it writes -/

/-- Who performs an operation (30_encoding.md R81, R92). -/
inductive Performer where
  | processor
  | channel (t : Template) (b c : Nat)
  | environment (r : Role)
deriving DecidableEq, Repr

/-- The performer of each operation (30_encoding.md R81, R92). -/
def performer : Instr → Performer
  | .configure _ _ _ => .processor
  | .enable _ _ => .processor
  | .disable _ _ => .processor
  | .txPush _ _ _ => .processor
  | .rxPop _ _ => .processor
  | .irqClear _ _ => .processor
  | .irqRead _ => .processor
  | .irqForce _ _ => .processor
  | .irqInte _ _ => .processor
  | .irqGlobal _ => .processor
  | .gpioSetFunc _ _ => .processor
  | .gpioSetDir _ _ => .processor
  | .gpioPut _ _ => .processor
  | .gpioGet _ => .processor
  | .gpioSetPull _ _ => .processor
  | .busSetDir _ => .processor
  | .busPut _ => .processor
  | .busGet => .processor
  | .chWaitIdle _ _ => .processor
  | .rdwFire b c => .channel .rdw b.toNat c.toNat
  | .rdwRearm b c => .channel .rdw b.toNat c.toNat
  | .wrwFire b c => .channel .wrw b.toNat c.toNat
  | .wrwRearm b c => .channel .wrw b.toNat c.toNat
  | .waiteAssert b c => .channel .waite b.toNat c.toNat
  | .waiteRelease b c => .channel .waite b.toNat c.toNat
  | .rcdStrobe b c => .channel .rcd b.toNat c.toNat
  | .rcdSeewait b c => .channel .rcd b.toNat c.toNat
  | .rcdSample b c => .channel .rcd b.toNat c.toNat
  | .wcdStart b c => .channel .wcd b.toNat c.toNat
  | .wcdSeewait b c => .channel .wcd b.toNat c.toNat
  | .wcdFinish b c => .channel .wcd b.toNat c.toNat
  | .hostRdBegin => .environment .peripheral
  | .hostSeeWait => .environment .peripheral
  | .hostRdEnd => .environment .peripheral
  | .hostWrBegin _ => .environment .peripheral
  | .hostWrEnd => .environment .peripheral
  | .perRdAck => .environment .master
  | .perRdReady => .environment .master
  | .perRdDone => .environment .master
  | .perWrAck => .environment .master
  | .perWrLatch => .environment .master
  | .perWrDone => .environment .master
  | .post _ => .processor
  | .register _ _ => .processor
  | .isrRd _ => .processor
  | .isrWr _ => .processor
  | .serviceRead _ => .processor
  | .serviceWrite _ => .processor
  | .masterRead _ => .processor
  | .masterWrite _ _ => .processor
  | .periphInit => .processor
  | .masterInit => .processor
  | .dispatch => .processor

/-- The block whose flags an operation writes when it completes (44_peripheral_fsm.md R211). -/
def flagBlock : Instr → Option Nat
  | .configure _ _ _ => none
  | .enable _ _ => none
  | .disable _ _ => none
  | .txPush _ _ _ => none
  | .rxPop _ _ => none
  | .irqClear b _ => some b.toNat
  | .irqRead _ => none
  | .irqForce b _ => some b.toNat
  | .irqInte _ _ => none
  | .irqGlobal _ => none
  | .gpioSetFunc _ _ => none
  | .gpioSetDir _ _ => none
  | .gpioPut _ _ => none
  | .gpioGet _ => none
  | .gpioSetPull _ _ => none
  | .busSetDir _ => none
  | .busPut _ => none
  | .busGet => none
  | .chWaitIdle _ _ => none
  | .rdwFire b _ => some b.toNat
  | .rdwRearm _ _ => none
  | .wrwFire b _ => some b.toNat
  | .wrwRearm _ _ => none
  | .waiteAssert _ _ => none
  | .waiteRelease _ _ => none
  | .rcdStrobe _ _ => none
  | .rcdSeewait _ _ => none
  | .rcdSample b _ => some b.toNat
  | .wcdStart _ _ => none
  | .wcdSeewait _ _ => none
  | .wcdFinish _ _ => none
  | .hostRdBegin => none
  | .hostSeeWait => none
  | .hostRdEnd => none
  | .hostWrBegin _ => none
  | .hostWrEnd => none
  | .perRdAck => none
  | .perRdReady => none
  | .perRdDone => none
  | .perWrAck => none
  | .perWrLatch => none
  | .perWrDone => none
  | .post _ => none
  | .register _ _ => none
  | .isrRd b => some b.toNat
  | .isrWr b => some b.toNat
  | .serviceRead _ => none
  | .serviceWrite _ => none
  | .masterRead b => some b.toNat
  | .masterWrite _ _ => none
  | .periphInit => none
  | .masterInit => none
  | .dispatch => none

/-- A result of a turn that performed its operation, or a step of it. -/
def Completed (r : Result) : Prop := r ≠ .held ∧ r ≠ .faulted ∧ ∀ x, r ≠ .refused x

/-- The raw status word of a block (43_fifo_irq.md R167): bit i is `flags[i]` for i < NUM_FLAGS and 0 above. -/
def IsStatus (par : Params) (k : Block) (w : Word) : Prop :=
  ∀ i, w.getLsbD i = (decide (i < par.numFlags) && k.flag i)

/-! ### Invariants -/

/-- Every block's instruction memory is in its canonical form (log 22). -/
def MemoryInv (s : State) : Prop := ∀ b, Memory.wf (s.blk b).imem = true

/-- The template states of a template (10_state.md R30). -/
def TState.of : TState → Template → Bool
  | .armed, .rdw => true
  | .armed, .wrw => true
  | .fired, .rdw => true
  | .fired, .wrw => true
  | .idle, .waite => true
  | .holding, .waite => true
  | .rIdle, .rcd => true
  | .rWaitLow, .rcd => true
  | .rWaitRel, .rcd => true
  | .wIdle, .wcd => true
  | .wWaitLow, .wcd => true
  | .wWaitRel, .wcd => true
  | _, _ => false

/-- A channel's legal values: an unowned one is disabled with empty FIFOs (10_state.md R24, 41_configurator.md R114);
an owned one is in a state of its template (R30), its shift counts are at most 32 and its shift widths 1 to 32 (R24,
R21), its FIFOs within their capacities (R25), its offset a place its program fits and its groups legal for its template
(42_pin_binder.md R135, R136). -/
def ChannelLegal (par : Params) (ch : Channel) : Prop :=
  ch.isrCount ≤ 32 ∧ ch.osrCount ≤ 32 ∧
    (ch.owner = .none → ch.enabled = false ∧ ch.rx = [] ∧ ch.tx = []) ∧
    (ch.owner ≠ .none →
      ch.owner = ownerOf par.role ∧ ch.pc.of ch.cfg.template = true ∧
        1 ≤ ch.cfg.inShift.bits ∧ ch.cfg.inShift.bits ≤ 32 ∧ 1 ≤ ch.cfg.outShift.bits ∧ ch.cfg.outShift.bits ≤ 32 ∧
        ch.rx.length ≤ capRx par ch ∧ ch.tx.length ≤ capTx par ch ∧
        0 ≤ ch.cfg.offset ∧ ch.cfg.offset + (par.len ch.cfg.template : Int) ≤ (par.imemWords : Int) ∧
        groupsLegal par ch.cfg = true ∧ templatePinsOk par ch.cfg = true)

/-- Every channel is legal. -/
def ChannelsInv (s : State) : Prop := ∀ b c, ChannelLegal s.par (s.chan b c)

/-- An enabled enforcer holds exactly while its hold flag is set (44_peripheral_fsm.md R216, first part). -/
def EnforcerInv (s : State) : Prop :=
  ∀ b c, (s.chan b c).enabled = true → (s.chan b c).owner ≠ .none → (s.chan b c).cfg.template = .waite →
    ((s.chan b c).pc = .holding ↔ (s.blk b).flag s.par.irqHold = true)

/-- The programs in instruction memory: every word of an owned channel's program is used by that channel's allocation
(20_memory.md R63, 41_configurator.md R103). -/
def ProgramsInv (s : State) : Prop :=
  ∀ b c, (s.chan b c).owner ≠ .none →
    ∀ k, k < s.par.len (s.chan b c).cfg.template →
      (s.blk b).tag ((s.chan b c).cfg.offset.toNat + k) = .used c

end Sys2Proof.Machine
end

