-- ==== Sys2Proof/Certificates/Slice0/Obligations.lean ====
section
/-! DEFINITION. The statements for the provers, from the numbered rules of spec/. Each docstring names the rules; a word such
as "log 5" names notes/assumptions/5.md. -/

section

open Sys2Proof Sys2Proof.Machine

/-- Decode after encode (30_encoding.md R80 to R83, R89): no operand bit is dropped. The masks are the only operands whose encoding does not admit every value (R82). -/
def Obligations.DecodeEncode : Prop :=
  ∀ (par : Params) (i : Instr) (rest : List Word), i.encodable par = true → decode par (encode i ++ rest) = .ok (i, rest)

/-- Encode after decode (30_encoding.md R80 to R83, R89, R92): two operations never share a word, and a word with a nonzero unused field is none. -/
def Obligations.EncodeDecode : Prop :=
  ∀ (par : Params) (ws rest : List Word) (i : Instr), decode par ws = .ok (i, rest) →
    encode i ++ rest = ws ∧ i.encodable par = true

/-- Sample decodings (30_encoding.md R80 to R83, R87, R89), each word written out from the tables. -/
def Obligations.SampleWords : Prop :=
  decode Params.default [0x01020000, 0x00602002, 0x00010000, 0x00000000, 0x0000010B, 0x000000FF]
      = .ok (.configure 0 2 ⟨0x00602002, 0x00010000, 0x00000000, 0x0000010B, 0x000000FF⟩, []) ∧
    decode Params.default [0x02000007] = .ok (.enable 0 7, []) ∧
    decode Params.default [0x08010000, 0x0000003C] = .ok (.txPush 0 1 0x3C, []) ∧
    decode Params.default [0x0A000010] = .ok (.irqClear 0 0x10, []) ∧
    decode Params.default [0x0E000001] = .ok (.irqGlobal true, []) ∧
    decode Params.default [0x10000103] = .ok (.gpioSetFunc 3 1, []) ∧
    decode Params.default [0x14000200] = .ok (.gpioSetPull 0 2, []) ∧
    decode Params.default [0x16000005] = .ok (.busPut 5, []) ∧
    decode Params.default [0x40130000] = .ok (.rdwFire 1 3, []) ∧
    decode Params.default [0x45020000] = .ok (.waiteRelease 0 2, []) ∧
    decode Params.default [0x4A000000] = .ok (.rcdSample 0 0, []) ∧
    decode Params.default [0x50010000] = .ok (.wcdStart 0 1, []) ∧
    decode Params.default [0x8300007E] = .ok (.hostWrBegin 0x7E, []) ∧
    decode Params.default [0x8C000000] = .ok (.perWrLatch, []) ∧
    decode Params.default [0xA1000001] = .ok (.register 0 .write, []) ∧
    decode Params.default [0xA800003C] = .ok (.masterWrite 0 0x3C, [])

/-- The step runs the decoded operation. The machine has no program counter: the schedule is the model's order of turns (log 2), so this rests on that choice; the words are those of 30_encoding.md R81 and R92. -/
def Obligations.StepRunsDecoded : Prop :=
  ∀ (s : State) (w : Word) (ts : List Turn) (i : Instr), s.schedule = .word w :: ts → fetch s = .ok i →
    ∃ rest, s.schedule = (encode i).map Turn.word ++ rest ∧ step s = exec i { s with schedule := rest }

/-- Words that are no operation (30_encoding.md R90, R92; 60_exceptions.md R303). That words are refused in a halted state too (log 41: R310 enables no processor step there), that they leave the schedule (log 2) and the stop at a cut operation (log 12) are the model's choices. -/
def Obligations.StepRefusesWords : Prop :=
  ∀ (s : State) (w : Word) (ts : List Turn), s.schedule = .word w :: ts →
    ((opField w).toNat = 0x00 ∨ (0x04 ≤ (opField w).toNat ∧ (opField w).toNat ≤ 0x07) ∨ (opField w).toNat = 0x0F ∨
        (0x19 ≤ (opField w).toNat ∧ (opField w).toNat ≤ 0x3F) ∨ (opField w).toNat = 0x46 ∨ (opField w).toNat = 0x47 ∨
        (0x4B ≤ (opField w).toNat ∧ (opField w).toNat ≤ 0x4F) ∨ (0x53 ≤ (opField w).toNat ∧ (opField w).toNat ≤ 0x7F) ∨
        (0x85 ≤ (opField w).toNat ∧ (opField w).toNat ≤ 0x87) ∨ (0x8E ≤ (opField w).toNat ∧ (opField w).toNat ≤ 0x9F) ∨
        (opField w).toNat = 0xA2 ∨ 0xAC ≤ (opField w).toNat →
      step s = .next (({ s with schedule := ts } : State).afterRefusal .illegalOperation)) ∧
    (fetch s = .error .unusedField →
      step s
        = .next (({ s with schedule := dropWords (wordCount w) s.schedule } : State).afterRefusal .illegalOperation)) ∧
    (fetch s = .error .truncated → step s = .fault .truncatedOperation)

/-- Refused operations (30_encoding.md R82, R87, R90, R92; 60_exceptions.md R303, R306; 44_peripheral_fsm.md R200). That a processor operation with a number that does not exist is so refused, and that a channel that is unowned or does not exist has no template, is the model's inference (log 10, log 27); that an ill-formed operation is refused while the processor is halted too is the model's choice (log 41). -/
def Obligations.WrongOperations : Prop :=
  ∀ (i : Instr) (s : State),
    (performer i = .processor → i.wf s.par = false → exec i s = .next (s.afterRefusal .illegalOperation)) ∧
    (∀ (tm : Template) (b c : Nat), performer i = .channel tm b c →
      (s.par.numBlocks ≤ b ∨ s.par.numCh ≤ c ∨ (s.chan b c).owner = .none ∨ (s.chan b c).cfg.template ≠ tm →
        exec i s = .next (s.afterRefusal .wrongTemplate)) ∧
      (b < s.par.numBlocks → c < s.par.numCh → (s.chan b c).owner ≠ .none → (s.chan b c).cfg.template = tm →
        (s.chan b c).enabled = false → exec i s = .next s.afterHold)) ∧
    ∀ r, performer i = .environment r → s.par.role ≠ r → exec i s = .next (s.afterRefusal .wrongRole)

/-- CONFIGURE with space (41_configurator.md R101 to R109; 20_memory.md R60). The words' contents are free values; an allocation is named by its channel (log 21, log 22). -/
def Obligations.ConfigureLoads : Prop :=
  ∀ (b c : Nibble) (d : DescWords) (s : State) (cfg : ChanCfg),
    Ready (.configure b c d) s → decodeDescriptor d = some cfg → (s.chan b.toNat c.toNat).owner = .none →
    groupsLegal s.par cfg = true → templatePinsOk s.par cfg = true → Memory.wf (s.blk b.toNat).imem = true →
    (∃ o, o + s.par.len cfg.template ≤ s.par.imemWords ∧
      ∀ k, k < s.par.len cfg.template → (s.blk b.toNat).tag (o + k) = .free) →
    ∃ (o : Nat) (t : State), exec (.configure b c d) s = .next t ∧
      t.result = .binding ⟨b.toNat, c.toNat, { cfg with offset := o }⟩ ∧
      o + s.par.len cfg.template ≤ s.par.imemWords ∧
      (∀ k, k < s.par.len cfg.template →
        (s.blk b.toNat).tag (o + k) = .free ∧ (t.blk b.toNat).tag (o + k) = .used c.toNat ∧
          readWord (t.blk b.toNat).imem (o + k) = some (Config.progWord cfg.template k)) ∧
      t.chan b.toNat c.toNat
        = { enabled := false, owner := ownerOf s.par.role, cfg := { cfg with offset := o }
            pc := entryState cfg.template, isr := 0, isrCount := 0, osr := 0, osrCount := 32, rx := [], tx := [] } ∧
      (∀ p, (t.blk b.toNat).oe p
        = if cfg.outgroup p then true else if cfg.inPins.has p then false else (s.blk b.toNat).oe p) ∧
      (∀ p, (t.blk b.toNat).out p = if cfg.outgroup p then true else (s.blk b.toNat).out p) ∧
      (∀ p, t.pin p
        = if cfg.inPins.has p || cfg.outgroup p then { s.pin p with func := .pio b.toNat } else s.pin p) ∧
      RecordsKept (.configure b c d) s t ∧
      Frame s t none fun q =>
        q = .chan b.toNat c.toNat ∨
          (∃ k, k < s.par.len cfg.template ∧
            (q = .tag b.toNat (o + k) ∨ q = .imem b.toNat (2 * (o + k)) ∨ q = .imem b.toNat (2 * (o + k) + 1))) ∨
          ∃ p, (cfg.inPins.has p || cfg.outgroup p) = true ∧ (q = .out b.toNat p ∨ q = .oe b.toNat p ∨ q = .pin p)

/-- CONFIGURE without space (41_configurator.md R101, R102, R104; 60_exceptions.md R301). -/
def Obligations.ConfigureExhausted : Prop :=
  ∀ (b c : Nibble) (d : DescWords) (s : State) (cfg : ChanCfg),
    Ready (.configure b c d) s → decodeDescriptor d = some cfg → (s.chan b.toNat c.toNat).owner = .none →
    groupsLegal s.par cfg = true → templatePinsOk s.par cfg = true →
    (∀ o, o + s.par.len cfg.template ≤ s.par.imemWords →
      ∃ k, k < s.par.len cfg.template ∧ (s.blk b.toNat).tag (o + k) ≠ .free) →
    ∃ t, exec (.configure b c d) s = .next t ∧ cfg.offset = -1 ∧ t.result = .binding ⟨b.toNat, c.toNat, cfg⟩ ∧
      t.chan b.toNat c.toNat = { s.chan b.toNat c.toNat with enabled := false } ∧
      RecordsKept (.configure b c d) s t ∧ Frame s t none fun q => q = .chan b.toNat c.toNat

/-- The refusals of CONFIGURE and their order (41_configurator.md R108; 30_encoding.md R90). That a descriptor which does not decode is refused while the processor is halted too is the model's choice (log 41: R310 enables no processor step there). -/
def Obligations.ConfigureRefused : Prop :=
  ∀ (b c : Nibble) (d : DescWords) (s : State),
    (decodeDescriptor d = none → exec (.configure b c d) s = .next (s.afterRefusal .illegalOperation)) ∧
    ∀ cfg, Ready (.configure b c d) s → decodeDescriptor d = some cfg →
      ((s.chan b.toNat c.toNat).owner ≠ .none →
        exec (.configure b c d) s = .next (s.afterRefusal .channelOwned)) ∧
      ((s.chan b.toNat c.toNat).owner = .none → groupsLegal s.par cfg = false →
        exec (.configure b c d) s = .next (s.afterRefusal .pinGroupInvalid)) ∧
      ((s.chan b.toNat c.toNat).owner = .none → groupsLegal s.par cfg = true → templatePinsOk s.par cfg = false →
        exec (.configure b c d) s = .next (s.afterRefusal .templatePins))

/-- ENABLE (41_configurator.md R112 to R114; 44_peripheral_fsm.md R211, R214). That the enforcers react only when the mask names one follows R112 (log 25). -/
def Obligations.EnableStarts : Prop :=
  ∀ (b : Nibble) (m : Half) (s : State) (wrote : Option Nat), Ready (.enable b m) s →
    (∀ c : Nat, m.getLsbD c = true → (s.chan b.toNat c).owner ≠ .none) →
    (wrote = if (maskChannels s.par m).any fun c => decide ((s.chan b.toNat c).cfg.template = .waite)
      then some b.toNat else none) →
    ∃ t, exec (.enable b m) s = .next t ∧ t.result = .none ∧
      (∀ c : Nat, m.getLsbD c = true →
        (t.chan b.toNat c).enabled = true ∧
          ChannelReacts t wrote b.toNat { s.chan b.toNat c with enabled := true } (t.chan b.toNat c)) ∧
      (∀ c : Nat, wrote = some b.toNat → (m.getLsbD c = true ∨ (s.chan b.toNat c).enabled = true) →
        (s.chan b.toNat c).owner ≠ .none → (s.chan b.toNat c).cfg.template = .waite →
        ((s.chan b.toNat c).pc = .idle ∨ (s.chan b.toNat c).pc = .holding) → EnforcerFollows s t b.toNat c) ∧
      RecordsKept (.enable b m) s t ∧
      Frame s t wrote fun q => ∃ c : Nat, m.getLsbD c = true ∧ q = .chan b.toNat c

/-- ENABLE_INVALID (60_exceptions.md R304, R305; 41_configurator.md R112, R114). Of several unbound channels the mask names, that the lowest is the one recorded is the model's choice (log 43): R112 gives its loop no order. -/
def Obligations.EnableInvalid : Prop :=
  ∀ (b : Nibble) (m : Half) (s : State) (c : Nat), Ready (.enable b m) s → m.getLsbD c = true →
    (s.chan b.toNat c).owner = .none → (∀ c' : Nat, c' < c → m.getLsbD c' = true → (s.chan b.toNat c').owner ≠ .none) →
    exec (.enable b m) s = .next (s.afterFault (.enableInvalid b.toNat c))

/-- DISABLE (41_configurator.md R115). -/
def Obligations.DisableStops : Prop :=
  ∀ (b : Nibble) (m : Half) (s : State), Ready (.disable b m) s →
    ∃ t, exec (.disable b m) s = .next t ∧ t.result = .none ∧
      (∀ c : Nat, m.getLsbD c = true → t.chan b.toNat c = { s.chan b.toNat c with enabled := false }) ∧
      RecordsKept (.disable b m) s t ∧
      Frame s t none fun q => ∃ c : Nat, m.getLsbD c = true ∧ q = .chan b.toNat c

/-- TX_PUSH (43_fifo_irq.md R160 to R162; 20_memory.md R64; 10_state.md R25; 70_reset_and_hazards.md R362). -/
def Obligations.TxPushAppends : Prop :=
  ∀ (b c : Nibble) (w : Word) (s : State), TaskReady (.txPush b c w) s →
    ((s.chan b.toNat c.toNat).owner ≠ .none →
      (s.chan b.toNat c.toNat).tx.length < capTx s.par (s.chan b.toNat c.toNat) →
      ∃ t, exec (.txPush b c w) s = .next t ∧ t.result = .none ∧
        ChannelReacts t none b.toNat
          { s.chan b.toNat c.toNat with tx := (s.chan b.toNat c.toNat).tx ++ [w] } (t.chan b.toNat c.toNat) ∧
        RecordsKept (.txPush b c w) s t ∧ Frame s t none fun q => q = .chan b.toNat c.toNat) ∧
    ((s.chan b.toNat c.toNat).owner ≠ .none →
      capTx s.par (s.chan b.toNat c.toNat) ≤ (s.chan b.toNat c.toNat).tx.length →
      exec (.txPush b c w) s = .next s.afterHold) ∧
    ((s.chan b.toNat c.toNat).owner = .none →
      exec (.txPush b c w) s = .next (s.afterFault (.unwrittenRead (.cfg b.toNat c.toNat))))

/-- RX_POP (43_fifo_irq.md R163; 20_memory.md R64, R70). -/
def Obligations.RxPopReturns : Prop :=
  ∀ (b c : Nibble) (s : State), TaskReady (.rxPop b c) s →
    (∀ w ws, (s.chan b.toNat c.toNat).rx = w :: ws →
      ∃ t, exec (.rxPop b c) s = .next t ∧ t.result = .word w ∧
        ChannelReacts t none b.toNat { s.chan b.toNat c.toNat with rx := ws } (t.chan b.toNat c.toNat) ∧
        RecordsKept (.rxPop b c) s t ∧ Frame s t none fun q => q = .chan b.toNat c.toNat) ∧
    ((s.chan b.toNat c.toNat).rx = [] → exec (.rxPop b c) s = .next s.afterHold)

/-- CH_WAIT_IDLE (43_fifo_irq.md R176; 70_reset_and_hazards.md R347; log 17). -/
def Obligations.ChWaitIdleWaits : Prop :=
  ∀ (b c : Nibble) (s : State), TaskReady (.chWaitIdle b c) s →
    ((s.chan b.toNat c.toNat).owner ≠ .none →
      (s.chan b.toNat c.toNat).pc = entryState (s.chan b.toNat c.toNat).cfg.template →
      (s.chan b.toNat c.toNat).tx = [] →
      ∃ t, exec (.chWaitIdle b c) s = .next t ∧ t.result = .none ∧
        RecordsKept (.chWaitIdle b c) s t ∧ Frame s t none nothing) ∧
    ((s.chan b.toNat c.toNat).owner ≠ .none →
      ((s.chan b.toNat c.toNat).pc ≠ entryState (s.chan b.toNat c.toNat).cfg.template ∨
        (s.chan b.toNat c.toNat).tx ≠ []) →
      exec (.chWaitIdle b c) s = .next s.afterHold) ∧
    ((s.chan b.toNat c.toNat).owner = .none →
      exec (.chWaitIdle b c) s = .next (s.afterFault (.unwrittenRead (.pc b.toNat c.toNat))))

/-- Context refusals (60_exceptions.md R309; 46_engine_sequences.md R281, R282). No reachable state has another context between two steps, since a handler is one step (log 14); the statement is about every state. -/
def Obligations.BlockingRefusedInIsr : Prop :=
  ∀ (i : Instr) (s : State), Ready i s → s.ctx ≠ .task →
    ((∃ b c w, i = .txPush b c w) ∨ (∃ b c, i = .rxPop b c) ∨ (∃ b c, i = .chWaitIdle b c) →
      exec i s = .next (s.afterRefusal .blockingInIsr)) ∧
    ((∃ b, i = .masterRead b) ∨ (∃ b v, i = .masterWrite b v) → exec i s = .next (s.afterRefusal .masterInIsr))

/-- IRQ_CLEAR and IRQ_FORCE (43_fifo_irq.md R165, R166, R168; 44_peripheral_fsm.md R211). -/
def Obligations.FlagWrites : Prop :=
  ∀ (b : Nibble) (m : Half) (s : State),
    (Ready (.irqClear b m) s →
      ∃ t, exec (.irqClear b m) s = .next t ∧ t.result = .none ∧
        (∀ i : Nat, (t.blk b.toNat).flag i = ((s.blk b.toNat).flag i && !m.getLsbD i)) ∧
        RecordsKept (.irqClear b m) s t ∧ Frame s t (some b.toNat) fun q => q = .flags b.toNat) ∧
    (Ready (.irqForce b m) s →
      ∃ t, exec (.irqForce b m) s = .next t ∧ t.result = .none ∧
        (∀ i : Nat, (t.blk b.toNat).flag i = ((s.blk b.toNat).flag i || m.getLsbD i)) ∧
        RecordsKept (.irqForce b m) s t ∧ Frame s t (some b.toNat) fun q => q = .flags b.toNat)

/-- IRQ_READ (43_fifo_irq.md R167). -/
def Obligations.IrqReadStatus : Prop :=
  ∀ (b : Nibble) (s : State), Ready (.irqRead b) s →
    ∃ t w, exec (.irqRead b) s = .next t ∧ t.result = .word w ∧ IsStatus s.par (s.blk b.toNat) w ∧
      RecordsKept (.irqRead b) s t ∧ Frame s t none nothing

/-- IRQ_INTE and IRQ_GLOBAL (43_fifo_irq.md R169, R175); no interrupt is taken while interrupts are disabled (46_engine_sequences.md R272, 60_exceptions.md R314). -/
def Obligations.IrqRouting : Prop :=
  (∀ (b : Nibble) (m : Half) (s : State), Ready (.irqInte b m) s →
      ∃ t, exec (.irqInte b m) s = .next t ∧ t.result = .none ∧
        (∀ i : Nat, (t.blk b.toNat).routed i = m.getLsbD i) ∧
        RecordsKept (.irqInte b m) s t ∧ Frame s t none fun q => q = .inte b.toNat) ∧
    (∀ (v : Bool) (s : State), Ready (.irqGlobal v) s →
      ∃ t, exec (.irqGlobal v) s = .next t ∧ t.result = .none ∧ t.irqEnabled = v ∧
        RecordsKept (.irqGlobal v) s t ∧ Frame s t none fun q => q = .irqEnabled) ∧
    ∀ (b : Nibble) (s : State), s.irqEnabled = false →
      (Ready (.isrRd b) s → exec (.isrRd b) s = .next s.afterHold) ∧
      (Ready (.isrWr b) s → exec (.isrWr b) s = .next s.afterHold)

/-- The pin writes (42_pin_binder.md R140, R141, R142, R144; codes: 30_encoding.md R87). -/
def Obligations.PinWrites : Prop :=
  ∀ (p : Byte) (s : State), p.toNat < s.par.numGpio →
    (∀ f g, Ready (.gpioSetFunc p f) s →
      ((f = 0 ∧ g = .null) ∨ (f = 1 ∧ g = .sio) ∨ ∃ k, f.toNat = 2 + k ∧ k < s.par.numBlocks ∧ g = .pio k) →
      ∃ t, exec (.gpioSetFunc p f) s = .next t ∧ t.result = .none ∧ t.pin p.toNat = { s.pin p.toNat with func := g } ∧
        RecordsKept (.gpioSetFunc p f) s t ∧ Frame s t none fun q => q = .pin p.toNat) ∧
    (∀ oe, Ready (.gpioSetDir p oe) s →
      ∃ t, exec (.gpioSetDir p oe) s = .next t ∧ t.result = .none ∧
        t.pin p.toNat = { s.pin p.toNat with sioOe := oe } ∧
        RecordsKept (.gpioSetDir p oe) s t ∧ Frame s t none fun q => q = .pin p.toNat) ∧
    (∀ v, Ready (.gpioPut p v) s →
      ∃ t, exec (.gpioPut p v) s = .next t ∧ t.result = .none ∧ t.pin p.toNat = { s.pin p.toNat with sioOut := v } ∧
        RecordsKept (.gpioPut p v) s t ∧ Frame s t none fun q => q = .pin p.toNat) ∧
    ∀ code u, Ready (.gpioSetPull p code) s →
      ((code = 0 ∧ u = .none) ∨ (code = 1 ∧ u = .up) ∨ (code = 2 ∧ u = .down)) →
      ∃ t, exec (.gpioSetPull p code) s = .next t ∧ t.result = .none ∧
        t.pin p.toNat = { s.pin p.toNat with pull := u } ∧
        RecordsKept (.gpioSetPull p code) s t ∧ Frame s t none fun q => q = .pin p.toNat

/-- The pin reads (42_pin_binder.md R143, R147; 10_state.md R32; 20_memory.md R69). What a pulled-nowhere or contended pin reads as is a free value (log 5, log 6). -/
def Obligations.PinReads : Prop :=
  (∀ (p : Byte) (s : State), Ready (.gpioGet p) s → p.toNat < s.par.numGpio →
      ∃ t v, exec (.gpioGet p) s = .next t ∧ t.result = .level v ∧
        (∀ x, engineDrive s p.toNat = some x → envDrive s p.toNat = none → v = x) ∧
        (∀ x, engineDrive s p.toNat = none → envDrive s p.toNat = some x → v = x) ∧
        (engineDrive s p.toNat = none → envDrive s p.toNat = none → (s.pin p.toNat).pull = .up → v = true) ∧
        (engineDrive s p.toNat = none → envDrive s p.toNat = none → (s.pin p.toNat).pull = .down → v = false) ∧
        RecordsKept (.gpioGet p) s t ∧ Frame s t none nothing) ∧
    ∀ (s : State), Ready .busGet s → s.par.pins.d0 + 7 < s.par.numGpio →
      ∃ t v, exec .busGet s = .next t ∧ t.result = .byte v ∧
        (∀ i : Nat, i < 8 →
          (∀ x, engineDrive s (s.par.pins.d0 + i) = some x → envDrive s (s.par.pins.d0 + i) = none → v.getLsbD i = x) ∧
          (∀ x, engineDrive s (s.par.pins.d0 + i) = none → envDrive s (s.par.pins.d0 + i) = some x → v.getLsbD i = x) ∧
          (engineDrive s (s.par.pins.d0 + i) = none → envDrive s (s.par.pins.d0 + i) = none →
            ((s.pin (s.par.pins.d0 + i)).pull = .up → v.getLsbD i = true) ∧
            ((s.pin (s.par.pins.d0 + i)).pull = .down → v.getLsbD i = false))) ∧
        RecordsKept .busGet s t ∧ Frame s t none nothing

/-- The data-bus writes (42_pin_binder.md R145, R146; 20_memory.md R67). -/
def Obligations.BusWrites : Prop :=
  ∀ (s : State), s.par.pins.d0 + 7 < s.par.numGpio →
    (∀ oe, Ready (.busSetDir oe) s →
      ∃ t, exec (.busSetDir oe) s = .next t ∧ t.result = .none ∧
        (∀ i : Nat, i < 8 → t.pin (s.par.pins.d0 + i) = { s.pin (s.par.pins.d0 + i) with sioOe := oe }) ∧
        RecordsKept (.busSetDir oe) s t ∧
        Frame s t none fun q => ∃ i : Nat, i < 8 ∧ q = .pin (s.par.pins.d0 + i)) ∧
    ∀ v, Ready (.busPut v) s →
      ∃ t, exec (.busPut v) s = .next t ∧ t.result = .none ∧
        (∀ i : Nat, i < 8 → t.pin (s.par.pins.d0 + i) = { s.pin (s.par.pins.d0 + i) with sioOut := v.getLsbD i }) ∧
        RecordsKept (.busPut v) s t ∧
        Frame s t none fun q => ∃ i : Nat, i < 8 ∧ q = .pin (s.par.pins.d0 + i)

/-- PIN_RANGE (60_exceptions.md R303, R306; 42_pin_binder.md section 3; log 34). -/
def Obligations.PinRangeRefused : Prop :=
  ∀ (i : Instr) (s : State), Ready i s →
    (∀ p : Byte, s.par.numGpio ≤ p.toNat →
      ((∃ f, i = .gpioSetFunc p f) ∨ (∃ oe, i = .gpioSetDir p oe) ∨ (∃ v, i = .gpioPut p v) ∨ i = .gpioGet p ∨
        ∃ u, i = .gpioSetPull p u) → exec i s = .next (s.afterRefusal .pinRange)) ∧
    (s.par.numGpio ≤ s.par.pins.d0 + 7 → ((∃ oe, i = .busSetDir oe) ∨ (∃ v, i = .busPut v) ∨ i = .busGet) →
      exec i s = .next (s.afterRefusal .pinRange))

/-- RDW_FIRE and WRW_FIRE (44_peripheral_fsm.md R200, R202, R204, R210, R211). -/
def Obligations.WatchersFire : Prop :=
  ∀ (b c : Nibble) (s : State),
    (ChannelReady (.rdwFire b c) .rdw b.toNat c.toNat s →
      ((s.chan b.toNat c.toNat).pc = .armed → condRd s .guard = true →
        ∃ t, exec (.rdwFire b c) s = .next t ∧ t.result = .none ∧
          (t.blk b.toNat).flags = (s.blk b.toNat).flags ||| (flagBit s.par.irqRd ||| flagBit s.par.irqHold) ∧
          ChannelReacts t (some b.toNat) b.toNat { s.chan b.toNat c.toNat with pc := .fired } (t.chan b.toNat c.toNat) ∧
          (∀ w, s.par.irqHold < 16 → (s.chan b.toNat w).enabled = true → (s.chan b.toNat w).owner ≠ .none →
            (s.chan b.toNat w).cfg.template = .waite → (s.chan b.toNat w).pc = .idle →
            (t.chan b.toNat w).pc = .holding ∧ (t.blk b.toNat).out s.par.pins.wait = false) ∧
          RecordsKept (.rdwFire b c) s t ∧
          Frame s t (some b.toNat) fun q => q = .flags b.toNat ∨ q = .chan b.toNat c.toNat) ∧
      ((s.chan b.toNat c.toNat).pc ≠ .armed ∨ condRd s .guard = false →
        exec (.rdwFire b c) s = .next s.afterHold)) ∧
    (ChannelReady (.wrwFire b c) .wrw b.toNat c.toNat s →
      ((s.chan b.toNat c.toNat).pc = .armed → condWr s .guard = true →
        ∃ t, exec (.wrwFire b c) s = .next t ∧ t.result = .none ∧
          (t.blk b.toNat).flags = (s.blk b.toNat).flags ||| (flagBit s.par.irqWr ||| flagBit s.par.irqHold) ∧
          ChannelReacts t (some b.toNat) b.toNat { s.chan b.toNat c.toNat with pc := .fired } (t.chan b.toNat c.toNat) ∧
          (∀ w, s.par.irqHold < 16 → (s.chan b.toNat w).enabled = true → (s.chan b.toNat w).owner ≠ .none →
            (s.chan b.toNat w).cfg.template = .waite → (s.chan b.toNat w).pc = .idle →
            (t.chan b.toNat w).pc = .holding ∧ (t.blk b.toNat).out s.par.pins.wait = false) ∧
          RecordsKept (.wrwFire b c) s t ∧
          Frame s t (some b.toNat) fun q => q = .flags b.toNat ∨ q = .chan b.toNat c.toNat) ∧
      ((s.chan b.toNat c.toNat).pc ≠ .armed ∨ condWr s .guard = false →
        exec (.wrwFire b c) s = .next s.afterHold))

/-- RDW_REARM and WRW_REARM (44_peripheral_fsm.md R200, R203, R205, R208). The rules say "performed only through rule R208": that a word of its own is a turn in which R208 performs it, and holds where R208 would not, is the model's choice (log 33). -/
def Obligations.WatchersRearm : Prop :=
  ∀ (b c : Nibble) (s : State),
    (ChannelReady (.rdwRearm b c) .rdw b.toNat c.toNat s →
      (s.par.role = .peripheral → (s.chan b.toNat c.toNat).pc = .fired →
        condRd s (.channel b.toNat c.toNat) = false →
        ∃ t, exec (.rdwRearm b c) s = .next t ∧ t.result = .none ∧
          t.chan b.toNat c.toNat = { s.chan b.toNat c.toNat with pc := .armed } ∧
          RecordsKept (.rdwRearm b c) s t ∧ Frame s t none fun q => q = .chan b.toNat c.toNat) ∧
      (s.par.role ≠ .peripheral ∨ (s.chan b.toNat c.toNat).pc ≠ .fired ∨
          condRd s (.channel b.toNat c.toNat) = true →
        exec (.rdwRearm b c) s = .next s.afterHold)) ∧
    (ChannelReady (.wrwRearm b c) .wrw b.toNat c.toNat s →
      (s.par.role = .peripheral → (s.chan b.toNat c.toNat).pc = .fired →
        condWr s (.channel b.toNat c.toNat) = false →
        ∃ t, exec (.wrwRearm b c) s = .next t ∧ t.result = .none ∧
          t.chan b.toNat c.toNat = { s.chan b.toNat c.toNat with pc := .armed } ∧
          RecordsKept (.wrwRearm b c) s t ∧ Frame s t none fun q => q = .chan b.toNat c.toNat) ∧
      (s.par.role ≠ .peripheral ∨ (s.chan b.toNat c.toNat).pc ≠ .fired ∨
          condWr s (.channel b.toNat c.toNat) = true →
        exec (.wrwRearm b c) s = .next s.afterHold))

/-- WAITE_ASSERT and WAITE_RELEASE (44_peripheral_fsm.md R200, R210, R212, R213) as words of their own. The rules say "performed only through rule R211": that they complete as words of their own, where an earlier state of the model left the guard true, is the model's choice (log 33). Their reactions are EnforcersFollow. -/
def Obligations.EnforcerSteps : Prop :=
  ∀ (b c : Nibble) (s : State),
    (ChannelReady (.waiteAssert b c) .waite b.toNat c.toNat s →
      ((s.chan b.toNat c.toNat).pc = .idle → (s.blk b.toNat).flag s.par.irqHold = true →
        ∃ t, exec (.waiteAssert b c) s = .next t ∧ t.result = .none ∧
          (t.blk b.toNat).out s.par.pins.wait = false ∧
          t.chan b.toNat c.toNat = { s.chan b.toNat c.toNat with pc := .holding } ∧
          RecordsKept (.waiteAssert b c) s t ∧
          Frame s t none fun q => q = .out b.toNat s.par.pins.wait ∨ q = .chan b.toNat c.toNat) ∧
      ((s.chan b.toNat c.toNat).pc ≠ .idle ∨ (s.blk b.toNat).flag s.par.irqHold = false →
        exec (.waiteAssert b c) s = .next s.afterHold)) ∧
    (ChannelReady (.waiteRelease b c) .waite b.toNat c.toNat s →
      ((s.chan b.toNat c.toNat).pc = .holding → (s.blk b.toNat).flag s.par.irqHold = false →
        ∃ t, exec (.waiteRelease b c) s = .next t ∧ t.result = .none ∧
          (t.blk b.toNat).out s.par.pins.wait = true ∧
          t.chan b.toNat c.toNat = { s.chan b.toNat c.toNat with pc := .idle } ∧
          RecordsKept (.waiteRelease b c) s t ∧
          Frame s t none fun q => q = .out b.toNat s.par.pins.wait ∨ q = .chan b.toNat c.toNat) ∧
      ((s.chan b.toNat c.toNat).pc ≠ .holding ∨ (s.blk b.toNat).flag s.par.irqHold = true →
        exec (.waiteRelease b c) s = .next s.afterHold))

/-- HOST_RD_BEGIN and HOST_WR_BEGIN (44_peripheral_fsm.md R221, R225), with the reactions of R208 and R223. The level of AD is a draw (log 19). -/
def Obligations.HostBegins : Prop :=
  ∀ (s : State), s.par.role = .peripheral →
    (s.hostPc = .idle →
      ∃ t a, exec .hostRdBegin s = .next t ∧ t.result = .none ∧
        t.envLine .ad = { s.envLine .ad with val := a } ∧
        t.envLine .modsel = { s.envLine .modsel with val := false } ∧
        t.envLine .rd = { s.envLine .rd with val := false } ∧
        HostReacts t (if s.par.hostHandshake = .full then .rdWaitLow else .rdWaitRel) t.hostPc ∧
        LatchReacts s t s.hostLatch s.hostLatchWritten false ∧
        RecordsKept .hostRdBegin s t ∧
        Frame s t none fun q =>
          q = .line .ad ∨ q = .line .modsel ∨ q = .line .rd ∨ q = .hostPc ∨ q = .hostLatch) ∧
    (s.hostPc ≠ .idle → exec .hostRdBegin s = .next s.afterHold) ∧
    ∀ v : Byte,
      (s.hostPc = .idle →
        ∃ t a, exec (.hostWrBegin v) s = .next t ∧ t.result = .none ∧
          t.envLine .ad = { s.envLine .ad with val := a } ∧
          t.envLine .modsel = { s.envLine .modsel with val := false } ∧
          t.envLine .wr = { s.envLine .wr with val := false } ∧
          (∀ i : Fin 8, t.envLine (.data i) = ⟨true, v.getLsbD i⟩) ∧
          HostReacts t (if s.par.hostHandshake = .full then .wrWaitLow else .wrWaitRel) t.hostPc ∧
          RecordsKept (.hostWrBegin v) s t ∧
          Frame s t none fun q =>
            q = .line .ad ∨ q = .line .modsel ∨ q = .line .wr ∨ (∃ i, q = .line (.data i)) ∨ q = .hostPc) ∧
      (s.hostPc ≠ .idle → exec (.hostWrBegin v) s = .next s.afterHold)

/-- HOST_SEE_WAIT, RCD_SEEWAIT, WCD_SEEWAIT (44_peripheral_fsm.md R200, R208, R222; 45_master_fsm.md R243, R246, R253). The rules say "performed only through" R208 or R246: that a word of its own is a turn in which that reaction performs it, and holds where it would not, is the model's choice (log 33). -/
def Obligations.SeeWaitSteps : Prop :=
  (∀ (s : State), s.par.role = .peripheral →
      (∀ p p', (p = .rdWaitLow ∧ p' = .rdWaitRel) ∨ (p = .wrWaitLow ∧ p' = .wrWaitRel) →
        s.hostPc = p → lineLevel s .hostSees .wait = false →
        ∃ t, exec .hostSeeWait s = .next t ∧ t.result = .none ∧ t.hostPc = p' ∧
          RecordsKept .hostSeeWait s t ∧ Frame s t none fun q => q = .hostPc) ∧
      ((s.hostPc ≠ .rdWaitLow ∧ s.hostPc ≠ .wrWaitLow) ∨ lineLevel s .hostSees .wait = true →
        exec .hostSeeWait s = .next s.afterHold)) ∧
    (∀ (b c : Nibble) (s : State), ChannelReady (.rcdSeewait b c) .rcd b.toNat c.toNat s →
      (s.par.role = .master → (s.chan b.toNat c.toNat).pc = .rWaitLow →
        lineLevel s (.channel b.toNat c.toNat) .wait = false →
        ∃ t, exec (.rcdSeewait b c) s = .next t ∧ t.result = .none ∧
          t.chan b.toNat c.toNat = { s.chan b.toNat c.toNat with pc := .rWaitRel } ∧
          RecordsKept (.rcdSeewait b c) s t ∧ Frame s t none fun q => q = .chan b.toNat c.toNat) ∧
      (s.par.role ≠ .master ∨ (s.chan b.toNat c.toNat).pc ≠ .rWaitLow ∨
          lineLevel s (.channel b.toNat c.toNat) .wait = true →
        exec (.rcdSeewait b c) s = .next s.afterHold)) ∧
    ∀ (b c : Nibble) (s : State), ChannelReady (.wcdSeewait b c) .wcd b.toNat c.toNat s →
      (s.par.role = .master → (s.chan b.toNat c.toNat).pc = .wWaitLow →
        lineLevel s (.channel b.toNat c.toNat) .wait = false →
        ∃ t, exec (.wcdSeewait b c) s = .next t ∧ t.result = .none ∧
          t.chan b.toNat c.toNat = { s.chan b.toNat c.toNat with pc := .wWaitRel } ∧
          RecordsKept (.wcdSeewait b c) s t ∧ Frame s t none fun q => q = .chan b.toNat c.toNat) ∧
      (s.par.role ≠ .master ∨ (s.chan b.toNat c.toNat).pc ≠ .wWaitLow ∨
          lineLevel s (.channel b.toNat c.toNat) .wait = true →
        exec (.wcdSeewait b c) s = .next s.afterHold)

/-- HOST_RD_END and HOST_WR_END (44_peripheral_fsm.md R224, R226). That the read's result is the latch is R224's own sentence (log 37). -/
def Obligations.HostEnds : Prop :=
  ∀ (s : State), s.par.role = .peripheral →
    (s.hostPc = .rdWaitRel → lineLevel s .guard .wait = true →
      ∃ t v, exec .hostRdEnd s = .next t ∧ t.result = .byte v ∧
        v = (if s.hostLatched then s.hostLatch else dataByte s .sample) ∧
        t.hostLatch = v ∧ t.hostLatchWritten = true ∧ t.hostLatched = true ∧ t.hostPc = .idle ∧
        t.envLine .rd = { s.envLine .rd with val := true } ∧
        t.envLine .modsel = { s.envLine .modsel with val := true } ∧
        RecordsKept .hostRdEnd s t ∧
        Frame s t none fun q => q = .line .rd ∨ q = .line .modsel ∨ q = .hostPc ∨ q = .hostLatch) ∧
    (s.hostPc ≠ .rdWaitRel ∨ lineLevel s .guard .wait = false → exec .hostRdEnd s = .next s.afterHold) ∧
    (s.hostPc = .wrWaitRel → lineLevel s .guard .wait = true →
      ∃ t, exec .hostWrEnd s = .next t ∧ t.result = .none ∧ t.hostPc = .idle ∧
        t.envLine .wr = { s.envLine .wr with val := true } ∧
        t.envLine .modsel = { s.envLine .modsel with val := true } ∧
        (∀ i, t.envLine (.data i) = { s.envLine (.data i) with drive := false }) ∧
        RecordsKept .hostWrEnd s t ∧
        Frame s t none fun q =>
          q = .line .wr ∨ q = .line .modsel ∨ (∃ i, q = .line (.data i)) ∨ q = .hostPc) ∧
    (s.hostPc ≠ .wrWaitRel ∨ lineLevel s .guard .wait = false → exec .hostWrEnd s = .next s.afterHold)

/-- RCD_STROBE (44_peripheral_fsm.md R200; 45_master_fsm.md R242, R256; 60_exceptions.md R305; log 8). -/
def Obligations.ReadStrobes : Prop :=
  ∀ (b c : Nibble) (s : State), ChannelReady (.rcdStrobe b c) .rcd b.toNat c.toNat s →
    ((s.chan b.toNat c.toNat).pc = .rIdle → (s.blk b.toNat).flag s.par.irqMrd = false →
      ∃ t, exec (.rcdStrobe b c) s = .next t ∧ t.result = .none ∧
        (t.blk b.toNat).out s.par.pins.modsel = false ∧ (t.blk b.toNat).out s.par.pins.rd = false ∧
        ChannelReacts t none b.toNat
          { s.chan b.toNat c.toNat with pc := if s.par.masterHandshake = .full then .rWaitLow else .rWaitRel }
          (t.chan b.toNat c.toNat) ∧
        RecordsKept (.rcdStrobe b c) s t ∧
        (.strobeOverlap b.toNat (.rcdStrobe b c) ∈ t.faults ↔
          .strobeOverlap b.toNat (.rcdStrobe b c) ∈ s.faults ∨
            ((t.blk b.toNat).out s.par.pins.wr = false ∧ (t.blk b.toNat).oe s.par.pins.rd = true ∧
              (t.blk b.toNat).oe s.par.pins.wr = true)) ∧
        Frame s t none fun q =>
          q = .out b.toNat s.par.pins.modsel ∨ q = .out b.toNat s.par.pins.rd ∨ q = .chan b.toNat c.toNat) ∧
    ((s.chan b.toNat c.toNat).pc ≠ .rIdle ∨ (s.blk b.toNat).flag s.par.irqMrd = true →
      exec (.rcdStrobe b c) s = .next s.afterHold)

/-- RCD_SAMPLE (44_peripheral_fsm.md R200, R211; 45_master_fsm.md R244; 43_fifo_irq.md R170, R171). The two pins RD and MODSEL, and WAIT, which an enforcer of the block may drive, are taken distinct, as 42_pin_binder.md R131 asks. -/
def Obligations.ReadSamples : Prop :=
  ∀ (b c : Nibble) (s : State), s.par.valid = true → ChannelReady (.rcdSample b c) .rcd b.toNat c.toNat s →
    ((s.chan b.toNat c.toNat).pc = .rWaitRel → lineLevel s .guard .wait = true →
      sampleFits s.par (s.chan b.toNat c.toNat) 8 = true →
      ∃ t, exec (.rcdSample b c) s = .next t ∧ t.result = .none ∧
        (t.blk b.toNat).out s.par.pins.rd = true ∧ (t.blk b.toNat).out s.par.pins.modsel = true ∧
        (t.blk b.toNat).flags = (s.blk b.toNat).flags ||| flagBit s.par.irqMrd ∧
        t.chan b.toNat c.toNat
          = { sampleIn (s.chan b.toNat c.toNat) ((dataByte s .sample).setWidth 32) 8 with pc := .rIdle } ∧
        RecordsKept (.rcdSample b c) s t ∧
        Frame s t (some b.toNat) fun q =>
          q = .out b.toNat s.par.pins.rd ∨ q = .out b.toNat s.par.pins.modsel ∨ q = .flags b.toNat ∨
            q = .chan b.toNat c.toNat) ∧
    ((s.chan b.toNat c.toNat).pc ≠ .rWaitRel ∨ lineLevel s .guard .wait = false ∨
        sampleFits s.par (s.chan b.toNat c.toNat) 8 = false →
      exec (.rcdSample b c) s = .next s.afterHold)

/-- The shift rules (43_fifo_irq.md R164, R170 to R173; 20_memory.md R65, R66). That the extraction returns a 32-bit word, zero above the sample, is the model's choice (log 39). -/
def Obligations.ShiftRules : Prop :=
  (∀ (ch : Channel) (v : Word) (n : Nat), 1 ≤ n → n ≤ 32 →
      shiftIn ch v n = { ch with isr := (shiftIn ch v n).isr, isrCount := min 32 (ch.isrCount + n) } ∧
        ∀ i : Nat, i < 32 → (shiftIn ch v n).isr.getLsbD i =
          if ch.cfg.inShift.right then (if i + n < 32 then ch.isr.getLsbD (i + n) else v.getLsbD (i + n - 32))
          else if i < n then v.getLsbD i else ch.isr.getLsbD (i - n)) ∧
    (∀ (ch : Channel) (v : Word) (n : Nat), 1 ≤ n → n ≤ 32 →
      (ch.cfg.inShift.auto = false ∨ ch.cfg.inShift.bits ≤ min 32 (ch.isrCount + n) →
        sampleIn ch v n = { ch with rx := ch.rx ++ [(shiftIn ch v n).isr], isr := 0, isrCount := 0 }) ∧
      (ch.cfg.inShift.auto = true → min 32 (ch.isrCount + n) < ch.cfg.inShift.bits → sampleIn ch v n = shiftIn ch v n)) ∧
    (∀ (ch : Channel) (v : Byte) (auto : Bool), ch.isr = 0 → ch.isrCount = 0 → ch.cfg.inShift = ⟨8, true, auto⟩ →
      sampleIn ch (v.setWidth 32) 8 = { ch with rx := ch.rx ++ [v.setWidth 32 <<< 24], isr := 0, isrCount := 0 } ∧
        extractSample ch.cfg.inShift (v.setWidth 32 <<< 24) = v.setWidth 32) ∧
    (∀ (ch : Channel) (v : Byte) (auto : Bool), ch.isr = 0 → ch.isrCount = 0 → ch.cfg.inShift = ⟨8, false, auto⟩ →
      sampleIn ch (v.setWidth 32) 8 = { ch with rx := ch.rx ++ [v.setWidth 32], isr := 0, isrCount := 0 } ∧
        extractSample ch.cfg.inShift (v.setWidth 32) = v.setWidth 32) ∧
    (∀ (sh : ShiftCfg) (w : Word) (i : Nat), 1 ≤ sh.bits → sh.bits ≤ 32 →
      (extractSample sh w).getLsbD i
        = (decide (i < sh.bits) && w.getLsbD (if sh.right then 32 - sh.bits + i else i))) ∧
    (∀ (ch : Channel) (v : Byte) (n : Nat) (right : Bool), 8 < n → ch.isrCount = 0 → ch.cfg.inShift = ⟨n, right, true⟩ →
      (sampleIn ch (v.setWidth 32) 8).rx = ch.rx ∧ (sampleIn ch (v.setWidth 32) 8).isrCount = 8) ∧
    (∀ (ch : Channel) (n : Nat), 1 ≤ n → n ≤ 32 →
      shiftOut ch n = { ch with osr := (shiftOut ch n).osr, osrCount := min 32 (ch.osrCount + n) } ∧
        ∀ i : Nat, i < 32 →
          (outBits ch n).getLsbD i
              = (decide (i < n) && ch.osr.getLsbD (if ch.cfg.outShift.right then i else 32 - n + i)) ∧
            (shiftOut ch n).osr.getLsbD i
              = if ch.cfg.outShift.right then decide (i + n < 32) && ch.osr.getLsbD (i + n)
                else decide (n ≤ i) && ch.osr.getLsbD (i - n)) ∧
    ∀ (ch : Channel) (w : Word) (ws : List Word),
      (takeByte ch w ws).tx = ws ∧ (takeByte ch w ws).osrCount = 8 ∧
        (ch.cfg.outShift.right = true →
          byteTaken ch w ws = w.extractLsb' 0 8 ∧ (takeByte ch w ws).osr = w >>> 8) ∧
        (ch.cfg.outShift.right = false →
          byteTaken ch w ws = w.extractLsb' 24 8 ∧ (takeByte ch w ws).osr = w <<< 8)

/-- WCD_START (44_peripheral_fsm.md R200; 45_master_fsm.md R252, R256; 43_fifo_irq.md R172, R173; 60_exceptions.md R305; log 8). The lines' pins are distinct, as 42_pin_binder.md R131 asks. -/
def Obligations.WriteStarts : Prop :=
  ∀ (b c : Nibble) (s : State), s.par.valid = true → ChannelReady (.wcdStart b c) .wcd b.toNat c.toNat s →
    (∀ w ws, (s.chan b.toNat c.toNat).pc = .wIdle → (s.chan b.toNat c.toNat).tx = w :: ws →
      ∃ t, exec (.wcdStart b c) s = .next t ∧ t.result = .none ∧
        (∀ i : Nat, i < 8 →
          (t.blk b.toNat).out (s.par.pins.d0 + i) = (byteTaken (s.chan b.toNat c.toNat) w ws).getLsbD i ∧
            (t.blk b.toNat).oe (s.par.pins.d0 + i) = true) ∧
        (t.blk b.toNat).out s.par.pins.modsel = false ∧ (t.blk b.toNat).out s.par.pins.wr = false ∧
        ChannelReacts t none b.toNat
          { takeByte (s.chan b.toNat c.toNat) w ws with
            pc := if s.par.masterHandshake = .full then .wWaitLow else .wWaitRel }
          (t.chan b.toNat c.toNat) ∧
        (takeByte (s.chan b.toNat c.toNat) w ws).tx = ws ∧
        RecordsKept (.wcdStart b c) s t ∧
        (.strobeOverlap b.toNat (.wcdStart b c) ∈ t.faults ↔
          .strobeOverlap b.toNat (.wcdStart b c) ∈ s.faults ∨
            ((t.blk b.toNat).out s.par.pins.rd = false ∧ (t.blk b.toNat).oe s.par.pins.rd = true ∧
              (t.blk b.toNat).oe s.par.pins.wr = true)) ∧
        Frame s t none fun q =>
          q = .chan b.toNat c.toNat ∨ q = .out b.toNat s.par.pins.modsel ∨ q = .out b.toNat s.par.pins.wr ∨
            ∃ i : Nat, i < 8 ∧ (q = .out b.toNat (s.par.pins.d0 + i) ∨ q = .oe b.toNat (s.par.pins.d0 + i))) ∧
    ((s.chan b.toNat c.toNat).pc ≠ .wIdle ∨ (s.chan b.toNat c.toNat).tx = [] →
      exec (.wcdStart b c) s = .next s.afterHold)

/-- WCD_FINISH (45_master_fsm.md R254). -/
def Obligations.WriteFinishes : Prop :=
  ∀ (b c : Nibble) (s : State), ChannelReady (.wcdFinish b c) .wcd b.toNat c.toNat s →
    ((s.chan b.toNat c.toNat).pc = .wWaitRel → lineLevel s .guard .wait = true →
      ∃ t, exec (.wcdFinish b c) s = .next t ∧ t.result = .none ∧
        (t.blk b.toNat).out s.par.pins.wr = true ∧ (t.blk b.toNat).out s.par.pins.modsel = true ∧
        (∀ i : Nat, i < 8 → (t.blk b.toNat).oe (s.par.pins.d0 + i) = false) ∧
        t.chan b.toNat c.toNat = { s.chan b.toNat c.toNat with pc := .wIdle } ∧
        RecordsKept (.wcdFinish b c) s t ∧
        Frame s t none fun q =>
          q = .chan b.toNat c.toNat ∨ q = .out b.toNat s.par.pins.wr ∨ q = .out b.toNat s.par.pins.modsel ∨
            ∃ i : Nat, i < 8 ∧ q = .oe b.toNat (s.par.pins.d0 + i)) ∧
    ((s.chan b.toNat c.toNat).pc ≠ .wWaitRel ∨ lineLevel s .guard .wait = false →
      exec (.wcdFinish b c) s = .next s.afterHold)

/-- PER_RD_ACK and PER_WR_ACK (45_master_fsm.md R261, R264). -/
def Obligations.PeripheralAcks : Prop :=
  ∀ (s : State), s.par.role = .master →
    (s.perPc = .idle → condRd s .guard = true →
      ∃ t, exec .perRdAck s = .next t ∧ t.result = .none ∧ t.perPc = .rdStall ∧
        t.envLine .wait = { s.envLine .wait with val := false } ∧
        RecordsKept .perRdAck s t ∧ Frame s t none fun q => q = .line .wait ∨ q = .perPc) ∧
    (s.perPc ≠ .idle ∨ condRd s .guard = false → exec .perRdAck s = .next s.afterHold) ∧
    (s.perPc = .idle → condWr s .guard = true →
      ∃ t, exec .perWrAck s = .next t ∧ t.result = .none ∧ t.perPc = .wrStall ∧
        t.envLine .wait = { s.envLine .wait with val := false } ∧
        RecordsKept .perWrAck s t ∧ Frame s t none fun q => q = .line .wait ∨ q = .perPc) ∧
    (s.perPc ≠ .idle ∨ condWr s .guard = false → exec .perWrAck s = .next s.afterHold)

/-- PER_RD_READY, PER_RD_DONE, PER_WR_LATCH, PER_WR_DONE (45_master_fsm.md R246, R262, R263, R265, R266). The rules of the two ends say "performed only through rule R246": that a word of its own is a turn in which R246 performs it, and holds where it would not, is the model's choice (log 33). -/
def Obligations.PeripheralGoesOn : Prop :=
  ∀ (s : State), s.par.role = .master →
    (s.perPc = .rdStall →
      ∃ t, exec .perRdReady s = .next t ∧ t.result = .none ∧
        ((t.perPc = .rdHold ∧ ∀ i : Fin 8, t.envLine (.data i) = ⟨true, s.echo.getLsbD i⟩) ∨
          (t.perPc = .idle ∧ (t.par.valid = true → RdEnded t) ∧
            ∀ i : Fin 8, t.envLine (.data i) = ⟨false, s.echo.getLsbD i⟩)) ∧
        t.envLine .wait = { s.envLine .wait with val := true } ∧
        RecordsKept .perRdReady s t ∧
        Frame s t none fun q => q = .line .wait ∨ q = .perPc ∨ ∃ i, q = .line (.data i)) ∧
    (s.perPc ≠ .rdStall → exec .perRdReady s = .next s.afterHold) ∧
    (s.perPc = .wrStall →
      ∃ t, exec .perWrLatch s = .next t ∧ t.result = .none ∧
        (t.perPc = .wrHold ∨ (t.perPc = .idle ∧ WrEnded t)) ∧
        t.echo = dataByte s .sample ∧ t.envLine .wait = { s.envLine .wait with val := true } ∧
        RecordsKept .perWrLatch s t ∧
        Frame s t none fun q => q = .line .wait ∨ q = .perPc ∨ q = .echo) ∧
    (s.perPc ≠ .wrStall → exec .perWrLatch s = .next s.afterHold) ∧
    (s.perPc = .rdHold → condRd s .perReads = false →
      ∃ t, exec .perRdDone s = .next t ∧ t.result = .none ∧ t.perPc = .idle ∧
        (∀ i, t.envLine (.data i) = { s.envLine (.data i) with drive := false }) ∧
        RecordsKept .perRdDone s t ∧ Frame s t none fun q => q = .perPc ∨ ∃ i, q = .line (.data i)) ∧
    (s.perPc ≠ .rdHold ∨ condRd s .perReads = true → exec .perRdDone s = .next s.afterHold) ∧
    (s.perPc = .wrHold → condWr s .perReads = false →
      ∃ t, exec .perWrDone s = .next t ∧ t.result = .none ∧ t.perPc = .idle ∧
        RecordsKept .perWrDone s t ∧ Frame s t none fun q => q = .perPc) ∧
    (s.perPc ≠ .wrHold ∨ condWr s .perReads = true → exec .perWrDone s = .next s.afterHold)

/-- POST (46_engine_sequences.md R270; 20_memory.md R73). The status word of a POST performed alone is a free value (log 13). -/
def Obligations.PostAppends : Prop :=
  ∀ (k : Kind) (s : State), Ready (.post k) s →
    ∃ t w, exec (.post k) s = .next t ∧ t.result = .none ∧ t.queue = s.queue ++ [⟨k, w⟩] ∧
      RecordsKept (.post k) s t ∧ Frame s t none fun q => q = .queue

/-- REGISTER (46_engine_sequences.md R271). That `handlers[kind]` names the block of the engine whose handler it is, the operand's, is the model's choice (log 32). -/
def Obligations.RegisterBinds : Prop :=
  ∀ (b : Nibble) (s : State),
    (TaskReady (.register b .read) s →
      (s.handlerRead = none →
        ∃ t, exec (.register b .read) s = .next t ∧ t.result = .none ∧
          t.handlerRead = some b.toNat ∧ t.handlerWrite = s.handlerWrite ∧
          (t.blk b.toNat).vector s.par.irqRd = some .isrRd ∧
          RecordsKept (.register b .read) s t ∧
          Frame s t none fun q => q = .handlers ∨ q = .vec b.toNat s.par.irqRd) ∧
      (s.handlerRead ≠ none → exec (.register b .read) s = .next (s.afterRefusal .doubleRegister))) ∧
    (TaskReady (.register b .write) s →
      (s.handlerWrite = none →
        ∃ t, exec (.register b .write) s = .next t ∧ t.result = .none ∧
          t.handlerWrite = some b.toNat ∧ t.handlerRead = s.handlerRead ∧
          (t.blk b.toNat).vector s.par.irqWr = some .isrWr ∧
          RecordsKept (.register b .write) s t ∧
          Frame s t none fun q => q = .handlers ∨ q = .vec b.toNat s.par.irqWr) ∧
      (s.handlerWrite ≠ none → exec (.register b .write) s = .next (s.afterRefusal .doubleRegister)))

/-- ISR_RD and ISR_WR (46_engine_sequences.md R272 to R274). The flag's number is below 16, as NUM_FLAGS is (log 36). -/
def Obligations.HandlersRun : Prop :=
  ∀ (b : Nibble) (s : State),
    (Ready (.isrRd b) s →
      (s.irqEnabled = true → s.ctx = .task → (s.blk b.toNat).flag s.par.irqRd = true →
        (s.blk b.toNat).routed s.par.irqRd = true → (s.blk b.toNat).vector s.par.irqRd = some .isrRd →
        ∃ t w, exec (.isrRd b) s = .next t ∧ t.result = .none ∧ t.ctx = .task ∧
          IsStatus s.par (s.blk b.toNat) w ∧ t.queue = s.queue ++ [⟨.read, w⟩] ∧
          (∀ i : Nat, (t.blk b.toNat).flag i = ((s.blk b.toNat).flag i && decide (i ≠ s.par.irqRd))) ∧
          RecordsKept (.isrRd b) s t ∧
          Frame s t (some b.toNat) fun q => q = .flags b.toNat ∨ q = .queue) ∧
      (s.irqEnabled = false ∨ s.ctx ≠ .task ∨ (s.blk b.toNat).flag s.par.irqRd = false ∨
          (s.blk b.toNat).routed s.par.irqRd = false ∨ (s.blk b.toNat).vector s.par.irqRd ≠ some .isrRd →
        exec (.isrRd b) s = .next s.afterHold)) ∧
    (Ready (.isrWr b) s →
      (s.irqEnabled = true → s.ctx = .task → (s.blk b.toNat).flag s.par.irqWr = true →
        (s.blk b.toNat).routed s.par.irqWr = true → (s.blk b.toNat).vector s.par.irqWr = some .isrWr →
        ∃ t w, exec (.isrWr b) s = .next t ∧ t.result = .none ∧ t.ctx = .task ∧
          IsStatus s.par (s.blk b.toNat) w ∧ t.queue = s.queue ++ [⟨.write, w⟩] ∧
          (∀ i : Nat, (t.blk b.toNat).flag i = ((s.blk b.toNat).flag i && decide (i ≠ s.par.irqWr))) ∧
          RecordsKept (.isrWr b) s t ∧
          Frame s t (some b.toNat) fun q => q = .flags b.toNat ∨ q = .queue) ∧
      (s.irqEnabled = false ∨ s.ctx ≠ .task ∨ (s.blk b.toNat).flag s.par.irqWr = false ∨
          (s.blk b.toNat).routed s.par.irqWr = false ∨ (s.blk b.toNat).vector s.par.irqWr ≠ some .isrWr →
        exec (.isrWr b) s = .next s.afterHold))

/-- DISPATCH (46_engine_sequences.md R276): it starts the handler, whose steps follow as turns of their own (log 14). -/
def Obligations.DispatchStarts : Prop :=
  ∀ (s : State), TaskReady .dispatch s →
    (∀ item rest b, s.consumer = none → s.queue = item :: rest →
      ((item.kind = .read ∧ s.handlerRead = some b) ∨ (item.kind = .write ∧ s.handlerWrite = some b)) →
      ∃ t, exec .dispatch s = .next t ∧ t.result = .running ∧ t.queue = rest ∧
        (item.kind = .read → t.consumer = some ⟨b, .readDirOut, 0⟩) ∧
        (item.kind = .write → t.consumer = some ⟨b, .writeDirIn, 0⟩) ∧
        RecordsKept .dispatch s t ∧ Frame s t none fun q => q = .queue ∨ q = .consumer) ∧
    (∀ item rest, s.consumer = none → s.queue = item :: rest →
      ((item.kind = .read ∧ s.handlerRead = none) ∨ (item.kind = .write ∧ s.handlerWrite = none)) →
      exec .dispatch s = .next (s.afterRefusal .noHandler)) ∧
    (s.consumer ≠ none ∨ s.queue = [] → exec .dispatch s = .next s.afterHold)

/-- The first steps of SERVICE_READ and SERVICE_WRITE (46_engine_sequences.md R277, R279; 42_pin_binder.md R145); the other steps are turns of their own (log 14). That a word is held while a handler runs is the model's choice (log 16): the spec does not state the hold. -/
def Obligations.ServiceStarts : Prop :=
  ∀ (b : Nibble) (s : State),
    (TaskReady (.serviceRead b) s →
      (s.consumer = none → s.par.pins.d0 + 7 < s.par.numGpio →
        ∃ t, exec (.serviceRead b) s = .next t ∧ t.result = .running ∧
          t.consumer = some ⟨b.toNat, .readPut, 0⟩ ∧
          (∀ i : Nat, i < 8 → t.pin (s.par.pins.d0 + i) = { s.pin (s.par.pins.d0 + i) with sioOe := true }) ∧
          RecordsKept (.serviceRead b) s t ∧
          Frame s t none fun q => q = .consumer ∨ ∃ i : Nat, i < 8 ∧ q = .pin (s.par.pins.d0 + i)) ∧
      (s.consumer ≠ none → exec (.serviceRead b) s = .next s.afterHold)) ∧
    (TaskReady (.serviceWrite b) s →
      (s.consumer = none → s.par.pins.d0 + 7 < s.par.numGpio →
        ∃ t, exec (.serviceWrite b) s = .next t ∧ t.result = .running ∧
          t.consumer = some ⟨b.toNat, .writeSample, 0⟩ ∧
          (∀ i : Nat, i < 8 → t.pin (s.par.pins.d0 + i) = { s.pin (s.par.pins.d0 + i) with sioOe := false }) ∧
          RecordsKept (.serviceWrite b) s t ∧
          Frame s t none fun q => q = .consumer ∨ ∃ i : Nat, i < 8 ∧ q = .pin (s.par.pins.d0 + i)) ∧
      (s.consumer ≠ none → exec (.serviceWrite b) s = .next s.afterHold))

/-- Steps 2 to 4 of SERVICE_READ and SERVICE_WRITE (46_engine_sequences.md R276 to R280), with the reference source and sink. That each step is a turn of its own, and the operation by which a record names it, are the model's choices (log 14, log 7). -/
def Obligations.ServiceGoesOn : Prop :=
  ∀ (s : State) (b : Nat) (x : Byte), s.halted = false → s.ctx = .task → s.par.pins.d0 + 7 < s.par.numGpio →
    (s.consumer = some ⟨b, .readPut, x⟩ → s.par.byteSource = .counter →
      ∃ t, resume .consumer s = .next t ∧ t.result = .running ∧ t.consumer = some ⟨b, .readRelease, x⟩ ∧
        (∀ i : Nat, i < 8 →
          t.pin (s.par.pins.d0 + i) = { s.pin (s.par.pins.d0 + i) with sioOut := s.counter.getLsbD i }) ∧
        t.counter = s.counter - 1 ∧ RecordsKept (.busPut s.counter) s t ∧
        Frame s t none fun q => q = .consumer ∨ q = .counter ∨ ∃ i : Nat, i < 8 ∧ q = .pin (s.par.pins.d0 + i)) ∧
    (s.consumer = some ⟨b, .readRelease, x⟩ →
      ∃ t, resume .consumer s = .next t ∧ t.result = .running ∧ t.consumer = some ⟨b, .readDirIn, x⟩ ∧
        (t.blk b).flags = (s.blk b).flags &&& ~~~(flagBit s.par.irqHold) ∧ RecordsKept (.irqClear (BitVec.ofNat 4 b) (flagBit s.par.irqHold)) s t ∧
        Frame s t (some b) fun q => q = .consumer ∨ q = .flags b) ∧
    (s.consumer = some ⟨b, .readDirIn, x⟩ →
      ∃ t, resume .consumer s = .next t ∧ t.result = .none ∧ t.consumer = none ∧
        (∀ i : Nat, i < 8 → t.pin (s.par.pins.d0 + i) = { s.pin (s.par.pins.d0 + i) with sioOe := false }) ∧
        RecordsKept (.busSetDir false) s t ∧
        Frame s t none fun q => q = .consumer ∨ ∃ i : Nat, i < 8 ∧ q = .pin (s.par.pins.d0 + i)) ∧
    (s.consumer = some ⟨b, .writeSample, x⟩ →
      ∃ t, resume .consumer s = .next t ∧ t.result = .running ∧
        t.consumer = some ⟨b, .writeRelease, dataByte s .sample⟩ ∧ RecordsKept .busGet s t ∧
        Frame s t none fun q => q = .consumer) ∧
    (s.consumer = some ⟨b, .writeRelease, x⟩ →
      ∃ t, resume .consumer s = .next t ∧ t.result = .running ∧ t.consumer = some ⟨b, .writeSink, x⟩ ∧
        (t.blk b).flags = (s.blk b).flags &&& ~~~(flagBit s.par.irqHold) ∧ RecordsKept (.irqClear (BitVec.ofNat 4 b) (flagBit s.par.irqHold)) s t ∧
        Frame s t (some b) fun q => q = .consumer ∨ q = .flags b) ∧
    (s.consumer = some ⟨b, .writeSink, x⟩ → s.par.byteSink = .log →
      ∃ t, resume .consumer s = .next t ∧ t.result = .none ∧ t.consumer = none ∧ t.sink = s.sink ++ [x] ∧
        RecordsKept (.serviceWrite (BitVec.ofNat 4 b)) s t ∧ Frame s t none fun q => q = .consumer ∨ q = .sink)

/-- The read handover (46_engine_sequences.md R277; 44_peripheral_fsm.md R213, R223; 70_reset_and_hazards.md R363; 10_state.md R31): data valid on the bus strictly before WAIT is released. That the handler's third step is a turn of its own is the model's choice (log 14), and so is the reading of R223's two levels (log 26). -/
def Obligations.ReadServiceDelivers : Prop :=
  ∀ (s : State) (b c : Nat) (x v : Byte), s.par.valid = true → s.par.role = .peripheral →
    s.halted = false → s.ctx = .task → s.consumer = some ⟨b, .readRelease, x⟩ →
    (∀ i : Nat, i < 8 →
      (s.pin (s.par.pins.d0 + i)).func = .sio ∧ (s.pin (s.par.pins.d0 + i)).sioOe = true ∧
        (s.pin (s.par.pins.d0 + i)).sioOut = v.getLsbD i ∧ envDrive s (s.par.pins.d0 + i) = none) →
    (s.pin s.par.pins.wait).func = .pio b → (s.blk b).oe s.par.pins.wait = true →
    (s.blk b).out s.par.pins.wait = false → envDrive s s.par.pins.wait = none →
    (s.chan b c).enabled = true → (s.chan b c).owner ≠ .none → (s.chan b c).cfg.template = .waite →
    (s.chan b c).pc = .holding → s.hostPc = .rdWaitRel →
    ∃ t, resume .consumer s = .next t ∧ (t.blk b).flag s.par.irqHold = false ∧ (t.chan b c).pc = .idle ∧
      (t.blk b).out s.par.pins.wait = true ∧ t.hostLatch = v ∧ t.hostLatched = true ∧ t.hostLatchWritten = true

/-- The first steps of MASTER_READ and MASTER_WRITE (46_engine_sequences.md R281 to R283; 43_fifo_irq.md R160, R166; log 14). That the start of a held write() is a step, whose end performs the reactions and records what stands then, is the model's choice (log 14, log 7). -/
def Obligations.MasterCallsStart : Prop :=
  ∀ (b : Nibble) (s : State),
    (TaskReady (.masterRead b) s →
      (s.master = none →
        ∃ t, exec (.masterRead b) s = .next t ∧ t.result = .running ∧ t.master = some (.readPop b.toNat) ∧
          (t.blk b.toNat).flags = (s.blk b.toNat).flags &&& ~~~(flagBit s.par.irqMrd) ∧
          RecordsKept (.masterRead b) s t ∧
          Frame s t (some b.toNat) fun q => q = .flags b.toNat ∨ q = .master) ∧
      (s.master ≠ none → exec (.masterRead b) s = .next (s.afterRefusal .concurrentMasterCall))) ∧
    ∀ v : Byte, TaskReady (.masterWrite b v) s →
      (s.master = none → (s.chan b.toNat 1).owner ≠ .none →
        (s.chan b.toNat 1).tx.length < capTx s.par (s.chan b.toNat 1) →
        ∃ t, exec (.masterWrite b v) s = .next t ∧ t.result = .running ∧ t.master = some (.writeWait b.toNat) ∧
          ChannelReacts t none b.toNat
            { s.chan b.toNat 1 with tx := (s.chan b.toNat 1).tx ++ [v.setWidth 32] } (t.chan b.toNat 1) ∧
          RecordsKept (.masterWrite b v) s t ∧ Frame s t none fun q => q = .chan b.toNat 1 ∨ q = .master) ∧
      (s.master = none → (s.chan b.toNat 1).owner ≠ .none →
        capTx s.par (s.chan b.toNat 1) ≤ (s.chan b.toNat 1).tx.length →
        ∃ t, exec (.masterWrite b v) s = .next t ∧ t.result = .held ∧ t.master = some (.writePush b.toNat v) ∧
          RecordsKept (.masterWrite b v) s t ∧ Frame s t none fun q => q = .master) ∧
      (s.master = none → (s.chan b.toNat 1).owner = .none →
        exec (.masterWrite b v) s = .next (s.afterFault (.unwrittenRead (.cfg b.toNat 1)))) ∧
      (s.master ≠ none → exec (.masterWrite b v) s = .next (s.afterRefusal .concurrentMasterCall))

/-- The later steps of MASTER_READ and MASTER_WRITE (46_engine_sequences.md R281, R282; 43_fifo_irq.md R160, R163, R164, R176; 70_reset_and_hazards.md R347, R362). That each step is a turn of its own (log 14), that a fault ends the call (log 15), what the wait reads of an unowned driver (log 17), the width of the extraction (log 39) and the operation by which a record names the step (log 7) are the model's choices. -/
def Obligations.MasterCallsGoOn : Prop :=
  ∀ (s : State) (b : Nat), s.halted = false → s.ctx = .task →
    (s.master = some (.readPop b) →
      (∀ w ws, (s.chan b 0).rx = w :: ws →
        ∃ t, resume .master s = .next t ∧ t.result = .running ∧ t.master = some (.readReturn b w) ∧
          ChannelReacts t none b { s.chan b 0 with rx := ws } (t.chan b 0) ∧
          RecordsKept (.rxPop (BitVec.ofNat 4 b) 0) s t ∧ Frame s t none fun q => q = .chan b 0 ∨ q = .master) ∧
      ((s.chan b 0).rx = [] → resume .master s = .next s.afterHold)) ∧
    (∀ w, s.master = some (.readReturn b w) →
      ((s.chan b 0).owner ≠ .none →
        ∃ t, resume .master s = .next t ∧ t.result = .word (extractSample (s.chan b 0).cfg.inShift w) ∧ t.master = none ∧
          RecordsKept (.masterRead (BitVec.ofNat 4 b)) s t ∧ Frame s t none fun q => q = .master) ∧
      ((s.chan b 0).owner = .none →
        resume .master s = .next (({ s with master := none } : State).afterFault (.unwrittenRead (.cfg b 0))))) ∧
    (∀ v, s.master = some (.writePush b v) →
      ((s.chan b 1).owner ≠ .none → (s.chan b 1).tx.length < capTx s.par (s.chan b 1) →
        ∃ t, resume .master s = .next t ∧ t.result = .running ∧ t.master = some (.writeWait b) ∧
          ChannelReacts t none b { s.chan b 1 with tx := (s.chan b 1).tx ++ [v.setWidth 32] } (t.chan b 1) ∧
          RecordsKept (.txPush (BitVec.ofNat 4 b) 1 (v.setWidth 32)) s t ∧
          Frame s t none fun q => q = .chan b 1 ∨ q = .master) ∧
      ((s.chan b 1).owner ≠ .none → capTx s.par (s.chan b 1) ≤ (s.chan b 1).tx.length →
        resume .master s = .next s.afterHold) ∧
      ((s.chan b 1).owner = .none →
        resume .master s = .next (({ s with master := none } : State).afterFault (.unwrittenRead (.cfg b 1))))) ∧
    (s.master = some (.writeWait b) →
      ((s.chan b 1).owner ≠ .none → (s.chan b 1).pc = entryState (s.chan b 1).cfg.template → (s.chan b 1).tx = [] →
        ∃ t, resume .master s = .next t ∧ t.result = .none ∧ t.master = none ∧
          RecordsKept (.chWaitIdle (BitVec.ofNat 4 b) 1) s t ∧ Frame s t none fun q => q = .master) ∧
      ((s.chan b 1).owner ≠ .none →
        ((s.chan b 1).pc ≠ entryState (s.chan b 1).cfg.template ∨ (s.chan b 1).tx ≠ []) →
        resume .master s = .next s.afterHold) ∧
      ((s.chan b 1).owner = .none →
        resume .master s = .next (({ s with master := none } : State).afterFault (.unwrittenRead (.pc b 1)))))

/-- The start of an initialisation and the double initialisation (46_engine_sequences.md R284 to R286; 60_exceptions.md R302, R310; 70_reset_and_hazards.md R340, R350). That steps 1 and 2 are one step which leaves the rest to turns of their own is the model's choice (log 14); what an empty schedule does, which starts the initialisation of the role, is so too (log 2, log 3), and that the end of a second call's step performs the reactions (log 7). -/
def Obligations.InitStarts : Prop :=
  ∀ (s : State),
    (TaskReady .periphInit s →
      (s.initPeripheral = .uninit → s.boot = none →
        ∃ t, exec .periphInit s = .next t ∧ t.result = .running ∧ t.initPeripheral = .done ∧
          t.initMaster = s.initMaster ∧ t.boot = some ⟨.peripheral, 0⟩ ∧
          RecordsKept .periphInit s t ∧ Frame s t none fun q => q = .inits ∨ q = .boot) ∧
      (s.initPeripheral = .done →
        ∃ t, exec .periphInit s = .next t ∧ .doubleInit .peripheral ∈ t.faults ∧ (∀ f ∈ s.faults, f ∈ t.faults) ∧
          t.halted = true ∧ t.errorLed = true ∧ t.diag = some "peripheral engine" ∧ t.refused = s.refused ∧
          Frame s t none fun q => q = .halt)) ∧
    (TaskReady .masterInit s →
      (s.initMaster = .uninit → s.boot = none →
        ∃ t, exec .masterInit s = .next t ∧ t.result = .running ∧ t.initMaster = .done ∧
          t.initPeripheral = s.initPeripheral ∧ t.boot = some ⟨.master, 0⟩ ∧
          RecordsKept .masterInit s t ∧ Frame s t none fun q => q = .inits ∨ q = .boot) ∧
      (s.initMaster = .done →
        ∃ t, exec .masterInit s = .next t ∧ .doubleInit .master ∈ t.faults ∧ (∀ f ∈ s.faults, f ∈ t.faults) ∧
          t.halted = true ∧ t.errorLed = true ∧ t.diag = some "master engine" ∧ t.refused = s.refused ∧
          Frame s t none fun q => q = .halt)) ∧
    (s.schedule = [] → s.boot = none →
      (s.par.role = .peripheral → s.initPeripheral = .uninit → step s = exec .periphInit s) ∧
        (s.par.role = .master → s.initMaster = .uninit → step s = exec .masterInit s))

/-- The initialisations (46_engine_sequences.md R284, R285, R287; 42_pin_binder.md R150, R151; 60_exceptions.md R301; 70_reset_and_hazards.md R352). The nonzero value is free (log 29); that each operation is a turn of its own (log 14), that one which names a block, a channel or a flag that does not exist is refused as its word is (log 10) and that a refusal or a fault ends the sequence (log 15) are the model's choices. -/
def Obligations.InitSequence : Prop :=
  bootProgram Params.default .peripheral =
      [.setFuncSio 0, .setDirIn 0, .setPullUp 0, .setFuncSio 1, .setDirIn 1, .setPullUp 1, .setFuncSio 2, .setDirIn 2,
        .setPullUp 2, .setFuncSio 3, .setDirIn 3, .setPullUp 3, .setFuncSio 4, .setDirIn 4, .setPullUp 4, .setFuncSio 5,
        .setDirIn 5, .setPullUp 5, .setFuncSio 6, .setDirIn 6, .setPullUp 6, .setFuncSio 7, .setDirIn 7, .setPullUp 7,
        .configure 0 0 ⟨0x00602000, 0x00010000, 0x00000208, 0, 0xFF⟩,
        .configure 0 1 ⟨0x00602001, 0x00010000, 0x00000308, 0, 0xFF⟩,
        .configure 0 2 ⟨0x00602002, 0x00010000, 0, 0x0000010B, 0xFF⟩,
        .register 0 .read, .register 0 .write, .inte 0 0x0003, .enable 0 0x0007, .globalOn] ∧
    bootProgram Params.default .master =
      [.setPullUp 0, .setPullUp 1, .setPullUp 2, .setPullUp 3, .setPullUp 4, .setPullUp 5, .setPullUp 6, .setPullUp 7,
        .configure 0 1 ⟨0x00C82004, 0x00010000, 0x08000000, 0x00000308, 0x0B⟩,
        .configure 0 0 ⟨0x0060C803, 0x00010000, 0x00000800, 0x00000208, 0x0B⟩,
        .force 0 0x0001, .enable 0 0x0003] ∧
    ∀ (s : State), s.halted = false → s.ctx = .task →
    (∀ (m : Module) (k : Nat) (o : BootOp), s.par.valid = true → s.boot = some ⟨m, k⟩ →
      (bootProgram s.par m)[k]? = some o →
      ∃ u, exec o.instr s = .next u ∧
        ((∃ bnd, u.result = .binding bnd ∧ bnd.cfg.offset < 0) →
          ∃ w, w ≠ 0 ∧ resume .boot s = .next { u with boot := none, result := .status w }) ∧
        (Completed u.result → (∀ bnd, u.result = .binding bnd → 0 ≤ bnd.cfg.offset) →
          (k + 1 < (bootProgram s.par m).length →
            resume .boot s = .next { u with boot := some ⟨m, k + 1⟩, result := .running }) ∧
          (k + 1 = (bootProgram s.par m).length →
            resume .boot s = .next { u with boot := none, result := .status 0 })) ∧
        (¬ Completed u.result → resume .boot s = .next { u with boot := none })) ∧
    (∀ (m : Module) (k b c : Nat) (d : DescWords) (cfg : ChanCfg), s.boot = some ⟨m, k⟩ →
      (bootProgram s.par m)[k]? = some (.configure b c d) → (BootOp.configure b c d).instr.wf s.par = true →
      decodeDescriptor d = some cfg →
      (s.chan b c).owner = .none → groupsLegal s.par cfg = true → templatePinsOk s.par cfg = true →
      (∀ o, o + s.par.len cfg.template ≤ s.par.imemWords →
        ∃ j, j < s.par.len cfg.template ∧ (s.blk b).tag (o + j) ≠ .free) →
      ∃ t w, resume .boot s = .next t ∧ t.result = .status w ∧ w ≠ 0 ∧ t.boot = none ∧
        t.chan b c = { s.chan b c with enabled := false } ∧ RecordsKept (BootOp.configure b c d).instr s t ∧
        Frame s t none fun q => q = .chan b c ∨ q = .boot) ∧
    (s.boot = some ⟨.peripheral, 31⟩ →
      ∃ t, resume .boot s = .next t ∧ t.result = .status 0 ∧ t.boot = none ∧ t.irqEnabled = true ∧
        RecordsKept (.irqGlobal true) s t ∧ Frame s t none fun q => q = .irqEnabled ∨ q = .boot) ∧
    (∀ wrote, s.boot = some ⟨.master, 11⟩ → 1 ≤ s.par.numBlocks → 2 ≤ s.par.numCh →
      (s.chan 0 0).owner ≠ .none → (s.chan 0 1).owner ≠ .none →
      (wrote = if (s.chan 0 0).cfg.template = .waite ∨ (s.chan 0 1).cfg.template = .waite then some 0 else none) →
      ∃ t, resume .boot s = .next t ∧ t.result = .status 0 ∧ t.boot = none ∧
        (t.chan 0 0).enabled = true ∧ (t.chan 0 1).enabled = true ∧
        RecordsKept (.enable 0 3) s t ∧ Frame s t wrote fun q => q = .chan 0 0 ∨ q = .chan 0 1 ∨ q = .boot)

/-- The fatal halt (60_exceptions.md R310). -/
def Obligations.HaltedHolds : Prop :=
  ∀ (s : State), s.halted = true →
    (∀ i : Instr, performer i = .processor → i.wf s.par = true → exec i s = .next s.afterHold) ∧
    resume .consumer s = .next s.afterHold ∧ resume .master s = .next s.afterHold ∧
    ((∀ k, s.boot = some k → k.next < (bootProgram s.par k.module).length) → resume .boot s = .next s.afterHold)

/-- The records (10_state.md R37) and the parameters (R38). A step with an empty schedule is left out of the clause on the result, because it may leave an old result standing (log 3). -/
def Obligations.RecordsForever : Prop :=
  ∀ (s t : State), step s = .next t →
    (∀ f ∈ s.faults, f ∈ t.faults) ∧ (s.refused = true → t.refused = true) ∧
      (s.schedule ≠ [] → ∀ r, t.result = .refused r → t.refused = true) ∧ t.par = s.par

/-- Who writes the flags (43_fifo_irq.md R165, R174). -/
def Obligations.FlagsWrittenBy : Prop :=
  (∀ (i : Instr) (s t : State) (b j : Nat), exec i s = .next t →
      ((s.blk b).flag j = false → (t.blk b).flag j = true →
        (∃ b' c, b'.toNat = b ∧ ((i = .rdwFire b' c ∧ (j = s.par.irqRd ∨ j = s.par.irqHold)) ∨
          (i = .wrwFire b' c ∧ (j = s.par.irqWr ∨ j = s.par.irqHold)) ∨ (i = .rcdSample b' c ∧ j = s.par.irqMrd))) ∨
        ∃ b' m, b'.toNat = b ∧ i = .irqForce b' m ∧ m.getLsbD j = true) ∧
      ((s.blk b).flag j = true → (t.blk b).flag j = false →
        (∃ b' m, b'.toNat = b ∧ i = .irqClear b' m ∧ m.getLsbD j = true) ∨
        ∃ b', b'.toNat = b ∧ ((i = .isrRd b' ∧ j = s.par.irqRd) ∨ (i = .isrWr b' ∧ j = s.par.irqWr) ∨
          (i = .masterRead b' ∧ j = s.par.irqMrd)))) ∧
    ∀ (a : Activity) (s t : State) (b j : Nat), resume a s = .next t →
      ((s.blk b).flag j = false → (t.blk b).flag j = true → a = .boot) ∧
      ((s.blk b).flag j = true → (t.blk b).flag j = false → a = .consumer ∧ j = s.par.irqHold)

/-- Who writes `enabled` (10_state.md R26). -/
def Obligations.EnabledWrittenBy : Prop :=
  (∀ (i : Instr) (s t : State) (b c : Nat), exec i s = .next t →
      ((s.chan b c).enabled = false → (t.chan b c).enabled = true →
        ∃ b' m, b'.toNat = b ∧ i = .enable b' m ∧ m.getLsbD c = true) ∧
      ((s.chan b c).enabled = true → (t.chan b c).enabled = false →
        (∃ b' m, b'.toNat = b ∧ i = .disable b' m ∧ m.getLsbD c = true) ∨
        ∃ b' c' d, b'.toNat = b ∧ c'.toNat = c ∧ i = .configure b' c' d)) ∧
    ∀ (a : Activity) (s t : State) (b c : Nat), resume a s = .next t → (t.chan b c).enabled ≠ (s.chan b c).enabled →
      a = .boot

/-- The reaction of the enforcers (44_peripheral_fsm.md R211 to R214, R216). That an ENABLE which names one enforcer makes every enabled enforcer of its block react (log 25), and that the steps of a handler and of an initialisation are turns of their own (log 14), are the model's choices. -/
def Obligations.EnforcersFollow : Prop :=
  (∀ (i : Instr) (s t : State) (b c : Nat), exec i s = .next t → Completed t.result → flagBlock i = some b →
      (s.chan b c).enabled = true → (s.chan b c).owner ≠ .none → (s.chan b c).cfg.template = .waite →
      ((s.chan b c).pc = .idle ∨ (s.chan b c).pc = .holding) → EnforcerFollows s t b c) ∧
    (∀ (b : Nibble) (m : Half) (s t : State) (e c : Nat), exec (.enable b m) s = .next t → Completed t.result →
      m.getLsbD e = true → (s.chan b.toNat e).cfg.template = .waite →
      (m.getLsbD c = true ∨ (s.chan b.toNat c).enabled = true) →
      (s.chan b.toNat c).owner ≠ .none → (s.chan b.toNat c).cfg.template = .waite →
      ((s.chan b.toNat c).pc = .idle ∨ (s.chan b.toNat c).pc = .holding) → EnforcerFollows s t b.toNat c) ∧
    (∀ (s t : State) (v : Service) (c : Nat), resume .consumer s = .next t → Completed t.result →
      s.consumer = some v → (v.next = .readRelease ∨ v.next = .writeRelease) →
      (s.chan v.block c).enabled = true → (s.chan v.block c).owner ≠ .none → (s.chan v.block c).cfg.template = .waite →
      ((s.chan v.block c).pc = .idle ∨ (s.chan v.block c).pc = .holding) → EnforcerFollows s t v.block c) ∧
    ∀ (s t : State) (k : Boot) (b : Nat) (m : Half) (e c : Nat), resume .boot s = .next t → Completed t.result →
      s.boot = some k →
      ((bootProgram s.par k.module)[k.next]? = some (.force b m) ∨
        ((bootProgram s.par k.module)[k.next]? = some (.enable b m) ∧ m.getLsbD e = true ∧
          (s.chan b e).cfg.template = .waite)) →
      ((s.chan b c).enabled = true ∨
        ((bootProgram s.par k.module)[k.next]? = some (.enable b m) ∧ m.getLsbD c = true)) →
      (s.chan b c).owner ≠ .none → (s.chan b c).cfg.template = .waite →
      ((s.chan b c).pc = .idle ∨ (s.chan b c).pc = .holding) → EnforcerFollows s t b c

/-- The observation reactions and the records at the end of a step (44_peripheral_fsm.md R201, R208, R223; 45_master_fsm.md R246, R256; 60_exceptions.md R307, R308; log 7, log 8). A level nobody drives or pulls is drawn at each read (log 5), so the statement is about lines that are steady. That R223 reads WAIT before and after the whole step is the model's choice (log 26). -/
def Obligations.ReactionsPerformed : Prop :=
  ∀ (s t : State), s.par.valid = true → ((∃ i, exec i s = .next t) ∨ ∃ a, resume a s = .next t) → Completed t.result →
    ((∀ p, p < s.par.numGpio → (engineDrive t p).isSome = true → (envDrive t p).isSome = true →
        ∃ i, .busContention p i ∈ t.faults) ∧
      ∀ b, b < s.par.numBlocks → (t.blk b).out s.par.pins.rd = false → (t.blk b).out s.par.pins.wr = false →
        (t.blk b).oe s.par.pins.rd = true → (t.blk b).oe s.par.pins.wr = true →
        ∃ i, .strobeOverlap b i ∈ t.faults) ∧
    (s.par.role = .peripheral →
      (∀ b c, (t.chan b c).enabled = true → (t.chan b c).owner ≠ .none → (t.chan b c).cfg.template = .rdw →
        Steady t .modsel → Steady t .rd → condRd t .guard = false → (t.chan b c).pc ≠ .fired) ∧
      (∀ b c, (t.chan b c).enabled = true → (t.chan b c).owner ≠ .none → (t.chan b c).cfg.template = .wrw →
        Steady t .modsel → Steady t .wr → condWr t .guard = false → (t.chan b c).pc ≠ .fired) ∧
      (Steady t .wait → lineLevel t .guard .wait = false → t.hostPc ≠ .rdWaitLow ∧ t.hostPc ≠ .wrWaitLow) ∧
      (Steady s .wait → lineLevel s .guard .wait = false → Steady t .wait → lineLevel t .guard .wait = true →
        t.hostPc = .rdWaitRel →
        t.hostLatched = true ∧ t.hostLatchWritten = true ∧
          ∀ i : Fin 8, Steady t (.data i) → t.hostLatch.getLsbD i = lineLevel t .guard (.data i))) ∧
    (s.par.role = .master →
      (∀ b c, (t.chan b c).enabled = true → (t.chan b c).owner ≠ .none → (t.chan b c).cfg.template = .rcd →
        Steady t .wait → lineLevel t .guard .wait = false → (t.chan b c).pc ≠ .rWaitLow) ∧
      (∀ b c, (t.chan b c).enabled = true → (t.chan b c).owner ≠ .none → (t.chan b c).cfg.template = .wcd →
        Steady t .wait → lineLevel t .guard .wait = false → (t.chan b c).pc ≠ .wWaitLow) ∧
      (Steady t .modsel → Steady t .rd → condRd t .guard = false → t.perPc ≠ .rdHold) ∧
      (Steady t .modsel → Steady t .wr → condWr t .guard = false → t.perPc ≠ .wrHold))

/-- Allocation is permanent and a load writes only free words (20_memory.md R60, R62, R63). -/
def Obligations.WordsUsedForever : Prop :=
  ∀ (s t : State) (b w a : Nat), MemoryInv s → step s = .next t → (s.blk b).tag w = .used a →
    (t.blk b).tag w = .used a ∧ readByte (t.blk b).imem (2 * w) = readByte (s.blk b).imem (2 * w) ∧
      readByte (t.blk b).imem (2 * w + 1) = readByte (s.blk b).imem (2 * w + 1)

/-- The canonical form of the memory (20_memory.md R60; log 22). -/
def Obligations.MemoryInvKept : Prop :=
  ∀ (s t : State), MemoryInv s → step s = .next t → MemoryInv t

/-- Legal channels (10_state.md R21, R24, R25, R30; 41_configurator.md R101, R114; 42_pin_binder.md R135, R136) and atomic handlers (60_exceptions.md R317, R318). -/
def Obligations.ChannelsInvKept : Prop :=
  ∀ (s t : State), s.ctx = .task ∧ ChannelsInv s → step s = .next t → t.ctx = .task ∧ ChannelsInv t

/-- The first part of the invariant of 44_peripheral_fsm.md R216; its second part, on the line, needs the pin to have a single enforcer and is not claimed. -/
def Obligations.EnforcerInvKept : Prop :=
  ∀ (s t : State), ChannelsInv s → EnforcerInv s → step s = .next t → EnforcerInv t

/-- The programs in instruction memory (20_memory.md R63; 41_configurator.md R103; 10_state.md R23; log 21). -/
def Obligations.ProgramsInvKept : Prop :=
  ∀ (s t : State), ProgramsInv s → step s = .next t → ProgramsInv t

/-- The invariants at reset (70_reset_and_hazards.md R341, R342, R344). -/
def Obligations.ResetInvariants : Prop :=
  (∀ par : Params,
      MemoryInv (State.resetWith par) ∧ ((State.resetWith par).ctx = .task ∧ ChannelsInv (State.resetWith par)) ∧
        EnforcerInv (State.resetWith par) ∧ ProgramsInv (State.resetWith par)) ∧
    State.reset = State.resetWith Params.default

/-- Reset (70_reset_and_hazards.md R341 to R346; 44_peripheral_fsm.md R227). Only values the spec states. -/
def Obligations.ResetValues : Prop :=
  ∀ par : Params,
    (∀ b c, ((State.resetWith par).chan b c).enabled = false ∧ ((State.resetWith par).chan b c).owner = .none ∧
      ((State.resetWith par).chan b c).isr = 0 ∧ ((State.resetWith par).chan b c).isrCount = 0 ∧
      ((State.resetWith par).chan b c).osr = 0 ∧ ((State.resetWith par).chan b c).osrCount = 32 ∧
      ((State.resetWith par).chan b c).rx = [] ∧ ((State.resetWith par).chan b c).tx = []) ∧
    (∀ b, ((State.resetWith par).blk b).flags = 0 ∧ ((State.resetWith par).blk b).inte = 0 ∧
      (∀ a, ((State.resetWith par).blk b).tag a = .free) ∧
      (∀ p, ((State.resetWith par).blk b).out p = false ∧ ((State.resetWith par).blk b).oe p = false) ∧
      ∀ i, ((State.resetWith par).blk b).vector i = none) ∧
    (∀ p, p < par.numGpio → ((State.resetWith par).pin p).func = .null ∧ ((State.resetWith par).pin p).sioOe = false ∧
      ((State.resetWith par).pin p).sioOut = false ∧
      (par.pins.d0 ≤ p → p < par.pins.d0 + 8 → ((State.resetWith par).pin p).pull = .up) ∧
      (p < par.pins.d0 ∨ par.pins.d0 + 8 ≤ p → ((State.resetWith par).pin p).pull = par.pulls.getD p .none)) ∧
    ((State.resetWith par).initPeripheral = .uninit ∧ (State.resetWith par).initMaster = .uninit ∧
      (State.resetWith par).halted = false ∧ (State.resetWith par).errorLed = false ∧
      (State.resetWith par).diag = none ∧ (State.resetWith par).ctx = .task ∧
      (State.resetWith par).irqEnabled = false ∧ (State.resetWith par).queue = [] ∧
      (State.resetWith par).handlerRead = none ∧ (State.resetWith par).handlerWrite = none ∧
      (State.resetWith par).counter = par.counter0 ∧ (State.resetWith par).sink = [] ∧
      (State.resetWith par).refused = false ∧ (State.resetWith par).faults = [] ∧
      (State.resetWith par).master = none) ∧
    (par.role = .peripheral →
      (State.resetWith par).hostPc = .idle ∧ (State.resetWith par).hostLatched = false ∧
        (State.resetWith par).envLine .modsel = ⟨true, true⟩ ∧ (State.resetWith par).envLine .rd = ⟨true, true⟩ ∧
        (State.resetWith par).envLine .wr = ⟨true, true⟩ ∧ ((State.resetWith par).envLine .ad).drive = true ∧
        ((State.resetWith par).envLine .wait).drive = false ∧
        ∀ i, ((State.resetWith par).envLine (.data i)).drive = false) ∧
    (par.role = .master →
      (State.resetWith par).perPc = .idle ∧ (State.resetWith par).envLine .wait = ⟨true, true⟩ ∧
        ∀ X, X ≠ .wait → ((State.resetWith par).envLine X).drive = false)

end
end

