-- ==== Sys2Proof/Laws/Codec.lean ====
section
/-! SUPPORT. The fields of a word built from fields, and the word built from the fields of a word. -/

namespace Sys2Proof

@[simp] theorem opField_opWord (op : Byte) (b c : Nibble) (x : Half) : opField (opWord op b c x) = op := by
  apply BitVec.eq_of_getLsbD_eq
  intro i hi
  simp only [opField, opWord, BitVec.getLsbD_extractLsb', BitVec.getLsbD_append, hi]
  simp [show ¬ (24 + i < 16) by omega, show ¬ (24 + i - 16 < 4) by omega, show ¬ (24 + i - 16 - 4 < 4) by omega,
    show 24 + i - 16 - 4 - 4 = i by omega]

@[simp] theorem blockField_opWord (op : Byte) (b c : Nibble) (x : Half) : blockField (opWord op b c x) = b := by
  apply BitVec.eq_of_getLsbD_eq
  intro i hi
  simp only [blockField, opWord, BitVec.getLsbD_extractLsb', BitVec.getLsbD_append, hi]
  simp [show ¬ (20 + i < 16) by omega, show ¬ (20 + i - 16 < 4) by omega, show 20 + i - 16 - 4 = i by omega, hi]

@[simp] theorem chanField_opWord (op : Byte) (b c : Nibble) (x : Half) : chanField (opWord op b c x) = c := by
  apply BitVec.eq_of_getLsbD_eq
  intro i hi
  simp only [chanField, opWord, BitVec.getLsbD_extractLsb', BitVec.getLsbD_append, hi]
  simp [show ¬ (16 + i < 16) by omega, hi]

@[simp] theorem operandField_opWord (op : Byte) (b c : Nibble) (x : Half) : operandField (opWord op b c x) = x := by
  apply BitVec.eq_of_getLsbD_eq
  intro i hi
  simp only [operandField, opWord, BitVec.getLsbD_extractLsb', BitVec.getLsbD_append, hi]
  simp [hi]

/-- A word is its four fields (30_encoding.md R80). -/
theorem opWord_fields (w : Word) : opWord (opField w) (blockField w) (chanField w) (operandField w) = w := by
  apply BitVec.eq_of_getLsbD_eq
  intro i hi
  simp only [opWord, opField, blockField, chanField, operandField, BitVec.getLsbD_append, BitVec.getLsbD_extractLsb']
  split
  · simp_all
  · split
    · simp only [show i - 16 < 4 by omega, decide_true, Bool.true_and]; congr 1; omega
    · split
      · simp only [show i - 16 - 4 < 4 by omega, decide_true, Bool.true_and]; congr 1; omega
      · simp only [show i - 16 - 4 - 4 < 8 by omega, decide_true, Bool.true_and]; congr 1; omega

@[simp] theorem highByte_halfOf (hi lo : Byte) : highByte (halfOf hi lo) = hi := by
  apply BitVec.eq_of_getLsbD_eq
  intro i h
  simp only [highByte, halfOf, BitVec.getLsbD_extractLsb', BitVec.getLsbD_append, h]
  simp [show ¬ (8 + i < 8) by omega]

@[simp] theorem lowByte_halfOf (hi lo : Byte) : lowByte (halfOf hi lo) = lo := by
  apply BitVec.eq_of_getLsbD_eq
  intro i h
  simp only [lowByte, halfOf, BitVec.getLsbD_extractLsb', BitVec.getLsbD_append, h]
  simp [h]

/-- An operand is its two bytes. -/
theorem halfOf_bytes (x : Half) : halfOf (highByte x) (lowByte x) = x := by
  apply BitVec.eq_of_getLsbD_eq
  intro i hi
  simp only [halfOf, highByte, lowByte, BitVec.getLsbD_append, BitVec.getLsbD_extractLsb']
  split
  · simp_all
  · rw [decide_eq_true (by omega), Bool.true_and]; congr 1; omega

@[simp] theorem bitOf_byteOfBit (v : Bool) : bitOf (byteOfBit v) = some v := by cases v <;> rfl

theorem byteOfBit_of_bitOf {x : Byte} {v : Bool} (h : bitOf x = some v) : byteOfBit v = x := by
  unfold bitOf at h
  split at h
  · cases h; simp_all [byteOfBit]
  · split at h
    · cases h; simp_all [byteOfBit]
    · cases h

@[simp] theorem kindOfBit_bitOfKind (k : Kind) : kindOfBit (bitOfKind k) = k := by cases k <;> rfl

@[simp] theorem bitOfKind_kindOfBit (v : Bool) : bitOfKind (kindOfBit v) = v := by cases v <;> rfl

theorem pull_low (pull : BitVec 2) : (0#6 ++ pull : Byte).extractLsb' 0 2 = pull := by revert pull; decide

theorem pull_high (pull : BitVec 2) : (0#6 ++ pull : Byte).extractLsb' 2 6 = 0 := by revert pull; decide

theorem pull_byte {x : Byte} (h : x.extractLsb' 2 6 = 0) : (0#6 ++ x.extractLsb' 0 2 : Byte) = x := by
  revert x; decide

/-- What the two ways to accept an operation mean. -/
theorem accept_ok {ok : Bool} {i j : Instr} {rest rest' : List Word} :
    accept ok i rest = .ok (j, rest') ↔ ok = true ∧ i = j ∧ rest = rest' := by
  cases ok <;> simp [accept]

theorem acceptBit_ok {ok : Bool} {x : Byte} {f : Bool → Instr} {j : Instr} {rest rest' : List Word} :
    acceptBit ok x f rest = .ok (j, rest') ↔ ∃ v, bitOf x = some v ∧ ok = true ∧ f v = j ∧ rest = rest' := by
  unfold acceptBit
  cases h : bitOf x <;> simp [accept_ok]

/-- `decode` of a word built from fields is `decodeFields` of those fields. -/
theorem decode_opWord (par : Params) (op : Byte) (b c : Nibble) (x : Half) (rest : List Word) :
    decode par (opWord op b c x :: rest) = decodeFields par op b c x rest := by
  simp only [decode, opField_opWord, blockField_opWord, chanField_opWord, operandField_opWord]

end Sys2Proof
end

