-- ==== Sys2Proof/Laws/Table.lean ====
section
/-! SUPPORT. Reading a table after writing it: what `tabSet`, `tabModify`, `tabModifyRun` and `mapFrom` can change. -/

namespace Sys2Proof.Machine

theorem tabSet_getD {α : Type} (d : α) (l : List α) (i : Nat) (v : α) (j : Nat) :
    (tabSet d l i v).getD j d = if j = i then v else l.getD j d := by
  induction l generalizing i j with
  | nil =>
    induction i generalizing j with
    | zero => cases j <;> simp [tabSet]
    | succ n ih => cases j with
      | zero => simp [tabSet]
      | succ m => simpa [tabSet] using ih m
  | cons x xs ih =>
    cases i <;> cases j <;> simp [tabSet]
    simpa using ih _ _

theorem tabModify_getD {α : Type} (d : α) (l : List α) (i : Nat) (f : α → α) (j : Nat) :
    (tabModify d l i f).getD j d = if j = i then f (l.getD i d) else l.getD j d := by
  simp only [tabModify, tabSet_getD]

theorem tabModifyRun_getD {α : Type} (d : α) (l : List α) (base n : Nat) (f : Nat → α → α) (j : Nat) :
    (tabModifyRun d l base n f).getD j d
      = if base ≤ j ∧ j < base + n then f (j - base) (l.getD j d) else l.getD j d := by
  induction n generalizing j with
  | zero => rw [tabModifyRun, if_neg (by omega)]
  | succ n ih =>
    rw [tabModifyRun, tabModify_getD]
    by_cases h : j = base + n
    · subst h
      rw [if_pos rfl, if_pos (by omega), ih, if_neg (by omega), Nat.add_sub_cancel_left]
    · rw [if_neg h, ih]
      by_cases h' : base ≤ j ∧ j < base + n
      · rw [if_pos h', if_pos (by omega)]
      · rw [if_neg h', if_neg (by omega)]

theorem mapFrom_getD {α : Type} (d : α) (f : Nat → α → α) (k : Nat) (l : List α) (j : Nat) (hd : ∀ i, f i d = d) :
    (mapFrom f k l).getD j d = f (k + j) (l.getD j d) := by
  induction l generalizing k j with
  | nil => simp [mapFrom, hd]
  | cons x xs ih =>
    cases j with
    | zero => simp [mapFrom]
    | succ j =>
      have h := ih (k + 1) j
      simp only [mapFrom, List.getD_cons_succ] at *
      rw [h]; congr 1; omega

theorem map_getD {α : Type} (d : α) (f : α → α) (l : List α) (j : Nat) (hd : f d = d) :
    (l.map f).getD j d = f (l.getD j d) := by
  induction l generalizing j with
  | nil => simp [hd]
  | cons x xs ih =>
    cases j with
    | zero => simp
    | succ j => simpa using ih j

/-- A property of every entry, past the end too, is what `List.any` decides. -/
theorem any_eq_true_iff_getD {α : Type} (d : α) (p : α → Bool) (l : List α) (hd : p d = false) :
    l.any p = true ↔ ∃ j, p (l.getD j d) = true := by
  constructor
  · intro h
    obtain ⟨x, hx, hp⟩ := List.any_eq_true.mp h
    obtain ⟨j, hj, rfl⟩ := List.getElem_of_mem hx
    exact ⟨j, by simpa [List.getD_eq_getElem, hj] using hp⟩
  · rintro ⟨j, hp⟩
    by_cases hj : j < l.length
    · exact List.any_eq_true.mpr ⟨l[j], List.getElem_mem hj, by simpa [List.getD_eq_getElem, hj] using hp⟩
    · rw [List.getD_eq_default _ _ (by omega), hd] at hp; cases hp

end Sys2Proof.Machine
end

