-- ==== Sys2Proof/Laws/State.lean ====
section
/-! SUPPORT. Each update of the state leaves the other fields alone, one lemma a field (true by rfl), and what each read
gives after each update. -/

namespace Sys2Proof.Machine

/-! ### Fields after updates -/

@[simp] theorem modBlk_par (s : State) (b : Nat) (f : Block → Block) : (s.modBlk b f).par = s.par := rfl
@[simp] theorem modBlk_schedule (s : State) (b : Nat) (f : Block → Block) : (s.modBlk b f).schedule = s.schedule := rfl
@[simp] theorem modBlk_tick (s : State) (b : Nat) (f : Block → Block) : (s.modBlk b f).tick = s.tick := rfl
@[simp] theorem modBlk_result (s : State) (b : Nat) (f : Block → Block) : (s.modBlk b f).result = s.result := rfl
@[simp] theorem modBlk_gpio (s : State) (b : Nat) (f : Block → Block) : (s.modBlk b f).gpio = s.gpio := rfl
@[simp] theorem modBlk_env (s : State) (b : Nat) (f : Block → Block) : (s.modBlk b f).env = s.env := rfl
@[simp] theorem modBlk_hostPc (s : State) (b : Nat) (f : Block → Block) : (s.modBlk b f).hostPc = s.hostPc := rfl
@[simp] theorem modBlk_hostLatch (s : State) (b : Nat) (f : Block → Block) : (s.modBlk b f).hostLatch = s.hostLatch := rfl
@[simp] theorem modBlk_hostLatchWritten (s : State) (b : Nat) (f : Block → Block) : (s.modBlk b f).hostLatchWritten = s.hostLatchWritten := rfl
@[simp] theorem modBlk_hostLatched (s : State) (b : Nat) (f : Block → Block) : (s.modBlk b f).hostLatched = s.hostLatched := rfl
@[simp] theorem modBlk_perPc (s : State) (b : Nat) (f : Block → Block) : (s.modBlk b f).perPc = s.perPc := rfl
@[simp] theorem modBlk_echo (s : State) (b : Nat) (f : Block → Block) : (s.modBlk b f).echo = s.echo := rfl
@[simp] theorem modBlk_initPeripheral (s : State) (b : Nat) (f : Block → Block) : (s.modBlk b f).initPeripheral = s.initPeripheral := rfl
@[simp] theorem modBlk_initMaster (s : State) (b : Nat) (f : Block → Block) : (s.modBlk b f).initMaster = s.initMaster := rfl
@[simp] theorem modBlk_halted (s : State) (b : Nat) (f : Block → Block) : (s.modBlk b f).halted = s.halted := rfl
@[simp] theorem modBlk_errorLed (s : State) (b : Nat) (f : Block → Block) : (s.modBlk b f).errorLed = s.errorLed := rfl
@[simp] theorem modBlk_diag (s : State) (b : Nat) (f : Block → Block) : (s.modBlk b f).diag = s.diag := rfl
@[simp] theorem modBlk_ctx (s : State) (b : Nat) (f : Block → Block) : (s.modBlk b f).ctx = s.ctx := rfl
@[simp] theorem modBlk_irqEnabled (s : State) (b : Nat) (f : Block → Block) : (s.modBlk b f).irqEnabled = s.irqEnabled := rfl
@[simp] theorem modBlk_queue (s : State) (b : Nat) (f : Block → Block) : (s.modBlk b f).queue = s.queue := rfl
@[simp] theorem modBlk_handlerRead (s : State) (b : Nat) (f : Block → Block) : (s.modBlk b f).handlerRead = s.handlerRead := rfl
@[simp] theorem modBlk_handlerWrite (s : State) (b : Nat) (f : Block → Block) : (s.modBlk b f).handlerWrite = s.handlerWrite := rfl
@[simp] theorem modBlk_consumer (s : State) (b : Nat) (f : Block → Block) : (s.modBlk b f).consumer = s.consumer := rfl
@[simp] theorem modBlk_master (s : State) (b : Nat) (f : Block → Block) : (s.modBlk b f).master = s.master := rfl
@[simp] theorem modBlk_boot (s : State) (b : Nat) (f : Block → Block) : (s.modBlk b f).boot = s.boot := rfl
@[simp] theorem modBlk_counter (s : State) (b : Nat) (f : Block → Block) : (s.modBlk b f).counter = s.counter := rfl
@[simp] theorem modBlk_sink (s : State) (b : Nat) (f : Block → Block) : (s.modBlk b f).sink = s.sink := rfl
@[simp] theorem modBlk_faults (s : State) (b : Nat) (f : Block → Block) : (s.modBlk b f).faults = s.faults := rfl
@[simp] theorem modBlk_refused (s : State) (b : Nat) (f : Block → Block) : (s.modBlk b f).refused = s.refused := rfl

@[simp] theorem modPin_par (s : State) (p : Nat) (f : Pin → Pin) : (s.modPin p f).par = s.par := rfl
@[simp] theorem modPin_schedule (s : State) (p : Nat) (f : Pin → Pin) : (s.modPin p f).schedule = s.schedule := rfl
@[simp] theorem modPin_tick (s : State) (p : Nat) (f : Pin → Pin) : (s.modPin p f).tick = s.tick := rfl
@[simp] theorem modPin_result (s : State) (p : Nat) (f : Pin → Pin) : (s.modPin p f).result = s.result := rfl
@[simp] theorem modPin_blks (s : State) (p : Nat) (f : Pin → Pin) : (s.modPin p f).blks = s.blks := rfl
@[simp] theorem modPin_env (s : State) (p : Nat) (f : Pin → Pin) : (s.modPin p f).env = s.env := rfl
@[simp] theorem modPin_hostPc (s : State) (p : Nat) (f : Pin → Pin) : (s.modPin p f).hostPc = s.hostPc := rfl
@[simp] theorem modPin_hostLatch (s : State) (p : Nat) (f : Pin → Pin) : (s.modPin p f).hostLatch = s.hostLatch := rfl
@[simp] theorem modPin_hostLatchWritten (s : State) (p : Nat) (f : Pin → Pin) : (s.modPin p f).hostLatchWritten = s.hostLatchWritten := rfl
@[simp] theorem modPin_hostLatched (s : State) (p : Nat) (f : Pin → Pin) : (s.modPin p f).hostLatched = s.hostLatched := rfl
@[simp] theorem modPin_perPc (s : State) (p : Nat) (f : Pin → Pin) : (s.modPin p f).perPc = s.perPc := rfl
@[simp] theorem modPin_echo (s : State) (p : Nat) (f : Pin → Pin) : (s.modPin p f).echo = s.echo := rfl
@[simp] theorem modPin_initPeripheral (s : State) (p : Nat) (f : Pin → Pin) : (s.modPin p f).initPeripheral = s.initPeripheral := rfl
@[simp] theorem modPin_initMaster (s : State) (p : Nat) (f : Pin → Pin) : (s.modPin p f).initMaster = s.initMaster := rfl
@[simp] theorem modPin_halted (s : State) (p : Nat) (f : Pin → Pin) : (s.modPin p f).halted = s.halted := rfl
@[simp] theorem modPin_errorLed (s : State) (p : Nat) (f : Pin → Pin) : (s.modPin p f).errorLed = s.errorLed := rfl
@[simp] theorem modPin_diag (s : State) (p : Nat) (f : Pin → Pin) : (s.modPin p f).diag = s.diag := rfl
@[simp] theorem modPin_ctx (s : State) (p : Nat) (f : Pin → Pin) : (s.modPin p f).ctx = s.ctx := rfl
@[simp] theorem modPin_irqEnabled (s : State) (p : Nat) (f : Pin → Pin) : (s.modPin p f).irqEnabled = s.irqEnabled := rfl
@[simp] theorem modPin_queue (s : State) (p : Nat) (f : Pin → Pin) : (s.modPin p f).queue = s.queue := rfl
@[simp] theorem modPin_handlerRead (s : State) (p : Nat) (f : Pin → Pin) : (s.modPin p f).handlerRead = s.handlerRead := rfl
@[simp] theorem modPin_handlerWrite (s : State) (p : Nat) (f : Pin → Pin) : (s.modPin p f).handlerWrite = s.handlerWrite := rfl
@[simp] theorem modPin_consumer (s : State) (p : Nat) (f : Pin → Pin) : (s.modPin p f).consumer = s.consumer := rfl
@[simp] theorem modPin_master (s : State) (p : Nat) (f : Pin → Pin) : (s.modPin p f).master = s.master := rfl
@[simp] theorem modPin_boot (s : State) (p : Nat) (f : Pin → Pin) : (s.modPin p f).boot = s.boot := rfl
@[simp] theorem modPin_counter (s : State) (p : Nat) (f : Pin → Pin) : (s.modPin p f).counter = s.counter := rfl
@[simp] theorem modPin_sink (s : State) (p : Nat) (f : Pin → Pin) : (s.modPin p f).sink = s.sink := rfl
@[simp] theorem modPin_faults (s : State) (p : Nat) (f : Pin → Pin) : (s.modPin p f).faults = s.faults := rfl
@[simp] theorem modPin_refused (s : State) (p : Nat) (f : Pin → Pin) : (s.modPin p f).refused = s.refused := rfl

@[simp] theorem modPins_par (s : State) (base n : Nat) (f : Nat → Pin → Pin) : (s.modPins base n f).par = s.par := rfl
@[simp] theorem modPins_schedule (s : State) (base n : Nat) (f : Nat → Pin → Pin) : (s.modPins base n f).schedule = s.schedule := rfl
@[simp] theorem modPins_tick (s : State) (base n : Nat) (f : Nat → Pin → Pin) : (s.modPins base n f).tick = s.tick := rfl
@[simp] theorem modPins_result (s : State) (base n : Nat) (f : Nat → Pin → Pin) : (s.modPins base n f).result = s.result := rfl
@[simp] theorem modPins_blks (s : State) (base n : Nat) (f : Nat → Pin → Pin) : (s.modPins base n f).blks = s.blks := rfl
@[simp] theorem modPins_env (s : State) (base n : Nat) (f : Nat → Pin → Pin) : (s.modPins base n f).env = s.env := rfl
@[simp] theorem modPins_hostPc (s : State) (base n : Nat) (f : Nat → Pin → Pin) : (s.modPins base n f).hostPc = s.hostPc := rfl
@[simp] theorem modPins_hostLatch (s : State) (base n : Nat) (f : Nat → Pin → Pin) : (s.modPins base n f).hostLatch = s.hostLatch := rfl
@[simp] theorem modPins_hostLatchWritten (s : State) (base n : Nat) (f : Nat → Pin → Pin) : (s.modPins base n f).hostLatchWritten = s.hostLatchWritten := rfl
@[simp] theorem modPins_hostLatched (s : State) (base n : Nat) (f : Nat → Pin → Pin) : (s.modPins base n f).hostLatched = s.hostLatched := rfl
@[simp] theorem modPins_perPc (s : State) (base n : Nat) (f : Nat → Pin → Pin) : (s.modPins base n f).perPc = s.perPc := rfl
@[simp] theorem modPins_echo (s : State) (base n : Nat) (f : Nat → Pin → Pin) : (s.modPins base n f).echo = s.echo := rfl
@[simp] theorem modPins_initPeripheral (s : State) (base n : Nat) (f : Nat → Pin → Pin) : (s.modPins base n f).initPeripheral = s.initPeripheral := rfl
@[simp] theorem modPins_initMaster (s : State) (base n : Nat) (f : Nat → Pin → Pin) : (s.modPins base n f).initMaster = s.initMaster := rfl
@[simp] theorem modPins_halted (s : State) (base n : Nat) (f : Nat → Pin → Pin) : (s.modPins base n f).halted = s.halted := rfl
@[simp] theorem modPins_errorLed (s : State) (base n : Nat) (f : Nat → Pin → Pin) : (s.modPins base n f).errorLed = s.errorLed := rfl
@[simp] theorem modPins_diag (s : State) (base n : Nat) (f : Nat → Pin → Pin) : (s.modPins base n f).diag = s.diag := rfl
@[simp] theorem modPins_ctx (s : State) (base n : Nat) (f : Nat → Pin → Pin) : (s.modPins base n f).ctx = s.ctx := rfl
@[simp] theorem modPins_irqEnabled (s : State) (base n : Nat) (f : Nat → Pin → Pin) : (s.modPins base n f).irqEnabled = s.irqEnabled := rfl
@[simp] theorem modPins_queue (s : State) (base n : Nat) (f : Nat → Pin → Pin) : (s.modPins base n f).queue = s.queue := rfl
@[simp] theorem modPins_handlerRead (s : State) (base n : Nat) (f : Nat → Pin → Pin) : (s.modPins base n f).handlerRead = s.handlerRead := rfl
@[simp] theorem modPins_handlerWrite (s : State) (base n : Nat) (f : Nat → Pin → Pin) : (s.modPins base n f).handlerWrite = s.handlerWrite := rfl
@[simp] theorem modPins_consumer (s : State) (base n : Nat) (f : Nat → Pin → Pin) : (s.modPins base n f).consumer = s.consumer := rfl
@[simp] theorem modPins_master (s : State) (base n : Nat) (f : Nat → Pin → Pin) : (s.modPins base n f).master = s.master := rfl
@[simp] theorem modPins_boot (s : State) (base n : Nat) (f : Nat → Pin → Pin) : (s.modPins base n f).boot = s.boot := rfl
@[simp] theorem modPins_counter (s : State) (base n : Nat) (f : Nat → Pin → Pin) : (s.modPins base n f).counter = s.counter := rfl
@[simp] theorem modPins_sink (s : State) (base n : Nat) (f : Nat → Pin → Pin) : (s.modPins base n f).sink = s.sink := rfl
@[simp] theorem modPins_faults (s : State) (base n : Nat) (f : Nat → Pin → Pin) : (s.modPins base n f).faults = s.faults := rfl
@[simp] theorem modPins_refused (s : State) (base n : Nat) (f : Nat → Pin → Pin) : (s.modPins base n f).refused = s.refused := rfl

@[simp] theorem modEnv_par (s : State) (X : Line) (f : EnvLine → EnvLine) : (s.modEnv X f).par = s.par := rfl
@[simp] theorem modEnv_schedule (s : State) (X : Line) (f : EnvLine → EnvLine) : (s.modEnv X f).schedule = s.schedule := rfl
@[simp] theorem modEnv_tick (s : State) (X : Line) (f : EnvLine → EnvLine) : (s.modEnv X f).tick = s.tick := rfl
@[simp] theorem modEnv_result (s : State) (X : Line) (f : EnvLine → EnvLine) : (s.modEnv X f).result = s.result := rfl
@[simp] theorem modEnv_blks (s : State) (X : Line) (f : EnvLine → EnvLine) : (s.modEnv X f).blks = s.blks := rfl
@[simp] theorem modEnv_gpio (s : State) (X : Line) (f : EnvLine → EnvLine) : (s.modEnv X f).gpio = s.gpio := rfl
@[simp] theorem modEnv_hostPc (s : State) (X : Line) (f : EnvLine → EnvLine) : (s.modEnv X f).hostPc = s.hostPc := rfl
@[simp] theorem modEnv_hostLatch (s : State) (X : Line) (f : EnvLine → EnvLine) : (s.modEnv X f).hostLatch = s.hostLatch := rfl
@[simp] theorem modEnv_hostLatchWritten (s : State) (X : Line) (f : EnvLine → EnvLine) : (s.modEnv X f).hostLatchWritten = s.hostLatchWritten := rfl
@[simp] theorem modEnv_hostLatched (s : State) (X : Line) (f : EnvLine → EnvLine) : (s.modEnv X f).hostLatched = s.hostLatched := rfl
@[simp] theorem modEnv_perPc (s : State) (X : Line) (f : EnvLine → EnvLine) : (s.modEnv X f).perPc = s.perPc := rfl
@[simp] theorem modEnv_echo (s : State) (X : Line) (f : EnvLine → EnvLine) : (s.modEnv X f).echo = s.echo := rfl
@[simp] theorem modEnv_initPeripheral (s : State) (X : Line) (f : EnvLine → EnvLine) : (s.modEnv X f).initPeripheral = s.initPeripheral := rfl
@[simp] theorem modEnv_initMaster (s : State) (X : Line) (f : EnvLine → EnvLine) : (s.modEnv X f).initMaster = s.initMaster := rfl
@[simp] theorem modEnv_halted (s : State) (X : Line) (f : EnvLine → EnvLine) : (s.modEnv X f).halted = s.halted := rfl
@[simp] theorem modEnv_errorLed (s : State) (X : Line) (f : EnvLine → EnvLine) : (s.modEnv X f).errorLed = s.errorLed := rfl
@[simp] theorem modEnv_diag (s : State) (X : Line) (f : EnvLine → EnvLine) : (s.modEnv X f).diag = s.diag := rfl
@[simp] theorem modEnv_ctx (s : State) (X : Line) (f : EnvLine → EnvLine) : (s.modEnv X f).ctx = s.ctx := rfl
@[simp] theorem modEnv_irqEnabled (s : State) (X : Line) (f : EnvLine → EnvLine) : (s.modEnv X f).irqEnabled = s.irqEnabled := rfl
@[simp] theorem modEnv_queue (s : State) (X : Line) (f : EnvLine → EnvLine) : (s.modEnv X f).queue = s.queue := rfl
@[simp] theorem modEnv_handlerRead (s : State) (X : Line) (f : EnvLine → EnvLine) : (s.modEnv X f).handlerRead = s.handlerRead := rfl
@[simp] theorem modEnv_handlerWrite (s : State) (X : Line) (f : EnvLine → EnvLine) : (s.modEnv X f).handlerWrite = s.handlerWrite := rfl
@[simp] theorem modEnv_consumer (s : State) (X : Line) (f : EnvLine → EnvLine) : (s.modEnv X f).consumer = s.consumer := rfl
@[simp] theorem modEnv_master (s : State) (X : Line) (f : EnvLine → EnvLine) : (s.modEnv X f).master = s.master := rfl
@[simp] theorem modEnv_boot (s : State) (X : Line) (f : EnvLine → EnvLine) : (s.modEnv X f).boot = s.boot := rfl
@[simp] theorem modEnv_counter (s : State) (X : Line) (f : EnvLine → EnvLine) : (s.modEnv X f).counter = s.counter := rfl
@[simp] theorem modEnv_sink (s : State) (X : Line) (f : EnvLine → EnvLine) : (s.modEnv X f).sink = s.sink := rfl
@[simp] theorem modEnv_faults (s : State) (X : Line) (f : EnvLine → EnvLine) : (s.modEnv X f).faults = s.faults := rfl
@[simp] theorem modEnv_refused (s : State) (X : Line) (f : EnvLine → EnvLine) : (s.modEnv X f).refused = s.refused := rfl

@[simp] theorem modEnvData_par (s : State) (f : Nat → EnvLine → EnvLine) : (s.modEnvData f).par = s.par := rfl
@[simp] theorem modEnvData_schedule (s : State) (f : Nat → EnvLine → EnvLine) : (s.modEnvData f).schedule = s.schedule := rfl
@[simp] theorem modEnvData_tick (s : State) (f : Nat → EnvLine → EnvLine) : (s.modEnvData f).tick = s.tick := rfl
@[simp] theorem modEnvData_result (s : State) (f : Nat → EnvLine → EnvLine) : (s.modEnvData f).result = s.result := rfl
@[simp] theorem modEnvData_blks (s : State) (f : Nat → EnvLine → EnvLine) : (s.modEnvData f).blks = s.blks := rfl
@[simp] theorem modEnvData_gpio (s : State) (f : Nat → EnvLine → EnvLine) : (s.modEnvData f).gpio = s.gpio := rfl
@[simp] theorem modEnvData_hostPc (s : State) (f : Nat → EnvLine → EnvLine) : (s.modEnvData f).hostPc = s.hostPc := rfl
@[simp] theorem modEnvData_hostLatch (s : State) (f : Nat → EnvLine → EnvLine) : (s.modEnvData f).hostLatch = s.hostLatch := rfl
@[simp] theorem modEnvData_hostLatchWritten (s : State) (f : Nat → EnvLine → EnvLine) : (s.modEnvData f).hostLatchWritten = s.hostLatchWritten := rfl
@[simp] theorem modEnvData_hostLatched (s : State) (f : Nat → EnvLine → EnvLine) : (s.modEnvData f).hostLatched = s.hostLatched := rfl
@[simp] theorem modEnvData_perPc (s : State) (f : Nat → EnvLine → EnvLine) : (s.modEnvData f).perPc = s.perPc := rfl
@[simp] theorem modEnvData_echo (s : State) (f : Nat → EnvLine → EnvLine) : (s.modEnvData f).echo = s.echo := rfl
@[simp] theorem modEnvData_initPeripheral (s : State) (f : Nat → EnvLine → EnvLine) : (s.modEnvData f).initPeripheral = s.initPeripheral := rfl
@[simp] theorem modEnvData_initMaster (s : State) (f : Nat → EnvLine → EnvLine) : (s.modEnvData f).initMaster = s.initMaster := rfl
@[simp] theorem modEnvData_halted (s : State) (f : Nat → EnvLine → EnvLine) : (s.modEnvData f).halted = s.halted := rfl
@[simp] theorem modEnvData_errorLed (s : State) (f : Nat → EnvLine → EnvLine) : (s.modEnvData f).errorLed = s.errorLed := rfl
@[simp] theorem modEnvData_diag (s : State) (f : Nat → EnvLine → EnvLine) : (s.modEnvData f).diag = s.diag := rfl
@[simp] theorem modEnvData_ctx (s : State) (f : Nat → EnvLine → EnvLine) : (s.modEnvData f).ctx = s.ctx := rfl
@[simp] theorem modEnvData_irqEnabled (s : State) (f : Nat → EnvLine → EnvLine) : (s.modEnvData f).irqEnabled = s.irqEnabled := rfl
@[simp] theorem modEnvData_queue (s : State) (f : Nat → EnvLine → EnvLine) : (s.modEnvData f).queue = s.queue := rfl
@[simp] theorem modEnvData_handlerRead (s : State) (f : Nat → EnvLine → EnvLine) : (s.modEnvData f).handlerRead = s.handlerRead := rfl
@[simp] theorem modEnvData_handlerWrite (s : State) (f : Nat → EnvLine → EnvLine) : (s.modEnvData f).handlerWrite = s.handlerWrite := rfl
@[simp] theorem modEnvData_consumer (s : State) (f : Nat → EnvLine → EnvLine) : (s.modEnvData f).consumer = s.consumer := rfl
@[simp] theorem modEnvData_master (s : State) (f : Nat → EnvLine → EnvLine) : (s.modEnvData f).master = s.master := rfl
@[simp] theorem modEnvData_boot (s : State) (f : Nat → EnvLine → EnvLine) : (s.modEnvData f).boot = s.boot := rfl
@[simp] theorem modEnvData_counter (s : State) (f : Nat → EnvLine → EnvLine) : (s.modEnvData f).counter = s.counter := rfl
@[simp] theorem modEnvData_sink (s : State) (f : Nat → EnvLine → EnvLine) : (s.modEnvData f).sink = s.sink := rfl
@[simp] theorem modEnvData_faults (s : State) (f : Nat → EnvLine → EnvLine) : (s.modEnvData f).faults = s.faults := rfl
@[simp] theorem modEnvData_refused (s : State) (f : Nat → EnvLine → EnvLine) : (s.modEnvData f).refused = s.refused := rfl

@[simp] theorem modChan_par (s : State) (b c : Nat) (f : Channel → Channel) :
    (s.modChan b c f).par = s.par := rfl
@[simp] theorem modChan_schedule (s : State) (b c : Nat) (f : Channel → Channel) :
    (s.modChan b c f).schedule = s.schedule := rfl
@[simp] theorem modChan_tick (s : State) (b c : Nat) (f : Channel → Channel) :
    (s.modChan b c f).tick = s.tick := rfl
@[simp] theorem modChan_result (s : State) (b c : Nat) (f : Channel → Channel) :
    (s.modChan b c f).result = s.result := rfl
@[simp] theorem modChan_gpio (s : State) (b c : Nat) (f : Channel → Channel) :
    (s.modChan b c f).gpio = s.gpio := rfl
@[simp] theorem modChan_env (s : State) (b c : Nat) (f : Channel → Channel) :
    (s.modChan b c f).env = s.env := rfl
@[simp] theorem modChan_hostPc (s : State) (b c : Nat) (f : Channel → Channel) :
    (s.modChan b c f).hostPc = s.hostPc := rfl
@[simp] theorem modChan_hostLatch (s : State) (b c : Nat) (f : Channel → Channel) :
    (s.modChan b c f).hostLatch = s.hostLatch := rfl
@[simp] theorem modChan_hostLatchWritten (s : State) (b c : Nat) (f : Channel → Channel) :
    (s.modChan b c f).hostLatchWritten = s.hostLatchWritten := rfl
@[simp] theorem modChan_hostLatched (s : State) (b c : Nat) (f : Channel → Channel) :
    (s.modChan b c f).hostLatched = s.hostLatched := rfl
@[simp] theorem modChan_perPc (s : State) (b c : Nat) (f : Channel → Channel) :
    (s.modChan b c f).perPc = s.perPc := rfl
@[simp] theorem modChan_echo (s : State) (b c : Nat) (f : Channel → Channel) :
    (s.modChan b c f).echo = s.echo := rfl
@[simp] theorem modChan_initPeripheral (s : State) (b c : Nat) (f : Channel → Channel) :
    (s.modChan b c f).initPeripheral = s.initPeripheral := rfl
@[simp] theorem modChan_initMaster (s : State) (b c : Nat) (f : Channel → Channel) :
    (s.modChan b c f).initMaster = s.initMaster := rfl
@[simp] theorem modChan_halted (s : State) (b c : Nat) (f : Channel → Channel) :
    (s.modChan b c f).halted = s.halted := rfl
@[simp] theorem modChan_errorLed (s : State) (b c : Nat) (f : Channel → Channel) :
    (s.modChan b c f).errorLed = s.errorLed := rfl
@[simp] theorem modChan_diag (s : State) (b c : Nat) (f : Channel → Channel) :
    (s.modChan b c f).diag = s.diag := rfl
@[simp] theorem modChan_ctx (s : State) (b c : Nat) (f : Channel → Channel) :
    (s.modChan b c f).ctx = s.ctx := rfl
@[simp] theorem modChan_irqEnabled (s : State) (b c : Nat) (f : Channel → Channel) :
    (s.modChan b c f).irqEnabled = s.irqEnabled := rfl
@[simp] theorem modChan_queue (s : State) (b c : Nat) (f : Channel → Channel) :
    (s.modChan b c f).queue = s.queue := rfl
@[simp] theorem modChan_handlerRead (s : State) (b c : Nat) (f : Channel → Channel) :
    (s.modChan b c f).handlerRead = s.handlerRead := rfl
@[simp] theorem modChan_handlerWrite (s : State) (b c : Nat) (f : Channel → Channel) :
    (s.modChan b c f).handlerWrite = s.handlerWrite := rfl
@[simp] theorem modChan_consumer (s : State) (b c : Nat) (f : Channel → Channel) :
    (s.modChan b c f).consumer = s.consumer := rfl
@[simp] theorem modChan_master (s : State) (b c : Nat) (f : Channel → Channel) :
    (s.modChan b c f).master = s.master := rfl
@[simp] theorem modChan_boot (s : State) (b c : Nat) (f : Channel → Channel) :
    (s.modChan b c f).boot = s.boot := rfl
@[simp] theorem modChan_counter (s : State) (b c : Nat) (f : Channel → Channel) :
    (s.modChan b c f).counter = s.counter := rfl
@[simp] theorem modChan_sink (s : State) (b c : Nat) (f : Channel → Channel) :
    (s.modChan b c f).sink = s.sink := rfl
@[simp] theorem modChan_faults (s : State) (b c : Nat) (f : Channel → Channel) :
    (s.modChan b c f).faults = s.faults := rfl
@[simp] theorem modChan_refused (s : State) (b c : Nat) (f : Channel → Channel) :
    (s.modChan b c f).refused = s.refused := rfl

/-! ### Reads after updates of blocks -/

theorem blk_modBlk (s : State) (b b' : Nat) (f : Block → Block) :
    (s.modBlk b f).blk b' = if b' = b then f (s.blk b) else s.blk b' := tabModify_getD ..

@[simp] theorem blk_modBlk_self (s : State) (b : Nat) (f : Block → Block) : (s.modBlk b f).blk b = f (s.blk b) := by
  simp [blk_modBlk]

@[simp] theorem blk_modBlk_ne (s : State) {b b' : Nat} (f : Block → Block) (h : b' ≠ b) :
    (s.modBlk b f).blk b' = s.blk b' := by simp [blk_modBlk, h]

theorem chan_modBlk (s : State) (b b' c : Nat) (f : Block → Block) :
    (s.modBlk b f).chan b' c = if b' = b then (f (s.blk b)).chan c else s.chan b' c := by
  simp only [State.chan, blk_modBlk]; split <;> rfl

theorem chan_modChan (k : Block) (c c' : Nat) (f : Channel → Channel) :
    (k.modChan c f).chan c' = if c' = c then f (k.chan c) else k.chan c' := tabModify_getD ..

theorem state_chan_modChan (s : State) (b c b' c' : Nat) (f : Channel → Channel) :
    (s.modChan b c f).chan b' c' = if b' = b ∧ c' = c then f (s.chan b c) else s.chan b' c' := by
  simp only [State.modChan, chan_modBlk, chan_modChan]
  by_cases h : b' = b <;> by_cases h' : c' = c <;> simp [h, h', State.chan]

@[simp] theorem state_chan_modChan_self (s : State) (b c : Nat) (f : Channel → Channel) :
    (s.modChan b c f).chan b c = f (s.chan b c) := by simp [state_chan_modChan]

theorem blk_modChan (s : State) (b c b' : Nat) (f : Channel → Channel) :
    (s.modChan b c f).blk b' = if b' = b then (s.blk b).modChan c f else s.blk b' := blk_modBlk ..

theorem out_setOut (k : Block) (p p' : Nat) (v : Bool) :
    (k.setOut p v).out p' = if p' = p then v else k.out p' := tabSet_getD ..

@[simp] theorem modChan_block_imem (k : Block) (c : Nat) (f : Channel → Channel) : (k.modChan c f).imem = k.imem := rfl
@[simp] theorem modChan_block_tags (k : Block) (c : Nat) (f : Channel → Channel) : (k.modChan c f).tags = k.tags := rfl
@[simp] theorem modChan_block_flags (k : Block) (c : Nat) (f : Channel → Channel) : (k.modChan c f).flags = k.flags := rfl
@[simp] theorem modChan_block_inte (k : Block) (c : Nat) (f : Channel → Channel) : (k.modChan c f).inte = k.inte := rfl
@[simp] theorem modChan_block_pinOut (k : Block) (c : Nat) (f : Channel → Channel) : (k.modChan c f).pinOut = k.pinOut := rfl
@[simp] theorem modChan_block_pinOe (k : Block) (c : Nat) (f : Channel → Channel) : (k.modChan c f).pinOe = k.pinOe := rfl
@[simp] theorem modChan_block_vec (k : Block) (c : Nat) (f : Channel → Channel) : (k.modChan c f).vec = k.vec := rfl
@[simp] theorem setOut_imem (k : Block) (p : Nat) (v : Bool) : (k.setOut p v).imem = k.imem := rfl
@[simp] theorem setOut_tags (k : Block) (p : Nat) (v : Bool) : (k.setOut p v).tags = k.tags := rfl
@[simp] theorem setOut_flags (k : Block) (p : Nat) (v : Bool) : (k.setOut p v).flags = k.flags := rfl
@[simp] theorem setOut_inte (k : Block) (p : Nat) (v : Bool) : (k.setOut p v).inte = k.inte := rfl
@[simp] theorem setOut_pinOe (k : Block) (p : Nat) (v : Bool) : (k.setOut p v).pinOe = k.pinOe := rfl
@[simp] theorem setOut_vec (k : Block) (p : Nat) (v : Bool) : (k.setOut p v).vec = k.vec := rfl
@[simp] theorem setOut_chs (k : Block) (p : Nat) (v : Bool) : (k.setOut p v).chs = k.chs := rfl
@[simp] theorem raiseFlags_imem (k : Block) (m : Half) : (k.raiseFlags m).imem = k.imem := rfl
@[simp] theorem raiseFlags_tags (k : Block) (m : Half) : (k.raiseFlags m).tags = k.tags := rfl
@[simp] theorem raiseFlags_inte (k : Block) (m : Half) : (k.raiseFlags m).inte = k.inte := rfl
@[simp] theorem raiseFlags_pinOut (k : Block) (m : Half) : (k.raiseFlags m).pinOut = k.pinOut := rfl
@[simp] theorem raiseFlags_pinOe (k : Block) (m : Half) : (k.raiseFlags m).pinOe = k.pinOe := rfl
@[simp] theorem raiseFlags_vec (k : Block) (m : Half) : (k.raiseFlags m).vec = k.vec := rfl
@[simp] theorem raiseFlags_chs (k : Block) (m : Half) : (k.raiseFlags m).chs = k.chs := rfl
@[simp] theorem clearFlags_imem (k : Block) (m : Half) : (k.clearFlags m).imem = k.imem := rfl
@[simp] theorem clearFlags_tags (k : Block) (m : Half) : (k.clearFlags m).tags = k.tags := rfl
@[simp] theorem clearFlags_inte (k : Block) (m : Half) : (k.clearFlags m).inte = k.inte := rfl
@[simp] theorem clearFlags_pinOut (k : Block) (m : Half) : (k.clearFlags m).pinOut = k.pinOut := rfl
@[simp] theorem clearFlags_pinOe (k : Block) (m : Half) : (k.clearFlags m).pinOe = k.pinOe := rfl
@[simp] theorem clearFlags_vec (k : Block) (m : Half) : (k.clearFlags m).vec = k.vec := rfl
@[simp] theorem clearFlags_chs (k : Block) (m : Half) : (k.clearFlags m).chs = k.chs := rfl
@[simp] theorem blk_modChan_imem (s : State) (b c b' : Nat) (f : Channel → Channel) :
    ((s.modChan b c f).blk b').imem = (s.blk b').imem := by
  rw [blk_modChan]; split <;> simp_all
@[simp] theorem blk_modChan_tags (s : State) (b c b' : Nat) (f : Channel → Channel) :
    ((s.modChan b c f).blk b').tags = (s.blk b').tags := by
  rw [blk_modChan]; split <;> simp_all
@[simp] theorem blk_modChan_flags (s : State) (b c b' : Nat) (f : Channel → Channel) :
    ((s.modChan b c f).blk b').flags = (s.blk b').flags := by
  rw [blk_modChan]; split <;> simp_all
@[simp] theorem blk_modChan_inte (s : State) (b c b' : Nat) (f : Channel → Channel) :
    ((s.modChan b c f).blk b').inte = (s.blk b').inte := by
  rw [blk_modChan]; split <;> simp_all
@[simp] theorem blk_modChan_pinOut (s : State) (b c b' : Nat) (f : Channel → Channel) :
    ((s.modChan b c f).blk b').pinOut = (s.blk b').pinOut := by
  rw [blk_modChan]; split <;> simp_all
@[simp] theorem blk_modChan_pinOe (s : State) (b c b' : Nat) (f : Channel → Channel) :
    ((s.modChan b c f).blk b').pinOe = (s.blk b').pinOe := by
  rw [blk_modChan]; split <;> simp_all
@[simp] theorem blk_modChan_vec (s : State) (b c b' : Nat) (f : Channel → Channel) :
    ((s.modChan b c f).blk b').vec = (s.blk b').vec := by
  rw [blk_modChan]; split <;> simp_all

/-! ### Reads after updates of pins and lines -/

theorem pin_modPin (s : State) (p p' : Nat) (f : Pin → Pin) :
    (s.modPin p f).pin p' = if p' = p then f (s.pin p) else s.pin p' := tabModify_getD ..

theorem pin_modPins (s : State) (base n p : Nat) (f : Nat → Pin → Pin) :
    (s.modPins base n f).pin p = if base ≤ p ∧ p < base + n then f (p - base) (s.pin p) else s.pin p :=
  tabModifyRun_getD ..

theorem lineIdx_injective {X Y : Line} (h : lineIdx X = lineIdx Y) : X = Y := by
  cases X <;> cases Y <;> simp only [lineIdx] at h <;> first | rfl | omega | skip
  congr 1; omega

theorem envLine_modEnv (s : State) (X Y : Line) (f : EnvLine → EnvLine) :
    (s.modEnv X f).envLine Y = if Y = X then f (s.envLine X) else s.envLine Y := by
  simp only [State.envLine, State.modEnv, tabModify_getD]
  by_cases h : Y = X
  · simp [h]
  · rw [if_neg (fun e => h (lineIdx_injective e)), if_neg h]

theorem envLine_modEnvData (s : State) (Y : Line) (f : Nat → EnvLine → EnvLine) :
    (s.modEnvData f).envLine Y = if lineIdx Y < 8 then f (lineIdx Y) (s.envLine Y) else s.envLine Y := by
  rw [State.envLine, State.modEnvData, tabModifyRun_getD]; simp [State.envLine]

/-! ### Reads see only their own field -/

@[simp] theorem blk_modPin (s : State) (p : Nat) (f : Pin → Pin) (b : Nat) : (s.modPin p f).blk b = s.blk b := rfl
@[simp] theorem chan_modPin (s : State) (p : Nat) (f : Pin → Pin) (b c : Nat) : (s.modPin p f).chan b c = s.chan b c := rfl
@[simp] theorem envLine_modPin (s : State) (p : Nat) (f : Pin → Pin) (Y : Line) : (s.modPin p f).envLine Y = s.envLine Y := rfl
@[simp] theorem blk_modPins (s : State) (base n : Nat) (f : Nat → Pin → Pin) (b : Nat) : (s.modPins base n f).blk b = s.blk b := rfl
@[simp] theorem chan_modPins (s : State) (base n : Nat) (f : Nat → Pin → Pin) (b c : Nat) : (s.modPins base n f).chan b c = s.chan b c := rfl
@[simp] theorem envLine_modPins (s : State) (base n : Nat) (f : Nat → Pin → Pin) (Y : Line) : (s.modPins base n f).envLine Y = s.envLine Y := rfl
@[simp] theorem blk_modEnv (s : State) (X : Line) (f : EnvLine → EnvLine) (b : Nat) : (s.modEnv X f).blk b = s.blk b := rfl
@[simp] theorem chan_modEnv (s : State) (X : Line) (f : EnvLine → EnvLine) (b c : Nat) : (s.modEnv X f).chan b c = s.chan b c := rfl
@[simp] theorem pin_modEnv (s : State) (X : Line) (f : EnvLine → EnvLine) (q : Nat) : (s.modEnv X f).pin q = s.pin q := rfl
@[simp] theorem blk_modEnvData (s : State) (f : Nat → EnvLine → EnvLine) (b : Nat) : (s.modEnvData f).blk b = s.blk b := rfl
@[simp] theorem chan_modEnvData (s : State) (f : Nat → EnvLine → EnvLine) (b c : Nat) : (s.modEnvData f).chan b c = s.chan b c := rfl
@[simp] theorem pin_modEnvData (s : State) (f : Nat → EnvLine → EnvLine) (q : Nat) : (s.modEnvData f).pin q = s.pin q := rfl
@[simp] theorem pin_modBlk (s : State) (b : Nat) (f : Block → Block) (q : Nat) : (s.modBlk b f).pin q = s.pin q := rfl
@[simp] theorem envLine_modBlk (s : State) (b : Nat) (f : Block → Block) (Y : Line) : (s.modBlk b f).envLine Y = s.envLine Y := rfl
@[simp] theorem pin_modChan (s : State) (b c : Nat) (f : Channel → Channel) (q : Nat) : (s.modChan b c f).pin q = s.pin q := rfl
@[simp] theorem envLine_modChan (s : State) (b c : Nat) (f : Channel → Channel) (Y : Line) : (s.modChan b c f).envLine Y = s.envLine Y := rfl

end Sys2Proof.Machine
end

