-- ==== Sys2Proof/Laws/Lines.lean ====
section
/-! SUPPORT. The pins of the lines, the bytes on them, and what fixes a level: what drives it or pulls it, or, where it
is steady, that two states drive and pull it alike. -/

namespace Sys2Proof.Machine

/-! ### The pins of the lines -/

@[simp] theorem pin_modsel (p : Params) : p.pin .modsel = p.pins.modsel := rfl
@[simp] theorem pin_rd (p : Params) : p.pin .rd = p.pins.rd := rfl
@[simp] theorem pin_wr (p : Params) : p.pin .wr = p.pins.wr := rfl
@[simp] theorem pin_wait (p : Params) : p.pin .wait = p.pins.wait := rfl
@[simp] theorem pin_ad (p : Params) : p.pin .ad = p.pins.ad := rfl
@[simp] theorem pin_data (p : Params) (i : Fin 8) : p.pin (.data i) = p.pins.d0 + i.val := rfl

theorem mem_lineAll (X : Line) : X ∈ Line.all := by
  cases X with
  | data i => revert i; decide
  | _ => decide

/-- Valid parameters give the lines distinct pins (42_pin_binder.md R131). -/
theorem pin_ne_of_valid {p : Params} (h : p.valid = true) {X Y : Line} (hxy : X ≠ Y) : p.pin X ≠ p.pin Y := by
  simp only [Params.valid, Bool.and_eq_true, decide_eq_true_eq] at h
  exact fun he => hxy (List.inj_on_of_nodup_map h.2 (mem_lineAll X) (mem_lineAll Y) he)

theorem data_of_lineIdx_lt {X : Line} (h : lineIdx X < 8) : ∃ i, X = .data i := by
  cases X <;> simp [lineIdx] at h
  exact ⟨_, rfl⟩

/-! ### Bytes and levels -/

/-- The byte of eight levels, bit by bit. -/
theorem byteOf_getLsbD (f : Nat → Bool) (i : Nat) (h : i < 8) : (byteOf f).getLsbD i = f i := by
  unfold byteOf
  simp only [BitVec.getLsbD_append, BitVec.getLsbD_ofBool]
  match i, h with
  | 0, _ => simp
  | 1, _ => simp
  | 2, _ => simp
  | 3, _ => simp
  | 4, _ => simp
  | 5, _ => simp
  | 6, _ => simp
  | 7, _ => simp

/-- The level of a pin that one side drives, or that is pulled (10_state.md R32). -/
theorem level_of_engine {s : State} {p : Nat} {x : Bool} (site : Site) (h : engineDrive s p = some x)
    (h' : envDrive s p = none) : level s site p = x := by simp [level, h, h']

/-- The level of WAIT where its pin is block `b`'s and nothing else drives it (10_state.md R32). -/
theorem wait_of_block {s : State} {b : Nat} {x : Bool} (site : Site) (h1 : (s.pin s.par.pins.wait).func = .pio b)
    (h2 : (s.blk b).oe s.par.pins.wait = true) (h3 : envDrive s s.par.pins.wait = none)
    (h4 : (s.blk b).out s.par.pins.wait = x) : lineLevel s site .wait = x :=
  level_of_engine site (by simp [engineDrive, h1, h2, h4]) h3

theorem level_of_env {s : State} {p : Nat} {x : Bool} (site : Site) (h : engineDrive s p = none)
    (h' : envDrive s p = some x) : level s site p = x := by simp [level, h, h']

theorem level_of_pull_up {s : State} {p : Nat} (site : Site) (h : engineDrive s p = none) (h' : envDrive s p = none)
    (hp : (s.pin p).pull = .up) : level s site p = true := by simp [level, h, h']; simp [hp]

theorem level_of_pull_down {s : State} {p : Nat} (site : Site) (h : engineDrive s p = none) (h' : envDrive s p = none)
    (hp : (s.pin p).pull = .down) : level s site p = false := by simp [level, h, h']; simp [hp]

/-! ### Levels that two states agree on (10_state.md R32) -/

/-- What drives and pulls the pin of line `X` is the same in `s` and `t`. -/
def SameLine (s t : State) (X : Line) : Prop :=
  t.par = s.par ∧ engineDrive t (s.par.pin X) = engineDrive s (s.par.pin X) ∧
    envDrive t (s.par.pin X) = envDrive s (s.par.pin X) ∧ (t.pin (s.par.pin X)).pull = (s.pin (s.par.pin X)).pull

theorem sameLine_self (s : State) (X : Line) : SameLine s s X := ⟨rfl, rfl, rfl, rfl⟩

theorem sameLine_trans {s t u : State} {X : Line} (h : SameLine s t X) (k : SameLine t u X) : SameLine s u X := by
  obtain ⟨h1, h2, h3, h4⟩ := h
  obtain ⟨k1, k2, k3, k4⟩ := k
  rw [h1] at k2 k3 k4
  exact ⟨k1.trans h1, k2.trans h2, k3.trans h3, k4.trans h4⟩

theorem steady_iff {s t : State} {X : Line} (h : SameLine s t X) : Steady t X ↔ Steady s X := by
  obtain ⟨h1, h2, h3, h4⟩ := h
  unfold Steady
  rw [h1, h2, h3, h4]

/-- A steady level is the same at every read, and in every state that drives and pulls the pin alike. -/
theorem lineLevel_steady {s t : State} {X : Line} (h : SameLine s t X) (hs : Steady t X) (a b : Site) :
    lineLevel t a X = lineLevel s b X := by
  obtain ⟨h1, h2, h3, h4⟩ := h
  unfold Steady at hs
  unfold lineLevel level
  rw [h1, h2, h3, h4] at hs ⊢
  revert hs
  cases engineDrive s (s.par.pin X) <;> cases envDrive s (s.par.pin X) <;> simp
  cases (s.pin (s.par.pin X)).pull <;> simp

theorem asserted_steady {s t : State} {X : Line} (h : SameLine s t X) (hs : Steady t X) (a b : Site) :
    asserted t a X = asserted s b X := by rw [asserted, asserted, lineLevel_steady h hs a b]

theorem rdEnded_of {s t : State} {a : Site} (h1 : SameLine s t .modsel) (h2 : SameLine s t .rd)
    (h : condRd s a = false) : RdEnded t := fun hs1 hs2 => by
  rw [condRd, asserted_steady h1 hs1 _ a, asserted_steady h2 hs2 _ a]; exact h

theorem wrEnded_of {s t : State} {a : Site} (h1 : SameLine s t .modsel) (h2 : SameLine s t .wr)
    (h : condWr s a = false) : WrEnded t := fun hs1 hs2 => by
  rw [condWr, asserted_steady h1 hs1 _ a, asserted_steady h2 hs2 _ a]; exact h

theorem waitSeen_of {s t : State} {a : Site} (h1 : SameLine s t .wait) (h : lineLevel s a .wait = false) :
    WaitSeen t := fun hs => (lineLevel_steady h1 hs _ a).trans h

theorem waitFree_of {s t : State} {a : Site} (h1 : SameLine s t .wait) (h : lineLevel s a .wait = true) :
    WaitFree t := fun hs => (lineLevel_steady h1 hs _ a).trans h

/-- What drives a line from outside depends on that line alone, where the lines have pins of their own
(42_pin_binder.md R131). -/
theorem envDrive_of_valid {s t : State} (X : Line) (hv : s.par.valid = true) (hpar : t.par = s.par)
    (he : t.envLine X = s.envLine X) : envDrive t (s.par.pin X) = envDrive s (s.par.pin X) := by
  have key : ∀ Y, s.par.pin Y = s.par.pin X → Y = X := fun Y h => by
    by_contra hne
    exact pin_ne_of_valid hv hne h
  unfold envDrive
  rw [hpar]
  have hf : (fun Y => decide (s.par.pin Y = s.par.pin X) && (t.envLine Y).drive)
      = fun Y => decide (s.par.pin Y = s.par.pin X) && (s.envLine Y).drive := by
    funext Y
    by_cases h : s.par.pin Y = s.par.pin X
    · rw [key Y h, he]
    · simp [h]
  rw [hf]
  cases h : Line.all.find? fun Y => decide (s.par.pin Y = s.par.pin X) && (s.envLine Y).drive with
  | none => rfl
  | some Y =>
    have hY := List.find?_some h
    simp only [Bool.and_eq_true, decide_eq_true_eq] at hY
    simp only [Option.map_some, key Y hY.1, he]

end Sys2Proof.Machine
end

