-- ==== Sys2Proof/Laws/Memory.lean ====
section
/-! SUPPORT. The instruction memory: reading after writing, and every write keeps the canonical form. -/

namespace Sys2Proof.Machine

theorem readByte_below {lo : Nat} {m : List Host.Cell} (h : risingFrom lo m = true) {x : Nat} (hx : x < lo) :
    readByte m x = none := by
  induction m generalizing lo with
  | nil => rfl
  | cons c m ih =>
    obtain ⟨a, v⟩ := c
    simp only [risingFrom, Bool.and_eq_true, decide_eq_true_eq] at h
    rw [readByte, if_neg (by omega)]
    exact ih h.2 (by omega)

/-- A read after a write gives the value written at its address and is unchanged elsewhere. -/
theorem readByte_writeByte {lo : Nat} {m : List Host.Cell} (h : risingFrom lo m = true) (x : Nat) (v : Byte) (y : Nat) :
    readByte (writeByte m x v) y = if y = x then some v else readByte m y := by
  induction m generalizing lo with
  | nil =>
    rw [writeByte, readByte, readByte]
    by_cases e : x = y
    · rw [if_pos e, if_pos e.symm]
    · rw [if_neg e, if_neg (Ne.symm e), readByte]
  | cons c m ih =>
    obtain ⟨a, u⟩ := c
    simp only [risingFrom, Bool.and_eq_true, decide_eq_true_eq] at h
    have hm := ih h.2
    unfold writeByte
    split
    · rw [readByte]
      by_cases e : x = y
      · rw [if_pos e, if_pos e.symm]
      · rw [if_neg e, if_neg (Ne.symm e)]
    · split
      · subst x
        rw [readByte, readByte]
        by_cases e : a = y
        · rw [if_pos e, if_pos e.symm]
        · rw [if_neg e, if_neg e, if_neg (Ne.symm e)]
      · rw [readByte, readByte, hm]
        by_cases e : a = y
        · rw [if_pos e, if_pos e, if_neg (by omega)]
        · rw [if_neg e, if_neg e]

theorem risingFrom_writeByte {lo : Nat} {m : List Host.Cell} (h : risingFrom lo m = true) {x : Nat} (hx : lo ≤ x)
    (v : Byte) : risingFrom lo (writeByte m x v) = true := by
  induction m generalizing lo with
  | nil => simp [writeByte, risingFrom, hx]
  | cons c m ih =>
    obtain ⟨a, u⟩ := c
    simp only [risingFrom, Bool.and_eq_true, decide_eq_true_eq] at h
    unfold writeByte
    split
    · simp only [risingFrom, Bool.and_eq_true, decide_eq_true_eq]; exact ⟨hx, by omega, h.2⟩
    · split
      · subst x; simp only [risingFrom, Bool.and_eq_true, decide_eq_true_eq]; exact ⟨hx, h.2⟩
      · simp only [risingFrom, Bool.and_eq_true, decide_eq_true_eq]; exact ⟨h.1, ih h.2 (by omega)⟩

theorem wf_writeByte {m : List Host.Cell} (h : Memory.wf m = true) (x : Nat) (v : Byte) :
    Memory.wf (writeByte m x v) = true := risingFrom_writeByte h (Nat.zero_le x) v

theorem wf_writeWord {m : List Host.Cell} (h : Memory.wf m = true) (a : Nat) (w : Half) :
    Memory.wf (writeWord m a w) = true := wf_writeByte (wf_writeByte h _ _) _ _

theorem wf_writeWords {m : List Host.Cell} (h : Memory.wf m = true) (a n : Nat) (f : Nat → Half) :
    Memory.wf (writeWords m a n f) = true := by
  induction n with
  | zero => exact h
  | succ n ih => exact wf_writeWord ih _ _

/-- A word write changes the two bytes of its word. -/
theorem readByte_writeWord {m : List Host.Cell} (h : Memory.wf m = true) (a : Nat) (w : Half) (y : Nat) :
    readByte (writeWord m a w) y
      = if y = 2 * a + 1 then some (w.extractLsb' 8 8)
        else if y = 2 * a then some (w.extractLsb' 0 8) else readByte m y := by
  rw [writeWord, readByte_writeByte (wf_writeByte h _ _), readByte_writeByte h]

/-- `MemWrite` changes the bytes of its words and no other (20_memory.md R60). -/
theorem readByte_writeWords_other {m : List Host.Cell} (h : Memory.wf m = true) (a n : Nat) (f : Nat → Half) (y : Nat)
    (hy : y < 2 * a ∨ 2 * (a + n) ≤ y) : readByte (writeWords m a n f) y = readByte m y := by
  induction n with
  | zero => rfl
  | succ n ih =>
    rw [writeWords, readByte_writeWord (wf_writeWords h _ _ _), if_neg (by omega), if_neg (by omega), ih (by omega)]

/-- After `MemWrite` each of its words reads as written (20_memory.md R60). -/
theorem readWord_writeWords {m : List Host.Cell} (h : Memory.wf m = true) (a n : Nat) (f : Nat → Half) (k : Nat)
    (hk : k < n) : readWord (writeWords m a n f) (a + k) = some (f k) := by
  induction n with
  | zero => omega
  | succ n ih =>
    have hw := wf_writeWords h a n f
    by_cases e : k = n
    · subst e
      simp only [readWord, writeWords, readByte_writeWord hw, if_true, if_neg (show 2 * (a + k) ≠ 2 * (a + k) + 1 by omega)]
      congr 1
      apply BitVec.eq_of_getLsbD_eq
      intro i hi
      simp only [BitVec.getLsbD_append, BitVec.getLsbD_extractLsb']
      by_cases h8 : i < 8
      · simp [h8]
      · simp [h8, show i - 8 < 8 by omega, show 8 + (i - 8) = i by omega]
    · have e' : readWord (writeWords m a (n + 1) f) (a + k) = readWord (writeWords m a n f) (a + k) := by
        simp only [readWord, writeWords, readByte_writeWord hw]
        rw [if_neg (by omega), if_neg (by omega), if_neg (by omega), if_neg (by omega)]
      rw [e', ih (by omega)]

end Sys2Proof.Machine
end

