-- ==== Sys2Proof/Laws/Settle.lean ====
section
/-! SUPPORT. What the end of a step can do: the enforcers, the host latch, the observations and the faults it records, one
lemma for each, and `settle_kept`, which says once all that `settle` can change. -/

namespace Sys2Proof.Machine

/-! ### The enforcers (44_peripheral_fsm.md R211) -/

theorem waiteReacts_reset (h : Bool) : waiteReacts h Channel.reset = false := by cases h <;> rfl

theorem waiteMove_reset (h : Bool) : waiteMove h Channel.reset = Channel.reset := by simp [waiteMove, waiteReacts_reset]

theorem waiteMove_fields (h : Bool) (ch : Channel) : waiteMove h ch = { ch with pc := (waiteMove h ch).pc } := by
  unfold waiteMove; split <;> rfl

/-- Every enforcer of the block has moved as its hold flag asks; the other channels are as they were. -/
theorem enforce_block_chan (par : Params) (k : Block) (c : Nat) :
    (k.enforce par).chan c = waiteMove (k.flag par.irqHold) (k.chan c) := by
  unfold Block.enforce
  split
  · exact map_getD Channel.reset _ _ _ (waiteMove_reset _)
  · next h =>
    have hn := mt (any_eq_true_iff_getD Channel.reset _ k.chs (waiteReacts_reset _)).mpr h
    have hc : waiteReacts (k.flag par.irqHold) (k.chan c) = false :=
      Bool.eq_false_iff.mpr fun hp => hn ⟨c, hp⟩
    simp [waiteMove, hc]

/-- The block's outputs after its enforcers have reacted: WAIT at the level the hold flag asks for, if one moved. -/
theorem enforce_block_out (par : Params) (k : Block) (p : Nat) :
    (k.enforce par).out p
      = if k.chs.any (waiteReacts (k.flag par.irqHold)) = true ∧ p = par.pins.wait then !(k.flag par.irqHold)
        else k.out p := by
  unfold Block.enforce
  by_cases h : k.chs.any (waiteReacts (k.flag par.irqHold)) = true
  · simp only [h, if_true, true_and]
    exact tabSet_getD ..
  · simp [h]

@[simp] theorem enforce_block_imem (par : Params) (k : Block) : (k.enforce par).imem = k.imem := by
  unfold Block.enforce; split <;> rfl
@[simp] theorem enforce_block_tags (par : Params) (k : Block) : (k.enforce par).tags = k.tags := by
  unfold Block.enforce; split <;> rfl
@[simp] theorem enforce_block_flags (par : Params) (k : Block) : (k.enforce par).flags = k.flags := by
  unfold Block.enforce; split <;> rfl
@[simp] theorem enforce_block_inte (par : Params) (k : Block) : (k.enforce par).inte = k.inte := by
  unfold Block.enforce; split <;> rfl
@[simp] theorem enforce_block_pinOe (par : Params) (k : Block) : (k.enforce par).pinOe = k.pinOe := by
  unfold Block.enforce; split <;> rfl
@[simp] theorem enforce_block_vec (par : Params) (k : Block) : (k.enforce par).vec = k.vec := by
  unfold Block.enforce; split <;> rfl

theorem enforce_blk (s : State) (wrote : Option Nat) (b : Nat) :
    (enforce s wrote).blk b = if wrote = some b then (s.blk b).enforce s.par else s.blk b := by
  cases wrote with
  | none => simp [enforce]
  | some b' =>
    simp only [enforce, blk_modBlk, Option.some.injEq]
    by_cases h : b = b'
    · simp [h]
    · rw [if_neg h, if_neg (fun e => h e.symm)]

/-- The enforcers write blocks only. -/
theorem enforce_fields (s : State) (wrote : Option Nat) : enforce s wrote = { s with blks := (enforce s wrote).blks } := by
  cases wrote <;> rfl

/-! ### The host latch (44_peripheral_fsm.md R223) -/

/-- The host latch is the only thing the latching writes. -/
theorem hostLatches_cases (s t : State) :
    hostLatches s t = t ∨
      (t.par.role = .peripheral ∧ t.hostPc = .rdWaitRel ∧ lineLevel s .waitBefore .wait = false ∧
        lineLevel t .waitAfter .wait = true ∧
        hostLatches s t = { t with hostLatch := dataByte t .latch, hostLatchWritten := true, hostLatched := true }) := by
  unfold hostLatches
  split
  · next h => exact .inr ⟨h.1, h.2.1, h.2.2.1, h.2.2.2, rfl⟩
  · exact .inl rfl

/-- The latching changes no level. -/
@[simp] theorem lineLevel_hostLatches (s t : State) (a : Site) (X : Line) :
    lineLevel (hostLatches s t) a X = lineLevel t a X := by
  unfold hostLatches
  split <;> rfl

/-! ### The observations (44_peripheral_fsm.md R208, 45_master_fsm.md R246) -/

theorem observeChan_reset (s : State) (b c : Nat) : observeChan s b c Channel.reset = Channel.reset := rfl

theorem observeChan_fields (s : State) (b c : Nat) (ch : Channel) :
    observeChan s b c ch = { ch with pc := (observeChan s b c ch).pc } := by
  unfold observeChan
  repeat' split
  all_goals rfl

theorem observeChans_chan (s : State) (b c : Nat) : (observeChans s).chan b c = observeChan s b c (s.chan b c) := by
  have hb : (observeChans s).blk b
      = { s.blk b with chs := mapFrom (fun c ch => observeChan s b c ch) 0 (s.blk b).chs } := by
    have := mapFrom_getD Block.reset
      (fun b k => { k with chs := mapFrom (fun c ch => observeChan s b c ch) 0 k.chs }) 0 s.blks b (fun _ => rfl)
    simpa [State.blk, observeChans] using this
  rw [State.chan, hb]
  have := mapFrom_getD Channel.reset (fun c ch => observeChan s b c ch) 0 (s.blk b).chs c (observeChan_reset s b)
  simpa [Block.chan, State.chan] using this

/-- The observations of the channels change nothing of a block but its channels. -/
theorem observeChans_blk (s : State) (b : Nat) :
    (observeChans s).blk b = { s.blk b with chs := ((observeChans s).blk b).chs } := by
  have := mapFrom_getD Block.reset
    (fun b k => { k with chs := mapFrom (fun c ch => observeChan s b c ch) 0 k.chs }) 0 s.blks b (fun _ => rfl)
  simp only [Nat.zero_add] at this
  simp only [State.blk, observeChans, this]

theorem observeChans_fields (s : State) : observeChans s = { s with blks := (observeChans s).blks } := rfl

/-- What an observation makes of a channel's template state. -/
theorem observeChan_pc (s : State) (b c : Nat) (ch : Channel) :
    (observeChan s b c ch).pc = ch.pc ∨
      (ch.enabled = true ∧ ch.owner ≠ .none ∧
        ((s.par.role = .peripheral ∧ ch.cfg.template = .rdw ∧ ch.pc = .fired ∧ condRd s (.channel b c) = false ∧
            (observeChan s b c ch).pc = .armed) ∨
          (s.par.role = .peripheral ∧ ch.cfg.template = .wrw ∧ ch.pc = .fired ∧ condWr s (.channel b c) = false ∧
            (observeChan s b c ch).pc = .armed) ∨
          (s.par.role = .master ∧ ch.cfg.template = .rcd ∧ ch.pc = .rWaitLow ∧
            asserted s (.channel b c) .wait = true ∧ (observeChan s b c ch).pc = .rWaitRel) ∨
          (s.par.role = .master ∧ ch.cfg.template = .wcd ∧ ch.pc = .wWaitLow ∧
            asserted s (.channel b c) .wait = true ∧ (observeChan s b c ch).pc = .wWaitRel))) := by
  unfold observeChan
  split
  · next h =>
    simp only [Bool.and_eq_true, decide_eq_true_eq] at h
    split <;> (try split) <;> simp_all
  · exact .inl rfl

/-- A channel observes the same before and after the host's latching. -/
theorem observeChan_hostLatches (s t : State) (b c : Nat) (ch : Channel) :
    observeChan (hostLatches s t) b c ch = observeChan t b c ch := by
  unfold hostLatches
  split <;> rfl

/-- What the environment's observations can do. -/
theorem observeEnv_cases (s : State) :
    observeEnv s = s ∨
      (s.par.role = .peripheral ∧ asserted s .hostSees .wait = true ∧
        ((s.hostPc = .rdWaitLow ∧ observeEnv s = { s with hostPc := .rdWaitRel }) ∨
          (s.hostPc = .wrWaitLow ∧ observeEnv s = { s with hostPc := .wrWaitRel }))) ∨
      (s.par.role = .master ∧
        ((s.perPc = .rdHold ∧ condRd s .perReads = false ∧ observeEnv s = perReadDone s) ∨
          (s.perPc = .wrHold ∧ condWr s .perReads = false ∧ observeEnv s = perWriteDone s))) := by
  unfold observeEnv
  split <;> rename_i hr
  · split
    · next h =>
      rcases h with ⟨h | h, ha⟩
      · exact .inr (.inl ⟨hr, ha, .inl ⟨h, by simp [hostSeesWait, h]⟩⟩)
      · exact .inr (.inl ⟨hr, ha, .inr ⟨h, by simp [hostSeesWait, h]⟩⟩)
    · exact .inl rfl
  · split <;> rename_i hp <;> (try split) <;> simp_all

theorem observeEnv_host {s : State} (h : s.par.role = .peripheral) : observeEnv s
    = if (s.hostPc = .rdWaitLow ∨ s.hostPc = .wrWaitLow) ∧ asserted s .hostSees .wait = true then hostSeesWait s else s := by
  unfold observeEnv; rw [h]

theorem observeEnv_rdHold {s : State} (h : s.par.role = .master) (hp : s.perPc = .rdHold) :
    observeEnv s = if condRd s .perReads = true then s else perReadDone s := by unfold observeEnv; rw [h, hp]

theorem observeEnv_wrHold {s : State} (h : s.par.role = .master) (hp : s.perPc = .wrHold) :
    observeEnv s = if condWr s .perReads = true then s else perWriteDone s := by unfold observeEnv; rw [h, hp]

theorem observeEnv_rest {s : State} (h : s.par.role = .master) (h1 : s.perPc ≠ .rdHold) (h2 : s.perPc ≠ .wrHold) :
    observeEnv s = s := by
  unfold observeEnv
  rw [h]
  cases hp : s.perPc <;> simp_all

/-! ### The faults of the state after a step (60_exceptions.md R305) -/

theorem mem_addFault {fs : List FaultRec} {f g : FaultRec} : g ∈ addFault fs f ↔ g ∈ fs ∨ g = f := by
  unfold addFault
  split
  · next h => exact ⟨.inl, fun hg => hg.elim id fun e => e ▸ h⟩
  · simp

theorem mem_foldl_addFault (gs fs : List FaultRec) (g : FaultRec) : g ∈ gs.foldl addFault fs ↔ g ∈ fs ∨ g ∈ gs := by
  induction gs generalizing fs with
  | nil => simp
  | cons h gs ih => simp only [List.foldl_cons, ih, mem_addFault, List.mem_cons, or_assoc]

/-- A fault is recorded after a step exactly if it was before or the state after the step raises it. -/
theorem mem_recordEndFaults (i : Instr) (t : State) (g : FaultRec) :
    g ∈ (recordEndFaults i t).faults ↔ g ∈ t.faults ∨ EndFault i t g := by
  simp only [recordEndFaults, mem_foldl_addFault, endFaults, contendedPins, overlappedBlocks, EndFault, List.mem_append,
    List.mem_map, List.mem_filter, List.mem_range, and_assoc, @eq_comm _ g]

/-! ### The whole end of a step -/

theorem hostLatches_blks (s t : State) : (hostLatches s t).blks = t.blks := by
  unfold hostLatches; split <;> rfl

theorem hostLatches_par (s t : State) : (hostLatches s t).par = t.par := by unfold hostLatches; split <;> rfl

theorem observeEnv_blks (s : State) : (observeEnv s).blks = s.blks := by
  rcases observeEnv_cases s with h | ⟨-, -, ⟨-, h⟩ | ⟨-, h⟩⟩ | ⟨-, ⟨-, -, h⟩ | ⟨-, -, h⟩⟩ <;> rw [h] <;> rfl

theorem observeEnv_par (s : State) : (observeEnv s).par = s.par := by
  rcases observeEnv_cases s with h | ⟨-, -, ⟨-, h⟩ | ⟨-, h⟩⟩ | ⟨-, ⟨-, -, h⟩ | ⟨-, -, h⟩⟩ <;> rw [h] <;> rfl

theorem enforce_par (s : State) (wrote : Option Nat) : (enforce s wrote).par = s.par := by cases wrote <;> rfl

@[simp] theorem settle_par (i : Instr) (s t : State) (wrote : Option Nat) : (settle i s t wrote).par = t.par := by
  rw [settle]
  show (observeEnv _).par = _
  rw [observeEnv_par]
  show (hostLatches _ _).par = _
  rw [hostLatches_par, enforce_par]

/-- A field that no part of the end of a step writes. -/
theorem settle_untouched {α : Type} (g : State → α)
    (hb : ∀ x b, g { x with blks := b } = g x) (hl : ∀ x a b c, g { x with hostLatch := a, hostLatchWritten := b, hostLatched := c } = g x)
    (hh : ∀ x a, g { x with hostPc := a } = g x) (hp : ∀ x a, g { x with perPc := a } = g x)
    (he : ∀ x a, g { x with env := a } = g x) (hf : ∀ x a, g { x with faults := a } = g x)
    (i : Instr) (s t : State) (wrote : Option Nat) : g (settle i s t wrote) = g t := by
  have h1 : g (enforce t wrote) = g t := by rw [enforce_fields]; exact hb ..
  have h2 : ∀ x, g (hostLatches s x) = g x := by
    intro x
    rcases hostLatches_cases s x with h | ⟨-, -, -, -, h⟩ <;> rw [h]
    exact hl ..
  have h3 : ∀ x, g (observeEnv x) = g x := by
    intro x
    rcases observeEnv_cases x with h | ⟨-, -, ⟨-, h⟩ | ⟨-, h⟩⟩ | ⟨-, ⟨-, -, h⟩ | ⟨-, -, h⟩⟩ <;> rw [h]
    · exact hh ..
    · exact hh ..
    · exact (hp ..).trans (he ..)
    · exact hp ..
  rw [settle, recordEndFaults, hf, h3, observeChans_fields, hb, h2, h1]

@[simp] theorem settle_schedule (i : Instr) (s t : State) (wrote : Option Nat) :
    (settle i s t wrote).schedule = t.schedule :=
  settle_untouched State.schedule (fun _ _ => rfl) (fun _ _ _ _ => rfl) (fun _ _ => rfl) (fun _ _ => rfl) (fun _ _ => rfl)
    (fun _ _ => rfl) i s t wrote

@[simp] theorem settle_tick (i : Instr) (s t : State) (wrote : Option Nat) :
    (settle i s t wrote).tick = t.tick :=
  settle_untouched State.tick (fun _ _ => rfl) (fun _ _ _ _ => rfl) (fun _ _ => rfl) (fun _ _ => rfl) (fun _ _ => rfl)
    (fun _ _ => rfl) i s t wrote

@[simp] theorem settle_result (i : Instr) (s t : State) (wrote : Option Nat) :
    (settle i s t wrote).result = t.result :=
  settle_untouched State.result (fun _ _ => rfl) (fun _ _ _ _ => rfl) (fun _ _ => rfl) (fun _ _ => rfl) (fun _ _ => rfl)
    (fun _ _ => rfl) i s t wrote

@[simp] theorem settle_gpio (i : Instr) (s t : State) (wrote : Option Nat) :
    (settle i s t wrote).gpio = t.gpio :=
  settle_untouched State.gpio (fun _ _ => rfl) (fun _ _ _ _ => rfl) (fun _ _ => rfl) (fun _ _ => rfl) (fun _ _ => rfl)
    (fun _ _ => rfl) i s t wrote

@[simp] theorem settle_echo (i : Instr) (s t : State) (wrote : Option Nat) :
    (settle i s t wrote).echo = t.echo :=
  settle_untouched State.echo (fun _ _ => rfl) (fun _ _ _ _ => rfl) (fun _ _ => rfl) (fun _ _ => rfl) (fun _ _ => rfl)
    (fun _ _ => rfl) i s t wrote

@[simp] theorem settle_initPeripheral (i : Instr) (s t : State) (wrote : Option Nat) :
    (settle i s t wrote).initPeripheral = t.initPeripheral :=
  settle_untouched State.initPeripheral (fun _ _ => rfl) (fun _ _ _ _ => rfl) (fun _ _ => rfl) (fun _ _ => rfl) (fun _ _ => rfl)
    (fun _ _ => rfl) i s t wrote

@[simp] theorem settle_initMaster (i : Instr) (s t : State) (wrote : Option Nat) :
    (settle i s t wrote).initMaster = t.initMaster :=
  settle_untouched State.initMaster (fun _ _ => rfl) (fun _ _ _ _ => rfl) (fun _ _ => rfl) (fun _ _ => rfl) (fun _ _ => rfl)
    (fun _ _ => rfl) i s t wrote

@[simp] theorem settle_halted (i : Instr) (s t : State) (wrote : Option Nat) :
    (settle i s t wrote).halted = t.halted :=
  settle_untouched State.halted (fun _ _ => rfl) (fun _ _ _ _ => rfl) (fun _ _ => rfl) (fun _ _ => rfl) (fun _ _ => rfl)
    (fun _ _ => rfl) i s t wrote

@[simp] theorem settle_errorLed (i : Instr) (s t : State) (wrote : Option Nat) :
    (settle i s t wrote).errorLed = t.errorLed :=
  settle_untouched State.errorLed (fun _ _ => rfl) (fun _ _ _ _ => rfl) (fun _ _ => rfl) (fun _ _ => rfl) (fun _ _ => rfl)
    (fun _ _ => rfl) i s t wrote

@[simp] theorem settle_diag (i : Instr) (s t : State) (wrote : Option Nat) :
    (settle i s t wrote).diag = t.diag :=
  settle_untouched State.diag (fun _ _ => rfl) (fun _ _ _ _ => rfl) (fun _ _ => rfl) (fun _ _ => rfl) (fun _ _ => rfl)
    (fun _ _ => rfl) i s t wrote

@[simp] theorem settle_ctx (i : Instr) (s t : State) (wrote : Option Nat) :
    (settle i s t wrote).ctx = t.ctx :=
  settle_untouched State.ctx (fun _ _ => rfl) (fun _ _ _ _ => rfl) (fun _ _ => rfl) (fun _ _ => rfl) (fun _ _ => rfl)
    (fun _ _ => rfl) i s t wrote

@[simp] theorem settle_irqEnabled (i : Instr) (s t : State) (wrote : Option Nat) :
    (settle i s t wrote).irqEnabled = t.irqEnabled :=
  settle_untouched State.irqEnabled (fun _ _ => rfl) (fun _ _ _ _ => rfl) (fun _ _ => rfl) (fun _ _ => rfl) (fun _ _ => rfl)
    (fun _ _ => rfl) i s t wrote

@[simp] theorem settle_queue (i : Instr) (s t : State) (wrote : Option Nat) :
    (settle i s t wrote).queue = t.queue :=
  settle_untouched State.queue (fun _ _ => rfl) (fun _ _ _ _ => rfl) (fun _ _ => rfl) (fun _ _ => rfl) (fun _ _ => rfl)
    (fun _ _ => rfl) i s t wrote

@[simp] theorem settle_handlerRead (i : Instr) (s t : State) (wrote : Option Nat) :
    (settle i s t wrote).handlerRead = t.handlerRead :=
  settle_untouched State.handlerRead (fun _ _ => rfl) (fun _ _ _ _ => rfl) (fun _ _ => rfl) (fun _ _ => rfl) (fun _ _ => rfl)
    (fun _ _ => rfl) i s t wrote

@[simp] theorem settle_handlerWrite (i : Instr) (s t : State) (wrote : Option Nat) :
    (settle i s t wrote).handlerWrite = t.handlerWrite :=
  settle_untouched State.handlerWrite (fun _ _ => rfl) (fun _ _ _ _ => rfl) (fun _ _ => rfl) (fun _ _ => rfl) (fun _ _ => rfl)
    (fun _ _ => rfl) i s t wrote

@[simp] theorem settle_consumer (i : Instr) (s t : State) (wrote : Option Nat) :
    (settle i s t wrote).consumer = t.consumer :=
  settle_untouched State.consumer (fun _ _ => rfl) (fun _ _ _ _ => rfl) (fun _ _ => rfl) (fun _ _ => rfl) (fun _ _ => rfl)
    (fun _ _ => rfl) i s t wrote

@[simp] theorem settle_master (i : Instr) (s t : State) (wrote : Option Nat) :
    (settle i s t wrote).master = t.master :=
  settle_untouched State.master (fun _ _ => rfl) (fun _ _ _ _ => rfl) (fun _ _ => rfl) (fun _ _ => rfl) (fun _ _ => rfl)
    (fun _ _ => rfl) i s t wrote

@[simp] theorem settle_boot (i : Instr) (s t : State) (wrote : Option Nat) :
    (settle i s t wrote).boot = t.boot :=
  settle_untouched State.boot (fun _ _ => rfl) (fun _ _ _ _ => rfl) (fun _ _ => rfl) (fun _ _ => rfl) (fun _ _ => rfl)
    (fun _ _ => rfl) i s t wrote

@[simp] theorem settle_counter (i : Instr) (s t : State) (wrote : Option Nat) :
    (settle i s t wrote).counter = t.counter :=
  settle_untouched State.counter (fun _ _ => rfl) (fun _ _ _ _ => rfl) (fun _ _ => rfl) (fun _ _ => rfl) (fun _ _ => rfl)
    (fun _ _ => rfl) i s t wrote

@[simp] theorem settle_sink (i : Instr) (s t : State) (wrote : Option Nat) :
    (settle i s t wrote).sink = t.sink :=
  settle_untouched State.sink (fun _ _ => rfl) (fun _ _ _ _ => rfl) (fun _ _ => rfl) (fun _ _ => rfl) (fun _ _ => rfl)
    (fun _ _ => rfl) i s t wrote

@[simp] theorem settle_refused (i : Instr) (s t : State) (wrote : Option Nat) :
    (settle i s t wrote).refused = t.refused :=
  settle_untouched State.refused (fun _ _ => rfl) (fun _ _ _ _ => rfl) (fun _ _ => rfl) (fun _ _ => rfl) (fun _ _ => rfl)
    (fun _ _ => rfl) i s t wrote

@[simp] theorem settle_pin (i : Instr) (s t : State) (wrote : Option Nat) (p : Nat) :
    (settle i s t wrote).pin p = t.pin p := by simp only [State.pin, settle_gpio]

/-- The state the channels observe at the end of a step: the enforcers have reacted and the host has latched. -/
def observed (s t : State) (wrote : Option Nat) : State := hostLatches s (enforce t wrote)

theorem observed_blk (s t : State) (wrote : Option Nat) (b : Nat) :
    (observed s t wrote).blk b = if wrote = some b then (t.blk b).enforce t.par else t.blk b := by
  rw [observed, State.blk, hostLatches_blks]; exact enforce_blk t wrote b

@[simp] theorem observed_par (s t : State) (wrote : Option Nat) : (observed s t wrote).par = t.par := by
  rw [observed, hostLatches_par, enforce_par]

theorem settle_blks (i : Instr) (s t : State) (wrote : Option Nat) :
    (settle i s t wrote).blks = (observeChans (observed s t wrote)).blks := by
  rw [settle]
  exact observeEnv_blks _

/-- A block after the end of a step: the enforcers of the block whose flags were written have reacted, and its
channels have observed. -/
theorem settle_blk (i : Instr) (s t : State) (wrote : Option Nat) (b : Nat) :
    (settle i s t wrote).blk b
      = { (if wrote = some b then (t.blk b).enforce t.par else t.blk b) with chs := ((settle i s t wrote).blk b).chs } := by
  rw [← observed_blk s]
  simp only [State.blk, settle_blks]
  exact observeChans_blk (observed s t wrote) b

/-- A channel after the end of a step. -/
theorem settle_chan (i : Instr) (s t : State) (wrote : Option Nat) (b c : Nat) :
    (settle i s t wrote).chan b c
      = observeChan (observed s t wrote) b c
          (if wrote = some b then waiteMove ((t.blk b).flag t.par.irqHold) (t.chan b c) else t.chan b c) := by
  have h : (settle i s t wrote).chan b c = (observeChans (observed s t wrote)).chan b c := by
    simp only [State.chan, State.blk, settle_blks]
  rw [h, observeChans_chan, State.chan, observed_blk]
  split
  · rw [enforce_block_chan, State.chan]
  · rfl

/-- A channel after a step that writes no flags: its own observation is all that can move it. -/
theorem settle_chan_none (i : Instr) (s t : State) (b c : Nat) :
    (settle i s t none).chan b c = observeChan t b c (t.chan b c) := by
  rw [settle_chan, if_neg (by simp)]
  exact observeChan_hostLatches ..

@[simp] theorem settle_blk_imem (i : Instr) (s t : State) (wrote : Option Nat) (b : Nat) :
    ((settle i s t wrote).blk b).imem = (t.blk b).imem := by
  rw [settle_blk]; dsimp only; split <;> simp

@[simp] theorem settle_blk_tags (i : Instr) (s t : State) (wrote : Option Nat) (b : Nat) :
    ((settle i s t wrote).blk b).tags = (t.blk b).tags := by
  rw [settle_blk]; dsimp only; split <;> simp

@[simp] theorem settle_blk_flags (i : Instr) (s t : State) (wrote : Option Nat) (b : Nat) :
    ((settle i s t wrote).blk b).flags = (t.blk b).flags := by
  rw [settle_blk]; dsimp only; split <;> simp

@[simp] theorem settle_blk_inte (i : Instr) (s t : State) (wrote : Option Nat) (b : Nat) :
    ((settle i s t wrote).blk b).inte = (t.blk b).inte := by
  rw [settle_blk]; dsimp only; split <;> simp

@[simp] theorem settle_blk_pinOe (i : Instr) (s t : State) (wrote : Option Nat) (b : Nat) :
    ((settle i s t wrote).blk b).pinOe = (t.blk b).pinOe := by
  rw [settle_blk]; dsimp only; split <;> simp

@[simp] theorem settle_blk_vec (i : Instr) (s t : State) (wrote : Option Nat) (b : Nat) :
    ((settle i s t wrote).blk b).vec = (t.blk b).vec := by
  rw [settle_blk]; dsimp only; split <;> simp

theorem settle_blk_out (i : Instr) (s t : State) (wrote : Option Nat) (b p : Nat) :
    ((settle i s t wrote).blk b).out p
      = if wrote = some b ∧ (t.blk b).chs.any (waiteReacts ((t.blk b).flag t.par.irqHold)) = true ∧ p = t.par.pins.wait
        then !((t.blk b).flag t.par.irqHold) else (t.blk b).out p := by
  rw [settle_blk]
  show (if wrote = some b then (t.blk b).enforce t.par else t.blk b).out p = _
  by_cases h : wrote = some b
  · simp only [h, if_true, true_and]; exact enforce_block_out ..
  · simp [h]

/-- Everything of a channel but its template state stands through the end of a step. -/
theorem settle_chan_fields (i : Instr) (s t : State) (wrote : Option Nat) (b c : Nat) :
    (settle i s t wrote).chan b c = { t.chan b c with pc := ((settle i s t wrote).chan b c).pc } := by
  rw [settle_chan]
  split
  · have hw := waiteMove_fields ((t.blk b).flag t.par.irqHold) (t.chan b c)
    generalize waiteMove ((t.blk b).flag t.par.irqHold) (t.chan b c) = w at hw ⊢
    have hp : ∀ p, { w with pc := p } = { t.chan b c with pc := p } := fun p => by rw [hw]
    exact (observeChan_fields ..).trans (hp _)
  · exact observeChan_fields ..

/-- The reactions of the environment change what drives a line only where PER_RD_DONE stops driving the data lines. -/
theorem observeEnv_sameLine (u : State) (X : Line)
    (h : u.par.role ≠ .master ∨ u.perPc ≠ .rdHold ∨ (u.par.valid = true ∧ ¬ lineIdx X < 8)) :
    SameLine u (observeEnv u) X := by
  rcases observeEnv_cases u with k | ⟨-, -, ⟨-, k⟩ | ⟨-, k⟩⟩ | ⟨hr, ⟨hp, -, k⟩ | ⟨-, -, k⟩⟩ <;> rw [k]
  · exact sameLine_self u X
  · exact ⟨rfl, rfl, rfl, rfl⟩
  · exact ⟨rfl, rfl, rfl, rfl⟩
  · rcases h with h | h | ⟨hv, hX⟩
    · exact absurd hr h
    · exact absurd hp h
    · refine ⟨rfl, rfl, envDrive_of_valid X hv rfl ?_, rfl⟩
      show (u.modEnvData _).envLine X = _
      rw [envLine_modEnvData, if_neg hX]
  · exact ⟨rfl, rfl, rfl, rfl⟩

/-- The observations of the channels drive no line. -/
theorem observeChans_sameLine (u : State) (X : Line) : SameLine u (observeChans u) X := by
  refine ⟨rfl, ?_, rfl, rfl⟩
  unfold engineDrive Block.oe Block.out
  have hb : ∀ b, ((observeChans u).blk b).pinOe = (u.blk b).pinOe ∧ ((observeChans u).blk b).pinOut = (u.blk b).pinOut :=
    fun b => by rw [observeChans_blk]; exact ⟨rfl, rfl⟩
  simp only [hb]
  rfl

/-- The observations of the channels change no level. -/
theorem lineLevel_observeChans (u : State) (a : Site) (X : Line) :
    lineLevel (observeChans u) a X = lineLevel u a X := by
  obtain ⟨-, h1, h2, h3⟩ := observeChans_sameLine u X
  show level (observeChans u) a (u.par.pin X) = level u a (u.par.pin X)
  unfold level
  rw [h1, h2]
  rfl

/-- The environment after a step that writes no flags: its own observation is all that can move it. -/
theorem settle_env_none (i : Instr) (s t : State) :
    (settle i s t none).hostPc = (observeEnv t).hostPc ∧ (settle i s t none).perPc = (observeEnv t).perPc ∧
      (settle i s t none).env = (observeEnv t).env := by
  have hl : ∀ a X, lineLevel (observeChans (hostLatches s t)) a X = lineLevel t a X := fun a X => by
    rw [lineLevel_observeChans, lineLevel_hostLatches]
  have h1 : (observeChans (hostLatches s t)).par = t.par := hostLatches_par s t
  have h2 : (observeChans (hostLatches s t)).hostPc = t.hostPc := by
    show (hostLatches s t).hostPc = _; unfold hostLatches; split <;> rfl
  have h3 : (observeChans (hostLatches s t)).perPc = t.perPc := by
    show (hostLatches s t).perPc = _; unfold hostLatches; split <;> rfl
  have h4 : (observeChans (hostLatches s t)).env = t.env := by
    show (hostLatches s t).env = _; unfold hostLatches; split <;> rfl
  have key : ∀ u : State, u.par = t.par → u.hostPc = t.hostPc → u.perPc = t.perPc → u.env = t.env →
      (∀ a X, lineLevel u a X = lineLevel t a X) →
      (observeEnv u).hostPc = (observeEnv t).hostPc ∧ (observeEnv u).perPc = (observeEnv t).perPc ∧
        (observeEnv u).env = (observeEnv t).env := by
    intro u k1 k2 k3 k4 k5
    unfold observeEnv hostSeesWait condRd condWr asserted perReadDone perWriteDone State.modEnvData
    rw [k1, k2, k3]
    simp only [k5]
    split
    · split
      · split <;> simp [k2, k3, k4]
      · exact ⟨k2, k3, k4⟩
    · split
      · split <;> simp [k2, k3, k4]
      · split <;> simp [k2, k3, k4]
      all_goals exact ⟨k2, k3, k4⟩
  exact key _ h1 h2 h3 h4 hl

/-- The latching drives no line. -/
theorem hostLatches_sameLine (s u : State) (X : Line) : SameLine u (hostLatches s u) X := by
  rcases hostLatches_cases s u with h | ⟨-, -, -, -, h⟩ <;> rw [h]
  · exact sameLine_self u X
  · exact ⟨rfl, rfl, rfl, rfl⟩

theorem observed_perPc (s t : State) (wrote : Option Nat) : (observed s t wrote).perPc = t.perPc := by
  rw [observed]
  rcases hostLatches_cases s (enforce t wrote) with h | ⟨-, -, -, -, h⟩ <;> rw [h] <;> cases wrote <;> rfl

/-- What the channels see of a line is what it is at the end of the step, but for the data lines that PER_RD_DONE stops
driving. -/
theorem settle_sameLine (i : Instr) (s t : State) (wrote : Option Nat) (X : Line)
    (h : t.par.role ≠ .master ∨ t.perPc ≠ .rdHold ∨ (t.par.valid = true ∧ ¬ lineIdx X < 8)) :
    SameLine (observed s t wrote) (settle i s t wrote) X := by
  have h1 := observeChans_sameLine (observed s t wrote) X
  have h2 := observeEnv_sameLine (observeChans (observed s t wrote)) X (by
    rw [show (observeChans (observed s t wrote)).par = t.par from observed_par s t wrote,
      show (observeChans (observed s t wrote)).perPc = t.perPc from observed_perPc s t wrote]
    exact h)
  have h3 : SameLine (observeEnv (observeChans (observed s t wrote))) (settle i s t wrote) X := ⟨rfl, rfl, rfl, rfl⟩
  exact sameLine_trans (sameLine_trans h1 h2) h3

/-- The template state of a channel after the end of a step. -/
theorem settle_chan_pc (i : Instr) (s t : State) (wrote : Option Nat) (b c : Nat) :
    PcReacts (settle i s t wrote) wrote b (t.chan b c) (t.chan b c).pc ((settle i s t wrote).chan b c).pc := by
  have hf : ((settle i s t wrote).blk b).flag (settle i s t wrote).par.irqHold = (t.blk b).flag t.par.irqHold := by
    simp [Block.flag]
  have ho : ∀ p : TState, (observeChan (observed s t wrote) b c (t.chan b c)).pc = p →
      PcReacts (settle i s t wrote) wrote b (t.chan b c) (t.chan b c).pc p := by
    rintro p rfl
    have hl := settle_sameLine i s t wrote
    unfold PcReacts
    rw [settle_par]
    rcases observeChan_pc (observed s t wrote) b c (t.chan b c) with h | ⟨he, ho, h⟩
    · exact .inl h
    · rw [observed_par] at h
      refine .inr ⟨he, ho, ?_⟩
      rcases h with ⟨h1, h2, h3, h4, h5⟩ | ⟨h1, h2, h3, h4, h5⟩ | ⟨h1, h2, h3, h4, h5⟩ | ⟨h1, h2, h3, h4, h5⟩
      · have hm : t.par.role ≠ .master := by rw [h1]; decide
        exact .inl ⟨h1, h2, rdEnded_of (hl _ (.inl hm)) (hl _ (.inl hm)) h4, h3, h5⟩
      · have hm : t.par.role ≠ .master := by rw [h1]; decide
        exact .inr (.inl ⟨h1, h2, wrEnded_of (hl _ (.inl hm)) (hl _ (.inl hm)) h4, h3, h5⟩)
      · refine .inr (.inr (.inl ⟨h1, h2, fun hv => ?_, h3, h5⟩))
        exact waitSeen_of (hl _ (.inr (.inr ⟨hv, by decide⟩))) (by simpa [asserted] using h4)
      · refine .inr (.inr (.inr (.inl ⟨h1, h2, fun hv => ?_, h3, h5⟩)))
        exact waitSeen_of (hl _ (.inr (.inr ⟨hv, by decide⟩))) (by simpa [asserted] using h4)
  rw [settle_chan]
  by_cases hw : wrote = some b
  · rw [if_pos hw]
    by_cases hr : waiteReacts ((t.blk b).flag t.par.irqHold) (t.chan b c) = true
    · have hm : waiteMove ((t.blk b).flag t.par.irqHold) (t.chan b c)
          = { t.chan b c with pc := if (t.blk b).flag t.par.irqHold then .holding else .idle } := by
        rw [waiteMove, if_pos hr]
      rw [hm]
      simp only [waiteReacts, Bool.and_eq_true, decide_eq_true_eq] at hr
      obtain ⟨⟨⟨he, ho⟩, ht⟩, hp⟩ := hr
      unfold PcReacts
      rw [hf]
      refine .inr ⟨he, ho, .inr (.inr (.inr (.inr ⟨hw, ht, ?_⟩)))⟩
      rcases observeChan_pc (observed s t wrote) b c
        { t.chan b c with pc := if (t.blk b).flag t.par.irqHold then .holding else .idle } with h | ⟨-, -, h⟩
      · rw [h, hp]
        cases (t.blk b).flag t.par.irqHold <;> simp
      · simp [ht] at h
    · rw [waiteMove, if_neg hr]
      exact ho _ rfl
  · rw [if_neg hw]
    exact ho _ rfl

/-- What the end of a step can do to the environment's own state. -/
theorem settle_env (i : Instr) (s t : State) (wrote : Option Nat) :
    HostReacts (settle i s t wrote) t.hostPc (settle i s t wrote).hostPc ∧
      PerReacts (settle i s t wrote) t.perPc (settle i s t wrote).perPc ∧
      (∀ X, LineReacts (settle i s t wrote) t.perPc X (t.envLine X) ((settle i s t wrote).envLine X)) ∧
      LatchReacts s (settle i s t wrote) t.hostLatch t.hostLatchWritten t.hostLatched := by
  have hline := settle_sameLine i s t wrote
  have hpar := settle_par i s t wrote
  have hset : settle i s t wrote = recordEndFaults i (observeEnv (observeChans (observed s t wrote))) := rfl
  have ho : ∃ a b c, observed s t wrote
      = { t with blks := (observed s t wrote).blks, hostLatch := a, hostLatchWritten := b, hostLatched := c } ∧
      ((a = t.hostLatch ∧ b = t.hostLatchWritten ∧ c = t.hostLatched) ∨
        (t.par.role = .peripheral ∧ t.hostPc = .rdWaitRel ∧ WaitSeen s ∧ WaitFree (settle i s t wrote) ∧
          a = dataByte (enforce t wrote) .latch ∧ b = true ∧ c = true)) := by
    have hp : (enforce t wrote).hostPc = t.hostPc := by rw [enforce_fields]
    rcases hostLatches_cases s (enforce t wrote) with h | ⟨h0, h1, h2, h3, h⟩
    · exact ⟨t.hostLatch, t.hostLatchWritten, t.hostLatched, by
        rw [observed, h]; exact enforce_fields t wrote, .inl ⟨rfl, rfl, rfl⟩⟩
    · rw [enforce_par] at h0
      have hm : t.par.role ≠ .master := by rw [h0]; decide
      refine ⟨dataByte (enforce t wrote) .latch, true, true, ?_, .inr ⟨h0, hp ▸ h1,
        waitSeen_of (sameLine_self s .wait) h2,
        waitFree_of (sameLine_trans (hostLatches_sameLine s _ .wait) (hline .wait (.inl hm))) h3, rfl, rfl, rfl⟩⟩
      rw [observed, h]
      cases wrote <;> rfl
  obtain ⟨a, b, c, ho, hl⟩ := ho
  have hoc := observeChans_sameLine (observed s t wrote)
  generalize hu : observeChans (observed s t wrote) = u at hset hoc
  rw [observeChans_fields, ho] at hu
  have hur : u.par = t.par := by rw [← hu]
  have huh : u.hostPc = t.hostPc := by rw [← hu]
  have hup : u.perPc = t.perPc := by rw [← hu]
  have hue : u.env = t.env := by rw [← hu]
  have hul : u.hostLatch = a ∧ u.hostLatchWritten = b ∧ u.hostLatched = c := by rw [← hu]; exact ⟨rfl, rfl, rfl⟩
  have hx : ∀ X, u.envLine X = t.envLine X := fun X => by simp only [State.envLine, hue]
  have hfix : ∀ v : State, (recordEndFaults i v).hostPc = v.hostPc ∧ (recordEndFaults i v).perPc = v.perPc ∧
      (recordEndFaults i v).env = v.env ∧ (recordEndFaults i v).hostLatch = v.hostLatch ∧
      (recordEndFaults i v).hostLatchWritten = v.hostLatchWritten ∧
      (recordEndFaults i v).hostLatched = v.hostLatched := fun v => ⟨rfl, rfl, rfl, rfl, rfl, rfl⟩
  obtain ⟨f1, f2, f3, f4, f5, f6⟩ := hfix (observeEnv u)
  have hfin : ∀ X, SameLine (observeEnv u) (settle i s t wrote) X := fun X => by rw [hset]; exact ⟨rfl, rfl, rfl, rfl⟩
  rw [← hset] at f1 f2 f3 f4 f5 f6
  have fx : ∀ X, (settle i s t wrote).envLine X = (observeEnv u).envLine X := fun X => by
    simp only [State.envLine, f3]
  have hlast : ∀ X, (u.par.role ≠ .master ∨ u.perPc ≠ .rdHold ∨ (u.par.valid = true ∧ ¬ lineIdx X < 8)) →
      SameLine u (settle i s t wrote) X := fun X h => sameLine_trans (observeEnv_sameLine u X h) (hfin X)
  -- the latch
  have hlatch : ∀ p : HostPc, (t.hostPc = .rdWaitRel → p = .rdWaitRel) → (settle i s t wrote).hostPc = p →
      (observeEnv u).hostLatch = a → (observeEnv u).hostLatchWritten = b → (observeEnv u).hostLatched = c →
      LatchReacts s (settle i s t wrote) t.hostLatch t.hostLatchWritten t.hostLatched := by
    rintro p hp hpc ha hb hc
    unfold LatchReacts
    rw [f4, f5, f6, ha, hb, hc, hpar, hpc]
    rcases hl with h | ⟨h0, h1, h2, h3, rfl, rfl, rfl⟩
    · exact .inl h
    · refine .inr ⟨h0, hp h1, h2, h3, rfl, rfl, fun j hs => ?_⟩
      have hm : t.par.role ≠ .master := by rw [h0]; decide
      rw [dataByte, byteOf_getLsbD _ _ j.isLt]
      exact (lineLevel_steady (sameLine_trans (hostLatches_sameLine s _ (.data j)) (hline (.data j) (.inl hm))) hs
        .guard .latch).symm
  have hkeep : (observeEnv u).hostLatch = a ∧ (observeEnv u).hostLatchWritten = b ∧ (observeEnv u).hostLatched = c := by
    rcases observeEnv_cases u with h | ⟨-, -, ⟨-, h⟩ | ⟨-, h⟩⟩ | ⟨-, ⟨-, -, h⟩ | ⟨-, -, h⟩⟩ <;> rw [h] <;> exact hul
  refine ⟨?_, ?_, ?_, ?_⟩
  · unfold HostReacts
    rw [f1, hpar]
    rcases observeEnv_cases u with h | ⟨hr, hs, ⟨hp, h⟩ | ⟨hp, h⟩⟩ | ⟨-, ⟨-, -, h⟩ | ⟨-, -, h⟩⟩
    · rw [h]; exact .inl huh
    · rw [h]; rw [huh] at hp; rw [hur] at hr
      refine .inr ⟨hr, waitSeen_of (hlast _ (.inl (by rw [hur, hr]; decide))) (a := .hostSees)
        (by simpa [asserted] using hs), .inl ⟨hp, rfl⟩⟩
    · rw [h]; rw [huh] at hp; rw [hur] at hr
      refine .inr ⟨hr, waitSeen_of (hlast _ (.inl (by rw [hur, hr]; decide))) (a := .hostSees)
        (by simpa [asserted] using hs), .inr ⟨hp, rfl⟩⟩
    · rw [h]; exact .inl huh
    · rw [h]; exact .inl huh
  · unfold PerReacts
    rw [f2, hpar]
    rcases observeEnv_cases u with h | ⟨-, -, ⟨-, h⟩ | ⟨-, h⟩⟩ | ⟨hr, ⟨hp, hc, h⟩ | ⟨hp, hc, h⟩⟩
    · rw [h]; exact .inl hup
    · rw [h]; exact .inl hup
    · rw [h]; exact .inl hup
    · rw [h]; rw [hur] at hr
      refine .inr ⟨hr, rfl, .inl ⟨hup ▸ hp, fun hv => ?_⟩⟩
      exact rdEnded_of (hlast _ (.inr (.inr ⟨hur ▸ hv, by decide⟩))) (hlast _ (.inr (.inr ⟨hur ▸ hv, by decide⟩))) hc
    · rw [h]; rw [hur] at hr
      have hn : u.perPc ≠ .rdHold := by rw [hp]; decide
      exact .inr ⟨hr, rfl, .inr ⟨hup ▸ hp, wrEnded_of (hlast _ (.inr (.inl hn))) (hlast _ (.inr (.inl hn))) hc⟩⟩
  · intro X
    unfold LineReacts
    rw [fx, f2, hpar]
    rcases observeEnv_cases u with h | ⟨-, -, ⟨-, h⟩ | ⟨-, h⟩⟩ | ⟨hr, ⟨hp, hc, h⟩ | ⟨-, -, h⟩⟩
    · rw [h]; exact .inl (hx X)
    · rw [h]; exact .inl (hx X)
    · rw [h]; exact .inl (hx X)
    · rw [h]; rw [hur] at hr
      have hx' : (perReadDone u).envLine X = if lineIdx X < 8 then { t.envLine X with drive := false } else t.envLine X := by
        show (u.modEnvData _).envLine X = _
        rw [envLine_modEnvData, hx]
      rw [hx']
      by_cases h8 : lineIdx X < 8
      · refine .inr ⟨hr, hup ▸ hp, rfl, fun hv => ?_, h8, if_pos h8⟩
        exact rdEnded_of (hlast _ (.inr (.inr ⟨hur ▸ hv, by decide⟩))) (hlast _ (.inr (.inr ⟨hur ▸ hv, by decide⟩))) hc
      · exact .inl (if_neg h8)
    · rw [h]; exact .inl (hx X)
  · refine hlatch _ (fun h => ?_) rfl hkeep.1 hkeep.2.1 hkeep.2.2
    rw [f1]
    rw [← huh] at h
    rcases observeEnv_cases u with k | ⟨-, -, ⟨hp, -⟩ | ⟨hp, -⟩⟩ | ⟨-, ⟨-, -, k⟩ | ⟨-, -, k⟩⟩
    · rw [k]; exact h
    · rw [hp] at h; cases h
    · rw [hp] at h; cases h
    · rw [k]; exact h
    · rw [k]; exact h

/-- The faults the end of a step records are those of the state after it. -/
theorem settle_faults (i : Instr) (s t : State) (wrote : Option Nat) (g : FaultRec) :
    g ∈ (settle i s t wrote).faults ↔ g ∈ t.faults ∨ EndFault i (settle i s t wrote) g := by
  have hset : settle i s t wrote = recordEndFaults i (observeEnv (observeChans (observed s t wrote))) := rfl
  have hf : (observeEnv (observeChans (observed s t wrote))).faults = t.faults := by
    have : ∀ x : State, (observeEnv x).faults = x.faults := fun x => by
      rcases observeEnv_cases x with h | ⟨-, -, ⟨-, h⟩ | ⟨-, h⟩⟩ | ⟨-, ⟨-, -, h⟩ | ⟨-, -, h⟩⟩ <;> rw [h] <;> rfl
    rw [this]
    show (hostLatches _ _).faults = _
    rcases hostLatches_cases s (enforce t wrote) with h | ⟨-, -, -, -, h⟩ <;> rw [h] <;> cases wrote <;> rfl
  rw [hset, mem_recordEndFaults, hf]
  rfl

/-- An enforcer that the step's own writes left enabled, in the block whose flags the step wrote or enabled, follows its
flag (44_peripheral_fsm.md R211 to R214). -/
theorem settle_follows {i : Instr} {s v u : State} {b c : Nat} {r : Result} {n : Nat} (he : (u.chan b c).enabled = true)
    (ho : (u.chan b c).owner ≠ .none) (ht : (u.chan b c).cfg.template = .waite) (hv : (v.chan b c).pc = (u.chan b c).pc)
    (hp : (v.chan b c).pc = .idle ∨ (v.chan b c).pc = .holding) :
    EnforcerFollows v { settle i s u (some b) with result := r, tick := n } b c := by
  rw [hv] at hp
  have hf : ((settle i s u (some b)).blk b).flag (settle i s u (some b)).par.irqHold = (u.blk b).flag u.par.irqHold := by
    simp [Block.flag]
  have hpc : ((settle i s u (some b)).chan b c).pc = if (u.blk b).flag u.par.irqHold then .holding else .idle := by
    rw [settle_chan, if_pos rfl, waiteMove]
    unfold observeChan
    cases (u.blk b).flag u.par.irqHold <;> rcases hp with hp | hp <;> simp [waiteReacts, he, ho, ht, hp]
  unfold EnforcerFollows
  show (((settle i s u (some b)).chan b c).pc
      = if ((settle i s u (some b)).blk b).flag (settle i s u (some b)).par.irqHold then .holding else .idle) ∧
    (((settle i s u (some b)).chan b c).pc ≠ (v.chan b c).pc → _)
  rw [hf, hpc, hv]
  refine ⟨rfl, fun hm => ?_⟩
  have hany : (u.blk b).chs.any (waiteReacts ((u.blk b).flag u.par.irqHold)) = true := by
    refine (any_eq_true_iff_getD Channel.reset _ _ (waiteReacts_reset _)).mpr ⟨c, ?_⟩
    show waiteReacts _ (u.chan b c) = true
    cases hfl : (u.blk b).flag u.par.irqHold <;> rw [hfl] at hm <;> rcases hp with hp | hp <;>
      simp [waiteReacts, he, ho, ht, hp] at hm ⊢
  have hout : ((settle i s u (some b)).blk b).out (settle i s u (some b)).par.pins.wait
      = !((settle i s u (some b)).blk b).flag (settle i s u (some b)).par.irqHold := by
    rw [hf, settle_blk_out, settle_par, if_pos ⟨rfl, hany, rfl⟩]
  exact ⟨hout, fun h1 h2 h3 => wait_of_block .guard h1 h2 h3 hout⟩

/-- The end of a step neither reads nor writes which initialisation runs. -/
theorem settle_withBoot (i : Instr) (s u : State) (wrote : Option Nat) (k : Option Boot) :
    settle i s { u with boot := k } wrote = { settle i s u wrote with boot := k } := by
  have h1 : enforce { u with boot := k } wrote = { enforce u wrote with boot := k } := by cases wrote <;> rfl
  have h2 : ∀ v : State, hostLatches s { v with boot := k } = { hostLatches s v with boot := k } := fun v => by
    by_cases h : v.par.role = .peripheral ∧ v.hostPc = .rdWaitRel ∧ lineLevel s .waitBefore .wait = false ∧
        lineLevel v .waitAfter .wait = true
    · have e : hostLatches s v = _ := if_pos h
      have e' : hostLatches s { v with boot := k } = _ := if_pos h
      rw [e, e']; rfl
    · have e : hostLatches s v = _ := if_neg h
      have e' : hostLatches s { v with boot := k } = _ := if_neg h
      rw [e, e']
  have h3 : ∀ v : State, observeEnv { v with boot := k } = { observeEnv v with boot := k } := fun v => by
    have hh : hostSeesWait { v with boot := k } = { hostSeesWait v with boot := k } := by
      cases h : v.hostPc <;> simp [hostSeesWait, h]
    cases hr : v.par.role with
    | peripheral =>
      have e := observeEnv_host hr
      have e' := observeEnv_host (s := { v with boot := k }) hr
      by_cases h : (v.hostPc = .rdWaitLow ∨ v.hostPc = .wrWaitLow) ∧ asserted v .hostSees .wait = true
      · rw [e, e', if_pos h, if_pos (by exact h), hh]
      · rw [e, e', if_neg h, if_neg (by exact h)]
    | master =>
      by_cases h1 : v.perPc = .rdHold
      · have e := observeEnv_rdHold hr h1
        have e' := observeEnv_rdHold (s := { v with boot := k }) hr h1
        by_cases h : condRd v .perReads = true
        · rw [e, e', if_pos h, if_pos (by exact h)]
        · rw [e, e', if_neg h, if_neg (by exact h)]; rfl
      · by_cases h2 : v.perPc = .wrHold
        · have e := observeEnv_wrHold hr h2
          have e' := observeEnv_wrHold (s := { v with boot := k }) hr h2
          by_cases h : condWr v .perReads = true
          · rw [e, e', if_pos h, if_pos (by exact h)]
          · rw [e, e', if_neg h, if_neg (by exact h)]; rfl
        · rw [observeEnv_rest hr h1 h2, observeEnv_rest (s := { v with boot := k }) hr h1 h2]
  have h4 : ∀ v : State, observeChans { v with boot := k } = { observeChans v with boot := k } := fun _ => rfl
  unfold settle
  rw [h1, h2, h4, h3]
  rfl

/-- **What the end of a step can do**: every piece of the state is what the step's own writes left it at, but for the
reactions. -/
theorem settle_kept (i : Instr) (s t : State) (wrote : Option Nat) (q : Part) :
    q.keptFrom wrote s t (settle i s t wrote) := by
  have he := settle_env i s t wrote
  cases q <;> simp only [Part.keptFrom, Part.same] <;> try simp
  case out b p =>
    unfold OutReacts
    rw [settle_blk_out]
    split
    · next h =>
      obtain ⟨hw, ha, hp⟩ := h
      obtain ⟨c, hc⟩ := (any_eq_true_iff_getD Channel.reset _ _ (waiteReacts_reset _)).mp ha
      have hc' : waiteReacts ((t.blk b).flag t.par.irqHold) (t.chan b c) = true := hc
      simp only [waiteReacts, Bool.and_eq_true, decide_eq_true_eq] at hc'
      refine .inr ⟨hw, by simpa using hp, by simp [Block.flag], c, ?_⟩
      rw [settle_chan_fields]
      exact ⟨hc'.1.1.1, hc'.1.1.2, hc'.1.2⟩
    · exact .inl rfl
  case chan b c => exact ⟨settle_chan_pc i s t wrote b c, settle_chan_fields i s t wrote b c⟩
  case line X => exact he.2.2.1 X
  case hostPc => exact he.1
  case hostLatch => exact he.2.2.2
  case perPc => exact he.2.1
  all_goals simp [Block.tag, Block.oe, Block.vector]

end Sys2Proof.Machine
end

