-- ==== Sys2Proof/Laws/Exec.lean ====
section
/-! SUPPORT. What an operation can answer: every meaning is `conclude` of one effect, so that statements about all
operations are statements about effects, and completing operations have the frame of their own writes. -/

namespace Sys2Proof.Machine

/-- The effect of a processor operation, its checks included. -/
def ifProcessor (i : Instr) (s : State) (e : Effect) : Effect :=
  if i.wf s.par = false then .refuse .illegalOperation else if s.halted then .hold else e

/-- The effect of a task-context operation, its checks included. -/
def ifTask (i : Instr) (s : State) (e : Effect) : Effect := ifProcessor i s (if s.ctx = .task then e else .hold)

/-- The effect of a template step, its checks included. -/
def ifChannel (i : Instr) (t : Template) (b c : Nat) (s : State) (e : Effect) : Effect :=
  if i.wf s.par = false ∨ (s.chan b c).owner = .none ∨ (s.chan b c).cfg.template ≠ t then .refuse .wrongTemplate
  else if (s.chan b c).enabled = false then .hold
  else e

/-- The effect of an environment step, its check included. -/
def ifRole (r : Role) (s : State) (e : Effect) : Effect := if s.par.role = r then e else .refuse .wrongRole

theorem processorOp_eq (i : Instr) (s : State) (e : Effect) :
    processorOp i s e = conclude i s (ifProcessor i s e) := by
  unfold processorOp ifProcessor; split <;> (try split) <;> rfl

theorem taskOp_eq (i : Instr) (s : State) (e : Effect) : taskOp i s e = conclude i s (ifTask i s e) :=
  processorOp_eq ..

theorem channelOp_eq (i : Instr) (t : Template) (b c : Nat) (s : State) (e : Effect) :
    channelOp i t b c s e = conclude i s (ifChannel i t b c s e) := by
  unfold channelOp ifChannel; split <;> (try split) <;> rfl

theorem environmentOp_eq (i : Instr) (r : Role) (s : State) (e : Effect) :
    environmentOp i r s e = conclude i s (ifRole r s e) := by
  unfold environmentOp ifRole; split <;> rfl

/-- The effect of each operation. -/
def effectOf (i : Instr) (s : State) : Effect :=
  match i with
  | .configure b c d => ifProcessor (.configure b c d) s (effConfigure b.toNat c.toNat d s)
  | .enable b m => ifProcessor (.enable b m) s (effEnable b.toNat m s)
  | .disable b m => ifProcessor (.disable b m) s (effDisable b.toNat m s)
  | .txPush b c w => ifProcessor (.txPush b c w) s (effTxPush b.toNat c.toNat w s)
  | .rxPop b c => ifProcessor (.rxPop b c) s (effRxPop b.toNat c.toNat s)
  | .irqClear b m => ifProcessor (.irqClear b m) s (effIrqClear b.toNat m s)
  | .irqRead b => ifProcessor (.irqRead b) s (effIrqRead b.toNat s)
  | .irqForce b m => ifProcessor (.irqForce b m) s (effIrqForce b.toNat m s)
  | .irqInte b m => ifProcessor (.irqInte b m) s (effIrqInte b.toNat m s)
  | .irqGlobal v => ifProcessor (.irqGlobal v) s (effIrqGlobal v s)
  | .gpioSetFunc p f => ifProcessor (.gpioSetFunc p f) s (effGpioSetFunc p.toNat f s)
  | .gpioSetDir p oe => ifProcessor (.gpioSetDir p oe) s (effGpioSetDir p.toNat oe s)
  | .gpioPut p v => ifProcessor (.gpioPut p v) s (effGpioPut p.toNat v s)
  | .gpioGet p => ifProcessor (.gpioGet p) s (effGpioGet p.toNat s)
  | .gpioSetPull p pull => ifProcessor (.gpioSetPull p pull) s (effGpioSetPull p.toNat pull s)
  | .busSetDir oe => ifProcessor (.busSetDir oe) s (effBusSetDir oe s)
  | .busPut v => ifProcessor (.busPut v) s (effBusPut v s)
  | .busGet => ifProcessor .busGet s (effBusGet s)
  | .chWaitIdle b c => ifProcessor (.chWaitIdle b c) s (effChWaitIdle b.toNat c.toNat s)
  | .rdwFire b c => ifChannel (.rdwFire b c) .rdw b.toNat c.toNat s (effRdwFire b.toNat c.toNat s)
  | .rdwRearm b c => ifChannel (.rdwRearm b c) .rdw b.toNat c.toNat s (effRdwRearm b.toNat c.toNat s)
  | .wrwFire b c => ifChannel (.wrwFire b c) .wrw b.toNat c.toNat s (effWrwFire b.toNat c.toNat s)
  | .wrwRearm b c => ifChannel (.wrwRearm b c) .wrw b.toNat c.toNat s (effWrwRearm b.toNat c.toNat s)
  | .waiteAssert b c => ifChannel (.waiteAssert b c) .waite b.toNat c.toNat s (effWaiteAssert b.toNat c.toNat s)
  | .waiteRelease b c => ifChannel (.waiteRelease b c) .waite b.toNat c.toNat s (effWaiteRelease b.toNat c.toNat s)
  | .rcdStrobe b c => ifChannel (.rcdStrobe b c) .rcd b.toNat c.toNat s (effRcdStrobe b.toNat c.toNat s)
  | .rcdSeewait b c => ifChannel (.rcdSeewait b c) .rcd b.toNat c.toNat s (effRcdSeewait b.toNat c.toNat s)
  | .rcdSample b c => ifChannel (.rcdSample b c) .rcd b.toNat c.toNat s (effRcdSample b.toNat c.toNat s)
  | .wcdStart b c => ifChannel (.wcdStart b c) .wcd b.toNat c.toNat s (effWcdStart b.toNat c.toNat s)
  | .wcdSeewait b c => ifChannel (.wcdSeewait b c) .wcd b.toNat c.toNat s (effWcdSeewait b.toNat c.toNat s)
  | .wcdFinish b c => ifChannel (.wcdFinish b c) .wcd b.toNat c.toNat s (effWcdFinish b.toNat c.toNat s)
  | .hostRdBegin => ifRole .peripheral s (effHostRdBegin s)
  | .hostSeeWait => ifRole .peripheral s (effHostSeeWait s)
  | .hostRdEnd => ifRole .peripheral s (effHostRdEnd s)
  | .hostWrBegin v => ifRole .peripheral s (effHostWrBegin v s)
  | .hostWrEnd => ifRole .peripheral s (effHostWrEnd s)
  | .perRdAck => ifRole .master s (effPerRdAck s)
  | .perRdReady => ifRole .master s (effPerRdReady s)
  | .perRdDone => ifRole .master s (effPerRdDone s)
  | .perWrAck => ifRole .master s (effPerWrAck s)
  | .perWrLatch => ifRole .master s (effPerWrLatch s)
  | .perWrDone => ifRole .master s (effPerWrDone s)
  | .post k => ifProcessor (.post k) s (effPost k s)
  | .register b k => ifTask (.register b k) s (effRegister b.toNat k s)
  | .isrRd b => ifProcessor (.isrRd b) s (effHandler b.toNat .read s)
  | .isrWr b => ifProcessor (.isrWr b) s (effHandler b.toNat .write s)
  | .serviceRead b => ifTask (.serviceRead b) s (startService (readService b.toNat) s)
  | .serviceWrite b => ifTask (.serviceWrite b) s (startService (writeService b.toNat) s)
  | .masterRead b => ifProcessor (.masterRead b) s (effMasterRead b.toNat s)
  | .masterWrite b v => ifProcessor (.masterWrite b v) s (effMasterWrite b.toNat v s)
  | .periphInit => ifTask .periphInit s (effInit .peripheral s)
  | .masterInit => ifTask .masterInit s (effInit .master s)
  | .dispatch => ifTask .dispatch s (effDispatch s)

/-- Every operation answers `conclude` of its effect. -/
theorem exec_eq (i : Instr) (s : State) : exec i s = conclude i s (effectOf i s) := by
  cases i <;> simp only [exec, effectOf, processorOp_eq, taskOp_eq,
    channelOp_eq, environmentOp_eq,
    execConfigure, execEnable, execDisable, execTxPush, execRxPop, execIrqClear, execIrqRead, execIrqForce,
    execIrqInte, execIrqGlobal, execGpioSetFunc, execGpioSetDir, execGpioPut, execGpioGet, execGpioSetPull,
    execBusSetDir, execBusPut, execBusGet, execChWaitIdle, execRdwFire, execRdwRearm, execWrwFire, execWrwRearm,
    execWaiteAssert, execWaiteRelease, execRcdStrobe, execRcdSeewait, execRcdSample, execWcdStart,
    execWcdSeewait, execWcdFinish, execHostRdBegin, execHostSeeWait, execHostRdEnd, execHostWrBegin,
    execHostWrEnd, execPerRdAck, execPerRdReady, execPerRdDone, execPerWrAck, execPerWrLatch, execPerWrDone,
    execPost, execRegister, execIsrRd, execIsrWr, execServiceRead, execServiceWrite, execMasterRead,
    execMasterWrite, execPeriphInit, execMasterInit, execDispatch]

/-- `conclude` always answers a next state. -/
theorem conclude_next (i : Instr) (s : State) (e : Effect) : ∃ t, conclude i s e = .next t := by
  cases e <;> exact ⟨_, rfl⟩

/-- **What an operation can answer**: the end of the step of its own writes, a hold, a refusal, or a fault that ends
it. -/
theorem exec_cases {i : Instr} {s t : State} (h : exec i s = .next t) :
    (∃ u r wrote, effectOf i s = .done u r wrote ∧
        t = { settle i s u wrote with result := r, tick := s.tick + 1 }) ∨
      (effectOf i s = .hold ∧ t = s.afterHold) ∨
      (∃ r, effectOf i s = .refuse r ∧ t = s.afterRefusal r) ∨
      (∃ f, effectOf i s = .raise f ∧ t = s.afterFault f) := by
  rw [exec_eq] at h
  cases he : effectOf i s with
  | done u r wrote => rw [he] at h; cases h; exact .inl ⟨u, r, wrote, rfl, rfl⟩
  | hold => rw [he] at h; cases h; exact .inr (.inl ⟨rfl, rfl⟩)
  | refuse r => rw [he] at h; cases h; exact .inr (.inr (.inl ⟨r, rfl, rfl⟩))
  | raise f => rw [he] at h; cases h; exact .inr (.inr (.inr ⟨f, rfl, rfl⟩))

/-! ### Operations that are ready -/

theorem ifProcessor_ready {i : Instr} {s : State} (h : Ready i s) (e : Effect) : ifProcessor i s e = e := by
  simp [ifProcessor, h.1, h.2]

theorem ifTask_ready {i : Instr} {s : State} (h : TaskReady i s) (e : Effect) : ifTask i s e = e := by
  simp [ifTask, ifProcessor_ready h.1, h.2]

theorem ifChannel_ready {i : Instr} {t : Template} {b c : Nat} {s : State} (h : ChannelReady i t b c s) (e : Effect) :
    ifChannel i t b c s e = e := by
  simp [ifChannel, h.1, h.2.1, h.2.2.1, h.2.2.2]

theorem ifRole_ready {r : Role} {s : State} (h : s.par.role = r) (e : Effect) : ifRole r s e = e := by
  simp [ifRole, h]

/-! ### The frame of an operation that completes -/

/-- A piece that is the same in `u` and `v` is kept from the one as from the other; a data line, if the external
peripheral is not at its read hold in `v` only, since PER_RD_DONE follows from there. -/
theorem kept_of_same {wrote : Option Nat} {s u v t : State} {q : Part} (h : q.same u v)
    (hper : ∀ X, q = .line X → lineIdx X < 8 → v.perPc = .rdHold → u.perPc = .rdHold) (k : q.keptFrom wrote s v t) :
    q.keptFrom wrote s u t := by
  cases q <;> simp only [Part.keptFrom, Part.same] at *
  case out => rwa [h] at k
  case chan => rwa [h] at k
  case line X =>
    rw [h] at k
    rcases k with k | ⟨h1, h2, h3, h4, h5, h6⟩
    · exact .inl k
    · exact .inr ⟨h1, hper X rfl h5 h2, h3, h4, h5, h6⟩
  case hostPc => rwa [h] at k
  case perPc => rwa [h] at k
  case hostLatch => rw [h.1, h.2.1, h.2.2] at k; exact k
  all_goals simp_all

/-- What drives the lines does not depend on the model's result and draw counter. -/
theorem sameLine_result (s : State) (r : Result) (n : Nat) (X : Line) :
    SameLine s { s with result := r, tick := n } X := ⟨rfl, rfl, rfl, rfl⟩

/-- What a step's end has left stands in the state with the model's result and draw counter. -/
theorem kept_result {wrote : Option Nat} {s u t : State} (r : Result) (n : Nat) {q : Part}
    (k : q.keptFrom wrote s u t) : q.keptFrom wrote s u { t with result := r, tick := n } := by
  have hl := sameLine_result t r n
  have hrd : RdEnded t → RdEnded { t with result := r, tick := n } := fun h h1 h2 => rdEnded_of (hl _) (hl _) (h h1 h2) h1 h2
  have hwr : WrEnded t → WrEnded { t with result := r, tick := n } := fun h h1 h2 => wrEnded_of (hl _) (hl _) (h h1 h2) h1 h2
  have hws : WaitSeen t → WaitSeen { t with result := r, tick := n } := fun h h1 => waitSeen_of (hl _) (h h1) h1
  have hwf : WaitFree t → WaitFree { t with result := r, tick := n } := fun h h1 => waitFree_of (hl _) (h h1) h1
  cases q <;> try exact k
  case chan b c =>
    obtain ⟨hp, hc⟩ := k
    refine ⟨?_, hc⟩
    rcases hp with h | ⟨h1, h2, h⟩
    · exact .inl h
    · refine .inr ⟨h1, h2, ?_⟩
      rcases h with ⟨h1, h2, h3, h4⟩ | ⟨h1, h2, h3, h4⟩ | ⟨h1, h2, h3, h4⟩ | ⟨h1, h2, h3, h4⟩ | h
      · exact .inl ⟨h1, h2, hrd h3, h4⟩
      · exact .inr (.inl ⟨h1, h2, hwr h3, h4⟩)
      · exact .inr (.inr (.inl ⟨h1, h2, fun hv => hws (h3 hv), h4⟩))
      · exact .inr (.inr (.inr (.inl ⟨h1, h2, fun hv => hws (h3 hv), h4⟩)))
      · exact .inr (.inr (.inr (.inr h)))
  case line X =>
    rcases k with h | ⟨h1, h2, h3, h4, h5⟩
    · exact .inl h
    · exact .inr ⟨h1, h2, h3, fun hv => hrd (h4 hv), h5⟩
  case hostPc =>
    rcases k with h | ⟨h1, h2, h3⟩
    · exact .inl h
    · exact .inr ⟨h1, hws h2, h3⟩
  case perPc =>
    rcases k with h | ⟨h1, h2, ⟨h3, h4⟩ | ⟨h3, h4⟩⟩
    · exact .inl h
    · exact .inr ⟨h1, h2, .inl ⟨h3, fun hv => hrd (h4 hv)⟩⟩
    · exact .inr ⟨h1, h2, .inr ⟨h3, hwr h4⟩⟩
  case hostLatch =>
    rcases k with h | ⟨h1, h2, h3, h4, h5, h6, h7⟩
    · exact .inl h
    · exact .inr ⟨h1, h2, h3, hwf h4, h5, h6, fun i hs => (h7 i hs).trans (lineLevel_steady (hl _) hs _ _).symm⟩

/-- The frame of a step whose own writes, to the pieces in `own`, gave `u`. -/
theorem frame_of_own {i : Instr} {s u : State} {r : Result} {wrote : Option Nat} {own : Part → Prop} (hpar : u.par = s.par)
    (hsched : u.schedule = s.schedule) (hown : ∀ q, ¬ own q → q.same s u)
    (hper : u.perPc = .rdHold → s.perPc = .rdHold ∨ ∀ i, own (.line (.data i))) :
    Frame s { settle i s u wrote with result := r, tick := s.tick + 1 } wrote own := by
  refine ⟨by simpa using hpar, by simpa using hsched, rfl, fun q hq => ?_⟩
  refine kept_of_same (hown q hq) (fun X hX hi hp => ?_) (kept_result _ _ (settle_kept i s u wrote q))
  rcases hper hp with h | h
  · exact h
  · obtain ⟨j, rfl⟩ := data_of_lineIdx_lt hi
    exact absurd (hX ▸ h j) hq

theorem bothDrive_result (s : State) (r : Result) (n p : Nat) :
    bothDrive { s with result := r, tick := n } p = bothDrive s p := rfl

/-- A state raises STROBE_OVERLAP of block `b` exactly if that block drives both strobes low in it
(45_master_fsm.md R256). -/
theorem endFault_strobeOverlap {i j : Instr} {t : State} {b : Nat} :
    EndFault i t (.strobeOverlap b j) ↔ b < t.par.numBlocks ∧ strobesOverlap t b = true ∧ j = i := by
  simp [EndFault]

/-- The state an operation whose effect is done answers, for claims about a reaction that certainly happens. -/
theorem exec_next {i : Instr} {s u : State} {r : Result} {wrote : Option Nat} (he : effectOf i s = .done u r wrote) :
    exec i s = .next { settle i s u wrote with result := r, tick := s.tick + 1 } := by rw [exec_eq, he]; rfl

/-- **An operation whose effect is done completes**, returns the effect's result, has the frame of its own writes,
and keeps what it wrote through the end of the step but for the reactions; the faults it leaves are those of its own
writes and those of the state after the step. `hper` is for the one operation that brings the external peripheral to its
read hold, and writes the data lines. -/
theorem exec_done {i : Instr} {s u : State} {r : Result} {wrote : Option Nat} (own : Part → Prop)
    (he : effectOf i s = .done u r wrote) (hpar : u.par = s.par) (hsched : u.schedule = s.schedule)
    (hown : ∀ q, ¬ own q → q.same s u)
    (hper : u.perPc = .rdHold → s.perPc = .rdHold ∨ ∀ i, own (.line (.data i)) := by
      first | exact fun h => Or.inl h | exact fun h => Or.inl (by simpa using h)) :
    ∃ t, exec i s = .next t ∧ t.result = r ∧ Frame s t wrote own ∧ t.refused = u.refused ∧
      (∀ f, f ∈ t.faults ↔ f ∈ u.faults ∨ EndFault i t f) ∧ ∀ q : Part, q.keptFrom wrote s u t :=
  ⟨{ settle i s u wrote with result := r, tick := s.tick + 1 }, exec_next he, rfl,
    frame_of_own hpar hsched hown hper, by simp, settle_faults i s u wrote,
    fun q => kept_result _ _ (settle_kept i s u wrote q)⟩

/-- The same for own writes that touch no record. -/
theorem exec_plain {i : Instr} {s u : State} {r : Result} {wrote : Option Nat} (own : Part → Prop)
    (he : effectOf i s = .done u r wrote) (hpar : u.par = s.par) (hsched : u.schedule = s.schedule)
    (href : u.refused = s.refused) (hfaults : u.faults = s.faults) (hown : ∀ q, ¬ own q → q.same s u)
    (hper : u.perPc = .rdHold → s.perPc = .rdHold ∨ ∀ i, own (.line (.data i)) := by
      first | exact fun h => Or.inl h | exact fun h => Or.inl (by simpa using h)) :
    ∃ t, exec i s = .next t ∧ t.result = r ∧ RecordsKept i s t ∧ Frame s t wrote own ∧
      ∀ q : Part, q.keptFrom wrote s u t := by
  obtain ⟨t, h1, h2, h3, h4, h5, h6⟩ := exec_done own he hpar hsched hown hper
  exact ⟨t, h1, h2, ⟨h4.trans href, by rw [← hfaults]; exact h5⟩, h3, h6⟩

/-- An operation whose effect is a hold, a refusal or a fault. -/
theorem exec_hold {i : Instr} {s : State} (he : effectOf i s = .hold) : exec i s = .next s.afterHold := by
  rw [exec_eq, he]; rfl

theorem exec_refuse {i : Instr} {s : State} {r : Reason} (he : effectOf i s = .refuse r) :
    exec i s = .next (s.afterRefusal r) := by rw [exec_eq, he]; rfl

theorem exec_raise {i : Instr} {s : State} {f : FaultRec} (he : effectOf i s = .raise f) :
    exec i s = .next (s.afterFault f) := by rw [exec_eq, he]; rfl

end Sys2Proof.Machine
end

