-- ==== Sys2Proof/Laws/Step.lean ====
section
/-! SUPPORT. What one step of the machine can answer, and how a property is shown to be kept by every step: by showing it
of the effects. -/

namespace Sys2Proof.Machine

/-- The effect of the next step of an activity, with the operation a fault record names, and what a refusal or a fault
in it ends. -/
def resumeEffect (a : Activity) (s : State) : Instr × (State → State) × Effect :=
  match a with
  | .consumer =>
    match s.consumer with
    | none => (.dispatch, id, .hold)
    | some v =>
      (serviceInstr s v, dropConsumer, if s.halted = false ∧ s.ctx = .task then effService v s else .hold)
  | .master =>
    match s.master with
    | none => (.masterRead 0, id, .hold)
    | some m => (masterInstr m, dropMaster, if s.halted = false ∧ s.ctx = .task then effMasterStep m s else .hold)
  | .boot =>
    match s.boot with
    | none => (.periphInit, id, .hold)
    | some k =>
      match (bootProgram s.par k.module)[k.next]? with
      | none => (.periphInit, id, .done (dropBoot s) (.status 0) none)
      | some o =>
        (o.instr, dropBoot,
          if s.halted = false ∧ s.ctx = .task then (o.effect s).andThen (bootNext s.par k) else .hold)

theorem resume_eq (a : Activity) (s : State) :
    resume a s = concludeStep (resumeEffect a s).1 s (resumeEffect a s).2.1 (resumeEffect a s).2.2 := by
  cases a <;> simp only [resume, resumeBoot, resumeConsumer, resumeMaster, resumeEffect]
  · cases s.boot with
    | none => rfl
    | some k =>
      dsimp only
      cases (bootProgram s.par k.module)[k.next]? with
      | none => rfl
      | some o => dsimp only; split <;> rfl
  · cases s.consumer with
    | none => rfl
    | some v => dsimp only; split <;> rfl
  · cases s.master with
    | none => rfl
    | some m => dsimp only; split <;> rfl

/-- What the next step of an activity can answer. -/
theorem resume_cases {a : Activity} {s t : State} (h : resume a s = .next t) :
    (∃ u r wrote, (resumeEffect a s).2.2 = .done u r wrote ∧
        t = { settle (resumeEffect a s).1 s u wrote with result := r, tick := s.tick + 1 }) ∨
      t = s.afterHold ∨
      (∃ r, (resumeEffect a s).2.2 = .refuse r ∧ t = ((resumeEffect a s).2.1 s).afterRefusal r) ∨
      (∃ f, (resumeEffect a s).2.2 = .raise f ∧ t = ((resumeEffect a s).2.1 s).afterFault f) := by
  rw [resume_eq] at h
  cases he : (resumeEffect a s).2.2 with
  | done u r wrote => rw [he] at h; cases h; exact .inl ⟨u, r, wrote, rfl, rfl⟩
  | hold => rw [he] at h; cases h; exact .inr (.inl rfl)
  | refuse r => rw [he] at h; cases h; exact .inr (.inr (.inl ⟨r, rfl, rfl⟩))
  | raise f => rw [he] at h; cases h; exact .inr (.inr (.inr ⟨f, rfl, rfl⟩))

/-- A refusal or a fault in a running sequence ends at most that sequence. -/
theorem resume_drop (a : Activity) (s : State) :
    ∃ c m k, (resumeEffect a s).2.1 s = { s with consumer := c, master := m, boot := k } := by
  cases a <;> simp only [resumeEffect]
  · cases s.boot with
    | none => exact ⟨s.consumer, s.master, s.boot, rfl⟩
    | some k =>
      dsimp only
      cases (bootProgram s.par k.module)[k.next]? with
      | none => exact ⟨s.consumer, s.master, s.boot, rfl⟩
      | some o => exact ⟨s.consumer, s.master, none, rfl⟩
  · cases s.consumer with
    | none => exact ⟨s.consumer, s.master, s.boot, rfl⟩
    | some v => exact ⟨none, s.master, s.boot, rfl⟩
  · cases s.master with
    | none => exact ⟨s.consumer, s.master, s.boot, rfl⟩
    | some m => exact ⟨s.consumer, none, s.boot, rfl⟩

/-- The state a resumed activity whose effect is done answers. -/
theorem resume_next {a : Activity} {s u : State} {r : Result} {wrote : Option Nat}
    (he : (resumeEffect a s).2.2 = .done u r wrote) :
    resume a s = .next { settle (resumeEffect a s).1 s u wrote with result := r, tick := s.tick + 1 } := by
  rw [resume_eq, he]; rfl

/-- A resumed activity whose effect is done completes, returns the effect's result, and has the frame of its own
writes. -/
theorem resume_done {a : Activity} {s u : State} {r : Result} {wrote : Option Nat} (own : Part → Prop)
    (he : (resumeEffect a s).2.2 = .done u r wrote) (hpar : u.par = s.par) (hsched : u.schedule = s.schedule)
    (hown : ∀ q, ¬ own q → q.same s u)
    (hper : u.perPc = .rdHold → s.perPc = .rdHold ∨ ∀ i, own (.line (.data i)) := by
      first | exact fun h => Or.inl h | exact fun h => Or.inl (by simpa using h)) :
    ∃ t, resume a s = .next t ∧ t.result = r ∧ t.refused = u.refused ∧ Frame s t wrote own ∧
      (∀ f, f ∈ t.faults ↔ f ∈ u.faults ∨ EndFault (resumeEffect a s).1 t f) ∧ ∀ q : Part, q.keptFrom wrote s u t :=
  ⟨{ settle (resumeEffect a s).1 s u wrote with result := r, tick := s.tick + 1 },
    resume_next he, rfl, by simp, frame_of_own hpar hsched hown hper,
    settle_faults (resumeEffect a s).1 s u wrote, fun q => kept_result _ _ (settle_kept _ s u wrote q)⟩

/-- The same for own writes that touch no record. -/
theorem resume_plain {a : Activity} {s u : State} {r : Result} {wrote : Option Nat} (own : Part → Prop)
    (he : (resumeEffect a s).2.2 = .done u r wrote) (hpar : u.par = s.par) (hsched : u.schedule = s.schedule)
    (href : u.refused = s.refused) (hfaults : u.faults = s.faults) (hown : ∀ q, ¬ own q → q.same s u)
    (hper : u.perPc = .rdHold → s.perPc = .rdHold ∨ ∀ i, own (.line (.data i)) := by
      first | exact fun h => Or.inl h | exact fun h => Or.inl (by simpa using h)) :
    ∃ t, resume a s = .next t ∧ t.result = r ∧ RecordsKept (resumeEffect a s).1 s t ∧ Frame s t wrote own ∧
      ∀ q : Part, q.keptFrom wrote s u t := by
  obtain ⟨t, h1, h2, h3, h4, h5, h6⟩ := resume_done own he hpar hsched hown hper
  exact ⟨t, h1, h2, ⟨h3.trans href, by rw [← hfaults]; exact h5⟩, h4, h6⟩

/-- **What one step can answer**: it performs the operation whose words leave the schedule, or the initialisation that
the empty schedule starts; it resumes an activity, refuses words that are no operation, or is idle. -/
theorem step_cases {s t : State} (h : step s = .next t) :
    (∃ ts i, (fetch s = .ok i ∨ s.schedule = [] ∧ (i = .periphInit ∨ i = .masterInit)) ∧
        exec i { s with schedule := ts } = .next t) ∨
      (∃ ts a, resume a { s with schedule := ts } = .next t) ∨
      (∃ ts, t = ({ s with schedule := ts } : State).afterRefusal .illegalOperation) ∨
      t = s := by
  unfold step at h
  split at h
  · next hs =>
    unfold idleTurn at h
    split at h
    · exact .inr (.inl ⟨s.schedule, .boot, h⟩)
    · split at h
      · unfold startInit at h
        split at h
        · exact .inl ⟨s.schedule, .periphInit, .inr ⟨hs, .inl rfl⟩, h⟩
        · exact .inl ⟨s.schedule, .masterInit, .inr ⟨hs, .inr rfl⟩, h⟩
      · split at h
        · exact .inr (.inl ⟨s.schedule, .consumer, h⟩)
        · split at h
          · exact .inr (.inl ⟨s.schedule, .master, h⟩)
          · cases h; exact .inr (.inr (.inr rfl))
  · exact .inr (.inl ⟨_, _, h⟩)
  · split at h
    · exact .inl ⟨_, _, .inl ‹_›, h⟩
    · cases h
    · cases h; exact .inr (.inr (.inl ⟨_, rfl⟩))
    · cases h; exact .inr (.inr (.inl ⟨_, rfl⟩))

/-- **A property that every step keeps.** `Q wrote` is the property before the end of a step that wrote the flags of
block `wrote`: it suffices that `P` does not read the model's fields, the records and the running activities, that every
effect takes `P` to `Q`, and that the end of a step takes `Q` to `P`. -/
theorem step_keeps (P : State → Prop) (Q : Option Nat → State → Prop)
    (hP : ∀ s ts r n d fs c m k, P s →
      P { s with schedule := ts, result := r, tick := n, refused := d, faults := fs, consumer := c, master := m, boot := k })
    (hQ : ∀ i s u wrote, Q wrote u → P (settle i s u wrote))
    (hexec : ∀ i s u r wrote, P s → effectOf i s = .done u r wrote → Q wrote u)
    (hresume : ∀ a s u r wrote, P s → (resumeEffect a s).2.2 = .done u r wrote → Q wrote u)
    {s t : State} (hs : P s) (h : step s = .next t) : P t := by
  have key : ∀ s', P s' → ∀ (ts : List Turn) (r : Result) (n : Nat) (d : Bool) (fs : List FaultRec),
      P { s' with schedule := ts, result := r, tick := n, refused := d, faults := fs } := fun s' h' ts r n d fs =>
    hP s' ts r n d fs s'.consumer s'.master s'.boot h'
  have hsch : ∀ ts, P { s with schedule := ts } := fun ts => key s hs ts s.result s.tick s.refused s.faults
  rcases step_cases h with ⟨ts, i, -, he⟩ | ⟨ts, a, he⟩ | ⟨ts, rfl⟩ | rfl
  · rcases exec_cases he with ⟨u, r, wrote, hu, rfl⟩ | ⟨-, rfl⟩ | ⟨r, -, rfl⟩ | ⟨f, -, rfl⟩
    · exact key _ (hQ _ _ _ _ (hexec _ _ _ _ _ (hsch ts) hu)) _ r _ _ _
    · exact key _ (hsch ts) ts .held (s.tick + 1) s.refused s.faults
    · exact key _ (hsch ts) ts (.refused r) (s.tick + 1) true s.faults
    · exact key _ (hsch ts) ts .faulted (s.tick + 1) s.refused (addFault s.faults f)
  · obtain ⟨c, m, k, hd⟩ := resume_drop a { s with schedule := ts }
    rcases resume_cases he with ⟨u, r, wrote, hu, rfl⟩ | rfl | ⟨r, -, rfl⟩ | ⟨f, -, rfl⟩
    · exact key _ (hQ _ _ _ _ (hresume _ _ _ _ _ (hsch ts) hu)) _ r _ _ _
    · exact key _ (hsch ts) ts .held (s.tick + 1) s.refused s.faults
    · rw [hd]; exact hP { s with schedule := ts } ts (.refused r) (s.tick + 1) true s.faults c m k (hsch ts)
    · rw [hd]; exact hP { s with schedule := ts } ts .faulted (s.tick + 1) s.refused (addFault s.faults f) c m k (hsch ts)
  · exact key _ (hsch ts) ts (.refused .illegalOperation) (s.tick + 1) true s.faults
  · exact hs

end Sys2Proof.Machine
end

