-- ==== Sys2Proof/Laws/Frames.lean ====
section
/-! SUPPORT. What each shared operation leaves alone, as `Part.same`; when a reaction cannot have touched what a step wrote; and
what the named reads give after the named writes. -/

namespace Sys2Proof.Machine

/-! ### Status words -/

/-- The status word has the flags as its bits (43_fifo_irq.md R167). -/
theorem irqStatus_isStatus (par : Params) (k : Block) : IsStatus par k (irqStatus par k) := by
  intro i
  simp only [irqStatus, Block.flag]
  by_cases hi : i < 16
  · simp only [BitVec.getLsbD_setWidth, show i < 32 by omega, decide_true, Bool.true_and, BitVec.getLsbD_and,
      BitVec.getLsbD_ofNat, hi, Nat.testBit_two_pow_sub_one]
    exact Bool.and_comm _ _
  · simp [BitVec.getLsbD_of_ge _ i (Nat.le_of_not_lt hi)]

/-! ### What an operation leaves alone -/

theorem same_self {s : State} (q : Part) : q.same s s := by cases q <;> simp [Part.same]

theorem same_trans {s t u : State} {q : Part} (h : q.same s t) (k : q.same t u) : q.same s u := by
  cases q <;> simp only [Part.same] at *
  case hostLatch => exact ⟨k.1.trans h.1, k.2.1.trans h.2.1, k.2.2.trans h.2.2⟩
  case halt => exact ⟨k.1.trans h.1, k.2.1.trans h.2.1, k.2.2.trans h.2.2⟩
  case inits => exact ⟨k.1.trans h.1, k.2.trans h.2⟩
  case handlers => exact ⟨k.1.trans h.1, k.2.trans h.2⟩
  all_goals exact k.trans h

/-- A change of block `b` leaves every piece whose read of the block it leaves. -/
theorem same_modBlk {s : State} {b : Nat} {f : Block → Block} (q : Part)
    (himem : ∀ a, q = .imem b a → readByte (f (s.blk b)).imem a = readByte (s.blk b).imem a)
    (htag : ∀ a, q = .tag b a → (f (s.blk b)).tag a = (s.blk b).tag a)
    (hflags : q = .flags b → (f (s.blk b)).flags = (s.blk b).flags)
    (hinte : q = .inte b → (f (s.blk b)).inte = (s.blk b).inte)
    (hout : ∀ p, q = .out b p → (f (s.blk b)).out p = (s.blk b).out p)
    (hoe : ∀ p, q = .oe b p → (f (s.blk b)).oe p = (s.blk b).oe p)
    (hvec : ∀ i, q = .vec b i → (f (s.blk b)).vector i = (s.blk b).vector i)
    (hchan : ∀ c, q = .chan b c → (f (s.blk b)).chan c = (s.blk b).chan c) : q.same s (s.modBlk b f) := by
  have hb : ∀ b', b' ≠ b → (s.modBlk b f).blk b' = s.blk b' := fun b' h => blk_modBlk_ne _ _ h
  cases q <;> simp only [Part.same] <;> try simp
  case imem b' a => by_cases h : b' = b <;> [(subst h; rw [blk_modBlk_self]; exact himem _ rfl); rw [hb _ h]]
  case tag b' a => by_cases h : b' = b <;> [(subst h; rw [blk_modBlk_self]; exact htag _ rfl); rw [hb _ h]]
  case flags b' => by_cases h : b' = b <;> [(subst h; rw [blk_modBlk_self]; exact hflags rfl); rw [hb _ h]]
  case inte b' => by_cases h : b' = b <;> [(subst h; rw [blk_modBlk_self]; exact hinte rfl); rw [hb _ h]]
  case out b' p => by_cases h : b' = b <;> [(subst h; rw [blk_modBlk_self]; exact hout _ rfl); rw [hb _ h]]
  case oe b' p => by_cases h : b' = b <;> [(subst h; rw [blk_modBlk_self]; exact hoe _ rfl); rw [hb _ h]]
  case vec b' i => by_cases h : b' = b <;> [(subst h; rw [blk_modBlk_self]; exact hvec _ rfl); rw [hb _ h]]
  case chan b' c =>
    simp only [State.chan]
    by_cases h : b' = b <;> [(subst h; rw [blk_modBlk_self]; exact hchan _ rfl); rw [hb _ h]]

theorem same_modChan {s : State} {b c : Nat} {f : Channel → Channel} (q : Part) (h : q ≠ .chan b c) :
    q.same s (s.modChan b c f) := by
  refine same_modBlk q (fun _ _ => rfl) (fun _ _ => rfl) (fun _ => rfl) (fun _ => rfl) (fun _ _ => rfl) (fun _ _ => rfl)
    (fun _ _ => rfl) fun c' hq => ?_
  rw [chan_modChan, if_neg]
  rintro rfl
  exact h hq

theorem same_raiseFlags {s : State} {b : Nat} {m : Half} (q : Part) (h : q ≠ .flags b) :
    q.same s (s.modBlk b fun k => k.raiseFlags m) :=
  same_modBlk q (fun _ _ => rfl) (fun _ _ => rfl) (fun hq => absurd hq h) (fun _ => rfl) (fun _ _ => rfl) (fun _ _ => rfl)
    (fun _ _ => rfl) fun _ _ => rfl

theorem same_clearFlags {s : State} {b : Nat} {m : Half} (q : Part) (h : q ≠ .flags b) :
    q.same s (s.modBlk b fun k => k.clearFlags m) :=
  same_modBlk q (fun _ _ => rfl) (fun _ _ => rfl) (fun hq => absurd hq h) (fun _ => rfl) (fun _ _ => rfl) (fun _ _ => rfl)
    (fun _ _ => rfl) fun _ _ => rfl

theorem same_setPc {s : State} {b c : Nat} {p : TState} (q : Part) (h : q ≠ .chan b c) : q.same s (setPc s b c p) :=
  same_modChan q h

theorem same_driveLine {s : State} {b : Nat} {X : Line} {v : Bool} (q : Part) (h : q ≠ .out b (s.par.pin X)) :
    q.same s (driveLine s b X v) := by
  refine same_modBlk q (fun _ _ => rfl) (fun _ _ => rfl) (fun _ => rfl) (fun _ => rfl) (fun p hq => ?_) (fun _ _ => rfl)
    (fun _ _ => rfl) fun _ _ => rfl
  rw [out_setOut, if_neg]
  rintro rfl
  exact h hq

theorem same_bindVector {s : State} {b i : Nat} {h : Handler} (q : Part) (hq : q ≠ .vec b i) :
    q.same s (bindVector s b i h) := by
  refine same_modBlk q (fun _ _ => rfl) (fun _ _ => rfl) (fun _ => rfl) (fun _ => rfl) (fun _ _ => rfl) (fun _ _ => rfl)
    (fun j hj => ?_) fun _ _ => rfl
  simp only [Block.vector, tabSet_getD]
  rw [if_neg]
  rintro rfl
  exact hq hj

theorem same_modPin {s : State} {p : Nat} {f : Pin → Pin} (q : Part) (h : q ≠ .pin p) : q.same s (s.modPin p f) := by
  cases q <;> simp only [Part.same] <;> try simp
  case pin p' => rw [pin_modPin, if_neg]; rintro rfl; exact h rfl

theorem same_modPins {s : State} {base n : Nat} {f : Nat → Pin → Pin} (q : Part)
    (h : ¬ ∃ i, i < n ∧ q = .pin (base + i)) : q.same s (s.modPins base n f) := by
  cases q <;> simp only [Part.same] <;> try simp
  case pin p =>
    rw [pin_modPins, if_neg]
    rintro ⟨h1, h2⟩
    exact h ⟨p - base, by omega, by congr 1; omega⟩

theorem same_modEnv {s : State} {X : Line} {f : EnvLine → EnvLine} (q : Part) (h : q ≠ .line X) :
    q.same s (s.modEnv X f) := by
  cases q <;> simp only [Part.same] <;> try simp
  case line Y => rw [envLine_modEnv, if_neg]; rintro rfl; exact h rfl

theorem same_modEnvData {s : State} {f : Nat → EnvLine → EnvLine} (q : Part) (h : ¬ ∃ i, q = .line (.data i)) :
    q.same s (s.modEnvData f) := by
  cases q <;> simp only [Part.same] <;> try simp
  case line Y =>
    rw [envLine_modEnvData, if_neg]
    intro hY
    obtain ⟨i, rfl⟩ := data_of_lineIdx_lt hY
    exact h ⟨i, rfl⟩

theorem same_consumer {s : State} {v : Option Service} (q : Part) (h : q ≠ .consumer) :
    q.same s { s with consumer := v } := by
  cases q <;> first | exact absurd rfl h | simp [Part.same, State.blk, State.chan, State.pin, State.envLine]

theorem same_master {s : State} {v : Option MasterCall} (q : Part) (h : q ≠ .master) :
    q.same s { s with master := v } := by
  cases q <;> first | exact absurd rfl h | simp [Part.same, State.blk, State.chan, State.pin, State.envLine]

theorem same_boot {s : State} {v : Option Boot} (q : Part) (h : q ≠ .boot) :
    q.same s { s with boot := v } := by
  cases q <;> first | exact absurd rfl h | simp [Part.same, State.blk, State.chan, State.pin, State.envLine]

theorem same_queue {s : State} {v : List WorkItem} (q : Part) (h : q ≠ .queue) :
    q.same s { s with queue := v } := by
  cases q <;> first | exact absurd rfl h | simp [Part.same, State.blk, State.chan, State.pin, State.envLine]

theorem same_hostPc {s : State} {v : HostPc} (q : Part) (h : q ≠ .hostPc) :
    q.same s { s with hostPc := v } := by
  cases q <;> first | exact absurd rfl h | simp [Part.same, State.blk, State.chan, State.pin, State.envLine]

theorem same_perPc {s : State} {v : PerPc} (q : Part) (h : q ≠ .perPc) :
    q.same s { s with perPc := v } := by
  cases q <;> first | exact absurd rfl h | simp [Part.same, State.blk, State.chan, State.pin, State.envLine]

/-! ### What a step wrote and no reaction touched -/

theorem chan_exact {t : State} {wrote : Option Nat} {b : Nat} {ch ch' : Channel} (h : ChannelReacts t wrote b ch ch')
    (hp : PcReacts t wrote b ch ch.pc ch'.pc → ch'.pc = ch.pc) : ch' = ch := by rw [h.2, hp h.1]

/-- No reaction moves a channel at a state where none starts. -/
theorem pc_exact {t : State} {b : Nat} {ch : Channel} {p p' : TState} (h : PcReacts t none b ch p p') (h1 : p ≠ .fired)
    (h2 : p ≠ .rWaitLow) (h3 : p ≠ .wWaitLow) : p' = p := by
  rcases h with h | ⟨-, -, h | h | h | h | h⟩
  · exact h
  · exact absurd h.2.2.2.1 h1
  · exact absurd h.2.2.2.1 h1
  · exact absurd h.2.2.2.1 h2
  · exact absurd h.2.2.2.1 h3
  · exact absurd h.1 (by simp)

/-- No reaction drives a pin in a step that wrote no flags. -/
theorem out_exact {t : State} {b p : Nat} {v v' : Bool} (h : OutReacts t none b p v v') : v' = v :=
  h.elim id fun h => absurd h.1 (by simp)

/-- No reaction touches a line in the PERIPHERAL role, a line that is no data line, or a line that is not driven. -/
theorem line_exact {t : State} {p : PerPc} {X : Line} {e e' : EnvLine} (h : LineReacts t p X e e')
    (hr : t.par.role ≠ .master ∨ ¬ lineIdx X < 8 ∨ e.drive = false) : e' = e := by
  rcases h with h | ⟨h1, -, -, -, h3, h4⟩
  · exact h
  · rcases hr with hr | hr | hr
    · exact absurd h1 hr
    · exact absurd h3 hr
    · rw [h4, ← hr]

/-- Nothing latches where the host does not wait for WAIT's release in a read cycle, or in the MASTER role. -/
theorem latch_exact {s t : State} {v : Byte} {w l : Bool} (h : LatchReacts s t v w l)
    (hr : t.par.role ≠ .peripheral ∨ t.hostPc ≠ .rdWaitRel) :
    t.hostLatch = v ∧ t.hostLatchWritten = w ∧ t.hostLatched = l := by
  rcases h with h | ⟨h1, h2, -⟩
  · exact h
  · exact hr.elim (absurd h1) (absurd h2)

/-! ### Reads after the named writes -/

@[simp] theorem par_driveLine (s : State) (b : Nat) (X : Line) (v : Bool) : (driveLine s b X v).par = s.par := rfl
@[simp] theorem par_setPc (s : State) (b c : Nat) (p : TState) : (setPc s b c p).par = s.par := rfl

theorem out_driveLine (s : State) (b : Nat) (X : Line) (v : Bool) (p : Nat) :
    ((driveLine s b X v).blk b).out p = if p = s.par.pin X then v else (s.blk b).out p := by
  rw [driveLine, blk_modBlk_self, out_setOut]

@[simp] theorem chan_driveLine (s : State) (b : Nat) (X : Line) (v : Bool) (b' c : Nat) :
    (driveLine s b X v).chan b' c = s.chan b' c := by
  simp only [driveLine, State.chan, blk_modBlk]
  split
  · next h => subst h; rfl
  · rfl

theorem blk_driveLine (s : State) (b : Nat) (X : Line) (v : Bool) (b' : Nat) :
    (driveLine s b X v).blk b' = { s.blk b' with pinOut := ((driveLine s b X v).blk b').pinOut } := by
  simp only [driveLine, blk_modBlk]
  split
  · next h => subst h; rfl
  · rfl

@[simp] theorem imem_driveLine (s : State) (b : Nat) (X : Line) (v : Bool) (b' : Nat) :
    ((driveLine s b X v).blk b').imem = (s.blk b').imem := by rw [blk_driveLine]
@[simp] theorem tags_driveLine (s : State) (b : Nat) (X : Line) (v : Bool) (b' : Nat) :
    ((driveLine s b X v).blk b').tags = (s.blk b').tags := by rw [blk_driveLine]
@[simp] theorem flags_driveLine (s : State) (b : Nat) (X : Line) (v : Bool) (b' : Nat) :
    ((driveLine s b X v).blk b').flags = (s.blk b').flags := by rw [blk_driveLine]
@[simp] theorem pinOe_driveLine (s : State) (b : Nat) (X : Line) (v : Bool) (b' : Nat) :
    ((driveLine s b X v).blk b').pinOe = (s.blk b').pinOe := by rw [blk_driveLine]

theorem chan_setPc (s : State) (b c : Nat) (p : TState) (b' c' : Nat) :
    (setPc s b c p).chan b' c' = if b' = b ∧ c' = c then { s.chan b c with pc := p } else s.chan b' c' :=
  state_chan_modChan ..

@[simp] theorem imem_setPc (s : State) (b c : Nat) (p : TState) (b' : Nat) :
    ((setPc s b c p).blk b').imem = (s.blk b').imem := by simp [setPc]
@[simp] theorem tags_setPc (s : State) (b c : Nat) (p : TState) (b' : Nat) :
    ((setPc s b c p).blk b').tags = (s.blk b').tags := by simp [setPc]
@[simp] theorem flags_setPc (s : State) (b c : Nat) (p : TState) (b' : Nat) :
    ((setPc s b c p).blk b').flags = (s.blk b').flags := by simp [setPc]
@[simp] theorem pinOut_setPc (s : State) (b c : Nat) (p : TState) (b' : Nat) :
    ((setPc s b c p).blk b').pinOut = (s.blk b').pinOut := by simp [setPc]
@[simp] theorem pinOe_setPc (s : State) (b c : Nat) (p : TState) (b' : Nat) :
    ((setPc s b c p).blk b').pinOe = (s.blk b').pinOe := by simp [setPc]

/-- A change of a block that leaves a field of it. -/
theorem blk_modBlk_field {α : Type} (g : Block → α) (s : State) (b : Nat) {f : Block → Block} (h : ∀ k, g (f k) = g k)
    (b' : Nat) : g ((s.modBlk b f).blk b') = g (s.blk b') := by
  rw [blk_modBlk]
  split
  · next hb => subst hb; exact h _
  · rfl

/-- A change of a block that leaves its channels. -/
theorem chan_modBlk_field (s : State) (b : Nat) {f : Block → Block} (h : ∀ k, (f k).chs = k.chs) (b' c : Nat) :
    (s.modBlk b f).chan b' c = s.chan b' c :=
  blk_modBlk_field (fun k => k.chan c) s b (fun k => by simp only [Block.chan, h k]) b'

/-- The byte source's own state is its counter (46_engine_sequences.md R278). -/
theorem sourceNext_eq (s : State) : sourceNext s = { s with counter := (sourceNext s).counter } := by
  unfold sourceNext
  split <;> rfl

@[simp] theorem perPc_sourceNext (s : State) : (sourceNext s).perPc = s.perPc := by rw [sourceNext_eq]

/-- The byte sink's own state is its list (46_engine_sequences.md R280). -/
theorem sinkByte_eq (s : State) (v : Byte) : sinkByte s v = { s with sink := (sinkByte s v).sink } := by
  unfold sinkByte
  split <;> rfl

@[simp] theorem perPc_sinkByte (s : State) (v : Byte) : (sinkByte s v).perPc = s.perPc := by rw [sinkByte_eq]

end Sys2Proof.Machine
end

