-- ==== Sys2Proof/Laws/Configure.lean ====
section
/-! SUPPORT. What the configurator's operations can do: the channels of a mask, the free ranges and the allocation's choice,
and what `configureAt` leaves in each block, channel and pin. -/

namespace Sys2Proof.Machine

/-! ### The channels of a mask -/

theorem mem_maskChannels {par : Params} {m : Half} (h : chanMaskOk par m = true) (c : Nat) :
    c ∈ maskChannels par m ↔ m.getLsbD c = true := by
  simp only [maskChannels, List.mem_filter, List.mem_range]
  refine ⟨fun h => h.2, fun hc => ⟨?_, hc⟩⟩
  simp only [chanMaskOk, decide_eq_true_eq] at h
  by_contra hn
  have : m.getLsbD c = false :=
    Nat.testBit_lt_two_pow (lt_of_lt_of_le h (Nat.pow_le_pow_right (by norm_num) (Nat.le_of_not_lt hn)))
  rw [this] at hc
  cases hc

/-- The same change made to every listed channel of a block. -/
theorem chan_fold {f : Channel → Channel} (hf : ∀ ch, f (f ch) = f ch) (cs : List Nat) (s : State) (b b' c' : Nat) :
    (cs.foldl (fun t c => t.modChan b c f) s).chan b' c' = if b' = b ∧ c' ∈ cs then f (s.chan b c') else s.chan b' c' := by
  induction cs generalizing s with
  | nil => simp
  | cons c cs ih =>
    rw [List.foldl_cons, ih]
    simp only [state_chan_modChan, List.mem_cons]
    by_cases hb : b' = b
    · subst hb
      by_cases hc : c' = c
      · subst hc; simp [hf]
      · simp [hc]
    · simp [hb]

theorem same_fold (f : Channel → Channel) (cs : List Nat) (s : State) (b : Nat) (q : Part) (h : ∀ c ∈ cs, q ≠ .chan b c) :
    q.same s (cs.foldl (fun t c => t.modChan b c f) s) := by
  induction cs generalizing s with
  | nil => exact same_self q
  | cons c cs ih => exact same_trans (same_modChan q (h c (by simp))) (ih _ fun c hc => h c (by simp [hc]))

theorem fold_fields (f : Channel → Channel) (cs : List Nat) (s : State) (b : Nat) :
    ∃ bl, cs.foldl (fun t c => t.modChan b c f) s = { s with blks := bl } := by
  induction cs generalizing s with
  | nil => exact ⟨_, rfl⟩
  | cons c cs ih => obtain ⟨bl, h⟩ := ih (s.modChan b c f); exact ⟨bl, h⟩

/-- A field of a block that a change of channels leaves. -/
theorem blk_fold {α : Type} (g : Block → α) (hg : ∀ (k : Block) c f, g (k.modChan c f) = g k) (f : Channel → Channel)
    (cs : List Nat) (s : State) (b b' : Nat) : g ((cs.foldl (fun t c => t.modChan b c f) s).blk b') = g (s.blk b') := by
  induction cs generalizing s with
  | nil => rfl
  | cons c cs ih =>
    rw [List.foldl_cons, ih]
    exact blk_modBlk_field g s b (fun k => hg k c f) b'

/-! ### The allocation (41_configurator.md R101, R103) -/

theorem mem_freeOffsets {par : Params} {k : Block} {n o : Nat} :
    o ∈ freeOffsets par k n ↔ o + n ≤ par.imemWords ∧ ∀ i, i < n → k.tag (o + i) = .free := by
  simp only [freeOffsets, List.mem_filter, List.mem_range, allFree, List.all_eq_true, decide_eq_true_eq]
  constructor <;> rintro ⟨h1, h2⟩ <;> exact ⟨by omega, h2⟩

/-- The choice is one of the free ranges, and there is one exactly when there is a free range. -/
theorem chooseOffset_mem {par : Params} {t : Nat} {fs : List Nat} (h : fs ≠ []) :
    ∃ o, chooseOffset par t fs = some o ∧ o ∈ fs := by
  unfold chooseOffset
  split
  · exact ⟨_, List.getElem?_eq_getElem (Nat.mod_lt _ (List.length_pos_iff.mpr h)), List.getElem_mem _⟩
  · cases fs with
    | nil => exact absurd rfl h
    | cons a as => exact ⟨a, rfl, by simp⟩

@[simp] theorem chooseOffset_nil (par : Params) (t : Nat) : chooseOffset par t [] = none := by
  unfold chooseOffset; split <;> simp

/-- What a descriptor that decodes gives: no offset yet, and shift widths of 1 to 32 (30_encoding.md R84). -/
theorem decodeDescriptor_spec {d : DescWords} {cfg : ChanCfg} (h : decodeDescriptor d = some cfg) :
    cfg.offset = -1 ∧ 1 ≤ cfg.inShift.bits ∧ cfg.inShift.bits ≤ 32 ∧ 1 ≤ cfg.outShift.bits ∧ cfg.outShift.bits ≤ 32 := by
  unfold decodeDescriptor at h
  split at h
  · split at h
    · next hc =>
      cases h
      simp only [Bool.and_eq_true, shiftBitsOk, decide_eq_true_eq] at hc
      exact ⟨rfl, hc.1.1.1.1.1, hc.1.1.1.1.2, hc.1.1.1.2.1, hc.1.1.1.2.2⟩
    · cases h
  · cases h

/-! ### What a load leaves (41_configurator.md R103, R105 to R107) -/

theorem pin_attachPins (s : State) (b : Nat) (d : ChanCfg) (p : Nat) :
    (attachPins s b d).pin p
      = if d.inPins.has p || d.outgroup p then { s.pin p with func := .pio b } else s.pin p := by
  simp only [attachPins, attachGroup, pin_modPins, ChanCfg.outgroup, ChanCfg.strobe, PinGroup.has]
  by_cases h1 : d.inPins.base ≤ p ∧ p < d.inPins.base + d.inPins.count <;>
  by_cases h2 : d.outPins.base ≤ p ∧ p < d.outPins.base + d.outPins.count <;>
  by_cases h3 : d.setPins.base ≤ p ∧ p < d.setPins.base + d.setPins.count <;>
  by_cases h4 : d.sidesetPins.base ≤ p ∧ p < d.sidesetPins.base + d.sidesetPins.count <;>
  simp only [h1, h2, h3, h4, if_false, ← Bool.decide_and, decide_true, decide_false, Bool.or_false,
    Bool.false_or] <;> simp

theorem oe_initDirections (k : Block) (d : ChanCfg) (p : Nat) :
    (initDirections k d).oe p = if d.outgroup p then true else if d.inPins.has p then false else k.oe p := by
  show (tabModifyRun _ (tabModifyRun _ (tabModifyRun _ (tabModifyRun _ _ _ _ _) _ _ _) _ _ _) _ _ _).getD p false = _
  simp only [tabModifyRun_getD, ChanCfg.outgroup, ChanCfg.strobe, PinGroup.has, Block.oe]
  by_cases h1 : d.inPins.base ≤ p ∧ p < d.inPins.base + d.inPins.count <;>
  by_cases h2 : d.outPins.base ≤ p ∧ p < d.outPins.base + d.outPins.count <;>
  by_cases h3 : d.setPins.base ≤ p ∧ p < d.setPins.base + d.setPins.count <;>
  by_cases h4 : d.sidesetPins.base ≤ p ∧ p < d.sidesetPins.base + d.sidesetPins.count <;>
  simp only [h1, h2, h3, h4, if_false, ← Bool.decide_and, decide_true, decide_false, Bool.or_false,
    Bool.false_or] <;> simp

theorem out_initDirections (k : Block) (d : ChanCfg) (p : Nat) :
    (initDirections k d).out p = if d.outgroup p then true else k.out p := by
  show (tabModifyRun _ (tabModifyRun _ (tabModifyRun _ _ _ _ _) _ _ _) _ _ _).getD p false = _
  simp only [tabModifyRun_getD, ChanCfg.outgroup, ChanCfg.strobe, PinGroup.has, Block.out]
  by_cases h2 : d.outPins.base ≤ p ∧ p < d.outPins.base + d.outPins.count <;>
  by_cases h3 : d.setPins.base ≤ p ∧ p < d.setPins.base + d.setPins.count <;>
  by_cases h4 : d.sidesetPins.base ≤ p ∧ p < d.sidesetPins.base + d.sidesetPins.count <;>
  simp only [h2, h3, h4, if_false, ← Bool.decide_and, decide_true, decide_false, Bool.or_false,
    Bool.false_or] <;> simp

theorem tag_loadProgram (k : Block) (c o n : Nat) (t : Template) (a : Nat) :
    (loadProgram k c o n t).tag a = if o ≤ a ∧ a < o + n then .used c else k.tag a := tabModifyRun_getD ..

/-- The block after a load. -/
theorem blk_configureAt (s : State) (b c o : Nat) (d : ChanCfg) (b' : Nat) :
    (configureAt s b c o d).blk b'
      = if b' = b then
          (initDirections (loadProgram (s.blk b) c o (s.par.len d.template) d.template) d).modChan c fun _ =>
            configuredChannel s.par.role { d with offset := o }
        else s.blk b' := by
  have : (configureAt s b c o d).blk b' = (s.modBlk b fun k =>
      (initDirections (loadProgram k c o (s.par.len d.template) d.template) d).modChan c fun _ =>
        configuredChannel s.par.role { d with offset := o }).blk b' := rfl
  rw [this, blk_modBlk]

theorem chan_configureAt (s : State) (b c o : Nat) (d : ChanCfg) (b' c' : Nat) :
    (configureAt s b c o d).chan b' c'
      = if b' = b ∧ c' = c then configuredChannel s.par.role { d with offset := o } else s.chan b' c' := by
  rw [State.chan, blk_configureAt]
  by_cases h : b' = b
  · subst h; simp only [if_true, chan_modChan, true_and]; rfl
  · simp [h, State.chan]

theorem imem_configureAt (s : State) (b c o : Nat) (d : ChanCfg) (b' : Nat) :
    ((configureAt s b c o d).blk b').imem
      = if b' = b then writeWords (s.blk b).imem o (s.par.len d.template) (Config.progWord d.template)
        else (s.blk b').imem := by
  rw [blk_configureAt]; split <;> rfl

theorem tag_configureAt (s : State) (b c o : Nat) (d : ChanCfg) (b' a : Nat) :
    ((configureAt s b c o d).blk b').tag a
      = if b' = b ∧ o ≤ a ∧ a < o + s.par.len d.template then .used c else (s.blk b').tag a := by
  rw [blk_configureAt]
  by_cases h : b' = b
  · subst h
    simp only [if_true, true_and]
    exact tag_loadProgram _ _ _ _ d.template _
  · simp [h]

theorem flags_configureAt (s : State) (b c o : Nat) (d : ChanCfg) (b' : Nat) :
    ((configureAt s b c o d).blk b').flags = (s.blk b').flags := by
  rw [blk_configureAt]; split
  · next h => subst h; rfl
  · rfl

end Sys2Proof.Machine
end

