-- ==== Sys2Proof/Laws/PerInstr.lean ====
section
/-! SUPPORT. For every operation: it has as many words as its format gives it (spec/30_encoding.md R81), which the decoder
counts from the first word alone. One lemma a constructor. -/

namespace Sys2Proof.Laws

/-- The operation's words are a first word and as many argument words as the first word's opcode asks for. -/
def FitsWords.Statement (i : Instr) : Prop := ∃ w ws, encode i = w :: ws ∧ (encode i).length = wordCount w

theorem fits_of {i : Instr} {w : Word} {ws : List Word} (h : encode i = w :: ws) (hl : (encode i).length = wordCount w) :
    FitsWords.Statement i := ⟨w, ws, h, hl⟩

/-- The word count depends on the opcode alone. -/
theorem wordCount_opWord (op : Byte) (b c : Nibble) (x : Half) :
    wordCount (opWord op b c x) = wordCount (opWord op 0 0 0) := by
  simp only [wordCount, opField_opWord]

theorem FitsWords.configure (b) (c) (d) : FitsWords.Statement (.configure b c d) :=
  fits_of rfl (by rw [wordCount_opWord]; rfl)

theorem FitsWords.enable (b) (m) : FitsWords.Statement (.enable b m) :=
  fits_of rfl (by rw [wordCount_opWord]; rfl)

theorem FitsWords.disable (b) (m) : FitsWords.Statement (.disable b m) :=
  fits_of rfl (by rw [wordCount_opWord]; rfl)

theorem FitsWords.txPush (b) (c) (w) : FitsWords.Statement (.txPush b c w) :=
  fits_of rfl (by rw [wordCount_opWord]; rfl)

theorem FitsWords.rxPop (b) (c) : FitsWords.Statement (.rxPop b c) :=
  fits_of rfl (by rw [wordCount_opWord]; rfl)

theorem FitsWords.irqClear (b) (m) : FitsWords.Statement (.irqClear b m) :=
  fits_of rfl (by rw [wordCount_opWord]; rfl)

theorem FitsWords.irqRead (b) : FitsWords.Statement (.irqRead b) :=
  fits_of rfl (by rw [wordCount_opWord]; rfl)

theorem FitsWords.irqForce (b) (m) : FitsWords.Statement (.irqForce b m) :=
  fits_of rfl (by rw [wordCount_opWord]; rfl)

theorem FitsWords.irqInte (b) (m) : FitsWords.Statement (.irqInte b m) :=
  fits_of rfl (by rw [wordCount_opWord]; rfl)

theorem FitsWords.irqGlobal (v) : FitsWords.Statement (.irqGlobal v) :=
  fits_of rfl (by rw [wordCount_opWord]; rfl)

theorem FitsWords.gpioSetFunc (p) (f) : FitsWords.Statement (.gpioSetFunc p f) :=
  fits_of rfl (by rw [wordCount_opWord]; rfl)

theorem FitsWords.gpioSetDir (p) (oe) : FitsWords.Statement (.gpioSetDir p oe) :=
  fits_of rfl (by rw [wordCount_opWord]; rfl)

theorem FitsWords.gpioPut (p) (v) : FitsWords.Statement (.gpioPut p v) :=
  fits_of rfl (by rw [wordCount_opWord]; rfl)

theorem FitsWords.gpioGet (p) : FitsWords.Statement (.gpioGet p) :=
  fits_of rfl (by rw [wordCount_opWord]; rfl)

theorem FitsWords.gpioSetPull (p) (pull) : FitsWords.Statement (.gpioSetPull p pull) :=
  fits_of rfl (by rw [wordCount_opWord]; rfl)

theorem FitsWords.busSetDir (oe) : FitsWords.Statement (.busSetDir oe) :=
  fits_of rfl (by rw [wordCount_opWord]; rfl)

theorem FitsWords.busPut (v) : FitsWords.Statement (.busPut v) :=
  fits_of rfl (by rw [wordCount_opWord]; rfl)

theorem FitsWords.busGet : FitsWords.Statement (.busGet) :=
  fits_of rfl (by rw [wordCount_opWord]; rfl)

theorem FitsWords.chWaitIdle (b) (c) : FitsWords.Statement (.chWaitIdle b c) :=
  fits_of rfl (by rw [wordCount_opWord]; rfl)

theorem FitsWords.rdwFire (b) (c) : FitsWords.Statement (.rdwFire b c) :=
  fits_of rfl (by rw [wordCount_opWord]; rfl)

theorem FitsWords.rdwRearm (b) (c) : FitsWords.Statement (.rdwRearm b c) :=
  fits_of rfl (by rw [wordCount_opWord]; rfl)

theorem FitsWords.wrwFire (b) (c) : FitsWords.Statement (.wrwFire b c) :=
  fits_of rfl (by rw [wordCount_opWord]; rfl)

theorem FitsWords.wrwRearm (b) (c) : FitsWords.Statement (.wrwRearm b c) :=
  fits_of rfl (by rw [wordCount_opWord]; rfl)

theorem FitsWords.waiteAssert (b) (c) : FitsWords.Statement (.waiteAssert b c) :=
  fits_of rfl (by rw [wordCount_opWord]; rfl)

theorem FitsWords.waiteRelease (b) (c) : FitsWords.Statement (.waiteRelease b c) :=
  fits_of rfl (by rw [wordCount_opWord]; rfl)

theorem FitsWords.rcdStrobe (b) (c) : FitsWords.Statement (.rcdStrobe b c) :=
  fits_of rfl (by rw [wordCount_opWord]; rfl)

theorem FitsWords.rcdSeewait (b) (c) : FitsWords.Statement (.rcdSeewait b c) :=
  fits_of rfl (by rw [wordCount_opWord]; rfl)

theorem FitsWords.rcdSample (b) (c) : FitsWords.Statement (.rcdSample b c) :=
  fits_of rfl (by rw [wordCount_opWord]; rfl)

theorem FitsWords.wcdStart (b) (c) : FitsWords.Statement (.wcdStart b c) :=
  fits_of rfl (by rw [wordCount_opWord]; rfl)

theorem FitsWords.wcdSeewait (b) (c) : FitsWords.Statement (.wcdSeewait b c) :=
  fits_of rfl (by rw [wordCount_opWord]; rfl)

theorem FitsWords.wcdFinish (b) (c) : FitsWords.Statement (.wcdFinish b c) :=
  fits_of rfl (by rw [wordCount_opWord]; rfl)

theorem FitsWords.hostRdBegin : FitsWords.Statement (.hostRdBegin) :=
  fits_of rfl (by rw [wordCount_opWord]; rfl)

theorem FitsWords.hostSeeWait : FitsWords.Statement (.hostSeeWait) :=
  fits_of rfl (by rw [wordCount_opWord]; rfl)

theorem FitsWords.hostRdEnd : FitsWords.Statement (.hostRdEnd) :=
  fits_of rfl (by rw [wordCount_opWord]; rfl)

theorem FitsWords.hostWrBegin (v) : FitsWords.Statement (.hostWrBegin v) :=
  fits_of rfl (by rw [wordCount_opWord]; rfl)

theorem FitsWords.hostWrEnd : FitsWords.Statement (.hostWrEnd) :=
  fits_of rfl (by rw [wordCount_opWord]; rfl)

theorem FitsWords.perRdAck : FitsWords.Statement (.perRdAck) :=
  fits_of rfl (by rw [wordCount_opWord]; rfl)

theorem FitsWords.perRdReady : FitsWords.Statement (.perRdReady) :=
  fits_of rfl (by rw [wordCount_opWord]; rfl)

theorem FitsWords.perRdDone : FitsWords.Statement (.perRdDone) :=
  fits_of rfl (by rw [wordCount_opWord]; rfl)

theorem FitsWords.perWrAck : FitsWords.Statement (.perWrAck) :=
  fits_of rfl (by rw [wordCount_opWord]; rfl)

theorem FitsWords.perWrLatch : FitsWords.Statement (.perWrLatch) :=
  fits_of rfl (by rw [wordCount_opWord]; rfl)

theorem FitsWords.perWrDone : FitsWords.Statement (.perWrDone) :=
  fits_of rfl (by rw [wordCount_opWord]; rfl)

theorem FitsWords.post (k) : FitsWords.Statement (.post k) :=
  fits_of rfl (by rw [wordCount_opWord]; rfl)

theorem FitsWords.register (b) (k) : FitsWords.Statement (.register b k) :=
  fits_of rfl (by rw [wordCount_opWord]; rfl)

theorem FitsWords.isrRd (b) : FitsWords.Statement (.isrRd b) :=
  fits_of rfl (by rw [wordCount_opWord]; rfl)

theorem FitsWords.isrWr (b) : FitsWords.Statement (.isrWr b) :=
  fits_of rfl (by rw [wordCount_opWord]; rfl)

theorem FitsWords.serviceRead (b) : FitsWords.Statement (.serviceRead b) :=
  fits_of rfl (by rw [wordCount_opWord]; rfl)

theorem FitsWords.serviceWrite (b) : FitsWords.Statement (.serviceWrite b) :=
  fits_of rfl (by rw [wordCount_opWord]; rfl)

theorem FitsWords.masterRead (b) : FitsWords.Statement (.masterRead b) :=
  fits_of rfl (by rw [wordCount_opWord]; rfl)

theorem FitsWords.masterWrite (b) (v) : FitsWords.Statement (.masterWrite b v) :=
  fits_of rfl (by rw [wordCount_opWord]; rfl)

theorem FitsWords.periphInit : FitsWords.Statement (.periphInit) :=
  fits_of rfl (by rw [wordCount_opWord]; rfl)

theorem FitsWords.masterInit : FitsWords.Statement (.masterInit) :=
  fits_of rfl (by rw [wordCount_opWord]; rfl)

theorem FitsWords.dispatch : FitsWords.Statement (.dispatch) :=
  fits_of rfl (by rw [wordCount_opWord]; rfl)

end Sys2Proof.Laws
end

