-- ==== Sys2Proof/Laws/Writes.lean ====
section
/-! SUPPORT. What the own writes of any step can do to the channels, the flags and the instruction memory, said once:
`effect_writes` for an operation, `resume_writes` for the next step of a running activity. The reactions at the end of
the step are `settle_kept`. -/

namespace Sys2Proof.Machine

/-- What the own writes of a step can make of a channel `ch` of a block whose hold flag is `hold`. -/
inductive ChannelStep (par : Params) (hold : Bool) (ch : Channel) : Channel → Prop where
  | same : ChannelStep par hold ch ch
  | configure (w : DescWords) (d : ChanCfg) (o : Nat) : decodeDescriptor w = some d → ch.owner = .none →
      groupsLegal par d = true → templatePinsOk par d = true → o + par.len d.template ≤ par.imemWords →
      ChannelStep par hold ch (configuredChannel par.role { d with offset := o })
  | enable : ch.owner ≠ .none → ChannelStep par hold ch { ch with enabled := true }
  | disable : ChannelStep par hold ch { ch with enabled := false }
  | push (w : Word) : ch.owner ≠ .none → ch.tx.length < capTx par ch →
      ChannelStep par hold ch { ch with tx := ch.tx ++ [w] }
  | pop (w : Word) (ws : List Word) : ch.rx = w :: ws → ChannelStep par hold ch { ch with rx := ws }
  | move (p : TState) : ch.owner ≠ .none → ch.enabled = true → ch.cfg.template ≠ .waite → p.of ch.cfg.template = true →
      ChannelStep par hold ch { ch with pc := p }
  | sample (v : Word) : ch.owner ≠ .none → ch.enabled = true → ch.cfg.template = .rcd → sampleFits par ch 8 = true →
      ChannelStep par hold ch { sampleIn ch v 8 with pc := .rIdle }
  | take (w : Word) (ws : List Word) (p : TState) : ch.owner ≠ .none → ch.enabled = true → ch.cfg.template = .wcd →
      ch.tx = w :: ws → p.of .wcd = true → ChannelStep par hold ch { takeByte ch w ws with pc := p }
  | enforce : ch.owner ≠ .none → ch.enabled = true → ch.cfg.template = .waite →
      ch.pc = (if hold then .idle else .holding) →
      ChannelStep par hold ch { ch with pc := if hold then .holding else .idle }

/-- What the own writes of a step from `s` to `u`, which wrote the flags of block `wrote`, can do. -/
structure Wrote (s u : State) (wrote : Option Nat) : Prop where
  par : u.par = s.par
  ctx : u.ctx = s.ctx
  /-- Every channel takes one of the steps above. -/
  chan : ∀ b c, ChannelStep s.par ((s.blk b).flag s.par.irqHold) (s.chan b c) (u.chan b c)
  /-- Only the flags of block `wrote` change. -/
  flags : ∀ b, wrote ≠ some b → (u.blk b).flags = (s.blk b).flags
  /-- Enabling an enforcer makes its block react (log 25). -/
  enforcer : ∀ b c, (s.chan b c).enabled = false → (u.chan b c).enabled = true → (u.chan b c).cfg.template = .waite →
    wrote = some b
  /-- The instruction memory, the owners and the bindings change by a load into a free range only. -/
  load : ((∀ b, (u.blk b).imem = (s.blk b).imem ∧ ∀ a, (u.blk b).tag a = (s.blk b).tag a) ∧
      ∀ b c, (u.chan b c).owner = (s.chan b c).owner ∧ (u.chan b c).cfg = (s.chan b c).cfg) ∨
    ∃ b c o d, u.blks = (configureAt s b c o d).blks ∧ o ∈ freeOffsets s.par (s.blk b) (s.par.len d.template)

/-! ### The shapes of a step's own writes -/

/-- Nothing of the blocks is written. -/
theorem wrote_nothing {s u : State} (h1 : u.blks = s.blks) (h2 : u.par = s.par) (h3 : u.ctx = s.ctx) : Wrote s u none := by
  have hb : ∀ b, u.blk b = s.blk b := fun b => by simp only [State.blk, h1]
  have hc : ∀ b c, u.chan b c = s.chan b c := fun b c => by simp only [State.chan, hb]
  refine ⟨h2, h3, fun b c => ?_, fun b _ => by rw [hb], fun b c h h' => ?_, .inl ⟨fun b => by rw [hb]; exact ⟨rfl, fun _ => rfl⟩,
    fun b c => by rw [hc]; exact ⟨rfl, rfl⟩⟩⟩
  · rw [hc]; exact .same
  · rw [hc, h] at h'; cases h'

/-- The same own writes with other fields of the state. -/
theorem wrote_blks {s u v : State} {wrote : Option Nat} (h : Wrote s u wrote) (h1 : v.blks = u.blks) (h2 : v.par = u.par)
    (h3 : v.ctx = u.ctx) : Wrote s v wrote := by
  have hb : ∀ b, v.blk b = u.blk b := fun b => by simp only [State.blk, h1]
  have hc : ∀ b c, v.chan b c = u.chan b c := fun b c => by simp only [State.chan, hb]
  refine ⟨h2.trans h.par, h3.trans h.ctx, fun b c => by rw [hc]; exact h.chan b c, fun b hw => by rw [hb]; exact h.flags b hw,
    fun b c => by rw [hc]; exact h.enforcer b c, ?_⟩
  rw [h1]
  refine h.load.imp_left fun hl => ⟨fun b => by rw [hb]; exact hl.1 b, fun b c => by rw [hc]; exact hl.2 b c⟩

/-- One channel `c` of block `b` becomes `ch'`, and the flags of block `b` may change. -/
theorem wrote_channel {s u : State} {b c : Nat} {ch' : Channel} {wrote : Option Nat} (hpar : u.par = s.par)
    (hctx : u.ctx = s.ctx) (hchan : ∀ b' c', u.chan b' c' = if b' = b ∧ c' = c then ch' else s.chan b' c')
    (hstep : ChannelStep s.par ((s.blk b).flag s.par.irqHold) (s.chan b c) ch')
    (hflags : ∀ b', wrote ≠ some b' → (u.blk b').flags = (s.blk b').flags)
    (henabled : ch'.enabled = true → (s.chan b c).enabled = true)
    (hown : ch'.owner = (s.chan b c).owner) (hcfg : ch'.cfg = (s.chan b c).cfg)
    (himem : ∀ b', (u.blk b').imem = (s.blk b').imem) (htags : ∀ b', (u.blk b').tags = (s.blk b').tags) :
    Wrote s u wrote := by
  refine ⟨hpar, hctx, fun b' c' => ?_, hflags, fun b' c' h h' => ?_, .inl ⟨fun b' => ⟨himem b', fun a => by
    rw [Block.tag, htags]; rfl⟩, fun b' c' => ?_⟩⟩
  · rw [hchan]
    split
    · next h => obtain ⟨rfl, rfl⟩ := h; exact hstep
    · exact .same
  · rw [hchan] at h'
    split at h'
    · next hbc => obtain ⟨rfl, rfl⟩ := hbc; rw [henabled h'] at h; cases h
    · rw [h] at h'; cases h'
  · rw [hchan]
    split
    · next h => obtain ⟨rfl, rfl⟩ := h; exact ⟨hown, hcfg⟩
    · exact ⟨rfl, rfl⟩

/-- A change of one channel by a function that leaves its enabling, owner and binding. -/
theorem wrote_modChan {s : State} {b c : Nat} {f : Channel → Channel}
    (hstep : ChannelStep s.par ((s.blk b).flag s.par.irqHold) (s.chan b c) (f (s.chan b c)))
    (h1 : (f (s.chan b c)).enabled = true → (s.chan b c).enabled = true)
    (h2 : (f (s.chan b c)).owner = (s.chan b c).owner) (h3 : (f (s.chan b c)).cfg = (s.chan b c).cfg) :
    Wrote s (s.modChan b c f) none :=
  wrote_channel rfl rfl (state_chan_modChan s b c · · f) hstep (fun b' _ => by simp) h1 h2 h3 (fun b' => by simp)
    (fun b' => by simp)

/-- A change of one block that leaves its channels and its memory, and its flags unless they are what it writes. -/
theorem wrote_modBlk {s : State} {b : Nat} {f : Block → Block} {wrote : Option Nat} (h1 : ∀ k, (f k).chs = k.chs)
    (h2 : ∀ k, (f k).imem = k.imem) (h3 : ∀ k, (f k).tags = k.tags)
    (h4 : wrote = some b ∨ ∀ k, (f k).flags = k.flags) : Wrote s (s.modBlk b f) wrote := by
  have hc := chan_modBlk_field s b h1
  refine ⟨rfl, rfl, fun b' c' => ?_, fun b' hw => ?_, fun b' c' h h' => ?_, .inl ⟨fun b' => ⟨?_, fun a => ?_⟩, fun b' c' => ?_⟩⟩
  · rw [hc]; exact .same
  · rcases h4 with h4 | h4
    · rw [blk_modBlk_ne]
      rintro rfl
      exact hw h4
    · exact blk_modBlk_field Block.flags s b h4 b'
  · rw [hc, h] at h'; cases h'
  · exact blk_modBlk_field Block.imem s b h2 b'
  · exact blk_modBlk_field (fun k => k.tag a) s b (fun k => by simp only [Block.tag, h3 k]) b'
  · rw [hc]; exact ⟨rfl, rfl⟩

/-! ### The own writes of every effect -/

/-- An effect that is done makes own writes of those shapes. -/
def Effect.writes (s : State) : Effect → Prop
  | .done u _ wrote => Wrote s u wrote
  | .hold => True
  | .refuse _ => True
  | .raise _ => True

theorem writes_keep {s u : State} {r : Result} (h1 : u.blks = s.blks) (h2 : u.par = s.par) (h3 : u.ctx = s.ctx) :
    (Effect.done u r none).writes s := wrote_nothing h1 h2 h3

theorem writes_ifProcessor {i : Instr} {s : State} {e : Effect} (h : e.writes s) : (ifProcessor i s e).writes s := by
  unfold ifProcessor
  split
  · trivial
  · split
    · trivial
    · exact h

theorem writes_ifTask {i : Instr} {s : State} {e : Effect} (h : e.writes s) : (ifTask i s e).writes s := by
  refine writes_ifProcessor ?_
  split
  · exact h
  · trivial

theorem writes_ifRole {r : Role} {s : State} {e : Effect} (h : e.writes s) : (ifRole r s e).writes s := by
  unfold ifRole
  split
  · exact h
  · trivial

theorem writes_ifChannel {i : Instr} {t : Template} {b c : Nat} {s : State} {e : Effect}
    (h : (s.chan b c).owner ≠ .none → (s.chan b c).enabled = true → (s.chan b c).cfg.template = t → e.writes s) :
    (ifChannel i t b c s e).writes s := by
  unfold ifChannel
  split
  · trivial
  · split
    · trivial
    · next h2 h3 =>
      simp only [not_or, ne_eq, not_not] at h2
      exact h h2.2.1 (by simpa using h3) h2.2.2

theorem writes_guarded {g : Bool} {s : State} {e : Effect} (h : g = true → e.writes s) : (guarded g e).writes s := by
  unfold guarded
  split
  · next hg => exact h hg
  · trivial

theorem writes_andThen {s : State} {e : Effect} {f : State → Result → State × Result} (h : e.writes s)
    (hf : ∀ t r, (f t r).1.blks = t.blks ∧ (f t r).1.par = t.par ∧ (f t r).1.ctx = t.ctx) : (e.andThen f).writes s := by
  cases e with
  | done t r w => exact wrote_blks h (hf t r).1 (hf t r).2.1 (hf t r).2.2
  | hold => trivial
  | refuse r => trivial
  | raise g => trivial

theorem writes_onPin {s : State} {p : Nat} {e : Effect} (h : e.writes s) : (onPin s p e).writes s := by
  unfold onPin
  split
  · exact h
  · trivial

theorem writes_blockingOp {s : State} {e : Effect} (h : e.writes s) : (blockingOp s e).writes s := by
  unfold blockingOp
  split
  · exact h
  · trivial

theorem writes_configure (b c : Nat) (d : DescWords) (s : State) : (effConfigure b c d s).writes s := by
  unfold effConfigure
  split
  · trivial
  next cfg hd =>
  split
  · trivial
  next ho =>
  split
  · trivial
  next hg =>
  split
  · trivial
  next hp =>
  split
  · exact wrote_modChan .disable (fun h => by cases h) rfl rfl
  · next o hch =>
    have hne : freeOffsets s.par (s.blk b) (s.par.len cfg.template) ≠ [] := by
      intro h; rw [h, chooseOffset_nil] at hch; cases hch
    obtain ⟨o', h1, h2⟩ := chooseOffset_mem (par := s.par) (t := s.tick) hne
    rw [hch] at h1
    cases h1
    refine ⟨rfl, rfl, fun b' c' => ?_, fun b' _ => flags_configureAt .., fun b' c' h h' => ?_, .inr ⟨b, c, o, cfg, rfl, h2⟩⟩
    · rw [chan_configureAt]
      split
      · next h =>
        obtain ⟨rfl, rfl⟩ := h
        exact .configure d cfg o hd (by simpa using ho) (by simpa using hg) (by simpa using hp) (mem_freeOffsets.mp h2).1
      · exact .same
    · rw [chan_configureAt] at h'
      split at h'
      · cases h'
      · rw [h] at h'; cases h'

theorem writes_enable (b : Nat) (m : Half) (s : State) : (effEnable b m s).writes s := by
  unfold effEnable
  split
  · trivial
  next hn =>
  rw [List.find?_eq_none] at hn
  generalize maskChannels s.par m = cs at hn ⊢
  obtain ⟨bl, hbl⟩ := fold_fields (fun ch : Channel => { ch with enabled := true }) cs s b
  have hch := chan_fold (f := fun ch : Channel => { ch with enabled := true }) (fun _ => rfl) cs s b
  have hfl := blk_fold Block.flags (fun _ _ _ => rfl) (fun ch : Channel => { ch with enabled := true }) cs s b
  have him := blk_fold Block.imem (fun _ _ _ => rfl) (fun ch : Channel => { ch with enabled := true }) cs s b
  have htg := fun a b' => blk_fold (fun k => k.tag a) (fun _ _ _ => rfl) (fun ch : Channel => { ch with enabled := true })
    cs s b b'
  refine ⟨by rw [enableChannels, hbl], by rw [enableChannels, hbl], fun b' c' => ?_, fun b' _ => hfl b', fun b' c' h h' ht => ?_,
    .inl ⟨fun b' => ⟨him b', fun a => htg a b'⟩, fun b' c' => ?_⟩⟩
  · rw [enableChannels, hch]
    split
    · next h => obtain ⟨rfl, hc⟩ := h; exact .enable (by simpa using hn c' hc)
    · exact .same
  · rw [enableChannels, hch] at h' ht
    split at h'
    · next hbc =>
      obtain ⟨rfl, hc⟩ := hbc
      rw [if_pos ⟨rfl, hc⟩] at ht
      exact if_pos (List.any_eq_true.mpr ⟨c', hc, by simpa using ht⟩)
    · rw [h] at h'; cases h'
  · rw [enableChannels, hch]
    split
    · next h => obtain ⟨rfl, -⟩ := h; exact ⟨rfl, rfl⟩
    · exact ⟨rfl, rfl⟩

theorem writes_disable (b : Nat) (m : Half) (s : State) : (effDisable b m s).writes s := by
  unfold effDisable
  generalize maskChannels s.par m = cs
  obtain ⟨bl, hbl⟩ := fold_fields (fun ch : Channel => { ch with enabled := false }) cs s b
  have hch := chan_fold (f := fun ch : Channel => { ch with enabled := false }) (fun _ => rfl) cs s b
  have hfl := blk_fold Block.flags (fun _ _ _ => rfl) (fun ch : Channel => { ch with enabled := false }) cs s b
  have him := blk_fold Block.imem (fun _ _ _ => rfl) (fun ch : Channel => { ch with enabled := false }) cs s b
  have htg := fun a b' => blk_fold (fun k => k.tag a) (fun _ _ _ => rfl) (fun ch : Channel => { ch with enabled := false })
    cs s b b'
  have e : cs.foldl (fun t c => disableChannel t b c) s
      = cs.foldl (fun t c => t.modChan b c fun ch => { ch with enabled := false }) s := rfl
  rw [e]
  refine ⟨by rw [hbl], by rw [hbl], fun b' c' => ?_, fun b' _ => hfl b', fun b' c' h h' => ?_,
    .inl ⟨fun b' => ⟨him b', fun a => htg a b'⟩, fun b' c' => ?_⟩⟩
  · rw [hch]
    split
    · next h => obtain ⟨rfl, hc⟩ := h; exact .disable
    · exact .same
  · rw [hch] at h'
    split at h'
    · cases h'
    · rw [h] at h'; cases h'
  · rw [hch]
    split
    · next h => obtain ⟨rfl, -⟩ := h; exact ⟨rfl, rfl⟩
    · exact ⟨rfl, rfl⟩

theorem writes_txPush (b c : Nat) (w : Word) (s : State) : (effTxPush b c w s).writes s := by
  refine writes_blockingOp ?_
  split
  · trivial
  next ho =>
  split
  · next hl => exact wrote_modChan (.push w ho hl) id rfl rfl
  · trivial

theorem writes_rxPop (b c : Nat) (s : State) : (effRxPop b c s).writes s := by
  refine writes_blockingOp ?_
  split
  · trivial
  · next w ws h => exact wrote_modChan (.pop w ws h) id rfl rfl

theorem writes_chWaitIdle (b c : Nat) (s : State) : (effChWaitIdle b c s).writes s := by
  refine writes_blockingOp ?_
  split
  · trivial
  · split
    · exact writes_keep rfl rfl rfl
    · trivial

theorem writes_irqClear (b : Nat) (m : Half) (s : State) : (effIrqClear b m s).writes s :=
  wrote_modBlk (fun _ => rfl) (fun _ => rfl) (fun _ => rfl) (.inl rfl)

theorem writes_irqForce (b : Nat) (m : Half) (s : State) : (effIrqForce b m s).writes s :=
  wrote_modBlk (fun _ => rfl) (fun _ => rfl) (fun _ => rfl) (.inl rfl)

theorem writes_irqInte (b : Nat) (m : Half) (s : State) : (effIrqInte b m s).writes s :=
  wrote_modBlk (fun _ => rfl) (fun _ => rfl) (fun _ => rfl) (.inr fun _ => rfl)

theorem writes_register (b : Nat) (k : Kind) (s : State) : (effRegister b k s).writes s := by
  unfold effRegister
  split
  · trivial
  · have h := wrote_modBlk (s := s) (b := b) (wrote := none)
      (f := fun blk => { blk with vec := tabSet none blk.vec (kindFlag s.par k) (some (kindHandler k)) })
      (fun _ => rfl) (fun _ => rfl) (fun _ => rfl) (.inr fun _ => rfl)
    cases k <;> exact wrote_blks h rfl rfl rfl

theorem writes_handler (b : Nat) (k : Kind) (s : State) : (effHandler b k s).writes s := by
  unfold effHandler
  dsimp only
  split
  · next h =>
    simp only [canTake, Bool.and_eq_true, decide_eq_true_eq] at h
    have hw := wrote_modBlk (s := s) (b := b) (wrote := some b) (f := fun blk => blk.clearFlags (flagBit (kindFlag s.par k)))
      (fun _ => rfl) (fun _ => rfl) (fun _ => rfl) (.inl rfl)
    refine wrote_blks hw rfl rfl ?_
    show Ctx.task = s.ctx
    rw [h.1.1.2]
  · trivial

theorem writes_setPc {s : State} {b c : Nat} {p : TState} {r : Result} (h1 : (s.chan b c).owner ≠ .none)
    (h2 : (s.chan b c).enabled = true) (h3 : (s.chan b c).cfg.template ≠ .waite)
    (h4 : p.of (s.chan b c).cfg.template = true) : (Effect.done (setPc s b c p) r none).writes s :=
  wrote_modChan (.move p h1 h2 h3 h4) id rfl rfl

theorem writes_fire {s : State} {b c : Nat} {m : Half} {r : Result} (h1 : (s.chan b c).owner ≠ .none)
    (h2 : (s.chan b c).enabled = true) (h3 : (s.chan b c).cfg.template = .rdw ∨ (s.chan b c).cfg.template = .wrw) :
    (Effect.done (setPc (s.modBlk b fun k => k.raiseFlags m) b c .fired) r (some b)).writes s := by
  have hc := chan_modBlk_field s b (f := fun k => k.raiseFlags m) (fun _ => rfl)
  refine wrote_channel rfl rfl (fun b' c' => by rw [chan_setPc, hc, hc]) (.move .fired h1 h2 ?_ ?_) (fun b' hw => ?_) id rfl rfl
    (fun b' => by rw [imem_setPc]; exact blk_modBlk_field Block.imem s b (f := fun k => k.raiseFlags m) (fun _ => rfl) b')
    (fun b' => by
      rw [tags_setPc]; exact blk_modBlk_field Block.tags s b (f := fun k => k.raiseFlags m) (fun _ => rfl) b')
  · rcases h3 with h | h <;> rw [h] <;> decide
  · rcases h3 with h | h <;> rw [h] <;> rfl
  · rw [flags_setPc, blk_modBlk_ne]
    rintro rfl
    exact hw rfl

theorem writes_waite {s : State} {b c : Nat} {r : Result} (hold : Bool) (h1 : (s.chan b c).owner ≠ .none)
    (h2 : (s.chan b c).enabled = true) (h3 : (s.chan b c).cfg.template = .waite)
    (h4 : (s.chan b c).pc = if hold then .idle else .holding) (h5 : (s.blk b).flag s.par.irqHold = hold) (v : Bool) :
    (Effect.done (setPc (driveLine s b .wait v) b c (if hold then .holding else .idle)) r none).writes s := by
  refine wrote_channel (b := b) (c := c) (ch' := { s.chan b c with pc := if hold then .holding else .idle }) rfl rfl
    (fun b' c' => by rw [chan_setPc, chan_driveLine, chan_driveLine]) ?_ (fun b' _ => by simp) id rfl rfl
    (fun b' => by simp) (fun b' => by simp)
  subst h5
  exact .enforce h1 h2 h3 h4

theorem writes_strobe {s : State} {b c : Nat} {X Y : Line} {x y : Bool} {p : TState} {r : Result}
    (h1 : (s.chan b c).owner ≠ .none) (h2 : (s.chan b c).enabled = true) (h3 : (s.chan b c).cfg.template ≠ .waite)
    (h4 : p.of (s.chan b c).cfg.template = true) :
    (Effect.done (setPc (driveLine (driveLine s b X x) b Y y) b c p) r none).writes s :=
  wrote_channel rfl rfl (fun b' c' => by rw [chan_setPc, chan_driveLine, chan_driveLine, chan_driveLine, chan_driveLine])
    (.move p h1 h2 h3 h4) (fun b' _ => by simp) id rfl rfl (fun b' => by simp) (fun b' => by simp)

theorem sampleIn_fields (ch : Channel) (v : Word) (n : Nat) :
    (sampleIn ch v n).enabled = ch.enabled ∧ (sampleIn ch v n).owner = ch.owner ∧ (sampleIn ch v n).cfg = ch.cfg ∧
      (sampleIn ch v n).tx = ch.tx ∧ (sampleIn ch v n).osrCount = ch.osrCount := by
  unfold sampleIn
  dsimp only
  split <;> exact ⟨rfl, rfl, rfl, rfl, rfl⟩

theorem writes_rcdSample (b c : Nat) (s : State) (h1 : (s.chan b c).owner ≠ .none) (h2 : (s.chan b c).enabled = true)
    (h3 : (s.chan b c).cfg.template = .rcd) : (effRcdSample b c s).writes s := by
  unfold effRcdSample
  refine writes_guarded fun hg => ?_
  simp only [Bool.and_eq_true] at hg
  dsimp only
  generalize (dataByte s .sample).setWidth 32 = v
  have hx : ∀ b' c', (driveLine (driveLine (s.modChan b c fun ch => sampleIn ch v 8) b .rd true) b .modsel true).chan b' c'
      = if b' = b ∧ c' = c then sampleIn (s.chan b c) v 8 else s.chan b' c' := fun b' c' => by
    rw [chan_driveLine, chan_driveLine, state_chan_modChan]
  have hy : ∀ b', ((driveLine (driveLine (s.modChan b c fun ch => sampleIn ch v 8) b .rd true) b .modsel true).blk b').imem
      = (s.blk b').imem := fun b' => by simp
  have hz : ∀ b', ((driveLine (driveLine (s.modChan b c fun ch => sampleIn ch v 8) b .rd true) b .modsel true).blk b').tags
      = (s.blk b').tags := fun b' => by simp
  have hf : ∀ b', ((driveLine (driveLine (s.modChan b c fun ch => sampleIn ch v 8) b .rd true) b .modsel true).blk b').flags
      = (s.blk b').flags := fun b' => by simp
  have hp : (driveLine (driveLine (s.modChan b c fun ch => sampleIn ch v 8) b .rd true) b .modsel true).par = s.par := rfl
  have hq : (driveLine (driveLine (s.modChan b c fun ch => sampleIn ch v 8) b .rd true) b .modsel true).ctx = s.ctx := rfl
  generalize driveLine (driveLine (s.modChan b c fun ch => sampleIn ch v 8) b .rd true) b .modsel true = t at *
  have hc := chan_modBlk_field t b (f := fun k => k.raiseFlags (flagBit s.par.irqMrd)) (fun _ => rfl)
  refine wrote_channel hp hq (ch' := { sampleIn (s.chan b c) v 8 with pc := .rIdle }) (fun b' c' => ?_)
    (.sample v h1 h2 h3 hg.2) (fun b' hw => ?_)
    (fun h => (sampleIn_fields (s.chan b c) v 8).1 ▸ h) (sampleIn_fields (s.chan b c) v 8).2.1
    (sampleIn_fields (s.chan b c) v 8).2.2.1
    (fun b' => by rw [imem_setPc]; exact (blk_modBlk_field Block.imem t b
      (f := fun k => k.raiseFlags (flagBit s.par.irqMrd)) (fun _ => rfl) b').trans (hy b'))
    (fun b' => by
      rw [tags_setPc]
      exact (blk_modBlk_field Block.tags t b (f := fun k => k.raiseFlags (flagBit s.par.irqMrd)) (fun _ => rfl) b').trans
        (hz b'))
  · have hbc := hx b c
    rw [if_pos ⟨rfl, rfl⟩] at hbc
    rw [chan_setPc, hc b c, hbc, hc b' c', hx b' c']
    split <;> rfl
  · rw [flags_setPc, blk_modBlk_ne, hf]
    rintro rfl
    exact hw rfl

theorem writes_wcdStart (b c : Nat) (s : State) (h1 : (s.chan b c).owner ≠ .none)
    (h2 : (s.chan b c).enabled = true) (h3 : (s.chan b c).cfg.template = .wcd) : (effWcdStart b c s).writes s := by
  unfold effWcdStart
  split
  · trivial
  next w ws htx =>
  refine writes_guarded fun _ => ?_
  dsimp only
  generalize byteTaken (s.chan b c) w ws = v
  have hc := chan_modBlk_field (s.modChan b c fun ch => takeByte ch w ws) b (f := fun k => k.driveBus s.par.pins.d0 v)
    (fun _ => rfl)
  have hi := blk_modBlk_field Block.imem (s.modChan b c fun ch => takeByte ch w ws) b
    (f := fun k => k.driveBus s.par.pins.d0 v) (fun _ => rfl)
  have ht := blk_modBlk_field Block.tags (s.modChan b c fun ch => takeByte ch w ws) b
    (f := fun k => k.driveBus s.par.pins.d0 v) (fun _ => rfl)
  have hf := blk_modBlk_field Block.flags (s.modChan b c fun ch => takeByte ch w ws) b
    (f := fun k => k.driveBus s.par.pins.d0 v) (fun _ => rfl)
  have hp : ((s.modChan b c fun ch => takeByte ch w ws).modBlk b fun k => k.driveBus s.par.pins.d0 v).par = s.par := rfl
  have hq : ((s.modChan b c fun ch => takeByte ch w ws).modBlk b fun k => k.driveBus s.par.pins.d0 v).ctx = s.ctx := rfl
  generalize (s.modChan b c fun ch => takeByte ch w ws).modBlk b (fun k => k.driveBus s.par.pins.d0 v) = t at *
  refine wrote_channel hp hq (ch' := { takeByte (s.chan b c) w ws with
      pc := if s.par.masterHandshake = .full then .wWaitLow else .wWaitRel }) (fun b' c' => ?_)
    (.take w ws _ h1 h2 h3 htx (by split <;> rfl)) (fun b' _ => ?_) id rfl rfl (fun b' => ?_) (fun b' => ?_)
  · have hbc := state_chan_modChan s b c b c fun ch => takeByte ch w ws
    rw [if_pos ⟨rfl, rfl⟩] at hbc
    rw [chan_setPc, chan_driveLine, chan_driveLine, chan_driveLine, chan_driveLine, hc b c, hbc, hc b' c',
      state_chan_modChan]
    split <;> rfl
  · rw [flags_setPc, flags_driveLine, flags_driveLine, hf]; simp
  · rw [imem_setPc, imem_driveLine, imem_driveLine, hi]; simp
  · rw [tags_setPc, tags_driveLine, tags_driveLine, ht]; simp

theorem writes_wcdFinish (b c : Nat) (s : State) (h1 : (s.chan b c).owner ≠ .none) (h2 : (s.chan b c).enabled = true)
    (h3 : (s.chan b c).cfg.template = .wcd) : (effWcdFinish b c s).writes s := by
  unfold effWcdFinish
  refine writes_guarded fun _ => ?_
  have hc := chan_modBlk_field (driveLine (driveLine s b .wr true) b .modsel true) b
    (f := fun k => k.releaseBus s.par.pins.d0) (fun _ => rfl)
  have hi := blk_modBlk_field Block.imem (driveLine (driveLine s b .wr true) b .modsel true) b
    (f := fun k => k.releaseBus s.par.pins.d0) (fun _ => rfl)
  have ht := blk_modBlk_field Block.tags (driveLine (driveLine s b .wr true) b .modsel true) b
    (f := fun k => k.releaseBus s.par.pins.d0) (fun _ => rfl)
  have hf := blk_modBlk_field Block.flags (driveLine (driveLine s b .wr true) b .modsel true) b
    (f := fun k => k.releaseBus s.par.pins.d0) (fun _ => rfl)
  refine wrote_channel rfl rfl (fun b' c' => by rw [chan_setPc, hc, hc, chan_driveLine, chan_driveLine, chan_driveLine,
    chan_driveLine]) (.move .wIdle h1 h2 (by rw [h3]; decide) (by rw [h3]; rfl)) (fun b' _ => ?_) id rfl rfl (fun b' => ?_)
    (fun b' => ?_)
  · rw [flags_setPc, hf]; simp
  · rw [imem_setPc, hi]; simp
  · rw [tags_setPc, ht]; simp

/-! ### The engine's sequences -/

theorem consumerAt_blks (v : Service) (n : ServiceStep) (t : State) (r : Result) :
    (consumerAt v n t r).1.blks = t.blks ∧ (consumerAt v n t r).1.par = t.par ∧ (consumerAt v n t r).1.ctx = t.ctx :=
  ⟨rfl, rfl, rfl⟩

theorem consumerDone_blks (t : State) (r : Result) :
    (consumerDone t r).1.blks = t.blks ∧ (consumerDone t r).1.par = t.par ∧ (consumerDone t r).1.ctx = t.ctx :=
  ⟨rfl, rfl, rfl⟩

theorem consumerSampled_blks (v : Service) (t : State) (r : Result) :
    (consumerSampled v t r).1.blks = t.blks ∧ (consumerSampled v t r).1.par = t.par ∧
      (consumerSampled v t r).1.ctx = t.ctx := by cases r <;> exact ⟨rfl, rfl, rfl⟩

theorem masterAt_blks (n : MasterCall) (t : State) (r : Result) :
    (masterAt n t r).1.blks = t.blks ∧ (masterAt n t r).1.par = t.par ∧ (masterAt n t r).1.ctx = t.ctx := ⟨rfl, rfl, rfl⟩

theorem bootNext_blks (par : Params) (k : Boot) (t : State) (r : Result) :
    (bootNext par k t r).1.blks = t.blks ∧ (bootNext par k t r).1.par = t.par ∧ (bootNext par k t r).1.ctx = t.ctx := by
  unfold bootNext
  dsimp only
  repeat' split
  all_goals exact ⟨rfl, rfl, rfl⟩

theorem writes_service (v : Service) (s : State) : (effService v s).writes s := by
  unfold effService
  split
  · exact writes_andThen (writes_onPin (writes_keep rfl rfl rfl)) (consumerAt_blks v _)
  · refine writes_andThen ?_ (consumerAt_blks v _)
    rw [sourceNext_eq]
    exact writes_onPin (writes_keep rfl rfl rfl)
  · exact writes_andThen (writes_irqClear ..) (consumerAt_blks v _)
  · exact writes_andThen (writes_onPin (writes_keep rfl rfl rfl)) consumerDone_blks
  · exact writes_andThen (writes_onPin (writes_keep rfl rfl rfl)) (consumerAt_blks v _)
  · exact writes_andThen (writes_onPin (writes_keep rfl rfl rfl)) (consumerSampled_blks v)
  · exact writes_andThen (writes_irqClear ..) (consumerAt_blks v _)
  · rw [sinkByte_eq]
    exact writes_keep rfl rfl rfl

theorem writes_startService (v : Service) (s : State) : (startService v s).writes s := by
  unfold startService
  split
  · trivial
  · exact writes_service v s

theorem writes_masterCall {s : State} {e : Effect} (h : e.writes s) : (masterCall s e).writes s := by
  unfold masterCall
  split
  · trivial
  · split
    · trivial
    · exact h

theorem writes_masterPush (b : Nat) (v : Byte) (s : State) : (effMasterPush b v s).writes s := by
  unfold effMasterPush
  split
  · exact writes_keep rfl rfl rfl
  · exact writes_andThen (writes_txPush ..) (masterAt_blks _)

theorem writes_masterStep (m : MasterCall) (s : State) : (effMasterStep m s).writes s := by
  unfold effMasterStep
  split
  · exact writes_andThen (writes_rxPop ..) fun t r => by cases r <;> exact ⟨rfl, rfl, rfl⟩
  · unfold effMasterReturn
    split
    · trivial
    · exact writes_keep rfl rfl rfl
  · exact writes_andThen (writes_txPush ..) (masterAt_blks _)
  · exact writes_andThen (writes_chWaitIdle ..) fun _ _ => ⟨rfl, rfl, rfl⟩

theorem writes_gpioSetFunc (p : Nat) (f : Byte) (s : State) : (effGpioSetFunc p f s).writes s := by
  unfold effGpioSetFunc
  split
  · trivial
  · exact writes_onPin (writes_keep rfl rfl rfl)

theorem writes_gpioSetPull (p : Nat) (u : BitVec 2) (s : State) : (effGpioSetPull p u s).writes s := by
  unfold effGpioSetPull
  split
  · trivial
  · exact writes_onPin (writes_keep rfl rfl rfl)

theorem writes_bootAct (o : BootOp) (s : State) : (o.act s).writes s := by
  cases o with
  | setFuncSio p => exact writes_gpioSetFunc p 1 s
  | setDirIn p => exact writes_onPin (writes_keep rfl rfl rfl)
  | setPullUp p => exact writes_gpioSetPull p 1 s
  | configure b c d => exact writes_configure b c d s
  | register b k => exact writes_register b k s
  | inte b m => exact writes_irqInte b m s
  | force b m => exact writes_irqForce b m s
  | enable b m => exact writes_enable b m s
  | globalOn => exact writes_keep rfl rfl rfl

theorem writes_bootOp (o : BootOp) (s : State) : (o.effect s).writes s := by
  unfold BootOp.effect
  split
  · exact writes_bootAct o s
  · trivial

theorem writes_init (m : Module) (s : State) : (effInit m s).writes s := by
  unfold effInit
  split
  · exact writes_keep rfl rfl rfl
  · split
    · trivial
    · cases m <;> exact writes_keep rfl rfl rfl

theorem writes_dispatch (s : State) : (effDispatch s).writes s := by
  unfold effDispatch
  split
  · trivial
  · trivial
  · split
    · trivial
    · exact writes_keep rfl rfl rfl

/-! ### Every operation and every resumed step -/

/-- **The own writes of every operation** are of the shapes of `Wrote`. -/
theorem effect_writes (i : Instr) (s : State) : (effectOf i s).writes s := by
  cases i with
  | configure b c d => exact writes_ifProcessor (writes_configure ..)
  | enable b m => exact writes_ifProcessor (writes_enable ..)
  | disable b m => exact writes_ifProcessor (writes_disable ..)
  | txPush b c w => exact writes_ifProcessor (writes_txPush ..)
  | rxPop b c => exact writes_ifProcessor (writes_rxPop ..)
  | irqClear b m => exact writes_ifProcessor (writes_irqClear ..)
  | irqRead b => exact writes_ifProcessor (writes_keep rfl rfl rfl)
  | irqForce b m => exact writes_ifProcessor (writes_irqForce ..)
  | irqInte b m => exact writes_ifProcessor (writes_irqInte ..)
  | irqGlobal v => exact writes_ifProcessor (writes_keep rfl rfl rfl)
  | gpioSetFunc p f => exact writes_ifProcessor (writes_gpioSetFunc ..)
  | gpioSetDir p oe => exact writes_ifProcessor (writes_onPin (writes_keep rfl rfl rfl))
  | gpioPut p v => exact writes_ifProcessor (writes_onPin (writes_keep rfl rfl rfl))
  | gpioGet p => exact writes_ifProcessor (writes_onPin (writes_keep rfl rfl rfl))
  | gpioSetPull p u => exact writes_ifProcessor (writes_gpioSetPull ..)
  | busSetDir oe => exact writes_ifProcessor (writes_onPin (writes_keep rfl rfl rfl))
  | busPut v => exact writes_ifProcessor (writes_onPin (writes_keep rfl rfl rfl))
  | busGet => exact writes_ifProcessor (writes_onPin (writes_keep rfl rfl rfl))
  | chWaitIdle b c => exact writes_ifProcessor (writes_chWaitIdle ..)
  | rdwFire b c => exact writes_ifChannel fun h1 h2 h3 => writes_guarded fun _ => writes_fire h1 h2 (.inl h3)
  | rdwRearm b c => exact writes_ifChannel fun _ _ _ => writes_guarded fun _ => writes_keep rfl rfl rfl
  | wrwFire b c => exact writes_ifChannel fun h1 h2 h3 => writes_guarded fun _ => writes_fire h1 h2 (.inr h3)
  | wrwRearm b c => exact writes_ifChannel fun _ _ _ => writes_guarded fun _ => writes_keep rfl rfl rfl
  | waiteAssert b c =>
    refine writes_ifChannel fun h1 h2 h3 => writes_guarded fun hg => ?_
    simp only [Bool.and_eq_true, decide_eq_true_eq] at hg
    exact writes_waite true h1 h2 h3 hg.1 hg.2 false
  | waiteRelease b c =>
    refine writes_ifChannel fun h1 h2 h3 => writes_guarded fun hg => ?_
    simp only [Bool.and_eq_true, decide_eq_true_eq, Bool.not_eq_true'] at hg
    exact writes_waite false h1 h2 h3 hg.1 hg.2 true
  | rcdStrobe b c =>
    exact writes_ifChannel fun h1 h2 h3 => writes_guarded fun _ =>
      writes_strobe h1 h2 (by rw [h3]; decide) (by rw [h3]; split <;> rfl)
  | rcdSeewait b c => exact writes_ifChannel fun _ _ _ => writes_guarded fun _ => writes_keep rfl rfl rfl
  | rcdSample b c => exact writes_ifChannel (writes_rcdSample _ _ s)
  | wcdStart b c => exact writes_ifChannel (writes_wcdStart _ _ s)
  | wcdSeewait b c => exact writes_ifChannel fun _ _ _ => writes_guarded fun _ => writes_keep rfl rfl rfl
  | wcdFinish b c => exact writes_ifChannel (writes_wcdFinish _ _ s)
  | hostRdBegin => exact writes_ifRole (writes_guarded fun _ => writes_keep rfl rfl rfl)
  | hostSeeWait => exact writes_ifRole (writes_guarded fun _ => writes_keep rfl rfl rfl)
  | hostRdEnd => exact writes_ifRole (writes_guarded fun _ => writes_keep rfl rfl rfl)
  | hostWrBegin v =>
    exact writes_ifRole (writes_guarded fun _ => writes_keep (by simp [present, driveData]) (by simp [present, driveData])
      (by simp [present, driveData]))
  | hostWrEnd =>
    exact writes_ifRole (writes_guarded fun _ => writes_keep (by simp [present, releaseData]) (by simp [present, releaseData])
      (by simp [present, releaseData]))
  | perRdAck => exact writes_ifRole (writes_guarded fun _ => writes_keep rfl rfl rfl)
  | perRdReady =>
    exact writes_ifRole (writes_guarded fun _ => writes_keep (by simp [present, driveData]) (by simp [present, driveData])
      (by simp [present, driveData]))
  | perRdDone => exact writes_ifRole (writes_guarded fun _ => writes_keep rfl rfl rfl)
  | perWrAck => exact writes_ifRole (writes_guarded fun _ => writes_keep rfl rfl rfl)
  | perWrLatch => exact writes_ifRole (writes_guarded fun _ => writes_keep rfl rfl rfl)
  | perWrDone => exact writes_ifRole (writes_guarded fun _ => writes_keep rfl rfl rfl)
  | post k => exact writes_ifProcessor (writes_keep rfl rfl rfl)
  | register b k => exact writes_ifTask (writes_register ..)
  | isrRd b => exact writes_ifProcessor (writes_handler ..)
  | isrWr b => exact writes_ifProcessor (writes_handler ..)
  | serviceRead b => exact writes_ifTask (writes_startService ..)
  | serviceWrite b => exact writes_ifTask (writes_startService ..)
  | masterRead b => exact writes_ifProcessor (writes_masterCall (writes_andThen (writes_irqClear ..) (masterAt_blks _)))
  | masterWrite b v => exact writes_ifProcessor (writes_masterCall (writes_masterPush ..))
  | periphInit => exact writes_ifTask (writes_init ..)
  | masterInit => exact writes_ifTask (writes_init ..)
  | dispatch => exact writes_ifTask (writes_dispatch ..)

/-- **The own writes of every resumed step** are of the shapes of `Wrote`. -/
theorem resume_writes (a : Activity) (s : State) : (resumeEffect a s).2.2.writes s := by
  cases a <;> simp only [resumeEffect] <;> split
  · trivial
  · split
    · exact writes_keep rfl rfl rfl
    · dsimp only
      split
      · exact writes_andThen (writes_bootOp ..) (bootNext_blks _ _)
      · trivial
  · trivial
  · dsimp only
    split
    · exact writes_service ..
    · trivial
  · trivial
  · dsimp only
    split
    · exact writes_masterStep ..
    · trivial

theorem wrote_of_effect {i : Instr} {s u : State} {r : Result} {wrote : Option Nat}
    (h : effectOf i s = .done u r wrote) : Wrote s u wrote := by
  have := effect_writes i s
  rwa [h] at this

theorem wrote_of_resume {a : Activity} {s u : State} {r : Result} {wrote : Option Nat}
    (h : (resumeEffect a s).2.2 = .done u r wrote) : Wrote s u wrote := by
  have := resume_writes a s
  rwa [h] at this

end Sys2Proof.Machine
end

