-- ==== Sys2Proof/Tests/Slice0.lean ====
section
/-! SUPPORT. Our own tests. Expected results are those of spec/95_test_vectors.md (cited as V-...) or worked out by hand from
the rule cited; decode tests use words written out from spec/30_encoding.md R80 to R89. `witness_<Obligation>` theorems show
operands and states that meet the hypotheses of that obligation, one conjunct or theorem for each clause. -/

namespace Sys2Proof.Tests

open Sys2Proof.Machine

-- One thread: the many kernel evaluations below would otherwise all wait, each on a thread of its own.
set_option Elab.async false

/-! ### Small states -/

/-- The default parameters for a role, with "ALLOC-low" (95_test_vectors.md section 0). -/
def testPar (r : Role) : Params := { Params.default with role := r, alloc := .low }

/-- S0-P and S0-M. -/
def fresh (r : Role) : State := State.resetWith (testPar r)

/-- Channel `c` of block 0 after a CONFIGURE that loads at `o`. -/
def load (s : State) (c o : Nat) (d : DescWords) : State :=
  match decodeDescriptor d with
  | some cfg => configureAt s 0 c o cfg
  | none => s

/-- The flags of block 0. -/
def flagged (s : State) (m : Half) : State := s.modBlk 0 fun k => { k with flags := m }

/-- The routing of block 0. -/
def routed (s : State) (m : Half) : State := s.modBlk 0 fun k => { k with inte := m }

/-- The three peripheral channels configured and disabled, the data pins under software. -/
def perCold : State :=
  load (load (load ((fresh .peripheral).modPins 0 8 fun _ q => { q with func := .sio }) 0 0 Params.default.rdw) 1 4
    Params.default.wrw) 2 8 Params.default.waite

/-- S_P. -/
def sp : State :=
  { routed (bindVector (bindVector (enableChannels perCold 0 [0, 1, 2]) 0 0 .isrRd) 0 1 .isrWr) 3 with
    irqEnabled := true, handlerRead := some 0, handlerWrite := some 0, initPeripheral := .done }

/-- S_M. -/
def sm : State :=
  { flagged (enableChannels (load (load (fresh .master) 1 0 Params.default.wcd) 0 4 Params.default.rcd) 0 [0, 1]) 1 with
    initMaster := .done }

/-- S_P or S_M in a handler's context. -/
def inIsr (s : State) : State := { s with ctx := .isr 0 1 }

/-- The host's strobes for a read. -/
def reading (s : State) : State := present (present s .modsel false) .rd false

/-- The host's strobes for a write. -/
def writing (s : State) : State := present (present s .modsel false) .wr false

/-- V-A after step 2: the read watcher has fired, WAIT is held. -/
def stalled : State :=
  { setPc (setPc (driveLine (flagged (reading sp) 0x11) 0 .wait false) 0 0 .fired) 0 2 .holding with
    hostPc := .rdWaitRel }

/-- V-A after step 6: the byte stands on the bus. -/
def serving : State :=
  { flagged (stalled.modPins 0 8 fun i q => { q with sioOe := true, sioOut := (5#8).getLsbD i }) 0x10 with
    counter := 4, consumer := some ⟨0, .readRelease, 0⟩ }

/-- V-C after step 10, the read's strobes asserted by block 0. -/
def strobing : State := setPc (driveLine (driveLine (flagged sm 0) 0 .modsel false) 0 .rd false) 0 0 .rWaitLow

/-- The write's strobes asserted by block 0. -/
def pushing : State := setPc (driveLine (driveLine sm 0 .modsel false) 0 .wr false) 0 1 .wWaitLow

/-- Channel `c` of block 0 with a given TX list. -/
def withTx (s : State) (c : Nat) (ws : List Word) : State := s.modChan 0 c fun ch => { ch with tx := ws }

/-- Channel `c` of block 0 with a given RX list. -/
def withRx (s : State) (c : Nat) (ws : List Word) : State := s.modChan 0 c fun ch => { ch with rx := ws }

/-- The next state of an operation, or the state itself if it stops. -/
def after (i : Instr) (s : State) : State :=
  match exec i s with
  | .next t => t
  | .fault _ => s
  | .refused _ => s

/-- The next state of a resumed activity, or the state itself if it stops. -/
def goOn (a : Activity) (s : State) : State :=
  match resume a s with
  | .next t => t
  | .fault _ => s
  | .refused _ => s

/-- The next state of a step, or the state itself if it stops. -/
def stepped (s : State) : State :=
  match step s with
  | .next t => t
  | .fault _ => s
  | .refused _ => s

/-- The offset of a returned binding. -/
def offsetOf : Result → Option Int
  | .binding b => some b.cfg.offset
  | _ => none

/-- The operation the decoder reads from words, with the default parameters, if no word is left. -/
def reads (ws : List Word) : Option Instr :=
  match decode Params.default ws with
  | .ok (i, []) => some i
  | _ => none

/-- Why the decoder rejects words. -/
def rejects (ws : List Word) : Option DecodeError :=
  match decode Params.default ws with
  | .ok _ => none
  | .error e => some e

/-! ### Well-formedness: an ill-formed operation for each check -/

theorem test_wf_block : (Instr.irqRead 2).wf Params.default = false ∧ (Instr.irqRead 1).wf Params.default = true := by decide

theorem test_wf_channel :
    (Instr.rxPop 0 4).wf Params.default = false ∧ (Instr.rxPop 0 3).wf Params.default = true := by decide

theorem test_wf_chanMask :
    (Instr.enable 0 0x10).wf Params.default = false ∧ (Instr.disable 0 0x10).wf Params.default = false ∧
      (Instr.enable 0 0xF).wf Params.default = true := by decide

theorem test_wf_flagMask :
    (Instr.irqClear 0 0x100).wf Params.default = false ∧ (Instr.irqForce 0 0x100).wf Params.default = false ∧
      (Instr.irqInte 0 0x100).wf Params.default = false ∧ (Instr.irqInte 0 0xFF).wf Params.default = true := by decide

theorem test_wf_func :
    (Instr.gpioSetFunc 3 4).wf Params.default = false ∧ (Instr.gpioSetFunc 3 3).wf Params.default = true := by decide

theorem test_wf_pull : (Instr.gpioSetPull 0 3).wf Params.default = false ∧ (Instr.gpioSetPull 0 2).wf Params.default = true := by
  decide

/-- Descriptors: a reserved template (V-CF8), a shift width of 0 (V-CF7) or 33, join code 3 (V-CF6), a nonzero unused
field of d0 (V-CF9), d1 and d4. -/
theorem test_wf_descriptor :
    (Instr.configure 0 0 ⟨0x00602005, 0x00010000, 0x208, 0, 0xFF⟩).wf Params.default = false ∧
      (Instr.configure 0 0 ⟨0x00600000, 0x00010000, 0x208, 0, 0xFF⟩).wf Params.default = false ∧
      (Instr.configure 0 0 ⟨0x00602100, 0x00010000, 0x208, 0, 0xFF⟩).wf Params.default = false ∧
      (Instr.configure 0 0 ⟨0x03602000, 0x00010000, 0x208, 0, 0xFF⟩).wf Params.default = false ∧
      (Instr.configure 0 0 ⟨0x04602000, 0x00010000, 0x208, 0, 0xFF⟩).wf Params.default = false ∧
      (Instr.configure 0 0 ⟨0x00602000, 0x00010001, 0x208, 0, 0xFF⟩).wf Params.default = false ∧
      (Instr.configure 0 0 ⟨0x00602000, 0x00010000, 0x208, 0, 0x100FF⟩).wf Params.default = false ∧
      (Instr.configure 0 0 Params.default.rdw).wf Params.default = true := by decide +kernel

/-! ### Decoding: a word of every operation, written out from 30_encoding.md R82, R83, R87, R89 -/

theorem test_decode_configurator :
    reads [0x01020000, 0x00602002, 0x00010000, 0x00000000, 0x0000010B, 0x000000FF]
        = some (.configure 0 2 ⟨0x00602002, 0x00010000, 0, 0x0000010B, 0x000000FF⟩) ∧
      reads [0x02000007] = some (.enable 0 7) ∧ reads [0x03100004] = some (.disable 1 4) := by decide +kernel

theorem test_decode_fifoIrq :
    reads [0x08010000, 0x1234563C] = some (.txPush 0 1 0x1234563C) ∧ reads [0x09130000] = some (.rxPop 1 3) ∧
      reads [0x0A000010] = some (.irqClear 0 0x10) ∧ reads [0x0B100000] = some (.irqRead 1) ∧
      reads [0x0C000001] = some (.irqForce 0 1) ∧ reads [0x0D0000FE] = some (.irqInte 0 0xFE) ∧
      reads [0x0E000001] = some (.irqGlobal true) ∧ reads [0x18120000] = some (.chWaitIdle 1 2) := by decide +kernel

theorem test_decode_pins :
    reads [0x10000D03] = some (.gpioSetFunc 3 0x0D) ∧ reads [0x1100010D] = some (.gpioSetDir 13 true) ∧
      reads [0x1200010B] = some (.gpioPut 11 true) ∧ reads [0x1300001E] = some (.gpioGet 30) ∧
      reads [0x14000207] = some (.gpioSetPull 7 2) ∧ reads [0x15000100] = some (.busSetDir true) ∧
      reads [0x160000A5] = some (.busPut 0xA5) ∧ reads [0x17000000] = some .busGet := by decide +kernel

theorem test_decode_peripheral :
    reads [0x40130000] = some (.rdwFire 1 3) ∧ reads [0x41010000] = some (.rdwRearm 0 1) ∧
      reads [0x42010000] = some (.wrwFire 0 1) ∧ reads [0x43100000] = some (.wrwRearm 1 0) ∧
      reads [0x44020000] = some (.waiteAssert 0 2) ∧ reads [0x45020000] = some (.waiteRelease 0 2) := by decide +kernel

theorem test_decode_drivers :
    reads [0x48010000] = some (.rcdStrobe 0 1) ∧ reads [0x49100000] = some (.rcdSeewait 1 0) ∧
      reads [0x4A000000] = some (.rcdSample 0 0) ∧ reads [0x50010000] = some (.wcdStart 0 1) ∧
      reads [0x51010000] = some (.wcdSeewait 0 1) ∧ reads [0x52130000] = some (.wcdFinish 1 3) := by decide +kernel

theorem test_decode_environment :
    reads [0x80000000] = some .hostRdBegin ∧ reads [0x81000000] = some .hostSeeWait ∧
      reads [0x82000000] = some .hostRdEnd ∧ reads [0x8300007E] = some (.hostWrBegin 0x7E) ∧
      reads [0x84000000] = some .hostWrEnd ∧ reads [0x88000000] = some .perRdAck ∧ reads [0x89000000] = some .perRdReady ∧
      reads [0x8A000000] = some .perRdDone ∧ reads [0x8B000000] = some .perWrAck ∧ reads [0x8C000000] = some .perWrLatch ∧
      reads [0x8D000000] = some .perWrDone := by decide +kernel

theorem test_decode_engine :
    reads [0xA0000001] = some (.post .write) ∧ reads [0xA1100000] = some (.register 1 .read) ∧
      reads [0xA3000000] = some (.isrRd 0) ∧ reads [0xA4100000] = some (.isrWr 1) ∧
      reads [0xA5000000] = some (.serviceRead 0) ∧ reads [0xA6100000] = some (.serviceWrite 1) ∧
      reads [0xA7000000] = some (.masterRead 0) ∧ reads [0xA800003C] = some (.masterWrite 0 0x3C) ∧
      reads [0xA9000000] = some .periphInit ∧ reads [0xAA000000] = some .masterInit ∧ reads [0xAB000000] = some .dispatch := by
  decide +kernel

/-- Both ends of every reserved opcode range (30_encoding.md R90). -/
theorem test_decode_reserved :
    [0x00, 0x04, 0x07, 0x0F, 0x19, 0x3F, 0x46, 0x47, 0x4B, 0x4F, 0x53, 0x7F, 0x85, 0x87, 0x8E, 0x9F, 0xA2, 0xAC, 0xFF].all
      (fun op : Byte => decide (rejects [opWord op 0 0 0] = some .reservedOpcode)) = true := by decide +kernel

/-- Nonzero unused fields: V-CF22, V-FI16, V-PB14, V-PF6. -/
theorem test_decode_unused :
    [0x02010007, 0x0A000100, 0x11000203, 0x80000001].all
      (fun w : Word => decide (rejects [w] = some .unusedField)) = true := by decide +kernel

theorem test_decode_tableWord :
    decodeTableWord 32 0x02000007 = some (.enable 0 7) ∧
      decodeTableWord 64 0x0000003C08010000 = some (.txPush 0 1 0x3C) ∧
      decodeTableWord 32 0x08010000 = some (.txPush 0 1 0) := by decide +kernel

/-! ### One step of each operation (95_test_vectors.md) -/

/-- V-CF1: offset 0, owner, entry state, counts, the WAIT pin, and nothing else of pin 10. -/
theorem test_configure :
    (let t := after (.configure 0 2 Params.default.waite) (fresh .peripheral)
     (t.chan 0 2).owner = .peripheral ∧ (t.chan 0 2).pc = .idle ∧ (t.chan 0 2).osrCount = 32 ∧ (t.chan 0 2).cfg.offset = 0 ∧
       (t.blk 0).out 11 = true ∧ (t.blk 0).oe 11 = true ∧ (t.pin 11).func = .pio 0 ∧ (t.pin 10).func = .null) := by
  decide +kernel

/-- V-CF3: no run of four free words. -/
theorem test_configure_full :
    (let s := (fresh .peripheral).modBlk 0 fun k =>
       { k with tags := (List.range 32).map fun a => if a % 4 = 3 then .used 9 else .free }
     let t := after (.configure 0 0 Params.default.rdw) s
     (t.chan 0 0) = (s.chan 0 0) ∧ offsetOf t.result = some (-1)) := by decide +kernel

/-- V-CF23: enabling an enforcer whose hold flag is set makes it hold WAIT. -/
theorem test_enable :
    (let t := after (.enable 0 4) (flagged (disableChannel sp 0 2) 0x10)
     (t.chan 0 2).enabled = true ∧ (t.chan 0 2).pc = .holding ∧ (t.blk 0).out 11 = false) := by decide +kernel

/-- V-CF19: one channel without a binding, and none is enabled. -/
theorem test_enable_invalid :
    (let t := after (.enable 0 0xF) perCold
     t.faults = [.enableInvalid 0 3] ∧ (t.chan 0 0).enabled = false) := by decide +kernel

/-- V-CF24: the driver stops where it is; its pins stay driven. -/
theorem test_disable :
    (let t := after (.disable 0 2) pushing
     (t.chan 0 1).enabled = false ∧ (t.chan 0 1).pc = .wWaitLow ∧ (t.blk 0).out 10 = false) := by decide +kernel

/-- V-FI1. -/
theorem test_txPush :
    ((after (.txPush 0 1 4) (withTx sm 1 [1, 2, 3])).chan 0 1).tx = [1, 2, 3, 4] ∧
      (after (.txPush 0 1 5) (withTx sm 1 [1, 2, 3, 4])).result = .held := by decide +kernel

/-- V-FI4, V-FI3. -/
theorem test_rxPop :
    (after (.rxPop 0 0) (withRx sm 0 [0x3C000000])).result = .word 0x3C000000 ∧
      ((after (.rxPop 0 0) (withRx sm 0 [0x3C000000])).chan 0 0).rx = [] ∧ (after (.rxPop 0 0) sm).result = .held := by
  decide +kernel

/-- V-FI15: the clear, the release of WAIT, the host latch of the pulled-up bus, in one step. -/
theorem test_irqClear :
    (let t := after (.irqClear 0 0x10) stalled
     (t.blk 0).flags = 0x01 ∧ (t.blk 0).out 11 = true ∧ t.hostLatch = 0xFF ∧ t.hostLatched = true) := by decide +kernel

/-- V-FI13. -/
theorem test_irqRead : (after (.irqRead 0) (flagged sp 0xFF)).result = .word 0xFF := by decide +kernel

/-- V-FI17. -/
theorem test_irqForce :
    (let t := after (.irqForce 0 0x10) sp
     (t.blk 0).flags = 0x10 ∧ (t.chan 0 2).pc = .holding ∧ (t.blk 0).out 11 = false) := by decide +kernel

/-- V-FI18. -/
theorem test_irqInte : ((after (.irqInte 0 2) sp).blk 0).inte = 2 := by decide +kernel

/-- V-FI19, its first step. -/
theorem test_irqGlobal : (after (.irqGlobal false) sp).irqEnabled = false := by decide +kernel

/-- V-PB7, V-PB5. -/
theorem test_gpioSetFunc :
    ((after (.gpioSetFunc 3 3) (fresh .peripheral)).pin 3).func = .pio 1 ∧
      (after (.gpioSetFunc 30 1) (fresh .peripheral)).result = .refused .pinRange := by decide +kernel

/-- V-PB10: contention on the eight data pins, the write kept. -/
theorem test_busSetDir :
    (let t := after (.busSetDir true) (after (.hostWrBegin 0x7E) sp)
     t.faults.length = 8 ∧ (t.pin 7).sioOe = true ∧ (t.pin 8).sioOe = false) := by decide +kernel

/-- V-PB1, its last step: the level of pin 13. -/
theorem test_gpioSetDir :
    (let s := (fresh .master).modPin 13 fun q => { q with func := .sio }
     level (after (.gpioSetDir 13 true) s) .sample 13 = false) := by decide +kernel

theorem test_gpioPut : ((after (.gpioPut 13 true) (fresh .master)).pin 13).sioOut = true := by decide +kernel

/-- V-PB2, V-PB3. -/
theorem test_gpioGet :
    (after (.gpioGet 9) (fresh .peripheral)).result = .level true ∧ (after (.gpioGet 9) (fresh .master)).result = .level true ∧
      (after (.gpioGet 9) (reading sp)).result = .level false := by decide +kernel

theorem test_gpioSetPull : ((after (.gpioSetPull 13 2) (fresh .master)).pin 13).pull = .down := by decide +kernel

/-- V-PB9: bit i on pin i. -/
theorem test_busPut :
    (let t := after (.busPut 0xA5) sp
     (t.pin 0).sioOut = true ∧ (t.pin 1).sioOut = false ∧ (t.pin 5).sioOut = true ∧ (t.pin 7).sioOut = true) := by
  decide +kernel

/-- V-PB9, V-B step 6. -/
theorem test_busGet :
    (after .busGet (after (.busSetDir true) (after (.busPut 0xA5) sp))).result = .byte 0xA5 ∧
      (after .busGet (after (.hostWrBegin 0x7E) sp)).result = .byte 0x7E := by decide +kernel

/-- V-C steps 2 and 7, V-FI20. -/
theorem test_chWaitIdle :
    (after (.chWaitIdle 0 1) (withTx sm 1 [0x3C])).result = .held ∧ (after (.chWaitIdle 0 1) sm).result = .none ∧
      (after (.chWaitIdle 0 1) (inIsr sm)).result = .refused .blockingInIsr := by decide +kernel

/-- V-A step 2 with its reactions. -/
theorem test_rdwFire :
    (let t := after (.rdwFire 0 0) (after .hostRdBegin sp)
     (t.blk 0).flags = 0x11 ∧ (t.chan 0 0).pc = .fired ∧ (t.chan 0 2).pc = .holding ∧ (t.blk 0).out 11 = false ∧
       t.hostPc = .rdWaitRel) := by decide +kernel

/-- V-PF1: MODSEL alone fires nothing. -/
theorem test_rdwFire_modsel :
    (after (.rdwFire 0 0) (present sp .modsel false)).result = .held ∧
      (after (.wrwFire 0 1) (present sp .modsel false)).result = .held := by decide +kernel

theorem test_rdwRearm : ((after (.rdwRearm 0 0) (setPc sp 0 0 .fired)).chan 0 0).pc = .armed := by decide +kernel

/-- R92: a block or a channel that does not exist runs no template. -/
theorem test_rdwRearm_template :
    (after (.rdwRearm 2 0) sp).result = .refused .wrongTemplate ∧
      (after (.rdwRearm 0 4) sp).result = .refused .wrongTemplate ∧
      (after (.rdwRearm 0 1) sp).result = .refused .wrongTemplate := by decide +kernel

/-- V-B step 2. -/
theorem test_wrwFire :
    (let t := after (.wrwFire 0 1) (after (.hostWrBegin 0x7E) sp)
     (t.blk 0).flags = 0x12 ∧ (t.chan 0 1).pc = .fired ∧ (t.blk 0).out 11 = false ∧ t.hostPc = .wrWaitRel) := by
  decide +kernel

theorem test_wrwRearm :
    ((after (.wrwRearm 0 1) (setPc sp 0 1 .fired)).chan 0 1).pc = .armed ∧
      (after (.wrwRearm 0 1) (setPc (writing sp) 0 1 .fired)).result = .held := by decide +kernel

theorem test_waiteAssert :
    (let t := after (.waiteAssert 0 2) (flagged sp 0x10)
     (t.chan 0 2).pc = .holding ∧ (t.blk 0).out 11 = false) ∧ (after (.waiteAssert 0 2) sp).result = .held := by decide +kernel

theorem test_waiteRelease :
    (let t := after (.waiteRelease 0 2) (setPc (driveLine sp 0 .wait false) 0 2 .holding)
     (t.chan 0 2).pc = .idle ∧ (t.blk 0).out 11 = true) := by decide +kernel

/-- V-C step 10, V-MF1. -/
theorem test_rcdStrobe :
    (let t := after (.rcdStrobe 0 0) (flagged sm 0)
     (t.chan 0 0).pc = .rWaitLow ∧ (t.blk 0).out 8 = false ∧ (t.blk 0).out 9 = false ∧ t.faults = []) ∧
      (after (.rcdStrobe 0 0) sm).result = .held := by decide +kernel

/-- V-MF2, and a later step that ends in the overlap (R256). -/
theorem test_rcdStrobe_overlap :
    (let t := after (.rcdStrobe 0 0) (flagged pushing 0)
     t.faults = [.strobeOverlap 0 (.rcdStrobe 0 0)] ∧
       (after .perRdAck t).faults = [.strobeOverlap 0 (.rcdStrobe 0 0), .strobeOverlap 0 .perRdAck]) := by decide +kernel

theorem test_rcdSeewait :
    ((after (.rcdSeewait 0 0) (present strobing .wait false)).chan 0 0).pc = .rWaitRel ∧
      (after (.rcdSeewait 0 0) strobing).result = .held := by decide +kernel

/-- V-C step 13. -/
theorem test_rcdSample :
    (let t := after (.rcdSample 0 0) { setPc (driveData strobing 0x3C) 0 0 .rWaitRel with perPc := .rdHold }
     (t.chan 0 0).rx = [0x3C000000] ∧ (t.chan 0 0).isr = 0 ∧ (t.blk 0).out 9 = true ∧ (t.blk 0).flags = 1 ∧
       (t.chan 0 0).pc = .rIdle ∧ t.perPc = .idle) := by decide +kernel

/-- V-MF5. -/
theorem test_wcdStart :
    (let t := after (.wcdStart 0 1) (withTx sm 1 [0x1234563C])
     (t.chan 0 1).osr = 0x00123456 ∧ (t.chan 0 1).osrCount = 8 ∧ (t.chan 0 1).tx = [] ∧ dataByte t .sample = 0x3C ∧
       (t.blk 0).out 10 = false ∧ (t.chan 0 1).pc = .wWaitLow) := by decide +kernel

theorem test_wcdSeewait : ((after (.wcdSeewait 0 1) (present pushing .wait false)).chan 0 1).pc = .wWaitRel := by decide +kernel

/-- V-C step 6. -/
theorem test_wcdFinish :
    (let t := after (.wcdFinish 0 1) { setPc pushing 0 1 .wWaitRel with perPc := .wrHold }
     (t.chan 0 1).pc = .wIdle ∧ (t.blk 0).out 10 = true ∧ (t.blk 0).oe 0 = false ∧ t.perPc = .idle) := by decide +kernel

/-- V-A step 1, V-PF3. -/
theorem test_hostRdBegin :
    (after .hostRdBegin sp).hostPc = .rdWaitLow ∧ (after .hostRdBegin (after (.irqForce 0 0x10) sp)).hostPc = .rdWaitRel := by
  decide +kernel

theorem test_hostSeeWait :
    (after .hostSeeWait { driveLine sp 0 .wait false with hostPc := .wrWaitLow }).hostPc = .wrWaitRel := by decide +kernel

/-- V-PF7: the unlatched read takes the pulled-up bus. -/
theorem test_hostRdEnd :
    (let t := after .hostRdEnd { reading sp with hostPc := .rdWaitRel }
     t.result = .byte 0xFF ∧ t.hostLatch = 0xFF ∧ t.hostPc = .idle ∧ (t.envLine .rd).val = true) := by decide +kernel

/-- V-B step 1. -/
theorem test_hostWrBegin :
    (let t := after (.hostWrBegin 0x7E) sp
     dataByte t .sample = 0x7E ∧ lineLevel t .sample .wr = false ∧ t.hostPc = .wrWaitLow ∧ t.faults = []) := by decide +kernel

/-- V-B step 9 with its reaction. -/
theorem test_hostWrEnd :
    (let t := after .hostWrEnd { setPc (driveData (writing sp) 0x7E) 0 1 .fired with hostPc := .wrWaitRel }
     t.hostPc = .idle ∧ (t.envLine (.data 7)).drive = false ∧ (t.chan 0 1).pc = .armed) := by decide +kernel

/-- V-C step 11 with its reaction; V-PF5. -/
theorem test_perRdAck :
    (let t := after .perRdAck strobing
     t.perPc = .rdStall ∧ lineLevel t .sample .wait = false ∧ (t.chan 0 0).pc = .rWaitRel) ∧
      (after .perRdAck sp).result = .refused .wrongRole := by decide +kernel

/-- V-C step 12. -/
theorem test_perRdReady :
    (let t := after .perRdReady { present (setPc strobing 0 0 .rWaitRel) .wait false with perPc := .rdStall, echo := 0x3C }
     dataByte t .sample = 0x3C ∧ lineLevel t .sample .wait = true ∧ t.perPc = .rdHold ∧ t.faults = []) := by decide +kernel

theorem test_perRdDone :
    (let t := after .perRdDone { driveData sm 0x3C with perPc := .rdHold }
     t.perPc = .idle ∧ (t.envLine (.data 0)).drive = false) := by decide +kernel

/-- V-C step 4, V-MF7. -/
theorem test_perWrAck :
    (let t := after .perWrAck pushing
     t.perPc = .wrStall ∧ (t.chan 0 1).pc = .wWaitRel) ∧ (after .perWrAck sm).result = .held := by decide +kernel

/-- V-C step 5. -/
theorem test_perWrLatch :
    (let s := after (.wcdStart 0 1) (withTx sm 1 [0x3C])
     let t := after .perWrLatch { present s .wait false with perPc := .wrStall }
     t.echo = 0x3C ∧ t.perPc = .wrHold ∧ lineLevel t .sample .wait = true) := by decide +kernel

theorem test_perWrDone :
    (after .perWrDone { sm with perPc := .wrHold }).perPc = .idle ∧
      (after .perWrDone { pushing with perPc := .wrHold }).result = .held := by decide +kernel

theorem test_post : (after (.post .write) sp).queue.map (·.kind) = [.write] := by decide +kernel

/-- V-SQ6. -/
theorem test_register :
    (after (.register 0 .read) sp).result = .refused .doubleRegister ∧
      ((after (.register 0 .write) (fresh .peripheral)).blk 0).vector 1 = some .isrWr := by decide +kernel

/-- V-SQ2, its first step. -/
theorem test_isrRd :
    (let t := after (.isrRd 0) (flagged sp 0x13)
     t.queue = [⟨.read, 0x13⟩] ∧ (t.blk 0).flags = 0x12 ∧ t.ctx = .task) ∧
      (after (.isrRd 0) (inIsr (flagged sp 0x13))).result = .held := by decide +kernel

/-- V-SQ3, its first step. -/
theorem test_isrWr :
    (let t := after (.isrWr 0) (flagged sp 0x13)
     t.queue = [⟨.write, 0x13⟩] ∧ (t.blk 0).flags = 0x11) := by decide +kernel

/-- V-A step 4, V-SQ5. -/
theorem test_dispatch :
    (let t := after .dispatch { sp with queue := [⟨.read, 0x11⟩, ⟨.write, 0x12⟩] }
     t.queue = [⟨.write, 0x12⟩] ∧ t.consumer = some ⟨0, .readDirOut, 0⟩) ∧
      (after .dispatch { sp with queue := [⟨.read, 0x11⟩], handlerRead := none }).result = .refused .noHandler := by
  decide +kernel

/-- V-A step 5. -/
theorem test_serviceRead :
    (let t := after (.serviceRead 0) stalled
     (t.pin 7).sioOe = true ∧ dataByte t .sample = 0 ∧ t.consumer = some ⟨0, .readPut, 0⟩) := by decide +kernel

/-- V-A step 6. -/
theorem test_serviceRead_put :
    (let t := goOn .consumer { after (.serviceRead 0) stalled with counter := 0 }
     dataByte t .sample = 0 ∧ t.counter = 0xFF ∧ t.consumer = some ⟨0, .readRelease, 0⟩) := by decide +kernel

/-- V-A step 7: WAIT rises and the host latches the byte. -/
theorem test_serviceRead_release :
    (let t := goOn .consumer serving
     t.hostLatch = 5 ∧ t.hostLatched = true ∧ (t.blk 0).out 11 = true ∧ (t.blk 0).flags = 0) := by decide +kernel

/-- V-B step 5. -/
theorem test_serviceWrite : (after (.serviceWrite 0) sp).consumer = some ⟨0, .writeSample, 0⟩ := by decide +kernel

/-- V-B step 8. -/
theorem test_serviceWrite_sink :
    (goOn .consumer { sp with consumer := some ⟨0, .writeSink, 0x7E⟩ }).sink = [0x7E] := by decide +kernel

/-- V-C step 8, V-SQ7. -/
theorem test_masterRead :
    (let t := after (.masterRead 0) sm
     (t.blk 0).flags = 0 ∧ t.master = some (.readPop 0)) ∧
      (after (.masterRead 0) (inIsr sm)).result = .refused .masterInIsr := by decide +kernel

/-- V-C step 15, V-FI5. -/
theorem test_masterRead_return :
    (goOn .master { sm with master := some (.readReturn 0 0x3C000000) }).result = .word 0x3C := by decide +kernel

/-- V-C step 1, V-SQ8. -/
theorem test_masterWrite :
    (let t := after (.masterWrite 0 0x3C) sm
     (t.chan 0 1).tx = [0x3C] ∧ t.master = some (.writeWait 0) ∧
       (after (.masterWrite 0 1) t).result = .refused .concurrentMasterCall) := by decide +kernel

/-- P1 and P5: the first call goes on, a second one halts. -/
theorem test_periphInit :
    (after .periphInit (fresh .peripheral)).initPeripheral = .done ∧
      (let t := after .periphInit sp
       t.halted = true ∧ t.errorLed = true ∧ t.faults = [.doubleInit .peripheral]) := by decide +kernel

/-- P4: the CONFIGURE without space ends the initialisation; no channel is enabled. -/
theorem test_periphInit_full :
    (let s := { load { fresh .peripheral with par := { testPar .peripheral with imemWords := 4 } } 0 0 Params.default.rdw with
       boot := some ⟨.peripheral, 25⟩ }
     let t := goOn .boot s
     t.boot = none ∧ (t.chan 0 1).owner = .none ∧ t.irqEnabled = false) := by decide +kernel

theorem test_masterInit :
    (after .masterInit (fresh .master)).initMaster = .done ∧ (after .masterInit sm).halted = true := by decide +kernel

/-- V-FI6 and V-FI7: two INs without a push, from both directions. -/
theorem test_shiftIn :
    (let r : Channel := { Channel.reset with cfg := { Channel.reset.cfg with inShift := ⟨32, true, true⟩ } }
     let l : Channel := { Channel.reset with cfg := { Channel.reset.cfg with inShift := ⟨32, false, true⟩ } }
     (sampleIn (sampleIn r 0xA5 8) 0x5A 8).isr = 0x5AA50000 ∧ (sampleIn (sampleIn l 0xA5 8) 0x5A 8).isr = 0xA55A) := by
  decide +kernel

/-- V-FI10 and V-FI11: OUT to the left. -/
theorem test_shiftOut :
    outBits { Channel.reset with osr := 0x3C000000 } 8 = 0x3C ∧ outBits { Channel.reset with osr := 0x3C } 8 = 0 := by
  decide +kernel

/-- A word that is not an operation is refused (V-CF22); the machine goes on. -/
theorem test_step_refuses :
    (stepped (sp.withFetchWord 32 0x02010007)).refused = true ∧ (stepped (sp.withFetchWord 32 0x02010007)).schedule = [] := by
  decide +kernel

/-- R340: the first step of the task context is the initialisation of the role. -/
theorem test_step_start :
    (stepped (fresh .peripheral)).boot = some ⟨.peripheral, 0⟩ ∧ (stepped (fresh .master)).boot = some ⟨.master, 0⟩ := by
  decide +kernel

/-- R305: a pin that both sides drive is a fault of every step after which they do. -/
theorem test_contention_stands :
    (let t := after (.irqRead 0) (after (.busSetDir true) (after (.hostWrBegin 0x7E) sp))
     t.faults.length = 16 ∧ .busContention 7 (.irqRead 0) ∈ t.faults) := by decide +kernel

/-- R203: RDW_REARM is performed in the PERIPHERAL role only. -/
theorem test_rdwRearm_master :
    (after (.rdwRearm 0 0) { setPc sp 0 0 .fired with par := { sp.par with role := .master } }).result = .held := by
  decide +kernel

/-! ### States for the witnesses -/

/-- The configuration of a descriptor. -/
def cfgOf (d : DescWords) : ChanCfg :=
  match decodeDescriptor d with
  | some c => c
  | none => Channel.reset.cfg

/-- Words 0 to 27 of block 0 are used (V-CF2). -/
def brim : State :=
  (fresh .peripheral).modBlk 0 fun k => { k with tags := List.replicate 28 (.used 9) ++ List.replicate 4 .free }

/-- Every fourth word of block 0 is used (V-CF3). -/
def holes : State :=
  (fresh .peripheral).modBlk 0 fun k => { k with tags := (List.range 32).map fun a => if a % 4 = 3 then .used 9 else .free }

/-- V-CF16: the in group passes the last pin, and RD is missing. -/
def past : DescWords := ⟨0x00602000, 0x00010000, 0x0000031C, 0, 0xFF⟩

/-- V-CF13: RD is missing. -/
def lacking : DescWords := ⟨0x00602000, 0x00010000, 0x00000108, 0, 0xFF⟩

/-- A chip whose pins end with D7. -/
def narrow8 : State := { fresh .peripheral with par := { testPar .peripheral with numGpio := 8 } }

/-- A chip without D7. -/
def narrow7 : State := { fresh .peripheral with par := { testPar .peripheral with numGpio := 7 } }

/-- V-C after step 12, with three words in RX. -/
def sampling : State :=
  { withRx (setPc (driveData strobing 0x3C) 0 0 .rWaitRel) 0 [1, 2, 3] with perPc := .rdHold }

/-- S_P with a deferred handler at a step. -/
def running (n : ServiceStep) : State := { sp with consumer := some ⟨0, n, 0⟩ }

/-- A running master call. -/
def calling (m : MasterCall) (s : State) : State := { s with master := some m }

/-- P4: an instruction memory of four words, used by the first program of an initialisation that goes on. -/
def crowded : State :=
  { load { fresh .peripheral with par := { testPar .peripheral with imemWords := 4 } } 0 0 Params.default.rdw with
    boot := some ⟨.peripheral, 25⟩ }

/-- MASTER_INIT before its IRQ_FORCE. -/
def forcing : State := { flagged sm 0 with boot := some ⟨.master, 10⟩ }

/-- MASTER_INIT before its IRQ_FORCE, with an enforcer beside the drivers. -/
def enforced : State := enableChannels (load forcing 2 8 Params.default.waite) 0 [2]

/-- S_P after the read watcher has fired, with a second enforcer that is not enabled. -/
def twoEnforcers : State := load stalled 3 12 Params.default.waite

/-- The same state in a build of another role. -/
def as (s : State) (r : Role) : State := { s with par := { s.par with role := r } }

/-- PERIPH_INIT before its ENABLE. -/
def starting : State := { perCold with boot := some ⟨.peripheral, 30⟩ }

/-- One block with one enforcer that holds WAIT, its program loaded, and an IRQ_CLEAR of its hold flag to come. -/
def tiny : State :=
  { fresh .peripheral with
    schedule := [.word 0x0A000010]
    blks :=
      [{ Block.reset with
         imem := [(0, 1), (1, 2), (2, 3), (3, 4), (4, 5), (5, 6), (6, 7), (7, 8)]
         tags := [.used 0, .used 0, .used 0, .used 0]
         flags := 0x10
         chs :=
           [{ configuredChannel .peripheral { cfgOf Params.default.waite with offset := 0 } with
              enabled := true, pc := .holding }] }] }

/-- A property of all bits of a mask, from its sixteen bits. -/
theorem all_bits {m : Half} {P : Nat → Prop} (h : ∀ c : Fin 16, m.getLsbD c.val = true → P c.val) :
    ∀ c : Nat, m.getLsbD c = true → P c := fun c hc => h ⟨c, BitVec.lt_of_getLsbD hc⟩ hc

/-- A turn that returned nothing completed. -/
theorem completed_none {r : Result} (h : r = .none) : Completed r := by
  subst h
  exact ⟨by decide, by decide, fun _ h => nomatch h⟩

/-! ### Witnesses of the hypotheses of the obligations -/

/-- The greatest masks (R82). -/
theorem witness_DecodeEncode :
    (Instr.enable 1 0xF).encodable Params.default = true ∧
      (Instr.irqForce 0 0xFF).encodable Params.default = true := by
  decide +kernel

theorem witness_EncodeDecode :
    decode Params.default [0x0200000F, 0x01020000] = .ok (.enable 0 0xF, [0x01020000]) := rfl

theorem witness_StepRunsDecoded :
    (placeWords sp [0x08010000, 0x3C]).schedule = [.word 0x08010000, .word 0x3C] ∧
      fetch (placeWords sp [0x08010000, 0x3C]) = .ok (.txPush 0 1 0x3C) := ⟨rfl, rfl⟩

/-- Words with an opcode at either end of each reserved range. -/
theorem witness_StepRefusesWords_reserved :
    [0x00, 0x04, 0x07, 0x0F, 0x19, 0x3F, 0x46, 0x47, 0x4B, 0x4F, 0x53, 0x7F, 0x85, 0x87, 0x8E, 0x9F, 0xA2, 0xAC, 0xFF].all
      (fun op : Byte => decide ((opField (opWord op 0 0 0)).toNat = op.toNat)) = true ∧
      (opField 0xAC000000).toNat = 0xAC := by
  decide +kernel

theorem witness_StepRefusesWords_fields :
    fetch (placeWords sp [0x0200001F]) = .error .unusedField ∧ fetch (placeWords sp [0x08010000]) = .error .truncated := ⟨rfl, rfl⟩

theorem witness_WrongOperations :
    performer (.irqRead 2) = .processor ∧
      (Instr.irqRead 2).wf sp.par = false ∧
      performer (.rdwFire 2 0) = .channel .rdw 2 0 ∧
      sp.par.numBlocks ≤ 2 ∧
      performer (.wcdStart 1 4) = .channel .wcd 1 4 ∧
      sp.par.numCh ≤ 4 ∧
      performer (.rdwFire 0 3) = .channel .rdw 0 3 ∧
      (sp.chan 0 3).owner = .none ∧
      performer (.rdwFire 0 1) = .channel .rdw 0 1 ∧
      (sp.chan 0 1).cfg.template ≠ .rdw ∧
      (perCold.chan 0 0).owner ≠ .none ∧
      (perCold.chan 0 0).cfg.template = .rdw ∧
      (perCold.chan 0 0).enabled = false ∧
      0 < perCold.par.numBlocks ∧
      0 < perCold.par.numCh ∧
      performer .perRdAck = .environment .master ∧
      sp.par.role ≠ .master := by
  decide +kernel

/-- V-CF2: the only free range is the last one, at 28. -/
theorem witness_ConfigureLoads :
    Ready (.configure 0 2 Params.default.waite) brim ∧
      decodeDescriptor Params.default.waite = some (cfgOf Params.default.waite) ∧
      (brim.chan 0 2).owner = .none ∧
      groupsLegal brim.par (cfgOf Params.default.waite) = true ∧
      templatePinsOk brim.par (cfgOf Params.default.waite) = true ∧
      Memory.wf (brim.blk 0).imem = true ∧
      28 + brim.par.len (cfgOf Params.default.waite).template ≤ brim.par.imemWords ∧
      (∀ k, k < 4 → (brim.blk 0).tag (28 + k) = .free) ∧
      (brim.blk 0).tag 27 ≠ .free := by
  unfold Ready
  decide +kernel

/-- V-CF3: runs of three free words. -/
theorem witness_ConfigureExhausted :
    Ready (.configure 0 0 Params.default.rdw) holes ∧
      decodeDescriptor Params.default.rdw = some (cfgOf Params.default.rdw) ∧
      (holes.chan 0 0).owner = .none ∧
      groupsLegal holes.par (cfgOf Params.default.rdw) = true ∧
      templatePinsOk holes.par (cfgOf Params.default.rdw) = true := by
  unfold Ready
  decide +kernel

theorem witness_ConfigureExhausted_full :
    ∀ o, o + holes.par.len (cfgOf Params.default.rdw).template ≤ holes.par.imemWords →
      ∃ k, k < holes.par.len (cfgOf Params.default.rdw).template ∧ (holes.blk 0).tag (o + k) ≠ .free := by
  intro o h
  have h' : o + 4 ≤ 32 := h
  have key : ∀ o : Fin 29, ∃ k : Fin 4, (holes.blk 0).tag (o.val + k.val) ≠ .free := by decide +kernel
  obtain ⟨k, hk⟩ := key ⟨o, by omega⟩
  exact ⟨k.val, k.isLt, hk⟩

/-- A shift width of 33; V-CF5; V-CF16, which fails both later checks; V-CF13. -/
theorem witness_ConfigureRefused :
    decodeDescriptor ⟨0x00602100, 0x00010000, 0x208, 0, 0xFF⟩ = none ∧
      Ready (.configure 0 0 Params.default.rdw) sp ∧
      decodeDescriptor Params.default.rdw = some (cfgOf Params.default.rdw) ∧
      (sp.chan 0 0).owner ≠ .none ∧
      Ready (.configure 0 0 past) (fresh .peripheral) ∧
      decodeDescriptor past = some (cfgOf past) ∧
      ((fresh .peripheral).chan 0 0).owner = .none ∧
      groupsLegal (testPar .peripheral) (cfgOf past) = false ∧
      Ready (.configure 0 0 lacking) (fresh .peripheral) ∧
      decodeDescriptor lacking = some (cfgOf lacking) ∧
      groupsLegal (testPar .peripheral) (cfgOf lacking) = true ∧
      templatePinsOk (testPar .peripheral) (cfgOf lacking) = false := by
  unfold Ready
  decide +kernel

/-- V-CF18, V-CF21: a mask with an enforcer, one without, and an empty one; an enforcer outside the mask of another. -/
theorem witness_EnableStarts :
    (Ready (.enable 0 7) perCold ∧ ∀ c : Nat, (7 : Half).getLsbD c = true → (perCold.chan 0 c).owner ≠ .none) ∧
      (Ready (.enable 0 3) perCold ∧ ∀ c : Nat, (3 : Half).getLsbD c = true → (perCold.chan 0 c).owner ≠ .none) ∧
      (Ready (.enable 1 0) sp ∧ ∀ c : Nat, (0 : Half).getLsbD c = true → (sp.chan 1 c).owner ≠ .none) ∧
      (perCold.chan 0 2).cfg.template = .waite ∧ (perCold.chan 0 2).pc = .idle ∧
      (((maskChannels perCold.par 7).any fun c => decide ((perCold.chan 0 c).cfg.template = .waite)) = true) ∧
      (((maskChannels perCold.par 3).any fun c => decide ((perCold.chan 0 c).cfg.template = .waite)) = false) ∧
      (Ready (.enable 0 8) twoEnforcers ∧ (twoEnforcers.chan 0 3).owner ≠ .none ∧
        (twoEnforcers.chan 0 3).cfg.template = .waite ∧ (twoEnforcers.chan 0 2).enabled = true ∧
        (twoEnforcers.chan 0 2).owner ≠ .none ∧ (twoEnforcers.chan 0 2).cfg.template = .waite ∧
        (twoEnforcers.chan 0 2).pc = .holding) := by
  unfold Ready
  refine ⟨⟨by decide +kernel, all_bits (by decide +kernel)⟩, ⟨by decide +kernel, all_bits (by decide +kernel)⟩,
    ⟨by decide +kernel, all_bits (by decide +kernel)⟩, by decide +kernel, by decide +kernel, by decide +kernel, by decide +kernel, by decide +kernel⟩

theorem witness_EnableInvalid :
    Ready (.enable 0 0xF) perCold ∧
      (0xF : Half).getLsbD 3 = true ∧
      (perCold.chan 0 3).owner = .none ∧
      (∀ c : Nat, c < 3 → (0xF : Half).getLsbD c = true → (perCold.chan 0 c).owner ≠ .none) := by
  unfold Ready
  decide +kernel

theorem witness_DisableStops :
    Ready (.disable 0 0xF) sp ∧
      (sp.chan 0 2).enabled = true := by
  unfold Ready
  decide +kernel

/-- Three words, four words, no owner. -/
theorem witness_TxPushAppends :
    TaskReady (.txPush 0 1 4) sm ∧
      (sm.chan 0 1).owner ≠ .none ∧
      ((withTx sm 1 [1, 2, 3]).chan 0 1).tx.length < capTx sm.par ((withTx sm 1 [1, 2, 3]).chan 0 1) ∧
      TaskReady (.txPush 0 1 5) (withTx sm 1 [1, 2, 3, 4]) ∧
      capTx sm.par (sm.chan 0 1) ≤ ((withTx sm 1 [1, 2, 3, 4]).chan 0 1).tx.length ∧
      TaskReady (.txPush 0 3 1) sm ∧
      (sm.chan 0 3).owner = .none := by
  unfold TaskReady Ready
  decide +kernel

theorem witness_RxPopReturns :
    TaskReady (.rxPop 0 0) (withRx sm 0 [0x3C000000]) ∧
      ((withRx sm 0 [0x3C000000]).chan 0 0).rx = [0x3C000000] ∧
      TaskReady (.rxPop 0 0) sm ∧
      (sm.chan 0 0).rx = [] := by
  unfold TaskReady Ready
  decide +kernel

theorem witness_ChWaitIdleWaits :
    TaskReady (.chWaitIdle 0 1) sm ∧
      (sm.chan 0 1).owner ≠ .none ∧
      (sm.chan 0 1).pc = entryState (sm.chan 0 1).cfg.template ∧
      (sm.chan 0 1).tx = [] ∧
      TaskReady (.chWaitIdle 0 1) pushing ∧
      (pushing.chan 0 1).pc ≠ entryState (pushing.chan 0 1).cfg.template ∧
      ((withTx sm 1 [1]).chan 0 1).tx ≠ [] ∧
      TaskReady (.chWaitIdle 1 3) sm ∧
      (sm.chan 1 3).owner = .none := by
  unfold TaskReady Ready
  decide +kernel

theorem witness_BlockingRefusedInIsr :
    Ready (.txPush 0 1 1) (inIsr sm) ∧
      (inIsr sm).ctx ≠ .task ∧
      Ready (.rxPop 0 0) (inIsr sm) ∧
      Ready (.chWaitIdle 0 1) (inIsr sm) ∧
      Ready (.masterRead 0) (inIsr sm) ∧
      Ready (.masterWrite 0 1) (inIsr sm) := by
  unfold Ready
  decide +kernel

theorem witness_FlagWrites :
    Ready (.irqClear 0 0xFF) stalled ∧
      Ready (.irqForce 0 0xFF) stalled := by
  unfold Ready
  decide +kernel

theorem witness_IrqReadStatus :
    Ready (.irqRead 1) sp := by
  unfold Ready
  decide +kernel

theorem witness_IrqRouting :
    Ready (.irqInte 0 0xFF) sp ∧
      Ready (.irqGlobal false) sp ∧
      ({ flagged sp 3 with irqEnabled := false } : State).irqEnabled = false ∧
      Ready (.isrRd 0) { flagged sp 3 with irqEnabled := false } ∧
      Ready (.isrWr 0) { flagged sp 3 with irqEnabled := false } := by
  unfold Ready
  decide +kernel

theorem witness_PinWrites :
    (29 : Byte).toNat < sp.par.numGpio ∧
      Ready (.gpioSetFunc 29 0) sp ∧
      Ready (.gpioSetFunc 29 1) sp ∧
      Ready (.gpioSetFunc 29 2) sp ∧
      Ready (.gpioSetFunc 29 3) sp ∧
      (3 : Byte).toNat = 2 + 1 ∧ 1 < sp.par.numBlocks ∧
      Ready (.gpioSetDir 29 true) sp ∧
      Ready (.gpioPut 29 true) sp ∧
      Ready (.gpioSetPull 29 0) sp ∧
      Ready (.gpioSetPull 29 1) sp ∧
      Ready (.gpioSetPull 29 2) sp := by
  unfold Ready
  decide +kernel

/-- A pin the engine drives, one the environment drives, a pulled-up and a pulled-down one. -/
theorem witness_PinReads :
    Ready (.gpioGet 11) sp ∧
      engineDrive sp 11 = some true ∧
      envDrive sp 11 = none ∧
      engineDrive sp 9 = none ∧
      envDrive sp 9 = some true ∧
      engineDrive sp 0 = none ∧
      envDrive sp 0 = none ∧
      (sp.pin 0).pull = .up ∧
      Ready (.gpioGet 29) (sp.modPin 29 fun q => { q with pull := .down }) ∧
      engineDrive (sp.modPin 29 fun q => { q with pull := .down }) 29 = none ∧
      envDrive (sp.modPin 29 fun q => { q with pull := .down }) 29 = none ∧
      ((sp.modPin 29 fun q => { q with pull := .down }).pin 29).pull = .down ∧
      29 < sp.par.numGpio := by
  unfold Ready
  decide +kernel

theorem witness_PinReads_bus :
    Ready .busGet serving ∧
      serving.par.pins.d0 + 7 < serving.par.numGpio ∧
      engineDrive serving (serving.par.pins.d0 + 7) = some false ∧
      envDrive serving (serving.par.pins.d0 + 7) = none ∧
      Ready .busGet (driveData (fresh .peripheral) 0x80) ∧
      engineDrive (driveData (fresh .peripheral) 0x80) 7 = none ∧
      envDrive (driveData (fresh .peripheral) 0x80) 7 = some true ∧
      (engineDrive sp 7 = none ∧ envDrive sp 7 = none ∧ (sp.pin 7).pull = .up) := by
  unfold Ready
  decide +kernel

/-- The last pin of the bus is the last pin of the chip. -/
theorem witness_BusWrites :
    sp.par.pins.d0 + 7 < sp.par.numGpio ∧
      Ready (.busSetDir true) sp ∧
      Ready (.busPut 0xA5) sp ∧
      narrow8.par.pins.d0 + 7 < narrow8.par.numGpio ∧
      Ready (.busPut 0xA5) narrow8 := by
  unfold Ready
  decide +kernel

theorem witness_PinRangeRefused :
    Ready (.gpioSetFunc 30 1) sp ∧
      sp.par.numGpio ≤ (30 : Byte).toNat ∧
      Ready (.gpioSetDir 30 true) sp ∧
      Ready (.gpioPut 30 true) sp ∧
      Ready (.gpioGet 30) sp ∧
      Ready (.gpioSetPull 30 1) sp ∧
      Ready (.busSetDir true) narrow7 ∧
      Ready (.busPut 1) narrow7 ∧
      Ready .busGet narrow7 ∧
      narrow7.par.numGpio ≤ narrow7.par.pins.d0 + 7 := by
  unfold Ready
  decide +kernel

theorem witness_WatchersFire :
    ChannelReady (.rdwFire 0 0) .rdw 0 0 (reading sp) ∧
      ((reading sp).chan 0 0).pc = .armed ∧
      condRd (reading sp) .guard = true ∧
      (reading sp).par.irqHold < 16 ∧
      ((reading sp).chan 0 2).enabled = true ∧
      ((reading sp).chan 0 2).owner ≠ .none ∧
      ((reading sp).chan 0 2).cfg.template = .waite ∧
      ((reading sp).chan 0 2).pc = .idle ∧
      ChannelReady (.rdwFire 0 0) .rdw 0 0 stalled ∧
      (stalled.chan 0 0).pc ≠ .armed ∧
      condRd sp .guard = false ∧
      ChannelReady (.wrwFire 0 1) .wrw 0 1 (writing sp) ∧
      ((writing sp).chan 0 1).pc = .armed ∧
      condWr (writing sp) .guard = true ∧
      ChannelReady (.wrwFire 0 1) .wrw 0 1 sp ∧
      condWr sp .guard = false := by
  unfold ChannelReady
  decide +kernel

theorem witness_WatchersRearm :
    ChannelReady (.rdwRearm 0 0) .rdw 0 0 (setPc sp 0 0 .fired) ∧
      ((setPc sp 0 0 .fired).chan 0 0).pc = .fired ∧
      sp.par.role = .peripheral ∧
      condRd (setPc sp 0 0 .fired) (.channel 0 0) = false ∧
      ChannelReady (.rdwRearm 0 0) .rdw 0 0 stalled ∧
      condRd stalled (.channel 0 0) = true ∧
      (sp.chan 0 0).pc ≠ .fired ∧
      ChannelReady (.rdwRearm 0 0) .rdw 0 0 (as sp .master) ∧
      (as sp .master).par.role ≠ .peripheral ∧
      ChannelReady (.wrwRearm 0 1) .wrw 0 1 (as sp .master) ∧
      condWr (writing sp) (.channel 0 1) = true ∧
      ChannelReady (.wrwRearm 0 1) .wrw 0 1 (writing sp) ∧
      ChannelReady (.wrwRearm 0 1) .wrw 0 1 (setPc sp 0 1 .fired) ∧
      ((setPc sp 0 1 .fired).chan 0 1).pc = .fired ∧
      condWr (setPc sp 0 1 .fired) (.channel 0 1) = false ∧
      ChannelReady (.wrwRearm 0 1) .wrw 0 1 sp ∧
      (sp.chan 0 1).pc ≠ .fired := by
  unfold ChannelReady
  decide +kernel

theorem witness_EnforcerSteps :
    ChannelReady (.waiteAssert 0 2) .waite 0 2 (flagged sp 0x10) ∧
      ((flagged sp 0x10).chan 0 2).pc = .idle ∧
      ((flagged sp 0x10).blk 0).flag 4 = true ∧
      ChannelReady (.waiteAssert 0 2) .waite 0 2 stalled ∧
      (stalled.chan 0 2).pc ≠ .idle ∧
      (sp.blk 0).flag 4 = false ∧
      ChannelReady (.waiteRelease 0 2) .waite 0 2 (flagged stalled 0) ∧
      ((flagged stalled 0).chan 0 2).pc = .holding ∧
      ((flagged stalled 0).blk 0).flag 4 = false ∧
      ChannelReady (.waiteRelease 0 2) .waite 0 2 sp ∧
      (sp.chan 0 2).pc ≠ .holding := by
  unfold ChannelReady
  decide +kernel

theorem witness_HostBegins :
    sp.par.role = .peripheral ∧
      sp.hostPc = .idle ∧
      stalled.par.role = .peripheral ∧
      stalled.hostPc ≠ .idle := by
  decide +kernel

theorem witness_SeeWaitSteps :
    stalled.par.role = .peripheral ∧
      lineLevel { stalled with hostPc := .rdWaitLow } .hostSees .wait = false ∧
      lineLevel { stalled with hostPc := .wrWaitLow } .hostSees .wait = false ∧
      (stalled.hostPc ≠ .rdWaitLow ∧ stalled.hostPc ≠ .wrWaitLow) ∧
      lineLevel sp .hostSees .wait = true ∧
      ChannelReady (.rcdSeewait 0 0) .rcd 0 0 (present strobing .wait false) ∧
      ((present strobing .wait false).chan 0 0).pc = .rWaitLow ∧
      strobing.par.role = .master ∧
      lineLevel (present strobing .wait false) (.channel 0 0) .wait = false ∧
      ChannelReady (.rcdSeewait 0 0) .rcd 0 0 strobing ∧
      lineLevel strobing (.channel 0 0) .wait = true ∧
      (sm.chan 0 0).pc ≠ .rWaitLow ∧
      ChannelReady (.rcdSeewait 0 0) .rcd 0 0 (as strobing .peripheral) ∧
      (as strobing .peripheral).par.role ≠ .master ∧
      ChannelReady (.wcdSeewait 0 1) .wcd 0 1 (present pushing .wait false) ∧
      ((present pushing .wait false).chan 0 1).pc = .wWaitLow ∧
      lineLevel (present pushing .wait false) (.channel 0 1) .wait = false ∧
      ChannelReady (.wcdSeewait 0 1) .wcd 0 1 pushing ∧
      lineLevel pushing (.channel 0 1) .wait = true ∧
      ChannelReady (.wcdSeewait 0 1) .wcd 0 1 (as pushing .peripheral) := by
  unfold ChannelReady
  decide +kernel

theorem witness_HostEnds :
    sp.par.role = .peripheral ∧
      ({ reading sp with hostPc := .rdWaitRel } : State).hostPc = .rdWaitRel ∧
      lineLevel { reading sp with hostPc := .rdWaitRel } .guard .wait = true ∧
      sp.hostPc ≠ .rdWaitRel ∧
      lineLevel stalled .guard .wait = false ∧
      ({ writing sp with hostPc := .wrWaitRel } : State).hostPc = .wrWaitRel ∧
      lineLevel { writing sp with hostPc := .wrWaitRel } .guard .wait = true ∧
      sp.hostPc ≠ .wrWaitRel := by
  decide +kernel

/-- Without and with an overlap. -/
theorem witness_ReadStrobes :
    ChannelReady (.rcdStrobe 0 0) .rcd 0 0 (flagged sm 0) ∧
      ((flagged sm 0).chan 0 0).pc = .rIdle ∧
      ((flagged sm 0).blk 0).flag 0 = false ∧
      ChannelReady (.rcdStrobe 0 0) .rcd 0 0 sm ∧
      (sm.blk 0).flag 0 = true ∧
      (strobing.chan 0 0).pc ≠ .rIdle ∧
      ChannelReady (.rcdStrobe 0 0) .rcd 0 0 (flagged pushing 0) ∧
      ((after (.rcdStrobe 0 0) (flagged pushing 0)).blk 0).out sm.par.pins.wr = false ∧
      ((after (.rcdStrobe 0 0) (flagged pushing 0)).blk 0).oe sm.par.pins.rd = true ∧
      ((after (.rcdStrobe 0 0) (flagged pushing 0)).blk 0).oe sm.par.pins.wr = true := by
  unfold ChannelReady
  decide +kernel

/-- RX with three words and with four. -/
theorem witness_ReadSamples :
    sampling.par.valid = true ∧
      ChannelReady (.rcdSample 0 0) .rcd 0 0 sampling ∧
      (sampling.chan 0 0).pc = .rWaitRel ∧
      lineLevel sampling .guard .wait = true ∧
      (sampling.chan 0 0).rx.length = 3 ∧
      sampleFits sampling.par (sampling.chan 0 0) 8 = true ∧
      ChannelReady (.rcdSample 0 0) .rcd 0 0 (withRx sampling 0 [1, 2, 3, 4]) ∧
      sampleFits sampling.par ((withRx sampling 0 [1, 2, 3, 4]).chan 0 0) 8 = false ∧
      (strobing.chan 0 0).pc ≠ .rWaitRel ∧
      lineLevel (present sampling .wait false) .guard .wait = false := by
  unfold ChannelReady
  decide +kernel

theorem witness_ShiftRules :
    (∃ ch : Channel, ch.isr = 0 ∧ ch.isrCount = 0 ∧ ch.cfg.inShift = ⟨8, true, true⟩) ∧
      (∃ ch : Channel, ch.isr = 0 ∧ ch.isrCount = 0 ∧ ch.cfg.inShift = ⟨8, false, false⟩) ∧
      (∃ ch : Channel, 8 < 9 ∧ ch.isrCount = 0 ∧ ch.cfg.inShift = ⟨9, true, true⟩) ∧
      (∃ ch : Channel, ch.cfg.outShift.right = true) ∧
      (1 ≤ (⟨1, true, true⟩ : ShiftCfg).bits ∧ (⟨1, true, true⟩ : ShiftCfg).bits ≤ 32) ∧
      1 ≤ (⟨32, false, true⟩ : ShiftCfg).bits ∧ (⟨32, false, true⟩ : ShiftCfg).bits ≤ 32 :=
  ⟨⟨{ Channel.reset with cfg := { Channel.reset.cfg with inShift := ⟨8, true, true⟩ } }, rfl, rfl, rfl⟩,
    ⟨{ Channel.reset with cfg := { Channel.reset.cfg with inShift := ⟨8, false, false⟩ } }, rfl, rfl, rfl⟩,
    ⟨{ Channel.reset with cfg := { Channel.reset.cfg with inShift := ⟨9, true, true⟩ } }, by decide, rfl, rfl⟩,
    ⟨{ Channel.reset with cfg := { Channel.reset.cfg with outShift := ⟨8, true, true⟩ } }, rfl⟩, by decide, by decide⟩

/-- Without and with an overlap. -/
theorem witness_WriteStarts :
    sm.par.valid = true ∧
      ChannelReady (.wcdStart 0 1) .wcd 0 1 (withTx sm 1 [0x1234563C]) ∧
      ((withTx sm 1 [0x1234563C]).chan 0 1).pc = .wIdle ∧
      ((withTx sm 1 [0x1234563C]).chan 0 1).tx = 0x1234563C :: [] ∧
      ChannelReady (.wcdStart 0 1) .wcd 0 1 sm ∧
      (sm.chan 0 1).tx = [] ∧
      (pushing.chan 0 1).pc ≠ .wIdle ∧
      ChannelReady (.wcdStart 0 1) .wcd 0 1 (withTx strobing 1 [7]) ∧
      ((withTx strobing 1 [7]).chan 0 1).pc = .wIdle ∧
      ((after (.wcdStart 0 1) (withTx strobing 1 [7])).blk 0).out sm.par.pins.rd = false ∧
      ((after (.wcdStart 0 1) (withTx strobing 1 [7])).blk 0).oe sm.par.pins.rd = true ∧
      ((after (.wcdStart 0 1) (withTx strobing 1 [7])).blk 0).oe sm.par.pins.wr = true := by
  unfold ChannelReady
  decide +kernel

theorem witness_WriteFinishes :
    ChannelReady (.wcdFinish 0 1) .wcd 0 1 (setPc pushing 0 1 .wWaitRel) ∧
      ((setPc pushing 0 1 .wWaitRel).chan 0 1).pc = .wWaitRel ∧
      lineLevel (setPc pushing 0 1 .wWaitRel) .guard .wait = true ∧
      (pushing.chan 0 1).pc ≠ .wWaitRel ∧
      lineLevel (present pushing .wait false) .guard .wait = false := by
  unfold ChannelReady
  decide +kernel

theorem witness_PeripheralAcks :
    strobing.par.role = .master ∧
      strobing.perPc = .idle ∧
      condRd strobing .guard = true ∧
      condRd sm .guard = false ∧
      pushing.perPc = .idle ∧
      condWr pushing .guard = true ∧
      condWr sm .guard = false ∧
      ({ sm with perPc := .rdStall } : State).perPc ≠ .idle := by
  decide +kernel

theorem witness_PeripheralGoesOn :
    sm.par.role = .master ∧
      ({ strobing with perPc := .rdStall } : State).perPc = .rdStall ∧
      sm.perPc ≠ .rdStall ∧
      ({ pushing with perPc := .wrStall } : State).perPc = .wrStall ∧
      sm.perPc ≠ .wrStall ∧
      condRd { sm with perPc := .rdHold } .perReads = false ∧
      condRd { strobing with perPc := .rdHold } .perReads = true ∧
      condWr { sm with perPc := .wrHold } .perReads = false ∧
      condWr { pushing with perPc := .wrHold } .perReads = true := by
  decide +kernel

theorem witness_PostAppends :
    Ready (.post .read) sp ∧
      Ready (.post .write) (inIsr sp) := by
  unfold Ready
  decide +kernel

theorem witness_RegisterBinds :
    TaskReady (.register 1 .read) (fresh .peripheral) ∧
      (fresh .peripheral).handlerRead = none ∧
      TaskReady (.register 0 .read) sp ∧
      sp.handlerRead ≠ none ∧
      TaskReady (.register 1 .write) (fresh .peripheral) ∧
      (fresh .peripheral).handlerWrite = none ∧
      TaskReady (.register 0 .write) sp ∧
      sp.handlerWrite ≠ none := by
  unfold TaskReady Ready
  decide +kernel

theorem witness_HandlersRun :
    Ready (.isrRd 0) (flagged sp 0x13) ∧
      (flagged sp 0x13).irqEnabled = true ∧
      (flagged sp 0x13).ctx = .task ∧
      ((flagged sp 0x13).blk 0).flag sp.par.irqRd = true ∧
      ((flagged sp 0x13).blk 0).routed sp.par.irqRd = true ∧
      ((flagged sp 0x13).blk 0).vector sp.par.irqRd = some .isrRd ∧
      Ready (.isrRd 0) sp ∧
      (sp.blk 0).flag sp.par.irqRd = false ∧
      Ready (.isrWr 0) (flagged sp 0x13) ∧
      ((flagged sp 0x13).blk 0).flag sp.par.irqWr = true ∧
      ((flagged sp 0x13).blk 0).routed sp.par.irqWr = true ∧
      ((flagged sp 0x13).blk 0).vector sp.par.irqWr = some .isrWr ∧
      Ready (.isrWr 0) (routed (flagged sp 0x13) 1) ∧
      ((routed (flagged sp 0x13) 1).blk 0).routed sp.par.irqWr = false ∧
      (inIsr sp).ctx ≠ .task := by
  unfold Ready
  decide +kernel

theorem witness_DispatchStarts :
    TaskReady .dispatch { sp with queue := [⟨.read, 0x11⟩] } ∧
      ({ sp with queue := [⟨.read, 0x11⟩] } : State).consumer = none ∧
      sp.handlerRead = some 0 ∧
      TaskReady .dispatch { sp with queue := [⟨.write, 0x12⟩] } ∧
      sp.handlerWrite = some 0 ∧
      TaskReady .dispatch { fresh .peripheral with queue := [⟨.write, 0x12⟩] } ∧
      (fresh .peripheral).handlerWrite = none ∧
      (fresh .peripheral).consumer = none ∧
      TaskReady .dispatch sp ∧
      sp.queue = [] ∧
      TaskReady .dispatch serving ∧
      serving.consumer ≠ none := by
  unfold TaskReady Ready
  decide +kernel

theorem witness_ServiceStarts :
    TaskReady (.serviceRead 0) stalled ∧
      stalled.consumer = none ∧
      stalled.par.pins.d0 + 7 < stalled.par.numGpio ∧
      TaskReady (.serviceRead 0) serving ∧
      serving.consumer ≠ none ∧
      TaskReady (.serviceWrite 1) narrow8 ∧
      narrow8.consumer = none ∧
      narrow8.par.pins.d0 + 7 < narrow8.par.numGpio ∧
      TaskReady (.serviceWrite 0) serving := by
  unfold TaskReady Ready
  decide +kernel

theorem witness_ServiceGoesOn :
    serving.halted = false ∧
      serving.ctx = .task ∧
      serving.par.pins.d0 + 7 < serving.par.numGpio ∧
      serving.par.byteSource = .counter ∧
      serving.par.byteSink = .log ∧
      serving.consumer = some ⟨0, .readRelease, 0⟩ ∧
      (running .readPut).consumer = some ⟨0, .readPut, 0⟩ ∧
      (running .readDirIn).consumer = some ⟨0, .readDirIn, 0⟩ ∧
      (running .writeSample).consumer = some ⟨0, .writeSample, 0⟩ ∧
      (running .writeRelease).consumer = some ⟨0, .writeRelease, 0⟩ ∧
      (running .writeSink).consumer = some ⟨0, .writeSink, 0⟩ ∧
      (running .writeSink).halted = false ∧ (running .writeSink).ctx = .task := by
  decide +kernel

theorem witness_ReadServiceDelivers :
    serving.par.valid = true ∧
      serving.par.role = .peripheral ∧
      serving.halted = false ∧
      serving.ctx = .task ∧
      serving.consumer = some ⟨0, .readRelease, 0⟩ ∧
      (∀ i : Nat, i < 8 → (serving.pin (serving.par.pins.d0 + i)).func = .sio ∧
        (serving.pin (serving.par.pins.d0 + i)).sioOe = true ∧
        (serving.pin (serving.par.pins.d0 + i)).sioOut = (5#8).getLsbD i ∧ envDrive serving (serving.par.pins.d0 + i) = none) ∧
      (serving.pin serving.par.pins.wait).func = .pio 0 ∧
      (serving.blk 0).oe serving.par.pins.wait = true ∧
      (serving.blk 0).out serving.par.pins.wait = false ∧
      envDrive serving serving.par.pins.wait = none ∧
      (serving.chan 0 2).enabled = true ∧
      (serving.chan 0 2).owner ≠ .none ∧
      (serving.chan 0 2).cfg.template = .waite ∧
      (serving.chan 0 2).pc = .holding ∧
      serving.hostPc = .rdWaitRel := by
  decide +kernel

theorem witness_MasterCallsStart :
    TaskReady (.masterRead 0) sm ∧
      sm.master = none ∧
      TaskReady (.masterRead 0) { sm with master := some (.writeWait 0) } ∧
      ({ sm with master := some (.writeWait 0) } : State).master ≠ none ∧
      TaskReady (.masterWrite 0 0x3C) (withTx sm 1 [1, 2, 3]) ∧
      ((withTx sm 1 [1, 2, 3]).chan 0 1).owner ≠ .none ∧
      ((withTx sm 1 [1, 2, 3]).chan 0 1).tx.length < capTx sm.par ((withTx sm 1 [1, 2, 3]).chan 0 1) ∧
      TaskReady (.masterWrite 0 0x3C) (withTx sm 1 [1, 2, 3, 4]) ∧
      capTx sm.par ((withTx sm 1 [1, 2, 3, 4]).chan 0 1) ≤ ((withTx sm 1 [1, 2, 3, 4]).chan 0 1).tx.length ∧
      TaskReady (.masterWrite 0 1) { sm with master := some (.writeWait 0) } ∧
      TaskReady (.masterWrite 1 1) sm ∧
      (sm.chan 1 1).owner = .none := by
  unfold TaskReady Ready
  decide +kernel

theorem witness_MasterCallsGoOn :
    sm.halted = false ∧
      sm.ctx = .task ∧
      (calling (.readPop 0) (withRx sm 0 [0x3C000000])).master = some (.readPop 0) ∧
      ((withRx sm 0 [0x3C000000]).chan 0 0).rx = 0x3C000000 :: [] ∧
      (sm.chan 0 0).rx = [] ∧
      (calling (.readReturn 0 0x3C000000) sm).master = some (.readReturn 0 0x3C000000) ∧
      (sm.chan 0 0).owner ≠ .none ∧
      (calling (.writePush 0 0x3C) sm).master = some (.writePush 0 0x3C) ∧
      (sm.chan 0 1).tx.length < capTx sm.par (sm.chan 0 1) ∧
      (calling (.writeWait 0) sm).master = some (.writeWait 0) ∧
      (sm.chan 0 1).owner ≠ .none ∧
      (sm.chan 0 1).pc = entryState (sm.chan 0 1).cfg.template ∧
      (sm.chan 0 1).tx = [] ∧
      (pushing.chan 0 1).pc ≠ entryState (pushing.chan 0 1).cfg.template ∧
      ((withTx sm 1 [1]).chan 0 1).tx ≠ [] ∧
      capTx sm.par ((withTx sm 1 [1, 2, 3, 4]).chan 0 1) ≤ ((withTx sm 1 [1, 2, 3, 4]).chan 0 1).tx.length ∧
      (calling (.readReturn 1 0) sm).master = some (.readReturn 1 0) ∧
      (sm.chan 1 0).owner = .none ∧
      (calling (.writePush 1 0) sm).master = some (.writePush 1 0) ∧
      (calling (.writeWait 1) sm).master = some (.writeWait 1) ∧
      (sm.chan 1 1).owner = .none := by
  decide +kernel

theorem witness_InitStarts :
    TaskReady .periphInit (fresh .peripheral) ∧
      (fresh .peripheral).initPeripheral = .uninit ∧
      (fresh .peripheral).boot = none ∧
      TaskReady .periphInit sp ∧
      sp.initPeripheral = .done ∧
      TaskReady .masterInit (fresh .master) ∧
      (fresh .master).initMaster = .uninit ∧
      (fresh .master).boot = none ∧
      TaskReady .masterInit sm ∧
      sm.initMaster = .done ∧
      (fresh .peripheral).schedule = [] ∧
      (fresh .master).schedule = [] ∧
      (fresh .peripheral).par.role = .peripheral ∧
      (fresh .master).par.role = .master := by
  unfold TaskReady Ready
  decide +kernel

/-- P4: a memory of four words, all used by the first program. -/
theorem witness_InitSequence :
    crowded.halted = false ∧
      crowded.ctx = .task ∧
      crowded.par.valid = true ∧
      crowded.boot = some ⟨.peripheral, 25⟩ ∧
      (BootOp.configure 0 1 Params.default.wrw).instr.wf crowded.par = true ∧
      (bootProgram crowded.par .peripheral)[25]? = some (.configure 0 1 Params.default.wrw) ∧
      decodeDescriptor Params.default.wrw = some (cfgOf Params.default.wrw) ∧
      (crowded.chan 0 1).owner = .none ∧
      groupsLegal crowded.par (cfgOf Params.default.wrw) = true ∧
      templatePinsOk crowded.par (cfgOf Params.default.wrw) = true ∧
      ({ sp with boot := some ⟨.peripheral, 31⟩ } : State).boot = some ⟨.peripheral, 31⟩ ∧
      ({ sm with boot := some ⟨.master, 11⟩ } : State).boot = some ⟨.master, 11⟩ ∧
      1 ≤ sm.par.numBlocks ∧
      2 ≤ sm.par.numCh ∧
      (sm.chan 0 0).owner ≠ .none ∧
      (sm.chan 0 1).owner ≠ .none := by
  decide +kernel

/-- The four ways on: no space, the first operation, the last one, and one that is refused. -/
theorem witness_InitSequence_general :
    (∃ bnd, (after (BootOp.configure 0 1 Params.default.wrw).instr crowded).result = .binding bnd ∧ bnd.cfg.offset < 0) ∧
      (∃ bnd, (after (BootOp.configure 0 0 Params.default.rdw).instr (fresh .peripheral)).result = .binding bnd ∧
        0 ≤ bnd.cfg.offset) ∧
      (bootProgram sp.par .peripheral)[0]? = some (.setFuncSio 0) ∧
      Completed (after (BootOp.setFuncSio 0).instr (fresh .peripheral)).result ∧ 0 + 1 < (bootProgram sp.par .peripheral).length ∧
      (bootProgram sp.par .peripheral)[31]? = some .globalOn ∧ Completed (after BootOp.globalOn.instr sp).result ∧
      31 + 1 = (bootProgram sp.par .peripheral).length ∧
      (bootProgram sp.par .peripheral)[27]? = some (.register 0 .read) ∧
      ¬ Completed (after (BootOp.register 0 .read).instr sp).result :=
  ⟨⟨_, (by decide +kernel : (after (BootOp.configure 0 1 Params.default.wrw).instr crowded).result
      = .binding ⟨0, 1, cfgOf Params.default.wrw⟩), by decide +kernel⟩,
    ⟨_, (by decide +kernel : (after (BootOp.configure 0 0 Params.default.rdw).instr (fresh .peripheral)).result
      = .binding ⟨0, 0, { cfgOf Params.default.rdw with offset := 0 }⟩), by decide +kernel⟩,
    rfl, completed_none (by decide +kernel), by decide, rfl, completed_none (by decide +kernel), rfl, rfl,
    fun h => h.2.2 .doubleRegister (by decide +kernel)⟩

theorem witness_InitSequence_full :
    ∀ o, o + crowded.par.len (cfgOf Params.default.wrw).template ≤ crowded.par.imemWords →
      ∃ j, j < crowded.par.len (cfgOf Params.default.wrw).template ∧ (crowded.blk 0).tag (o + j) ≠ .free := by
  intro o h
  have h' : o + 4 ≤ 4 := h
  have h0 : o = 0 := by omega
  subst h0
  exact ⟨0, by decide +kernel, by decide +kernel⟩

theorem witness_HaltedHolds :
    ({ sp with halted := true } : State).halted = true ∧
      performer (.enable 0 1) = .processor ∧
      (Instr.enable 0 1).wf sp.par = true ∧
      sp.boot = none := by
  decide +kernel

theorem witness_RecordsForever :
    ∃ t, step (sp.withFetchWord 32 0x02010007) = .next t ∧ (sp.withFetchWord 32 0x02010007).schedule ≠ [] ∧
      t.result = .refused .illegalOperation := ⟨_, rfl, by decide +kernel, by decide +kernel⟩

theorem witness_RecordsForever_kept :
    ∃ t, step { sp with faults := [.enableInvalid 0 3], refused := true } = .next t := ⟨_, rfl⟩

theorem witness_FlagsWrittenBy :
    (∃ t, exec (.rdwFire 0 0) (reading sp) = .next t ∧ (sp.blk 0).flag 4 = false ∧ (t.blk 0).flag 4 = true) ∧
      (∃ t, exec (.irqClear 0 0x10) stalled = .next t ∧ (stalled.blk 0).flag 4 = true ∧ (t.blk 0).flag 4 = false) ∧
      (∃ t, resume .boot forcing = .next t ∧ (forcing.blk 0).flag 0 = false ∧ (t.blk 0).flag 0 = true) ∧
      ∃ t, resume .consumer serving = .next t ∧ (serving.blk 0).flag 4 = true ∧ (t.blk 0).flag 4 = false :=
  ⟨⟨after (.rdwFire 0 0) (reading sp), rfl, by decide +kernel⟩, ⟨after (.irqClear 0 0x10) stalled, rfl, by decide +kernel⟩,
    ⟨goOn .boot forcing, rfl, by decide +kernel⟩, ⟨goOn .consumer serving, rfl, by decide +kernel⟩⟩

theorem witness_EnabledWrittenBy :
    (∃ t, exec (.enable 0 1) perCold = .next t ∧ (perCold.chan 0 0).enabled = false ∧ (t.chan 0 0).enabled = true) ∧
      (∃ t, exec (.disable 0 1) sp = .next t ∧ (sp.chan 0 0).enabled = true ∧ (t.chan 0 0).enabled = false) ∧
      ∃ t, resume .boot starting = .next t ∧ (t.chan 0 0).enabled ≠ (starting.chan 0 0).enabled :=
  ⟨⟨after (.enable 0 1) perCold, rfl, by decide +kernel⟩, ⟨after (.disable 0 1) sp, rfl, by decide +kernel⟩,
    ⟨goOn .boot starting, rfl, by decide +kernel⟩⟩

theorem witness_EnforcersFollow :
    ∃ t, exec (.irqForce 0 0x10) sp = .next t ∧ t.result = .none ∧ flagBlock (.irqForce 0 0x10) = some 0 ∧
      (sp.chan 0 2).enabled = true ∧ (sp.chan 0 2).owner ≠ .none ∧ (sp.chan 0 2).cfg.template = .waite ∧
      (sp.chan 0 2).pc = .idle ∧ (t.chan 0 2).pc ≠ (sp.chan 0 2).pc := ⟨after (.irqForce 0 0x10) sp, rfl, by decide +kernel⟩

/-- An enforcer enabled while the hold flag is set (R214), beside one that holds. -/
theorem witness_EnforcersFollow_enable :
    ∃ t, exec (.enable 0 8) twoEnforcers = .next t ∧ t.result = .none ∧ (8 : Half).getLsbD 3 = true ∧
      (twoEnforcers.chan 0 3).cfg.template = .waite ∧ (twoEnforcers.chan 0 3).owner ≠ .none ∧
      (twoEnforcers.chan 0 3).pc = .idle ∧ (t.chan 0 3).pc ≠ (twoEnforcers.chan 0 3).pc ∧
      (twoEnforcers.chan 0 2).enabled = true ∧ (twoEnforcers.chan 0 2).pc = .holding := ⟨after (.enable 0 8) twoEnforcers, rfl, by decide +kernel⟩

theorem witness_EnforcersFollow_resume :
    (∃ t, resume .consumer serving = .next t ∧ t.result = .running ∧ serving.consumer = some ⟨0, .readRelease, 0⟩ ∧
        (serving.chan 0 2).enabled = true ∧ (serving.chan 0 2).owner ≠ .none ∧
        (serving.chan 0 2).cfg.template = .waite ∧ (serving.chan 0 2).pc = .holding ∧ (t.chan 0 2).pc = .idle) ∧
      (∃ t, resume .boot enforced = .next t ∧ t.result = .running ∧ enforced.boot = some ⟨.master, 10⟩ ∧
        (bootProgram enforced.par .master)[10]? = some (.force 0 1) ∧ (enforced.chan 0 2).enabled = true ∧
        (enforced.chan 0 2).owner ≠ .none ∧ (enforced.chan 0 2).cfg.template = .waite ∧ (enforced.chan 0 2).pc = .idle) ∧
      ∃ t, resume .boot starting = .next t ∧ t.result = .running ∧ starting.boot = some ⟨.peripheral, 30⟩ ∧
        (bootProgram starting.par .peripheral)[30]? = some (.enable 0 7) ∧ (7 : Half).getLsbD 2 = true ∧
        (starting.chan 0 2).cfg.template = .waite ∧ (starting.chan 0 2).owner ≠ .none ∧ (starting.chan 0 2).pc = .idle :=
  ⟨⟨goOn .consumer serving, rfl, by decide +kernel⟩, ⟨goOn .boot enforced, rfl, by decide +kernel⟩,
    ⟨goOn .boot starting, rfl, by decide +kernel⟩⟩

theorem witness_ReactionsPerformed :
    (∃ t, sp.par.valid = true ∧ sp.par.role = .peripheral ∧ exec (.gpioGet 9) (setPc sp 0 0 .fired) = .next t ∧
        t.result = .level true ∧ (t.chan 0 0).enabled = true ∧ (t.chan 0 0).owner ≠ .none ∧ (t.chan 0 0).cfg.template = .rdw ∧
        Steady t .modsel ∧ Steady t .rd ∧ condRd t .guard = false ∧ (t.chan 0 1).cfg.template = .wrw ∧ Steady t .wr ∧
        condWr t .guard = false) ∧
      (∃ t, exec .hostRdBegin (driveLine sp 0 .wait false) = .next t ∧ t.result = .none ∧ Steady t .wait ∧
        lineLevel t .guard .wait = false) ∧
      ∃ t, sm.par.valid = true ∧ sm.par.role = .master ∧ exec .perWrAck pushing = .next t ∧ t.result = .none ∧
        (t.chan 0 0).enabled = true ∧ (t.chan 0 0).owner ≠ .none ∧ (t.chan 0 0).cfg.template = .rcd ∧
        (t.chan 0 1).enabled = true ∧ (t.chan 0 1).owner ≠ .none ∧ (t.chan 0 1).cfg.template = .wcd ∧
        Steady t .wait ∧ lineLevel t .guard .wait = false ∧ Steady t .modsel ∧ Steady t .rd ∧ condRd t .guard = false := by
  unfold Steady
  exact ⟨⟨after (.gpioGet 9) (setPc sp 0 0 .fired), by decide +kernel, by decide +kernel, rfl, by decide +kernel⟩,
    ⟨after .hostRdBegin (driveLine sp 0 .wait false), rfl, by decide +kernel⟩,
    ⟨after .perWrAck pushing, by decide +kernel, by decide +kernel, rfl, by decide +kernel⟩⟩

theorem witness_ReactionsPerformed_latch :
    ∃ t, resume .consumer serving = .next t ∧ t.result = .running ∧ serving.par.role = .peripheral ∧
      Steady serving .wait ∧ lineLevel serving .guard .wait = false ∧ Steady t .wait ∧ lineLevel t .guard .wait = true ∧
      t.hostPc = .rdWaitRel ∧ Steady t (.data 7) := by
  unfold Steady
  exact ⟨goOn .consumer serving, rfl, by decide +kernel⟩

theorem witness_ReactionsPerformed_wr :
    ∃ t, exec (.rcdStrobe 0 0) (flagged sm 0) = .next t ∧ t.result = .none ∧ t.par.role = .master ∧ Steady t .modsel ∧
      Steady t .wr ∧ condWr t .guard = false := by
  unfold Steady
  exact ⟨after (.rcdStrobe 0 0) (flagged sm 0), rfl, by decide +kernel⟩

/-- A contended pin, and an overlap that stands at the end of a step that asserts no strobe. -/
theorem witness_ReactionsPerformed_faults :
    (∃ t, exec (.busSetDir true) (after (.hostWrBegin 0x7E) sp) = .next t ∧ t.result = .none ∧ 7 < sp.par.numGpio ∧
        (engineDrive t 7).isSome = true ∧ (envDrive t 7).isSome = true) ∧
      ∃ t, exec .perRdAck (after (.rcdStrobe 0 0) (flagged pushing 0)) = .next t ∧ t.result = .none ∧
        0 < sm.par.numBlocks ∧ (t.blk 0).out sm.par.pins.rd = false ∧ (t.blk 0).out sm.par.pins.wr = false ∧
        (t.blk 0).oe sm.par.pins.rd = true ∧ (t.blk 0).oe sm.par.pins.wr = true :=
  ⟨⟨after (.busSetDir true) (after (.hostWrBegin 0x7E) sp), rfl, by decide +kernel⟩,
    ⟨after .perRdAck (after (.rcdStrobe 0 0) (flagged pushing 0)), rfl, by decide +kernel⟩⟩

/-- The hypotheses of WordsUsedForever, MemoryInvKept, ChannelsInvKept, EnforcerInvKept and ProgramsInvKept, in one state
with an enabled enforcer that is about to release WAIT. -/
theorem witness_invariants :
    (tiny.ctx = .task ∧ ChannelsInv tiny) ∧ MemoryInv tiny ∧ EnforcerInv tiny ∧ ProgramsInv tiny ∧ (∃ t, step tiny = .next t) ∧
      (tiny.blk 0).tag 3 = .used 0 := by
  have hblk : ∀ b, tiny.blk (b + 1) = Block.reset := fun b => rfl
  have hch : ∀ c, tiny.chan 0 (c + 1) = Channel.reset := fun c => rfl
  have hch' : ∀ b c, tiny.chan (b + 1) c = Channel.reset := fun b c => rfl
  refine ⟨⟨rfl, fun b c => ?_⟩, fun b => ?_, fun b c => ?_, fun b c => ?_, ⟨_, rfl⟩, rfl⟩
  · match b, c with
    | 0, 0 => unfold ChannelLegal; decide +kernel
    | 0, c + 1 => rw [hch]; unfold ChannelLegal; decide +kernel
    | b + 1, c => rw [hch']; unfold ChannelLegal; decide +kernel
  · match b with
    | 0 => decide +kernel
    | b + 1 => rw [hblk]; rfl
  · match b, c with
    | 0, 0 => decide +kernel
    | 0, c + 1 => rw [hch]; intro h; cases h
    | b + 1, c => rw [hch']; intro h; cases h
  · match b, c with
    | 0, 0 => decide +kernel
    | 0, c + 1 => rw [hch]; intro h; exact absurd rfl h
    | b + 1, c => rw [hch']; intro h; exact absurd rfl h

theorem witness_ChannelsInvKept :
    (tiny.ctx = .task ∧ ChannelsInv tiny) ∧ ∃ t, step tiny = .next t := ⟨witness_invariants.1, witness_invariants.2.2.2.2.1⟩

theorem witness_MemoryInvKept :
    MemoryInv tiny ∧ ∃ t, step tiny = .next t := ⟨witness_invariants.2.1, witness_invariants.2.2.2.2.1⟩

theorem witness_EnforcerInvKept :
    ChannelsInv tiny ∧ EnforcerInv tiny ∧ ∃ t, step tiny = .next t :=
  ⟨witness_invariants.1.2, witness_invariants.2.2.1, witness_invariants.2.2.2.2.1⟩

theorem witness_ProgramsInvKept :
    ProgramsInv tiny ∧ ∃ t, step tiny = .next t := ⟨witness_invariants.2.2.2.1, witness_invariants.2.2.2.2.1⟩

theorem witness_WordsUsedForever :
    MemoryInv tiny ∧ (∃ t, step tiny = .next t) ∧ (tiny.blk 0).tag 3 = .used 0 :=
  ⟨witness_invariants.2.1, witness_invariants.2.2.2.2.1, witness_invariants.2.2.2.2.2⟩

theorem witness_ResetValues :
    29 < Params.default.numGpio ∧
      (Params.default.pins.d0 ≤ 7 ∧ 7 < Params.default.pins.d0 + 8) ∧
      (Params.default.pins.d0 + 8 ≤ 8) ∧
      (testPar .peripheral).role = .peripheral ∧
      (testPar .master).role = .master := by
  decide +kernel

end Sys2Proof.Tests
end

section
/-! The decoder inverted: words that decode are the encoding of the operation, and the step that runs it takes exactly
those words off the schedule (spec/30_encoding.md R80 to R83, R89 to R92; spec/00_scope.md R12). -/

namespace Sys2Proof

/-- A word's fields are determined by the word (30_encoding.md R80). -/
theorem opWord_inj {op op' : Byte} {b b' c c' : Nibble} {x x' : Half} :
    opWord op b c x = opWord op' b' c' x' ↔ op = op' ∧ b = b' ∧ c = c' ∧ x = x' := by
  constructor
  · intro h
    exact ⟨by simpa using congrArg opField h, by simpa using congrArg blockField h,
      by simpa using congrArg chanField h, by simpa using congrArg operandField h⟩
  · rintro ⟨rfl, rfl, rfl, rfl⟩; rfl

theorem halfOf_eq_iff {hi lo : Byte} {x : Half} : halfOf hi lo = x ↔ hi = highByte x ∧ lo = lowByte x := by
  constructor
  · rintro rfl; simp
  · rintro ⟨rfl, rfl⟩; exact halfOf_bytes x

/-- The words `ws` are those of the operation `i`, with `rest` after them. -/
def Reads (par : Params) (ws : List Word) (i : Instr) (rest : List Word) : Prop :=
  encode i ++ rest = ws ∧ i.encodable par = true

/-- What the decoder accepts is read from words that are the operation's own when the unused fields are 0. -/
theorem reads_of_accept {par : Params} {ok : Bool} {i j : Instr} {ws rest rest' : List Word}
    (h : accept ok j rest' = .ok (i, rest)) (hj : ok = true → Reads par ws j rest') : Reads par ws i rest := by
  obtain ⟨hok, rfl, rfl⟩ := accept_ok.mp h
  exact hj hok

/-- The same for an operation with a one-bit field, which stands in the byte `y`. -/
theorem reads_of_acceptBit {par : Params} {ok : Bool} {y : Byte} {f : Bool → Instr} {i : Instr}
    {ws rest rest' : List Word} (h : acceptBit ok y f rest' = .ok (i, rest))
    (hf : ∀ v, byteOfBit v = y → ok = true → Reads par ws (f v) rest') : Reads par ws i rest := by
  obtain ⟨v, hv, hok, rfl, rfl⟩ := acceptBit_ok.mp h
  exact hf v (byteOfBit_of_bitOf hv) hok

/-- The split follows the opcode table (30_encoding.md R89): CONFIGURE (arm 1) and TX_PUSH (arm 4) read argument words;
IRQ_GLOBAL, GPIO_SET_DIR, GPIO_PUT, BUS_SET_DIR, POST and REGISTER (arms 10 to 44) have a one-bit field; the last arm is
the reserved opcodes; every other operation is one accepted word. -/
theorem reads_of_decodeFields {par : Params} {op : Byte} {b c : Nibble} {x : Half} {ws rest : List Word} {i : Instr}
    (h : decodeFields par op b c x ws = .ok (i, rest)) : Reads par (opWord op b c x :: ws) i rest := by
  rw [← (BitVec.ofNat_toNat 8 op).trans (BitVec.setWidth_eq op)]
  unfold decodeFields at h
  generalize op.toNat = n at h ⊢
  split at h
  case h_1 =>
    split at h
    · exact reads_of_accept h (by simp +contextual [Reads, encode, Instr.encodable])
    · split at h <;> cases h
  case h_4 =>
    split at h
    · exact reads_of_accept h (by simp +contextual [Reads, encode, Instr.encodable])
    · split at h <;> cases h
  case h_10 | h_12 | h_13 | h_16 | h_43 | h_44 =>
    exact reads_of_acceptBit h
      (by simp +contextual [Reads, encode, Instr.encodable, opWord_inj, halfOf_eq_iff])
  case h_54 => cases h
  all_goals
    exact reads_of_accept h
      (by simp +contextual [Reads, encode, Instr.encodable, opWord_inj, halfOf_eq_iff, pull_byte])

/-- Words that decode are the encoding of the operation they decode to, and the words after it (30_encoding.md R92). -/
theorem reads_of_decode {par : Params} {ws rest : List Word} {i : Instr} (h : decode par ws = .ok (i, rest)) :
    Reads par ws i rest := by
  cases ws with
  | nil => cases h
  | cons w ws =>
    rw [← opWord_fields w] at h ⊢
    rw [decode_opWord] at h
    exact reads_of_decodeFields h

/-- Every operation has as many words as its first word's opcode asks for (30_encoding.md R81). -/
theorem fitsWords : ∀ i, Laws.FitsWords.Statement i
  | .configure b c d => Laws.FitsWords.configure b c d
  | .enable b m => Laws.FitsWords.enable b m
  | .disable b m => Laws.FitsWords.disable b m
  | .txPush b c w => Laws.FitsWords.txPush b c w
  | .rxPop b c => Laws.FitsWords.rxPop b c
  | .irqClear b m => Laws.FitsWords.irqClear b m
  | .irqRead b => Laws.FitsWords.irqRead b
  | .irqForce b m => Laws.FitsWords.irqForce b m
  | .irqInte b m => Laws.FitsWords.irqInte b m
  | .irqGlobal v => Laws.FitsWords.irqGlobal v
  | .gpioSetFunc p f => Laws.FitsWords.gpioSetFunc p f
  | .gpioSetDir p oe => Laws.FitsWords.gpioSetDir p oe
  | .gpioPut p v => Laws.FitsWords.gpioPut p v
  | .gpioGet p => Laws.FitsWords.gpioGet p
  | .gpioSetPull p pull => Laws.FitsWords.gpioSetPull p pull
  | .busSetDir oe => Laws.FitsWords.busSetDir oe
  | .busPut v => Laws.FitsWords.busPut v
  | .busGet => Laws.FitsWords.busGet
  | .chWaitIdle b c => Laws.FitsWords.chWaitIdle b c
  | .rdwFire b c => Laws.FitsWords.rdwFire b c
  | .rdwRearm b c => Laws.FitsWords.rdwRearm b c
  | .wrwFire b c => Laws.FitsWords.wrwFire b c
  | .wrwRearm b c => Laws.FitsWords.wrwRearm b c
  | .waiteAssert b c => Laws.FitsWords.waiteAssert b c
  | .waiteRelease b c => Laws.FitsWords.waiteRelease b c
  | .rcdStrobe b c => Laws.FitsWords.rcdStrobe b c
  | .rcdSeewait b c => Laws.FitsWords.rcdSeewait b c
  | .rcdSample b c => Laws.FitsWords.rcdSample b c
  | .wcdStart b c => Laws.FitsWords.wcdStart b c
  | .wcdSeewait b c => Laws.FitsWords.wcdSeewait b c
  | .wcdFinish b c => Laws.FitsWords.wcdFinish b c
  | .hostRdBegin => Laws.FitsWords.hostRdBegin
  | .hostSeeWait => Laws.FitsWords.hostSeeWait
  | .hostRdEnd => Laws.FitsWords.hostRdEnd
  | .hostWrBegin v => Laws.FitsWords.hostWrBegin v
  | .hostWrEnd => Laws.FitsWords.hostWrEnd
  | .perRdAck => Laws.FitsWords.perRdAck
  | .perRdReady => Laws.FitsWords.perRdReady
  | .perRdDone => Laws.FitsWords.perRdDone
  | .perWrAck => Laws.FitsWords.perWrAck
  | .perWrLatch => Laws.FitsWords.perWrLatch
  | .perWrDone => Laws.FitsWords.perWrDone
  | .post k => Laws.FitsWords.post k
  | .register b k => Laws.FitsWords.register b k
  | .isrRd b => Laws.FitsWords.isrRd b
  | .isrWr b => Laws.FitsWords.isrWr b
  | .serviceRead b => Laws.FitsWords.serviceRead b
  | .serviceWrite b => Laws.FitsWords.serviceWrite b
  | .masterRead b => Laws.FitsWords.masterRead b
  | .masterWrite b v => Laws.FitsWords.masterWrite b v
  | .periphInit => Laws.FitsWords.periphInit
  | .masterInit => Laws.FitsWords.masterInit
  | .dispatch => Laws.FitsWords.dispatch

end Sys2Proof

namespace Sys2Proof.Machine

/-- Words that the head of a schedule begins with are its first turns. -/
theorem schedule_of_headWords {ws rest : List Word} {ts : List Turn} (h : ws ++ rest = headWords ts) :
    ∃ ts', ts = ws.map Turn.word ++ ts' := by
  induction ws generalizing ts with
  | nil => exact ⟨ts, rfl⟩
  | cons w ws ih =>
    match ts, h with
    | .word v :: ts, h =>
      obtain ⟨rfl, htail⟩ := List.cons.inj h
      obtain ⟨ts', rfl⟩ := ih htail
      exact ⟨ts', rfl⟩

/-- Dropping as many words as stand at the head of a schedule leaves the turns after them. -/
theorem dropWords_length (ws : List Word) (ts : List Turn) :
    dropWords ws.length (ws.map Turn.word ++ ts) = ts := by
  induction ws with
  | nil => rfl
  | cons w ws ih => exact ih

/-- The words of the operation that the schedule's head decodes to are the first turns of the schedule. -/
theorem schedule_of_fetch {s : State} {i : Instr} (h : fetch s = .ok i) :
    ∃ rest, s.schedule = (encode i).map Turn.word ++ rest := by
  unfold fetch at h
  cases hd : decode s.par (headWords s.schedule) with
  | error e => rw [hd] at h; cases h
  | ok p =>
    rw [hd] at h
    obtain rfl : p.1 = i := Except.ok.inj h
    exact schedule_of_headWords (reads_of_decode hd).1

/-- Fetching an operation takes exactly its words off the schedule. -/
theorem afterFetch_encode {s : State} {w : Word} {ts rest : List Turn} {i : Instr} (hw : s.schedule = .word w :: ts)
    (hi : s.schedule = (encode i).map Turn.word ++ rest) : afterFetch s w = { s with schedule := rest } := by
  obtain ⟨v, vs, henc, hlen⟩ := fitsWords i
  obtain rfl : v = w := by
    rw [hw, henc] at hi
    exact (Turn.word.inj (List.cons.inj hi).1).symm
  rw [afterFetch, hi, ← hlen, dropWords_length]

/-- The step of a schedule whose head decodes. -/
theorem step_of_fetch {s : State} {w : Word} {ts : List Turn} {i : Instr} (hw : s.schedule = .word w :: ts)
    (hi : fetch s = .ok i) : step s = exec i (afterFetch s w) := by
  simp only [step, hw, hi]

/-- Settles O4: the decoder inverted gives the operation's words at the head of the schedule, and the word count of the
first of them is their number. -/
theorem stepRunsDecoded : Obligations.StepRunsDecoded := by
  intro s w ts i hw hi
  obtain ⟨rest, hrest⟩ := schedule_of_fetch hi
  exact ⟨rest, hrest, by rw [step_of_fetch hw hi, afterFetch_encode hw hrest]⟩

end Sys2Proof.Machine
end

section
/-! Legal channels: each own write of a step keeps a channel legal (10_state.md R21, R24, R25, R30), and so do the reactions at
its end, which move a template state only (44_peripheral_fsm.md R208, R211; 45_master_fsm.md R246). -/

namespace Sys2Proof.Machine

/-! ### Legal channels -/

/-- What a legal channel's counts are (10_state.md R24). -/
theorem ChannelLegal.counts {par : Params} {ch : Channel} (h : ChannelLegal par ch) :
    ch.isrCount ≤ 32 ∧ ch.osrCount ≤ 32 := ⟨h.1, h.2.1⟩

/-- An owned legal channel is in a state of its template, its FIFOs within their capacities (10_state.md R25, R30). -/
theorem ChannelLegal.owned {par : Params} {ch : Channel} (h : ChannelLegal par ch) (ho : ch.owner ≠ .none) :
    ch.pc.of ch.cfg.template = true ∧ ch.rx.length ≤ capRx par ch ∧ ch.tx.length ≤ capTx par ch := by
  obtain ⟨-, -, -, hown⟩ := h
  obtain ⟨-, hpc, -, -, -, -, hrx, htx, -⟩ := hown ho
  exact ⟨hpc, hrx, htx⟩

/-- An owned channel whose owner and binding stay is legal after a change that keeps its counts, its FIFOs and its template
state within their bounds. -/
theorem ChannelLegal.update {par : Params} {ch ch' : Channel} (h : ChannelLegal par ch) (ho : ch.owner ≠ .none)
    (hown : ch'.owner = ch.owner) (hcfg : ch'.cfg = ch.cfg) (hisr : ch'.isrCount ≤ 32) (hosr : ch'.osrCount ≤ 32)
    (hpc : ch'.pc.of ch.cfg.template = true) (hrx : ch'.rx.length ≤ capRx par ch)
    (htx : ch'.tx.length ≤ capTx par ch) : ChannelLegal par ch' := by
  obtain ⟨-, -, -, howned⟩ := h
  obtain ⟨hrole, -, hi1, hi2, ho1, ho2, -, -, hbinding⟩ := howned ho
  refine ⟨hisr, hosr, fun hn => absurd (hown.symm.trans hn) ho, fun _ => ?_⟩
  unfold capRx capTx at *
  rw [hown, hcfg]
  exact ⟨hrole, hpc, hi1, hi2, ho1, ho2, hrx, htx, hbinding⟩

/-- An owned legal channel is legal at every state of its template. -/
theorem ChannelLegal.setPc {par : Params} {ch : Channel} (h : ChannelLegal par ch) (ho : ch.owner ≠ .none) {p : TState}
    (hp : p.of ch.cfg.template = true) : ChannelLegal par { ch with pc := p } :=
  h.update ho rfl rfl h.counts.1 h.counts.2 hp (h.owned ho).2.1 (h.owned ho).2.2

/-! ### The own writes -/

/-- What CONFIGURE leaves is legal where the descriptor decodes, its groups are legal and its program fits
(41_configurator.md R101, R107). -/
theorem configuredChannel_legal {par : Params} {w : DescWords} {d : ChanCfg} {o : Nat} (hd : decodeDescriptor w = some d)
    (hg : groupsLegal par d = true) (hp : templatePinsOk par d = true) (ho : o + par.len d.template ≤ par.imemWords) :
    ChannelLegal par (configuredChannel par.role { d with offset := o }) := by
  obtain ⟨-, hin1, hin2, hout1, hout2⟩ := decodeDescriptor_spec hd
  have howner : (configuredChannel par.role { d with offset := o }).owner ≠ .none := by
    cases hr : par.role <;> simp [configuredChannel, ownerOf]
  have hentry : (entryState d.template).of d.template = true := by cases d.template <;> rfl
  have hfit : (o : Int) + (par.len d.template : Int) ≤ (par.imemWords : Int) := by exact_mod_cast ho
  exact ⟨Nat.zero_le _, le_refl 32, fun hn => absurd hn howner, fun _ => ⟨rfl, hentry, hin1, hin2, hout1, hout2,
    Nat.zero_le _, Nat.zero_le _, Int.natCast_nonneg o, hfit, hg, hp⟩⟩

/-- Whether a sample pushes does not depend on the bits sampled (43_fifo_irq.md R171). -/
theorem pushDue_shiftIn (ch : Channel) (v : Word) (n : Nat) : pushDue (shiftIn ch v n) = pushDue (shiftIn ch 0 n) := rfl

/-- A sample keeps the input count at 32 or below (43_fifo_irq.md R170, R171). -/
theorem sampleIn_isrCount_le (ch : Channel) (v : Word) (n : Nat) : (sampleIn ch v n).isrCount ≤ 32 := by
  unfold sampleIn
  dsimp only
  split
  · exact Nat.zero_le _
  · exact Nat.min_le_left ..

/-- A sample that fits leaves RX within its capacity (43_fifo_irq.md R171). -/
theorem sampleIn_rx_le {par : Params} {ch : Channel} {n : Nat} (v : Word) (hfits : sampleFits par ch n = true)
    (hrx : ch.rx.length ≤ capRx par ch) : (sampleIn ch v n).rx.length ≤ capRx par ch := by
  unfold sampleIn
  dsimp only
  rw [pushDue_shiftIn]
  split
  · next hdue =>
    rw [sampleFits, hdue] at hfits
    have hroom : ch.rx.length < capRx par ch := by simpa using hfits
    simpa [pushIsr, shiftIn] using hroom
  · exact hrx

/-- **Every own write keeps a channel legal.** -/
theorem ChannelStep.keeps_legal {par : Params} {hold : Bool} {ch ch' : Channel} (hstep : ChannelStep par hold ch ch')
    (h : ChannelLegal par ch) : ChannelLegal par ch' := by
  obtain ⟨hisr, hosr⟩ := h.counts
  cases hstep with
  | same => exact h
  | configure w d o hd _ hg hp ho => exact configuredChannel_legal hd hg hp ho
  | enable ho =>
    obtain ⟨hpc, hrx, htx⟩ := h.owned ho
    exact h.update ho rfl rfl hisr hosr hpc hrx htx
  | disable =>
    obtain ⟨-, -, hfree, howned⟩ := h
    exact ⟨hisr, hosr, fun hn => ⟨rfl, (hfree hn).2⟩, howned⟩
  | push w ho hroom =>
    obtain ⟨hpc, hrx, -⟩ := h.owned ho
    exact h.update ho rfl rfl hisr hosr hpc hrx (by simpa using hroom)
  | pop w ws hw =>
    have ho : ch.owner ≠ .none := by
      obtain ⟨-, -, hfree, -⟩ := h
      intro hn
      rw [(hfree hn).2.1] at hw
      cases hw
    obtain ⟨hpc, hrx, htx⟩ := h.owned ho
    rw [hw, List.length_cons] at hrx
    exact h.update ho rfl rfl hisr hosr hpc (Nat.le_of_succ_le hrx) htx
  | move p ho _ _ hp => exact h.setPc ho hp
  | sample v ho _ ht hfits =>
    obtain ⟨-, hown, hcfg, htx', hosr'⟩ := sampleIn_fields ch v 8
    obtain ⟨-, hrx, htx⟩ := h.owned ho
    exact h.update ho hown hcfg (sampleIn_isrCount_le ch v 8) (hosr'.trans_le hosr) (by rw [ht]; rfl)
      (sampleIn_rx_le v hfits hrx) (by simpa [htx'] using htx)
  | take w ws p ho _ ht hw hp =>
    obtain ⟨-, hrx, htx⟩ := h.owned ho
    rw [hw, List.length_cons] at htx
    exact h.update ho rfl rfl hisr (Nat.min_le_left ..) (by rw [ht]; exact hp) hrx (Nat.le_of_succ_le htx)
  | enforce ho _ ht _ => exact h.setPc ho (by rw [ht]; cases hold <;> rfl)

/-! ### The reactions -/

/-- A reaction moves a channel to a state of its template. -/
theorem PcReacts.of_template {t : State} {wrote : Option Nat} {b : Nat} {ch : Channel} {p p' : TState}
    (h : PcReacts t wrote b ch p p') (hp : p.of ch.cfg.template = true) : p'.of ch.cfg.template = true := by
  rcases h with rfl | ⟨-, -, ⟨-, ht, -, -, rfl⟩ | ⟨-, ht, -, -, rfl⟩ | ⟨-, ht, -, -, rfl⟩ | ⟨-, ht, -, -, rfl⟩ |
    ⟨-, ht, ⟨-, rfl, -⟩ | ⟨-, rfl, -⟩⟩⟩
  · exact hp
  all_goals rw [ht]; rfl

/-- A reaction keeps a channel legal. -/
theorem ChannelReacts.keeps_legal {par : Params} {t : State} {wrote : Option Nat} {b : Nat} {ch ch' : Channel}
    (h : ChannelReacts t wrote b ch ch') (hl : ChannelLegal par ch) : ChannelLegal par ch' := by
  obtain ⟨hpc, hfields⟩ := h
  by_cases ho : ch.owner = .none
  · have hsame : ch'.pc = ch.pc := by
      rcases hpc with heq | ⟨-, hn, -⟩
      · exact heq
      · exact absurd ho hn
    rw [hfields, hsame]
    exact hl
  · rw [hfields]
    exact hl.setPc ho (hpc.of_template (hl.owned ho).1)

/-- The own writes of a step keep the channels legal. -/
theorem Wrote.keeps_channelsInv {s u : State} {wrote : Option Nat} (hw : Wrote s u wrote) (h : ChannelsInv s) :
    ChannelsInv u := fun b c => hw.par ▸ (hw.chan b c).keeps_legal (h b c)

/-- The end of a step keeps the channels legal. -/
theorem settle_keeps_channelsInv (i : Instr) (s u : State) (wrote : Option Nat) (h : ChannelsInv u) :
    ChannelsInv (settle i s u wrote) := fun b c => by
  rw [settle_par]
  exact ChannelReacts.keeps_legal (settle_kept i s u wrote (.chan b c)) (h b c)

/-- Settles O56: `step_keeps` reduces it to the own writes, which a legal channel survives one by one, and to the end of a
step. An interrupt is taken and returned from within the step of its handler, so that every step's own writes leave the
context. -/
theorem channelsInvKept : Obligations.ChannelsInvKept := by
  intro s t hs h
  have hown : ∀ {s u : State} {wrote : Option Nat}, s.ctx = .task ∧ ChannelsInv s → Wrote s u wrote →
      u.ctx = .task ∧ ChannelsInv u := fun hs hw => ⟨hw.ctx.trans hs.1, hw.keeps_channelsInv hs.2⟩
  exact step_keeps (fun s => s.ctx = .task ∧ ChannelsInv s) (fun _ u => u.ctx = .task ∧ ChannelsInv u)
    (fun _ _ _ _ _ _ _ _ _ hs => hs)
    (fun i s u wrote hu => ⟨(settle_ctx i s u wrote).trans hu.1, settle_keeps_channelsInv i s u wrote hu.2⟩)
    (fun _ _ _ _ _ hs he => hown hs (wrote_of_effect he))
    (fun _ _ _ _ _ hs he => hown hs (wrote_of_resume he)) hs h

end Sys2Proof.Machine
end

section
/-! What every operation and every resumed step does to the records of faults and refusals (10_state.md R37) and to the channels'
enabling (R26): said once of the effects, one lemma for each shared operation, and then of the steps. -/

namespace Sys2Proof.Machine

/-! ### Own writes that keep the records -/

/-- Own writes from `s` to `u` that remove no fault record, leave `refused`, and switch a channel only to a level that `may`
allows. -/
structure Acts (may : Nat → Nat → Bool → Prop) (s u : State) : Prop where
  faults : ∀ f ∈ s.faults, f ∈ u.faults
  refused : u.refused = s.refused
  enabled : ∀ b c, (u.chan b c).enabled = (s.chan b c).enabled ∨ may b c (u.chan b c).enabled

/-- An effect that is done makes such own writes and does not return a refusal. -/
def Effect.acts (may : Nat → Nat → Bool → Prop) (s : State) : Effect → Prop
  | .done u r _ => Acts may s u ∧ ∀ x, r ≠ .refused x
  | .hold => True
  | .refuse _ => True
  | .raise _ => True

section

variable {may : Nat → Nat → Bool → Prop} {s t : State}

theorem Acts.refl (may : Nat → Nat → Bool → Prop) (s : State) : Acts may s s := ⟨fun _ => id, rfl, fun _ _ => .inl rfl⟩

/-- Writes outside the blocks and the records. -/
theorem Acts.fields {v : State} (h : Acts may s t) (hb : v.blks = t.blks) (hf : v.faults = t.faults)
    (hr : v.refused = t.refused) : Acts may s v := by
  have hc : ∀ b c, v.chan b c = t.chan b c := fun b c => by simp only [State.chan, State.blk, hb]
  exact ⟨fun f hm => hf ▸ h.faults f hm, hr.trans h.refused, fun b c => by rw [hc]; exact h.enabled b c⟩

/-- A write to a block that leaves its channels. -/
theorem Acts.modBlk {b : Nat} {f : Block → Block} (h : Acts may s t)
    (hf : ∀ k, (f k).chs = k.chs := by exact fun _ => rfl) :
    Acts may s (t.modBlk b f) :=
  ⟨h.faults, h.refused, fun b' c' => by rw [chan_modBlk_field t b hf]; exact h.enabled b' c'⟩

/-- A write to a channel that leaves its enabling. -/
theorem Acts.modChan {b c : Nat} {f : Channel → Channel} (h : Acts may s t)
    (hf : ∀ ch, (f ch).enabled = ch.enabled := by exact fun _ => rfl) :
    Acts may s (t.modChan b c f) := by
  refine ⟨h.faults, h.refused, fun b' c' => ?_⟩
  rw [state_chan_modChan]
  split
  · next hbc => obtain ⟨rfl, rfl⟩ := hbc; rw [hf]; exact h.enabled b' c'
  · exact h.enabled b' c'

theorem Acts.setPc {b c : Nat} {p : TState} (h : Acts may s t) : Acts may s (setPc t b c p) := h.modChan

theorem Acts.driveLine {b : Nat} {X : Line} {v : Bool} (h : Acts may s t) : Acts may s (driveLine t b X v) :=
  h.modBlk

/-! ### The wrappers -/

theorem acts_done {u : State} {r : Result} {wrote : Option Nat} (h : Acts may s u) (hr : ∀ x, r ≠ .refused x) :
    (Effect.done u r wrote).acts may s := ⟨h, hr⟩

/-- Own writes outside the blocks and the records. -/
theorem acts_keep {u : State} {r : Result} {wrote : Option Nat} (hb : u.blks = s.blks) (hf : u.faults = s.faults)
    (hd : u.refused = s.refused) (hr : ∀ x, r ≠ .refused x) : (Effect.done u r wrote).acts may s :=
  acts_done ((Acts.refl may s).fields hb hf hd) hr

theorem acts_ite {p : Prop} [Decidable p] {e e' : Effect} (h : e.acts may s) (h' : e'.acts may s) :
    (if p then e else e').acts may s := by
  split
  · exact h
  · exact h'

theorem acts_guarded {g : Bool} {e : Effect} (h : e.acts may s) : (guarded g e).acts may s := acts_ite h trivial

theorem acts_onPin {p : Nat} {e : Effect} (h : e.acts may s) : (onPin t p e).acts may s := acts_ite h trivial

theorem acts_blockingOp {e : Effect} (h : e.acts may s) : (blockingOp s e).acts may s := acts_ite h trivial

theorem acts_masterCall {e : Effect} (h : e.acts may s) : (masterCall s e).acts may s :=
  acts_ite trivial (acts_ite trivial h)

theorem acts_ifProcessor {i : Instr} {e : Effect} (h : e.acts may s) : (ifProcessor i s e).acts may s :=
  acts_ite trivial (acts_ite trivial h)

theorem acts_ifTask {i : Instr} {e : Effect} (h : e.acts may s) : (ifTask i s e).acts may s :=
  acts_ifProcessor (acts_ite h trivial)

theorem acts_ifChannel {i : Instr} {k : Template} {b c : Nat} {e : Effect} (h : e.acts may s) :
    (ifChannel i k b c s e).acts may s := acts_ite trivial (acts_ite trivial h)

theorem acts_ifRole {r : Role} {e : Effect} (h : e.acts may s) : (ifRole r s e).acts may s := acts_ite h trivial

/-- Going on in a sequence writes only the place in it. -/
structure GoesOn (f : State → Result → State × Result) : Prop where
  blks : ∀ t r, (f t r).1.blks = t.blks
  faults : ∀ t r, (f t r).1.faults = t.faults
  refused : ∀ t r, (f t r).1.refused = t.refused
  result : ∀ t r, (∀ x, r ≠ .refused x) → ∀ x, (f t r).2 ≠ .refused x

theorem acts_andThen {e : Effect} {f : State → Result → State × Result} (h : e.acts may s) (hf : GoesOn f) :
    (e.andThen f).acts may s := by
  cases e with
  | done t r wrote =>
    obtain ⟨ha, hr⟩ := h
    exact acts_done (ha.fields (hf.blks t r) (hf.faults t r) (hf.refused t r)) (hf.result t r hr)
  | hold => trivial
  | refuse r => trivial
  | raise g => trivial

/-! ### The configurator (10_state.md R26) -/

/-- CONFIGURE may disable the channel it names. -/
theorem acts_configure {b c : Nat} (d : DescWords) (h : may b c false) : (effConfigure b c d s).acts may s := by
  unfold effConfigure
  split
  · trivial
  refine acts_ite trivial (acts_ite trivial (acts_ite trivial ?_))
  split
  · refine acts_done ⟨fun _ => id, rfl, fun b' c' => ?_⟩ nofun
    rw [disableChannel, state_chan_modChan]
    split
    · next hbc => obtain ⟨rfl, rfl⟩ := hbc; exact .inr h
    · exact .inl rfl
  · refine acts_done ⟨fun _ => id, rfl, fun b' c' => ?_⟩ nofun
    rw [chan_configureAt]
    split
    · next hbc => obtain ⟨rfl, rfl⟩ := hbc; exact .inr h
    · exact .inl rfl

/-- Writing `enabled` of the channels of a mask switches those channels only. -/
theorem acts_switch {b : Nat} {m : Half} {v : Bool} (h : ∀ c, m.getLsbD c = true → may b c v) :
    Acts may s ((maskChannels s.par m).foldl (fun t c => t.modChan b c fun ch => { ch with enabled := v }) s) := by
  have hchan := chan_fold (f := fun ch => { ch with enabled := v }) (fun _ => rfl) (maskChannels s.par m) s b
  obtain ⟨bl, hfold⟩ := fold_fields (fun ch => { ch with enabled := v }) (maskChannels s.par m) s b
  refine ⟨fun f hf => by rw [hfold]; exact hf, by rw [hfold], fun b' c' => ?_⟩
  rw [hchan]
  split
  · next hbc =>
    obtain ⟨rfl, hc⟩ := hbc
    exact .inr (h c' (List.mem_filter.mp hc).2)
  · exact .inl rfl

/-- ENABLE may enable the channels of its mask. -/
theorem acts_enable {b : Nat} {m : Half} (h : ∀ c, m.getLsbD c = true → may b c true) : (effEnable b m s).acts may s := by
  unfold effEnable
  split
  · trivial
  · exact acts_done (acts_switch h) nofun

/-- DISABLE may disable the channels of its mask. -/
theorem acts_disable {b : Nat} {m : Half} (h : ∀ c, m.getLsbD c = true → may b c false) :
    (effDisable b m s).acts may s := acts_done (acts_switch h) nofun

end

section

variable (may : Nat → Nat → Bool → Prop) (s : State)

/-! ### FIFOs, flags and pins -/

theorem acts_txPush (b c : Nat) (w : Word) : (effTxPush b c w s).acts may s :=
  acts_blockingOp (acts_ite trivial (acts_ite (acts_done (Acts.refl may s).modChan nofun) trivial))

theorem acts_rxPop (b c : Nat) : (effRxPop b c s).acts may s := by
  refine acts_blockingOp ?_
  split
  · trivial
  · exact acts_done (Acts.refl may s).modChan nofun

theorem acts_chWaitIdle (b c : Nat) : (effChWaitIdle b c s).acts may s :=
  acts_blockingOp (acts_ite trivial (acts_ite (acts_done (Acts.refl may s) nofun) trivial))

theorem acts_irqClear (b : Nat) (m : Half) : (effIrqClear b m s).acts may s :=
  acts_done (Acts.refl may s).modBlk nofun

theorem acts_irqForce (b : Nat) (m : Half) : (effIrqForce b m s).acts may s :=
  acts_done (Acts.refl may s).modBlk nofun

theorem acts_irqInte (b : Nat) (m : Half) : (effIrqInte b m s).acts may s :=
  acts_done (Acts.refl may s).modBlk nofun

theorem acts_gpioSetFunc (p : Nat) (f : Byte) : (effGpioSetFunc p f s).acts may s := by
  unfold effGpioSetFunc
  split
  · trivial
  · exact acts_onPin (acts_keep rfl rfl rfl nofun)

theorem acts_gpioSetPull (p : Nat) (u : BitVec 2) : (effGpioSetPull p u s).acts may s := by
  unfold effGpioSetPull
  split
  · trivial
  · exact acts_onPin (acts_keep rfl rfl rfl nofun)

theorem acts_busSetDir (oe : Bool) : (effBusSetDir oe s).acts may s := acts_onPin (acts_keep rfl rfl rfl nofun)

theorem acts_busGet : (effBusGet s).acts may s := acts_onPin (acts_keep rfl rfl rfl nofun)

/-! ### The templates -/

/-- A watcher fires: its flags are raised and it leaves its armed state (44_peripheral_fsm.md R202, R204). -/
theorem acts_fire (b c : Nat) (m : Half) :
    (Effect.done (setPc (s.modBlk b fun k => k.raiseFlags m) b c .fired) .none (some b)).acts may s :=
  acts_done (Acts.refl may s).modBlk.setPc nofun

theorem acts_reactionOnly : (reactionOnly s).acts may s := acts_done (Acts.refl may s) nofun

theorem acts_rcdSample (b c : Nat) : (effRcdSample b c s).acts may s := by
  refine acts_guarded (acts_done (Acts.setPc (Acts.modBlk (Acts.driveLine (Acts.driveLine ?_)))) nofun)
  exact (Acts.refl may s).modChan fun ch => (sampleIn_fields ch _ 8).1

theorem acts_wcdStart (b c : Nat) : (effWcdStart b c s).acts may s := by
  unfold effWcdStart
  split
  · trivial
  · refine acts_guarded (acts_done (Acts.setPc (Acts.driveLine (Acts.driveLine ?_))) nofun)
    exact (Acts.refl may s).modChan.modBlk

theorem acts_wcdFinish (b c : Nat) : (effWcdFinish b c s).acts may s :=
  acts_guarded (acts_done (Acts.refl may s).driveLine.driveLine.modBlk.setPc nofun)

/-! ### The engine's sequences -/

theorem acts_register (b : Nat) (k : Kind) : (effRegister b k s).acts may s := by
  refine acts_ite trivial (acts_done (Acts.modBlk ?_) nofun)
  cases k <;> exact (Acts.refl may s).fields rfl rfl rfl

theorem acts_handler (b : Nat) (k : Kind) : (effHandler b k s).acts may s := by
  have hentry : Acts may s (interruptEntry s b (kindFlag s.par k)) := (Acts.refl may s).fields rfl rfl rfl
  have hclear := hentry.modBlk (b := b) (f := fun blk => blk.clearFlags (flagBit (kindFlag s.par k)))
  exact acts_ite (acts_done (hclear.fields rfl rfl rfl) nofun) trivial

theorem goesOn_consumerAt (v : Service) (n : ServiceStep) : GoesOn (consumerAt v n) :=
  ⟨fun _ _ => rfl, fun _ _ => rfl, fun _ _ => rfl, fun _ _ _ => nofun⟩

theorem goesOn_consumerDone : GoesOn consumerDone := ⟨fun _ _ => rfl, fun _ _ => rfl, fun _ _ => rfl, fun _ _ _ => nofun⟩

theorem goesOn_consumerSampled (v : Service) : GoesOn (consumerSampled v) where
  blks _ r := by cases r <;> rfl
  faults _ r := by cases r <;> rfl
  refused _ r := by cases r <;> rfl
  result _ r _ := by cases r <;> exact nofun

theorem goesOn_masterAt (n : MasterCall) : GoesOn (masterAt n) :=
  ⟨fun _ _ => rfl, fun _ _ => rfl, fun _ _ => rfl, fun _ _ _ => nofun⟩

theorem goesOn_masterDone : GoesOn masterDone := ⟨fun _ _ => rfl, fun _ _ => rfl, fun _ _ => rfl, fun _ _ _ => nofun⟩

/-- A pop that returns no word hands its own result on. -/
theorem goesOn_masterPopped (b : Nat) : GoesOn (masterPopped b) where
  blks _ r := by cases r <;> rfl
  faults _ r := by cases r <;> rfl
  refused _ r := by cases r <;> rfl
  result _ r hr := by
    cases r with
    | word w => exact nofun
    | _ => exact hr

/-- After an operation of an initialisation only its place is written, and no refusal is returned. -/
theorem bootNext_writes (par : Params) (k : Boot) (t : State) (r : Result) :
    ∃ k' q, bootNext par k t r = ({ t with boot := k' }, q) ∧ ∀ x, q ≠ .refused x := by
  unfold bootNext
  dsimp only
  repeat' split
  all_goals exact ⟨_, _, rfl, nofun⟩

theorem goesOn_bootNext (par : Params) (k : Boot) : GoesOn (bootNext par k) := by
  constructor <;> intro t r <;> obtain ⟨k', q, heq, hq⟩ := bootNext_writes par k t r <;> rw [heq]
  exact fun _ => hq

theorem acts_service (v : Service) : (effService v s).acts may s := by
  unfold effService
  split
  · exact acts_andThen (acts_busSetDir ..) (goesOn_consumerAt v _)
  · refine acts_andThen ?_ (goesOn_consumerAt v _)
    rw [sourceNext_eq]
    exact acts_onPin (acts_keep rfl rfl rfl nofun)
  · exact acts_andThen (acts_irqClear ..) (goesOn_consumerAt v _)
  · exact acts_andThen (acts_busSetDir ..) goesOn_consumerDone
  · exact acts_andThen (acts_busSetDir ..) (goesOn_consumerAt v _)
  · exact acts_andThen (acts_busGet ..) (goesOn_consumerSampled v)
  · exact acts_andThen (acts_irqClear ..) (goesOn_consumerAt v _)
  · rw [sinkByte_eq]
    exact acts_keep rfl rfl rfl nofun

theorem acts_startService (v : Service) : (startService v s).acts may s := acts_ite trivial (acts_service may s v)

theorem acts_masterPush (b : Nat) (v : Byte) : (effMasterPush b v s).acts may s := by
  unfold effMasterPush
  split
  · exact acts_keep rfl rfl rfl nofun
  · exact acts_andThen (acts_txPush ..) (goesOn_masterAt _)

theorem acts_masterStep (m : MasterCall) : (effMasterStep m s).acts may s := by
  cases m with
  | readPop b => exact acts_andThen (acts_rxPop ..) (goesOn_masterPopped b)
  | readReturn b w => exact acts_ite trivial (acts_keep rfl rfl rfl nofun)
  | writePush b v => exact acts_andThen (acts_txPush ..) (goesOn_masterAt _)
  | writeWait b => exact acts_andThen (acts_chWaitIdle ..) goesOn_masterDone

/-- A double initialisation adds its record (60_exceptions.md R305). -/
theorem acts_init (m : Module) : (effInit m s).acts may s := by
  refine acts_ite ?_ (acts_ite trivial ?_)
  · exact acts_done ⟨fun f hf => mem_addFault.mpr (.inl hf), rfl, fun _ _ => .inl rfl⟩ nofun
  · cases m <;> exact acts_keep rfl rfl rfl nofun

theorem acts_dispatch : (effDispatch s).acts may s := by
  unfold effDispatch
  split
  · trivial
  · trivial
  · split
    · trivial
    · exact acts_keep rfl rfl rfl nofun

end

/-- An operation of an initialisation, whose ENABLE and CONFIGURE may switch any channel. -/
theorem acts_bootOp {may : Nat → Nat → Bool → Prop} (hmay : ∀ b c v, may b c v) (o : BootOp) (s : State) :
    (o.effect s).acts may s := by
  refine acts_ite ?_ trivial
  cases o with
  | setFuncSio p => exact acts_gpioSetFunc may s p 1
  | setDirIn p => exact acts_onPin (acts_keep rfl rfl rfl nofun)
  | setPullUp p => exact acts_gpioSetPull may s p 1
  | configure b c d => exact acts_configure d (hmay ..)
  | register b k => exact acts_register ..
  | inte b m => exact acts_irqInte ..
  | force b m => exact acts_irqForce ..
  | enable b m => exact acts_enable fun c _ => hmay ..
  | globalOn => exact acts_keep rfl rfl rfl nofun

/-! ### Every operation and every resumed step -/

/-- The operations that may switch channel `c` of block `b` to enabled or to disabled (10_state.md R26). -/
def SwitchedBy (i : Instr) (b c : Nat) : Bool → Prop
  | true => ∃ b' m, b'.toNat = b ∧ i = .enable b' m ∧ m.getLsbD c = true
  | false =>
    (∃ b' m, b'.toNat = b ∧ i = .disable b' m ∧ m.getLsbD c = true) ∨
      ∃ b' c' d, b'.toNat = b ∧ c'.toNat = c ∧ i = .configure b' c' d

/-- **Every operation** keeps the records, and only ENABLE, DISABLE and CONFIGURE switch a channel. -/
theorem effect_acts (i : Instr) (s : State) : (effectOf i s).acts (SwitchedBy i) s := by
  cases i with
  | configure b c d => exact acts_ifProcessor (acts_configure d (.inr ⟨b, c, d, rfl, rfl, rfl⟩))
  | enable b m => exact acts_ifProcessor (acts_enable fun _ hc => ⟨b, m, rfl, rfl, hc⟩)
  | disable b m => exact acts_ifProcessor (acts_disable fun _ hc => .inl ⟨b, m, rfl, rfl, hc⟩)
  | txPush b c w => exact acts_ifProcessor (acts_txPush ..)
  | rxPop b c => exact acts_ifProcessor (acts_rxPop ..)
  | irqClear b m => exact acts_ifProcessor (acts_irqClear ..)
  | irqRead b => exact acts_ifProcessor (acts_keep rfl rfl rfl nofun)
  | irqForce b m => exact acts_ifProcessor (acts_irqForce ..)
  | irqInte b m => exact acts_ifProcessor (acts_irqInte ..)
  | irqGlobal v => exact acts_ifProcessor (acts_keep rfl rfl rfl nofun)
  | gpioSetFunc p f => exact acts_ifProcessor (acts_gpioSetFunc ..)
  | gpioSetDir p oe => exact acts_ifProcessor (acts_onPin (acts_keep rfl rfl rfl nofun))
  | gpioPut p v => exact acts_ifProcessor (acts_onPin (acts_keep rfl rfl rfl nofun))
  | gpioGet p => exact acts_ifProcessor (acts_onPin (acts_keep rfl rfl rfl nofun))
  | gpioSetPull p u => exact acts_ifProcessor (acts_gpioSetPull ..)
  | busSetDir oe => exact acts_ifProcessor (acts_busSetDir ..)
  | busPut v => exact acts_ifProcessor (acts_onPin (acts_keep rfl rfl rfl nofun))
  | busGet => exact acts_ifProcessor (acts_busGet ..)
  | chWaitIdle b c => exact acts_ifProcessor (acts_chWaitIdle ..)
  | rdwFire b c => exact acts_ifChannel (acts_guarded (acts_fire ..))
  | rdwRearm b c => exact acts_ifChannel (acts_guarded (acts_reactionOnly ..))
  | wrwFire b c => exact acts_ifChannel (acts_guarded (acts_fire ..))
  | wrwRearm b c => exact acts_ifChannel (acts_guarded (acts_reactionOnly ..))
  | waiteAssert b c => exact acts_ifChannel (acts_guarded (acts_done (Acts.refl _ s).driveLine.setPc nofun))
  | waiteRelease b c => exact acts_ifChannel (acts_guarded (acts_done (Acts.refl _ s).driveLine.setPc nofun))
  | rcdStrobe b c => exact acts_ifChannel (acts_guarded (acts_done (Acts.refl _ s).driveLine.driveLine.setPc nofun))
  | rcdSeewait b c => exact acts_ifChannel (acts_guarded (acts_reactionOnly ..))
  | rcdSample b c => exact acts_ifChannel (acts_rcdSample ..)
  | wcdStart b c => exact acts_ifChannel (acts_wcdStart ..)
  | wcdSeewait b c => exact acts_ifChannel (acts_guarded (acts_reactionOnly ..))
  | wcdFinish b c => exact acts_ifChannel (acts_wcdFinish ..)
  | hostRdBegin => exact acts_ifRole (acts_guarded (acts_keep rfl rfl rfl nofun))
  | hostSeeWait => exact acts_ifRole (acts_guarded (acts_reactionOnly ..))
  | hostRdEnd => exact acts_ifRole (acts_guarded (acts_keep rfl rfl rfl nofun))
  | hostWrBegin v =>
    exact acts_ifRole (acts_guarded (acts_keep (by simp [present, driveData]) (by simp [present, driveData])
      (by simp [present, driveData]) nofun))
  | hostWrEnd =>
    exact acts_ifRole (acts_guarded (acts_keep (by simp [present, releaseData]) (by simp [present, releaseData])
      (by simp [present, releaseData]) nofun))
  | perRdAck => exact acts_ifRole (acts_guarded (acts_keep rfl rfl rfl nofun))
  | perRdReady =>
    exact acts_ifRole (acts_guarded (acts_keep (by simp [present, driveData]) (by simp [present, driveData])
      (by simp [present, driveData]) nofun))
  | perRdDone => exact acts_ifRole (acts_guarded (acts_reactionOnly ..))
  | perWrAck => exact acts_ifRole (acts_guarded (acts_keep rfl rfl rfl nofun))
  | perWrLatch => exact acts_ifRole (acts_guarded (acts_keep rfl rfl rfl nofun))
  | perWrDone => exact acts_ifRole (acts_guarded (acts_reactionOnly ..))
  | post k => exact acts_ifProcessor (acts_keep rfl rfl rfl nofun)
  | register b k => exact acts_ifTask (acts_register ..)
  | isrRd b => exact acts_ifProcessor (acts_handler ..)
  | isrWr b => exact acts_ifProcessor (acts_handler ..)
  | serviceRead b => exact acts_ifTask (acts_startService ..)
  | serviceWrite b => exact acts_ifTask (acts_startService ..)
  | masterRead b => exact acts_ifProcessor (acts_masterCall (acts_andThen (acts_irqClear ..) (goesOn_masterAt _)))
  | masterWrite b v => exact acts_ifProcessor (acts_masterCall (acts_masterPush ..))
  | periphInit => exact acts_ifTask (acts_init ..)
  | masterInit => exact acts_ifTask (acts_init ..)
  | dispatch => exact acts_ifTask (acts_dispatch ..)

/-- **Every resumed step** keeps the records, and only an initialisation switches a channel. -/
theorem resume_acts (a : Activity) (s : State) : (resumeEffect a s).2.2.acts (fun _ _ _ => a = .boot) s := by
  cases a <;> simp only [resumeEffect] <;> split
  · trivial
  · split
    · exact acts_keep rfl rfl rfl nofun
    · exact acts_ite (acts_andThen (acts_bootOp (fun _ _ _ => trivial) ..) (goesOn_bootNext ..)) trivial
  · trivial
  · exact acts_ite (acts_service ..) trivial
  · trivial
  · exact acts_ite (acts_masterStep ..) trivial

/-! ### The steps -/

/-- What a turn from `s` to `t` that switches channels only as `may` allows does to the parameters, the records and the
channels' enabling. -/
structure Answers (may : Nat → Nat → Bool → Prop) (s t : State) : Prop where
  par : t.par = s.par
  faults : ∀ f ∈ s.faults, f ∈ t.faults
  refused : s.refused = true → t.refused = true
  refusal : ∀ r, t.result = .refused r → t.refused = true
  enabled : ∀ b c, (t.chan b c).enabled = (s.chan b c).enabled ∨ may b c (t.chan b c).enabled

/-- The schedule is none of it. -/
theorem Answers.of_schedule {may : Nat → Nat → Bool → Prop} {s t : State} {ts : List Turn}
    (h : Answers may { s with schedule := ts } t) : Answers may s t := ⟨h.par, h.faults, h.refused, h.refusal, h.enabled⟩

/-- The end of a step keeps what its own writes left. -/
theorem answers_settle {may : Nat → Nat → Bool → Prop} {i : Instr} {s u : State} {r : Result} {wrote : Option Nat}
    (hpar : u.par = s.par) (h : Acts may s u) (hr : ∀ x, r ≠ .refused x) :
    Answers may s { settle i s u wrote with result := r, tick := s.tick + 1 } where
  par := (settle_par i s u wrote).trans hpar
  faults f hf := (settle_faults i s u wrote f).mpr (.inl (h.faults f hf))
  refused hs := (settle_refused i s u wrote).trans (h.refused.trans hs)
  refusal x hx := absurd hx (hr x)
  enabled b c := by
    show ((settle i s u wrote).chan b c).enabled = _ ∨ may b c ((settle i s u wrote).chan b c).enabled
    rw [settle_chan_fields]
    exact h.enabled b c

section

variable (may : Nat → Nat → Bool → Prop) (s : State)

theorem answers_hold : Answers may s s.afterHold := ⟨rfl, fun _ => id, id, nofun, fun _ _ => .inl rfl⟩

/-- A refusal, after which the sequence it happened in may have ended. -/
theorem answers_refusal (c : Option Service) (m : Option MasterCall) (k : Option Boot) (r : Reason) :
    Answers may s (({ s with consumer := c, master := m, boot := k } : State).afterRefusal r) :=
  ⟨rfl, fun _ => id, fun _ => rfl, fun _ _ => rfl, fun _ _ => .inl rfl⟩

/-- A fault, after which the sequence it happened in may have ended. -/
theorem answers_fault (c : Option Service) (m : Option MasterCall) (k : Option Boot) (f : FaultRec) :
    Answers may s (({ s with consumer := c, master := m, boot := k } : State).afterFault f) :=
  ⟨rfl, fun _ hg => mem_addFault.mpr (.inl hg), id, nofun, fun _ _ => .inl rfl⟩

end

theorem exec_answers {i : Instr} {s t : State} (h : exec i s = .next t) : Answers (SwitchedBy i) s t := by
  rcases exec_cases h with ⟨u, r, wrote, he, rfl⟩ | ⟨-, rfl⟩ | ⟨r, -, rfl⟩ | ⟨f, -, rfl⟩
  · have ha := effect_acts i s
    rw [he] at ha
    exact answers_settle (wrote_of_effect he).par ha.1 ha.2
  · exact answers_hold ..
  · exact answers_refusal _ s s.consumer s.master s.boot r
  · exact answers_fault _ s s.consumer s.master s.boot f

theorem resume_answers {a : Activity} {s t : State} (h : resume a s = .next t) :
    Answers (fun _ _ _ => a = .boot) s t := by
  obtain ⟨c, m, k, hdrop⟩ := resume_drop a s
  rcases resume_cases h with ⟨u, r, wrote, he, rfl⟩ | rfl | ⟨r, -, rfl⟩ | ⟨f, -, rfl⟩
  · have ha := resume_acts a s
    rw [he] at ha
    exact answers_settle (wrote_of_resume he).par ha.1 ha.2
  · exact answers_hold ..
  · rw [hdrop]; exact answers_refusal ..
  · rw [hdrop]; exact answers_fault ..

/-- A step that is none of the three turns of `step_cases` is the idle one of an empty schedule. -/
theorem step_cases_idle {s t : State} (h : step s = .next t) :
    (∃ ts i, exec i { s with schedule := ts } = .next t) ∨ (∃ ts a, resume a { s with schedule := ts } = .next t) ∨
      (∃ ts, t = ({ s with schedule := ts } : State).afterRefusal .illegalOperation) ∨ (s.schedule = [] ∧ t = s) := by
  cases hs : s.schedule with
  | nil =>
    rcases step_cases h with ⟨ts, i, -, he⟩ | he | he | he
    · exact .inl ⟨ts, i, he⟩
    · exact .inr (.inl he)
    · exact .inr (.inr (.inl he))
    · exact .inr (.inr (.inr ⟨rfl, he⟩))
  | cons turn ts =>
    cases turn with
    | resume a =>
      simp only [step, hs] at h
      exact .inr (.inl ⟨ts, a, h⟩)
    | word w =>
      simp only [step, hs] at h
      split at h
      · exact .inl ⟨_, _, h⟩
      · cases h
      · cases h; exact .inr (.inr (.inl ⟨_, rfl⟩))
      · cases h; exact .inr (.inr (.inl ⟨_, rfl⟩))

/-- Every step answers so, but for the idle one. -/
theorem step_answers {s t : State} (h : step s = .next t) :
    (∃ may, Answers may s t) ∨ (s.schedule = [] ∧ t = s) := by
  rcases step_cases_idle h with ⟨ts, i, he⟩ | ⟨ts, a, he⟩ | ⟨ts, rfl⟩ | hidle
  · exact .inl ⟨_, (exec_answers he).of_schedule⟩
  · exact .inl ⟨_, (resume_answers he).of_schedule⟩
  · exact .inl ⟨fun _ _ _ => False,
      (answers_refusal _ { s with schedule := ts } s.consumer s.master s.boot .illegalOperation).of_schedule⟩
  · exact .inr hidle

/-- Settles O49: every turn adds to the records only, and one whose result is a refusal has set `refused`. -/
theorem recordsForever : Obligations.RecordsForever := by
  intro s t h
  rcases step_answers h with ⟨may, ha⟩ | ⟨hidle, rfl⟩
  · exact ⟨ha.faults, ha.refused, fun _ => ha.refusal, ha.par⟩
  · exact ⟨fun _ => id, id, fun hs => absurd hidle hs, rfl⟩

/-- Settles O51: the operations that may switch a channel are those of `SwitchedBy`, and the only activity is the
initialisation. -/
theorem enabledWrittenBy : Obligations.EnabledWrittenBy := by
  refine ⟨fun i s t b c h => ?_, fun a s t b c h hne => ((resume_answers h).enabled b c).resolve_left hne⟩
  have hen := (exec_answers h).enabled b c
  refine ⟨fun hs ht => ?_, fun hs ht => ?_⟩
  · rw [hs, ht] at hen
    exact hen.resolve_left nofun
  · rw [hs, ht] at hen
    exact hen.resolve_left nofun

end Sys2Proof.Machine
end

section
/-! The instruction memory through a step (20_memory.md R60, R62, R63): the own writes of a step change it by a load into a free
range only (`Wrote.load`), and the end of a step leaves it. -/

namespace Sys2Proof.Machine

/-- A property that the own writes of every step keep and the end of a step keeps is kept by every step. -/
theorem step_keeps_of_wrote (P : State → Prop)
    (hfields : ∀ s ts r n d fs c m k, P s →
      P { s with schedule := ts, result := r, tick := n, refused := d, faults := fs, consumer := c, master := m, boot := k })
    (hsettle : ∀ i s u wrote, P u → P (settle i s u wrote)) (hwrote : ∀ s u wrote, P s → Wrote s u wrote → P u)
    {s t : State} (hs : P s) (h : step s = .next t) : P t :=
  step_keeps P (fun _ => P) hfields hsettle (fun _ s u _ wrote hp he => hwrote s u wrote hp (wrote_of_effect he))
    (fun _ s u _ wrote hp he => hwrote s u wrote hp (wrote_of_resume he)) hs h

/-! ### The own writes -/

theorem blk_of_blks {u v : State} (h : u.blks = v.blks) (b : Nat) : u.blk b = v.blk b := by
  simp only [State.blk, h]

theorem chan_of_blks {u v : State} (h : u.blks = v.blks) (b c : Nat) : u.chan b c = v.chan b c := by
  simp only [State.chan, blk_of_blks h]

/-- A free range holds no used word (41_configurator.md R101). -/
theorem used_outside_freeOffsets {par : Params} {k : Block} {n o w a : Nat} (ho : o ∈ freeOffsets par k n)
    (hw : k.tag w = .used a) : w < o ∨ o + n ≤ w := by
  by_contra hin
  have hfree : k.tag (o + (w - o)) = .free := (mem_freeOffsets.mp ho).2 (w - o) (by omega)
  rw [show o + (w - o) = w by omega, hw] at hfree
  cases hfree

/-- The own writes of a step keep the canonical form: a load writes whole words. -/
theorem Wrote.keeps_memoryInv {s u : State} {wrote : Option Nat} (hw : Wrote s u wrote) (h : MemoryInv s) :
    MemoryInv u := by
  intro b'
  rcases hw.load with ⟨hsame, -⟩ | ⟨b, c, o, d, hblks, -⟩
  · rw [(hsame b').1]
    exact h b'
  · rw [blk_of_blks hblks, imem_configureAt]
    split
    · exact wf_writeWords (h b) ..
    · exact h b'

/-- The own writes of a step leave a used word to its allocation (20_memory.md R62). -/
theorem Wrote.keeps_used {s u : State} {wrote : Option Nat} (hw : Wrote s u wrote) {b w a : Nat}
    (h : (s.blk b).tag w = .used a) : (u.blk b).tag w = .used a := by
  rcases hw.load with ⟨hsame, -⟩ | ⟨b', c, o, d, hblks, ho⟩
  · exact ((hsame b).2 w).trans h
  · rw [blk_of_blks hblks, tag_configureAt, if_neg]
    · exact h
    · rintro ⟨rfl, hin⟩
      rcases used_outside_freeOffsets ho h with hlt | hge <;> omega

/-- The own writes of a step leave both bytes of a used word (20_memory.md R60, R63). -/
theorem Wrote.readByte_used {s u : State} {wrote : Option Nat} (hw : Wrote s u wrote) (hmem : MemoryInv s) {b w a : Nat}
    (h : (s.blk b).tag w = .used a) {x : Nat} (hx : x / 2 = w) :
    readByte (u.blk b).imem x = readByte (s.blk b).imem x := by
  rcases hw.load with ⟨hsame, -⟩ | ⟨b', c, o, d, hblks, ho⟩
  · rw [(hsame b).1]
  · rw [blk_of_blks hblks, imem_configureAt]
    split
    · next hb =>
      subst hb
      have hout := used_outside_freeOffsets ho h
      exact readByte_writeWords_other (hmem b) _ _ _ _ (by omega)
    · rfl

/-- The own writes of a step leave a channel's owner and binding, or they have loaded its program, whose words its allocation
then uses (41_configurator.md R103). -/
theorem Wrote.program_cases {s u : State} {wrote : Option Nat} (hw : Wrote s u wrote) (b c : Nat) :
    ((u.chan b c).owner = (s.chan b c).owner ∧ (u.chan b c).cfg = (s.chan b c).cfg) ∨
      ∀ k, k < u.par.len (u.chan b c).cfg.template →
        (u.blk b).tag ((u.chan b c).cfg.offset.toNat + k) = .used c := by
  rcases hw.load with ⟨-, hsame⟩ | ⟨b', c', o, d, hblks, -⟩
  · exact .inl (hsame b c)
  · rw [chan_of_blks hblks, chan_configureAt, blk_of_blks hblks, hw.par]
    split
    · next hbc =>
      obtain ⟨rfl, rfl⟩ := hbc
      refine .inr fun k (hk : k < s.par.len d.template) => ?_
      rw [tag_configureAt, if_pos]
      show b = b ∧ o ≤ o + k ∧ o + k < o + s.par.len d.template
      omega
    · exact .inl ⟨rfl, rfl⟩

/-- The own writes of a step keep the programs: a program not just loaded lies in words already used. -/
theorem Wrote.keeps_programsInv {s u : State} {wrote : Option Nat} (hw : Wrote s u wrote) (h : ProgramsInv s) :
    ProgramsInv u := by
  intro b c hown
  rcases hw.program_cases b c with ⟨howner, hcfg⟩ | hloaded
  · rw [howner] at hown
    rw [hcfg, hw.par]
    exact fun k hk => hw.keeps_used (h b c hown k hk)
  · exact hloaded

/-! ### The end of a step -/

theorem settle_blk_tag (i : Instr) (s u : State) (wrote : Option Nat) (b w : Nat) :
    ((settle i s u wrote).blk b).tag w = (u.blk b).tag w := by
  simp only [Block.tag, settle_blk_tags]

theorem settle_keeps_memoryInv (i : Instr) (s u : State) (wrote : Option Nat) (h : MemoryInv u) :
    MemoryInv (settle i s u wrote) := fun b => by
  rw [settle_blk_imem]
  exact h b

/-- The reactions move template states only, and leave owners and bindings. -/
theorem settle_keeps_programsInv (i : Instr) (s u : State) (wrote : Option Nat) (h : ProgramsInv u) :
    ProgramsInv (settle i s u wrote) := fun b c => by
  rw [settle_chan_fields, settle_par]
  simp only [settle_blk_tag]
  exact h b c

/-! ### Every step -/

/-- Settles O55: a load writes whole words, which keeps the canonical form, and nothing else writes the memory. -/
theorem memoryInvKept : Obligations.MemoryInvKept := fun _ _ =>
  step_keeps_of_wrote MemoryInv (fun _ _ _ _ _ _ _ _ _ hs => hs) settle_keeps_memoryInv
    (fun _ _ _ hs hw => hw.keeps_memoryInv hs)

/-- Settles O58: a load tags the words of its own program and leaves the used words of the others. -/
theorem programsInvKept : Obligations.ProgramsInvKept := fun _ _ =>
  step_keeps_of_wrote ProgramsInv (fun _ _ _ _ _ _ _ _ _ hs => hs) settle_keeps_programsInv
    (fun _ _ _ hs hw => hw.keeps_programsInv hs)

/-- Word `w` of block `b`, used by allocation `a` and holding the bytes `lo` and `hi`, in a memory of canonical form. -/
structure UsedWord (b w a : Nat) (lo hi : Option Byte) (s : State) : Prop where
  memory : MemoryInv s
  tag : (s.blk b).tag w = .used a
  low : readByte (s.blk b).imem (2 * w) = lo
  high : readByte (s.blk b).imem (2 * w + 1) = hi

theorem UsedWord.of_wrote {b w a : Nat} {lo hi : Option Byte} {s u : State} {wrote : Option Nat}
    (h : UsedWord b w a lo hi s) (hw : Wrote s u wrote) : UsedWord b w a lo hi u where
  memory := hw.keeps_memoryInv h.memory
  tag := hw.keeps_used h.tag
  low := (hw.readByte_used h.memory h.tag (by omega)).trans h.low
  high := (hw.readByte_used h.memory h.tag (by omega)).trans h.high

theorem UsedWord.at_end {b w a : Nat} {lo hi : Option Byte} {u : State} (h : UsedWord b w a lo hi u) (i : Instr)
    (s : State) (wrote : Option Nat) : UsedWord b w a lo hi (settle i s u wrote) where
  memory := settle_keeps_memoryInv i s u wrote h.memory
  tag := (settle_blk_tag ..).trans h.tag
  low := by rw [settle_blk_imem]; exact h.low
  high := by rw [settle_blk_imem]; exact h.high

/-- Settles O54: a load goes into a free range, which holds no used word, and nothing else writes the memory. -/
theorem wordsUsedForever : Obligations.WordsUsedForever := by
  intro s t b w a hmem h htag
  obtain ⟨-, htag', hlow, hhigh⟩ := step_keeps_of_wrote
    (UsedWord b w a (readByte (s.blk b).imem (2 * w)) (readByte (s.blk b).imem (2 * w + 1)))
    (fun _ _ _ _ _ _ _ _ _ ⟨hm, hu, hlo, hhi⟩ => ⟨hm, hu, hlo, hhi⟩) (fun i s _ wrote hu => hu.at_end i s wrote)
    (fun _ _ _ hs hw => hs.of_wrote hw) ⟨hmem, htag, rfl, rfl⟩ h
  exact ⟨htag', hlow, hhigh⟩

end Sys2Proof.Machine
end

section
/-! The decoder and the encoder are inverse (spec/30_encoding.md R80 to R83, R89, R92), and what is no operation, or not this
agent's, is refused (R90, R92; spec/60_exceptions.md R303, R306). -/

namespace Sys2Proof

/-! ### Decoding an encoded operation -/

/-- A word whose fields the decoder takes as `j`, with every unused field 0. -/
theorem decode_of_accept {par : Params} {op : Byte} {b c : Nibble} {x : Half} {ws rest : List Word} {ok : Bool}
    {i j : Instr} (hd : decodeFields par op b c x ws = accept ok j rest) (hok : ok = true) (hj : j = i) :
    decode par (opWord op b c x :: ws) = .ok (i, rest) := by
  rw [decode_opWord, hd]
  exact accept_ok.mpr ⟨hok, hj, rfl⟩

/-- The same for an operation with a one-bit field, which stands in the byte `y`. -/
theorem decode_of_acceptBit {par : Params} {op : Byte} {b c : Nibble} {x : Half} {ws rest : List Word} {ok v : Bool}
    {y : Byte} {i : Instr} {f : Bool → Instr} (hd : decodeFields par op b c x ws = acceptBit ok y f rest)
    (hok : ok = true) (hy : y = byteOfBit v) (hf : f v = i) : decode par (opWord op b c x :: ws) = .ok (i, rest) := by
  rw [decode_opWord, hd]
  exact acceptBit_ok.mpr ⟨v, by rw [hy, bitOf_byteOfBit], hok, hf, rfl⟩

/-- The split follows what stands in the operand (30_encoding.md R82): a mask, a one-bit field, a pull code, one or two
bytes, or nothing. -/
theorem decode_encode {par : Params} {i : Instr} (rest : List Word) (h : i.encodable par = true) :
    decode par (encode i ++ rest) = .ok (i, rest) := by
  cases i
  case enable | disable | irqClear | irqForce | irqInte => exact decode_of_accept rfl h rfl
  case irqGlobal | busSetDir => exact decode_of_acceptBit rfl (by simp) (by simp) rfl
  case gpioSetDir | gpioPut => exact decode_of_acceptBit rfl rfl (highByte_halfOf ..) (by simp)
  case post | register => exact decode_of_acceptBit rfl (by simp) (lowByte_halfOf ..) (by simp)
  case gpioSetPull => exact decode_of_accept rfl (by simp [pull_high]) (by simp [pull_low])
  case gpioSetFunc | gpioGet | busPut | hostWrBegin | masterWrite => exact decode_of_accept rfl (by simp) (by simp)
  all_goals exact decode_of_accept rfl rfl rfl

/-- Settles O1: each operation's word is accepted by the arm of its opcode, which reads back the operands it was built
from. -/
theorem decodeEncode : Obligations.DecodeEncode := fun _ _ rest h => decode_encode rest h

/-- Settles O2: what `reads_of_decode` says of every arm of the decoder. -/
theorem encodeDecode : Obligations.EncodeDecode := fun _ _ _ _ h => reads_of_decode h

/-- Settles O3: each word decodes by evaluation. -/
theorem sampleWords : Obligations.SampleWords :=
  ⟨rfl, rfl, rfl, rfl, rfl, rfl, rfl, rfl, rfl, rfl, rfl, rfl, rfl, rfl, rfl, rfl⟩

/-! ### Reserved opcodes -/

/-- The reserved opcodes (30_encoding.md R90). -/
def ReservedOpcode (n : Nat) : Prop :=
  n = 0x00 ∨ (0x04 ≤ n ∧ n ≤ 0x07) ∨ n = 0x0F ∨ (0x19 ≤ n ∧ n ≤ 0x3F) ∨ n = 0x46 ∨ n = 0x47 ∨ (0x4B ≤ n ∧ n ≤ 0x4F) ∨
    (0x53 ≤ n ∧ n ≤ 0x7F) ∨ (0x85 ≤ n ∧ n ≤ 0x87) ∨ (0x8E ≤ n ∧ n ≤ 0x9F) ∨ n = 0xA2 ∨ 0xAC ≤ n

/-- The decoder has no arm for a reserved opcode (the last arm is the one that remains). -/
theorem decodeFields_reserved {op : Byte} (h : ReservedOpcode op.toNat) (par : Params) (b c : Nibble) (x : Half)
    (ws : List Word) : decodeFields par op b c x ws = .error .reservedOpcode := by
  unfold decodeFields
  generalize op.toNat = n at h ⊢
  split
  case h_54 => rfl
  all_goals exact absurd h (by unfold ReservedOpcode; decide)

/-- A reserved opcode names no format with argument words. -/
theorem wordCount_reserved {w : Word} (h : ReservedOpcode (opField w).toNat) : wordCount w = 1 := by
  unfold wordCount
  generalize (opField w).toNat = n at h ⊢
  split
  case h_3 => rfl
  all_goals exact absurd h (by unfold ReservedOpcode; decide)

end Sys2Proof

namespace Sys2Proof.Machine

/-! ### Words that are no operation -/

theorem fetch_reserved {s : State} {w : Word} {ts : List Turn} (hw : s.schedule = .word w :: ts)
    (h : ReservedOpcode (opField w).toNat) : fetch s = .error .reservedOpcode := by
  rw [fetch, hw, headWords, decode, decodeFields_reserved h]
  rfl

/-- The step of a schedule whose head is no operation: refused, except for an operation cut off by the schedule's end. -/
theorem step_of_fetch_error {s : State} {w : Word} {ts : List Turn} {e : DecodeError} (hw : s.schedule = .word w :: ts)
    (he : fetch s = .error e) :
    step s = if e = .truncated then .fault .truncatedOperation
      else .next ((afterFetch s w).afterRefusal .illegalOperation) := by
  simp only [step, hw, he]
  cases e <;> rfl

/-- Settles O5: a reserved opcode reaches the decoder's last arm, and its word stands alone; the other two clauses are the
decoder's other errors. -/
theorem stepRefusesWords : Obligations.StepRefusesWords := by
  intro s w ts hw
  refine ⟨fun h => ?_, fun he => step_of_fetch_error hw he, fun he => step_of_fetch_error hw he⟩
  have hts : afterFetch s w = { s with schedule := ts } := by rw [afterFetch, wordCount_reserved h, hw]; rfl
  rw [step_of_fetch_error hw (fetch_reserved hw h), hts]
  rfl

/-! ### Operations of another agent, and ill-formed ones -/

/-- The checks that the performer of an operation asks for before its effect. -/
def ifPerformer (i : Instr) (s : State) (e : Effect) : Performer → Effect
  | .processor => ifProcessor i s e
  | .channel t b c => ifChannel i t b c s e
  | .environment r => ifRole r s e

/-- Every operation answers an effect behind the checks of its performer. -/
theorem exec_checked (i : Instr) (s : State) : ∃ e, exec i s = conclude i s (ifPerformer i s e (performer i)) := by
  rw [exec_eq]
  cases i <;> exact ⟨_, rfl⟩

/-- A template step is well formed when its channel exists (10_state.md R20). -/
theorem wf_of_channel {i : Instr} {t : Template} {b c : Nat} (h : performer i = .channel t b c) (par : Params) :
    i.wf par = true ↔ b < par.numBlocks ∧ c < par.numCh := by
  cases i
  case rdwFire | rdwRearm | wrwFire | wrwRearm | waiteAssert | waiteRelease | rcdStrobe | rcdSeewait | rcdSample
      | wcdStart | wcdSeewait | wcdFinish =>
    cases h
    simp [Instr.wf, blockOk, chanOk]
  all_goals cases h

/-- Settles O6: the checks of the operation's performer, whatever the effect behind them. -/
theorem wrongOperations : Obligations.WrongOperations := by
  intro i s
  obtain ⟨e, he⟩ := exec_checked i s
  rw [he]
  refine ⟨fun hp hwf => ?_, fun t b c hp => ⟨fun hno => ?_, fun hb hc howner htemplate hoff => ?_⟩, fun r hp hrole => ?_⟩
  · rw [hp, ifPerformer, ifProcessor, if_pos hwf]; rfl
  · have hwrong : i.wf s.par = false ∨ (s.chan b c).owner = .none ∨ (s.chan b c).cfg.template ≠ t := by
      rw [← Bool.not_eq_true, wf_of_channel hp, not_and_or, Nat.not_lt, Nat.not_lt, or_assoc]
      exact hno
    rw [hp, ifPerformer, ifChannel, if_pos hwrong]; rfl
  · have hwf : i.wf s.par = true := (wf_of_channel hp s.par).mpr ⟨hb, hc⟩
    rw [hp, ifPerformer, ifChannel, if_neg (by simp [hwf, howner, htemplate]), if_pos hoff]; rfl
  · rw [hp, ifPerformer, ifRole, if_neg hrole]; rfl

end Sys2Proof.Machine
end

section
/-! The configurator (spec/41_configurator.md): the pieces that CONFIGURE writes and what it answers, and the one step that
writes `enabled` of every channel of a mask, which ENABLE and DISABLE share. -/

namespace Sys2Proof.Machine

/-! ### Channels that no reaction moves -/

/-- The reactions are those of enabled channels (44_peripheral_fsm.md R200). -/
theorem ChannelReacts.of_disabled {t : State} {wrote : Option Nat} {b : Nat} {ch ch' : Channel}
    (h : ChannelReacts t wrote b ch ch') (hoff : ch.enabled = false) : ch' = ch :=
  chan_exact h fun hp => hp.resolve_right fun ⟨hon, _⟩ => by rw [hoff] at hon; cases hon

/-! ### What a load writes (41_configurator.md R103, R105 to R107) -/

theorem oe_configureAt (s : State) (b c o : Nat) (d : ChanCfg) (p : Nat) :
    ((configureAt s b c o d).blk b).oe p
      = if d.outgroup p then true else if d.inPins.has p then false else (s.blk b).oe p := by
  rw [blk_configureAt, if_pos rfl]
  exact oe_initDirections _ d p

theorem out_configureAt (s : State) (b c o : Nat) (d : ChanCfg) (p : Nat) :
    ((configureAt s b c o d).blk b).out p = if d.outgroup p then true else (s.blk b).out p := by
  rw [blk_configureAt, if_pos rfl]
  exact out_initDirections _ d p

theorem pin_configureAt (s : State) (b c o : Nat) (d : ChanCfg) (p : Nat) :
    (configureAt s b c o d).pin p
      = if d.inPins.has p || d.outgroup p then { s.pin p with func := .pio b } else s.pin p :=
  pin_attachPins _ b d p

/-- A word is what its bytes are (log 22). -/
theorem readWord_congr {m m' : List Host.Cell} (h : ∀ x, readByte m x = readByte m' x) (a : Nat) :
    readWord m a = readWord m' a := by
  rw [readWord, readWord, h, h]

/-- The pieces written by a load at `o`: the channel, the program's words and their tags, and the pins of the groups. -/
def LoadWrites (s : State) (b c o : Nat) (d : ChanCfg) (q : Part) : Prop :=
  q = .chan b c ∨
    (∃ k, k < s.par.len d.template ∧
      (q = .tag b (o + k) ∨ q = .imem b (2 * (o + k)) ∨ q = .imem b (2 * (o + k) + 1))) ∨
    ∃ p, (d.inPins.has p || d.outgroup p) = true ∧ (q = .out b p ∨ q = .oe b p ∨ q = .pin p)

section

variable {s : State} {b c o : Nat} {d : ChanCfg}

theorem loadWrites_tag {a : Nat} (hlo : o ≤ a) (hhi : a < o + s.par.len d.template) :
    LoadWrites s b c o d (.tag b a) :=
  .inr (.inl ⟨a - o, by omega, .inl (by rw [Nat.add_sub_cancel' hlo])⟩)

/-- A byte of the program is the low or the high one of its word (log 22). -/
theorem loadWrites_imem {a : Nat} (hlo : 2 * o ≤ a) (hhi : a < 2 * (o + s.par.len d.template)) :
    LoadWrites s b c o d (.imem b a) := by
  refine .inr (.inl ⟨a / 2 - o, by omega, .inr ?_⟩)
  rcases Nat.mod_two_eq_zero_or_one a with heven | hodd
  · exact .inl (by congr 1; omega)
  · exact .inr (by congr 1; omega)

/-- A load writes every such piece of a pin in its groups. -/
theorem ungrouped_of_not_loadWrites {p : Nat} {q : Part} (h : ¬ LoadWrites s b c o d q)
    (hq : q = .out b p ∨ q = .oe b p ∨ q = .pin p) : d.inPins.has p = false ∧ d.outgroup p = false := by
  rw [← Bool.or_eq_false_iff]
  exact Bool.eq_false_iff.mpr fun hp => h (.inr (.inr ⟨p, hp, hq⟩))

theorem same_attachPins (q : Part) (h : ∀ p, q = .pin p → d.inPins.has p = false ∧ d.outgroup p = false) :
    q.same s (attachPins s b d) := by
  cases q
  case pin p =>
    obtain ⟨hin, hout⟩ := h p rfl
    simp [Part.same, pin_attachPins, hin, hout]
  all_goals simp [Part.same, attachPins, attachGroup]

/-- A load writes no other piece. -/
theorem same_configureAt (hmem : Memory.wf (s.blk b).imem = true) (q : Part) (h : ¬ LoadWrites s b c o d q) :
    q.same s (configureAt s b c o d) := by
  refine same_trans ?_ (same_attachPins q fun p hq => ungrouped_of_not_loadWrites h (.inr (.inr hq)))
  refine same_modBlk q (fun a hq => ?imem) (fun a hq => ?tag) (fun _ => rfl) (fun _ => rfl) (fun p hq => ?out)
    (fun p hq => ?oe) (fun _ _ => rfl) fun c' hq => ?chan
  case imem =>
    refine readByte_writeWords_other hmem _ _ _ _ ?_
    by_contra hin
    exact h (hq ▸ loadWrites_imem (by omega) (by omega))
  case tag =>
    refine (tag_loadProgram (s.blk b) c o _ d.template a).trans (if_neg fun ⟨hlo, hhi⟩ => ?_)
    exact h (hq ▸ loadWrites_tag hlo hhi)
  case out =>
    obtain ⟨-, hout⟩ := ungrouped_of_not_loadWrites h (.inl hq)
    refine (out_initDirections _ d p).trans ?_
    simp only [hout, Bool.false_eq_true, if_false]
    rfl
  case oe =>
    obtain ⟨hin, hout⟩ := ungrouped_of_not_loadWrites h (.inr (.inl hq))
    refine (oe_initDirections _ d p).trans ?_
    simp only [hin, hout, Bool.false_eq_true, if_false]
    rfl
  case chan =>
    rw [chan_modChan, if_neg]
    · rfl
    · rintro rfl
      exact h (.inl hq)

end

/-! ### CONFIGURE (41_configurator.md R101 to R109) -/

/-- A CONFIGURE of channel `c` of block `b` with the descriptor `d` of `cfg` that none of the refusals of R108 stops. -/
structure Configurable (b c : Nat) (d : DescWords) (cfg : ChanCfg) (s : State) : Prop where
  decodes : decodeDescriptor d = some cfg
  unowned : (s.chan b c).owner = .none
  groups : groupsLegal s.par cfg = true
  pins : templatePinsOk s.par cfg = true

theorem Configurable.effConfigure_load {b c o : Nat} {d : DescWords} {cfg : ChanCfg} {s : State}
    (h : Configurable b c d cfg s)
    (ho : chooseOffset s.par s.tick (freeOffsets s.par (s.blk b) (s.par.len cfg.template)) = some o) :
    effConfigure b c d s = .done (configureAt s b c o cfg) (.binding ⟨b, c, { cfg with offset := o }⟩) none := by
  simp [effConfigure, h.decodes, h.unowned, h.groups, h.pins, ho]

theorem Configurable.effConfigure_noSpace {b c : Nat} {d : DescWords} {cfg : ChanCfg} {s : State}
    (h : Configurable b c d cfg s) (hno : freeOffsets s.par (s.blk b) (s.par.len cfg.template) = []) :
    effConfigure b c d s = .done (disableChannel s b c) (.binding ⟨b, c, cfg⟩) none := by
  simp [effConfigure, h.decodes, h.unowned, h.groups, h.pins, hno]

/-- Settles O7: the allocation picks one of the free ranges, a load at it writes the pieces of `LoadWrites` and no other, and
of these the reactions could move the channel only, which is disabled. -/
theorem configureLoads : Obligations.ConfigureLoads := by
  rintro b c d s cfg hready hdec howner hgroups hpins hmem ⟨o', hspace⟩
  have hcfg : Configurable b.toNat c.toNat d cfg s := ⟨hdec, howner, hgroups, hpins⟩
  obtain ⟨o, hchoose, hoffset⟩ :=
    chooseOffset_mem (par := s.par) (t := s.tick) (List.ne_nil_of_mem (mem_freeOffsets.mpr hspace))
  obtain ⟨hfits, hfree⟩ := mem_freeOffsets.mp hoffset
  have heff : effectOf (.configure b c d) s = _ := (ifProcessor_ready hready _).trans (hcfg.effConfigure_load hchoose)
  obtain ⟨t, hexec, hresult, hrecords, hframe, hkept⟩ :=
    exec_plain (LoadWrites s b.toNat c.toNat o cfg) heff rfl rfl rfl rfl (same_configureAt hmem)
  have himem (a : Nat) : readWord (t.blk b.toNat).imem a = _ := readWord_congr (fun x => hkept (.imem b.toNat x)) a
  have hword (k : Nat) (hk : k < s.par.len cfg.template) : (t.blk b.toNat).tag (o + k) = .used c.toNat :=
    (hkept (.tag b.toNat (o + k))).trans ((tag_configureAt ..).trans (if_pos ⟨rfl, by omega, by omega⟩))
  have hchan := (chan_configureAt s b.toNat c.toNat o cfg b.toNat c.toNat).trans (if_pos ⟨rfl, rfl⟩)
  refine ⟨o, t, hexec, hresult, hfits, fun k hk => ⟨hfree k hk, hword k hk, ?_⟩, ?_, fun p => ?_, fun p => ?_, fun p => ?_,
    hrecords, hframe⟩
  · rw [himem, imem_configureAt, if_pos rfl]
    exact readWord_writeWords hmem _ _ _ _ hk
  · exact ((hkept (.chan b.toNat c.toNat)).of_disabled (by rw [hchan]; rfl)).trans hchan
  · exact (hkept (.oe b.toNat p)).trans (oe_configureAt ..)
  · exact (out_exact (hkept (.out b.toNat p))).trans (out_configureAt ..)
  · exact (hkept (.pin p)).trans (pin_configureAt ..)

/-- Settles O8: with no free range the allocation fails, the one write is to `enabled`, and a disabled channel does not react. -/
theorem configureExhausted : Obligations.ConfigureExhausted := by
  intro b c d s cfg hready hdec howner hgroups hpins hfull
  have hcfg : Configurable b.toNat c.toNat d cfg s := ⟨hdec, howner, hgroups, hpins⟩
  have hno : freeOffsets s.par (s.blk b.toNat) (s.par.len cfg.template) = [] := by
    refine List.eq_nil_iff_forall_not_mem.mpr fun o ho => ?_
    obtain ⟨hfits, hfree⟩ := mem_freeOffsets.mp ho
    obtain ⟨k, hk, hused⟩ := hfull o hfits
    exact hused (hfree k hk)
  have heff : effectOf (.configure b c d) s = _ := (ifProcessor_ready hready _).trans (hcfg.effConfigure_noSpace hno)
  obtain ⟨t, hexec, hresult, hrecords, hframe, hkept⟩ :=
    exec_plain (fun q => q = .chan b.toNat c.toNat) heff rfl rfl rfl rfl same_modChan
  have hchan := state_chan_modChan_self s b.toNat c.toNat fun ch => { ch with enabled := false }
  obtain ⟨hoffset, -⟩ := decodeDescriptor_spec hdec
  exact ⟨t, hexec, hoffset, hresult, ((hkept (.chan b.toNat c.toNat)).of_disabled (by rw [disableChannel, hchan])).trans hchan,
    hrecords, hframe⟩

/-- Settles O9: a descriptor that does not decode makes the operation ill formed; the other refusals are the checks of CONFIGURE
in their order. -/
theorem configureRefused : Obligations.ConfigureRefused := by
  intro b c d s
  have refuse {r : Reason} (hready : Ready (.configure b c d) s) (h : effConfigure b.toNat c.toNat d s = .refuse r) :
      exec (.configure b c d) s = .next (s.afterRefusal r) := exec_refuse ((ifProcessor_ready hready _).trans h)
  refine ⟨fun hdec => exec_refuse ?_, fun cfg hready hdec => ⟨fun howned => refuse hready ?_,
    fun howner hgroups => refuse hready ?_, fun howner hgroups hpins => refuse hready ?_⟩⟩
  · exact if_pos (by simp [Instr.wf, hdec])
  · simp [effConfigure, hdec, howned]
  · simp [effConfigure, hdec, howner, hgroups]
  · simp [effConfigure, hdec, howner, hgroups, hpins]

/-! ### ENABLE and DISABLE (41_configurator.md R112 to R115) -/

/-- Write `enabled` of every channel that the mask names, in one step. -/
def switchChannels (b : Nat) (m : Half) (v : Bool) (s : State) : State :=
  (maskChannels s.par m).foldl (fun t c => t.modChan b c fun ch => { ch with enabled := v }) s

section

variable {s : State} {b : Nat} {m : Half} {v : Bool}

theorem effDisable_eq : effDisable b m s = .done (switchChannels b m false s) .none none := rfl

/-- The effect of ENABLE when every channel of the mask has a binding (41_configurator.md R112). -/
theorem effEnable_owned (howned : ∀ c ∈ maskChannels s.par m, (s.chan b c).owner ≠ .none) :
    effEnable b m s = .done (switchChannels b m true s) .none
      (if (maskChannels s.par m).any fun c => decide ((s.chan b c).cfg.template = .waite) then some b else none) := by
  have hnone : (maskChannels s.par m).find? (fun c => decide ((s.chan b c).owner = .none)) = none :=
    List.find?_eq_none.mpr fun c hc => by simpa using howned c hc
  rw [effEnable, hnone]
  rfl

theorem switchChannels_fields : ∃ bl, switchChannels b m v s = { s with blks := bl } := fold_fields ..

theorem chan_switchChannels (hm : chanMaskOk s.par m = true) (c : Nat) :
    (switchChannels b m v s).chan b c = if m.getLsbD c = true then { s.chan b c with enabled := v } else s.chan b c := by
  rw [switchChannels, chan_fold (f := fun ch => { ch with enabled := v }) (fun _ => rfl)]
  simp [mem_maskChannels hm]

theorem same_switchChannels (hm : chanMaskOk s.par m = true) (q : Part)
    (h : ¬ ∃ c : Nat, m.getLsbD c = true ∧ q = .chan b c) : q.same s (switchChannels b m v s) :=
  same_fold _ _ s b q fun c hc hq => h ⟨c, (mem_maskChannels hm c).mp hc, hq⟩

/-- **An operation that switches the channels of a mask** completes, writes their `enabled` bits and nothing else. -/
theorem exec_switch {i : Instr} {wrote : Option Nat} (hm : chanMaskOk s.par m = true)
    (he : effectOf i s = .done (switchChannels b m v s) .none wrote) :
    ∃ t, exec i s = .next t ∧ t.result = .none ∧
      (∀ c : Nat, m.getLsbD c = true →
        ChannelReacts t wrote b { s.chan b c with enabled := v } (t.chan b c)) ∧
      RecordsKept i s t ∧ Frame s t wrote fun q => ∃ c : Nat, m.getLsbD c = true ∧ q = .chan b c := by
  obtain ⟨bl, hbl⟩ := switchChannels_fields (s := s) (b := b) (m := m) (v := v)
  obtain ⟨t, hexec, hresult, hrecords, hframe, hkept⟩ :=
    exec_plain (fun q => ∃ c : Nat, m.getLsbD c = true ∧ q = .chan b c) he (by rw [hbl]) (by rw [hbl]) (by rw [hbl])
      (by rw [hbl]) (same_switchChannels hm) (fun h => .inl (by rwa [hbl] at h))
  refine ⟨t, hexec, hresult, fun c hc => ?_, hrecords, hframe⟩
  have hchan : ChannelReacts t wrote b ((switchChannels b m v s).chan b c) (t.chan b c) := hkept (.chan b c)
  rwa [chan_switchChannels hm, if_pos hc] at hchan

end

/-- Settles O10: ENABLE switches the channels of its mask on, and where the mask names an enforcer the end of the step makes
the enforcers of the block that are then enabled follow their flag. -/
theorem enableStarts : Obligations.EnableStarts := by
  rintro b m s wrote hready howned rfl
  obtain ⟨-, hm⟩ := Bool.and_eq_true_iff.mp hready.1
  have heff : effectOf (.enable b m) s = _ :=
    (ifProcessor_ready hready _).trans (effEnable_owned fun c hc => howned c ((mem_maskChannels hm c).mp hc))
  obtain ⟨t, hexec, hresult, hchan, hrecords, hframe⟩ := exec_switch hm heff
  refine ⟨t, hexec, hresult, fun c hc => ⟨?_, hchan c hc⟩, fun c hwrote hon howner htemplate hpc => ?_, hrecords, hframe⟩
  · rw [(hchan c hc).2]
  · obtain rfl : t = _ := by injection hexec.symm.trans (exec_next heff)
    have hu : (switchChannels b.toNat m true s).chan b.toNat c = { s.chan b.toNat c with enabled := true } := by
      rw [chan_switchChannels hm]
      split
      · rfl
      · next hc => rw [← hon.resolve_left hc]
    rw [hwrote]
    exact settle_follows (by rw [hu]) (by rw [hu]; exact howner) (by rw [hu]; exact htemplate) (by rw [hu]) hpc

/-- Settles O12: DISABLE switches the channels of its mask off, and a disabled channel does not react. -/
theorem disableStops : Obligations.DisableStops := by
  intro b m s hready
  obtain ⟨-, hm⟩ := Bool.and_eq_true_iff.mp hready.1
  have heff : effectOf (.disable b m) s = _ := (ifProcessor_ready hready _).trans effDisable_eq
  obtain ⟨t, hexec, hresult, hchan, hrecords, hframe⟩ := exec_switch hm heff
  exact ⟨t, hexec, hresult, fun c hc => (hchan c hc).of_disabled rfl, hrecords, hframe⟩

end Sys2Proof.Machine
end

section
/-! The pin binder (spec/42_pin_binder.md R140 to R147): the one step of an operation that writes pins or reads them, and what
the codes of the encoding name (30_encoding.md R87). -/

namespace Sys2Proof.Machine

section

variable {i : Instr} {s : State}

/-! ### An operation on pins that exist -/

theorem onPin_of_lt {p : Nat} (hp : p < s.par.numGpio) (e : Effect) : onPin s p e = e := if_pos hp

theorem onBus_of_lt (hbus : s.par.pins.d0 + 7 < s.par.numGpio) (e : Effect) : onBus s e = e := onPin_of_lt hbus e

/-- **An operation that changes one pin** completes, and no reaction touches a pin. -/
theorem exec_modPin {p : Nat} {f : Pin → Pin} (he : effectOf i s = .done (s.modPin p f) .none none) :
    ∃ t, exec i s = .next t ∧ t.result = .none ∧ t.pin p = f (s.pin p) ∧
      RecordsKept i s t ∧ Frame s t none fun q => q = .pin p := by
  obtain ⟨t, hexec, hresult, hrecords, hframe, hkept⟩ := exec_plain (· = .pin p) he rfl rfl rfl rfl same_modPin
  have hpin : t.pin p = (s.modPin p f).pin p := hkept (.pin p)
  exact ⟨t, hexec, hresult, hpin.trans ((pin_modPin ..).trans (if_pos rfl)), hrecords, hframe⟩

/-- **An operation that changes a run of pins** completes in one step, and no reaction touches a pin. -/
theorem exec_modPins {base n : Nat} {f : Nat → Pin → Pin} (he : effectOf i s = .done (s.modPins base n f) .none none) :
    ∃ t, exec i s = .next t ∧ t.result = .none ∧ (∀ k, k < n → t.pin (base + k) = f k (s.pin (base + k))) ∧
      RecordsKept i s t ∧ Frame s t none fun q => ∃ k, k < n ∧ q = .pin (base + k) := by
  obtain ⟨t, hexec, hresult, hrecords, hframe, hkept⟩ :=
    exec_plain (fun q => ∃ k, k < n ∧ q = .pin (base + k)) he rfl rfl rfl rfl same_modPins
  refine ⟨t, hexec, hresult, fun k hk => ?_, hrecords, hframe⟩
  have hpin : t.pin (base + k) = (s.modPins base n f).pin (base + k) := hkept (.pin (base + k))
  rw [hpin, pin_modPins, if_pos (by omega), Nat.add_sub_cancel_left]

/-- **An operation that only returns a value** completes and writes nothing. -/
theorem exec_returns {r : Result} (he : effectOf i s = .done s r none) :
    ∃ t, exec i s = .next t ∧ t.result = r ∧ RecordsKept i s t ∧ Frame s t none nothing := by
  obtain ⟨t, hexec, hresult, hrecords, hframe, -⟩ := exec_plain nothing he rfl rfl rfl rfl fun q _ => same_self q
  exact ⟨t, hexec, hresult, hrecords, hframe⟩

end

/-! ### The codes of the encoding (30_encoding.md R87) -/

theorem pinFuncOf_of_code {par : Params} {f : Byte} {g : PinFunc}
    (h : (f = 0 ∧ g = .null) ∨ (f = 1 ∧ g = .sio) ∨ ∃ k, f.toNat = 2 + k ∧ k < par.numBlocks ∧ g = .pio k) :
    pinFuncOf par f = some g := by
  rcases h with ⟨rfl, rfl⟩ | ⟨rfl, rfl⟩ | ⟨k, hf, hk, rfl⟩
  · rfl
  · rfl
  · rw [pinFuncOf, hf, if_neg (by omega), if_neg (by omega), if_pos (by omega), Nat.add_sub_cancel_left]

theorem pullOf_of_code {code : BitVec 2} {u : Pull}
    (h : (code = 0 ∧ u = .none) ∨ (code = 1 ∧ u = .up) ∨ (code = 2 ∧ u = .down)) : pullOf code = some u := by
  rcases h with ⟨rfl, rfl⟩ | ⟨rfl, rfl⟩ | ⟨rfl, rfl⟩ <;> rfl

/-! ### The statements -/

/-- Settles O20: each operation is one change of its pin, of the field that its code names a value of. -/
theorem pinWrites : Obligations.PinWrites := by
  intro p s hp
  refine ⟨fun f g hready hcode => exec_modPin (f := fun q => { q with func := g }) ?setFunc,
    fun oe hready => exec_modPin (f := fun q => { q with sioOe := oe }) ?setDir,
    fun v hready => exec_modPin (f := fun q => { q with sioOut := v }) ?put,
    fun code u hready hcode => exec_modPin (f := fun q => { q with pull := u }) ?setPull⟩
  case setFunc =>
    refine (ifProcessor_ready hready _).trans ?_
    rw [effGpioSetFunc, pinFuncOf_of_code hcode]
    exact onPin_of_lt hp _
  case setDir | put => exact (ifProcessor_ready hready _).trans (onPin_of_lt hp _)
  case setPull =>
    refine (ifProcessor_ready hready _).trans ?_
    rw [effGpioSetPull, pullOf_of_code hcode]
    exact onPin_of_lt hp _

/-- Settles O21: a read returns the level of R32, case by case, and a bit of the bus byte is the level of its line. -/
theorem pinReads : Obligations.PinReads := by
  refine ⟨fun p s hready hp => ?_, fun s hready hbus => ?_⟩
  · have heff : effectOf (.gpioGet p) s = _ := (ifProcessor_ready hready _).trans (onPin_of_lt hp _)
    obtain ⟨t, hexec, hresult, hrecords, hframe⟩ := exec_returns heff
    exact ⟨t, _, hexec, hresult, fun _ => level_of_engine .sample, fun _ => level_of_env .sample,
      level_of_pull_up .sample, level_of_pull_down .sample, hrecords, hframe⟩
  · have heff : effectOf .busGet s = _ := (ifProcessor_ready hready _).trans (onBus_of_lt hbus _)
    obtain ⟨t, hexec, hresult, hrecords, hframe⟩ := exec_returns heff
    refine ⟨t, _, hexec, hresult, fun i hi => ?_, hrecords, hframe⟩
    have hbit : (dataByte s .sample).getLsbD i = level s .sample (s.par.pins.d0 + i) := byteOf_getLsbD _ i hi
    rw [hbit]
    exact ⟨fun _ => level_of_engine .sample, fun _ => level_of_env .sample,
      fun heng henv => ⟨level_of_pull_up .sample heng henv, level_of_pull_down .sample heng henv⟩⟩

/-- Settles O22: each operation is one change of the run of eight pins from D0. -/
theorem busWrites : Obligations.BusWrites := by
  refine fun s hbus => ⟨fun oe hready => ?_, fun v hready => ?_⟩
  · have heff : effectOf (.busSetDir oe) s = _ := (ifProcessor_ready hready _).trans (onBus_of_lt hbus _)
    exact exec_modPins heff
  · have heff : effectOf (.busPut v) s = _ := (ifProcessor_ready hready _).trans (onBus_of_lt hbus _)
    exact exec_modPins heff

end Sys2Proof.Machine
end

section
/-! The processor's FIFO and interrupt-flag operations (spec/43_fifo_irq.md R160 to R169, R175, R176): what each does in one step
and what it leaves. -/

namespace Sys2Proof.Machine

section

variable {i : Instr} {s : State}

/-! ### The shapes of these operations -/

theorem blockingOp_task (htask : s.ctx = .task) (e : Effect) : blockingOp s e = e := if_pos htask

/-- **An operation that changes one channel** completes, and only a reaction of that channel can follow. -/
theorem exec_modChan {b c : Nat} {f : Channel → Channel} {r : Result}
    (he : effectOf i s = .done (s.modChan b c f) r none) :
    ∃ t, exec i s = .next t ∧ t.result = r ∧ ChannelReacts t none b (f (s.chan b c)) (t.chan b c) ∧
      RecordsKept i s t ∧ Frame s t none fun q => q = .chan b c := by
  obtain ⟨t, hexec, hresult, hrecords, hframe, hkept⟩ := exec_plain (· = .chan b c) he rfl rfl rfl rfl same_modChan
  have hchan : ChannelReacts t none b ((s.modChan b c f).chan b c) (t.chan b c) := hkept (.chan b c)
  rw [state_chan_modChan_self] at hchan
  exact ⟨t, hexec, hresult, hchan, hrecords, hframe⟩

theorem same_inte {b : Nat} {m : Half} (q : Part) (h : q ≠ .inte b) :
    q.same s (s.modBlk b fun k => { k with inte := m }) :=
  same_modBlk q (fun _ _ => rfl) (fun _ _ => rfl) (fun _ => rfl) (fun hq => absurd hq h) (fun _ _ => rfl) (fun _ _ => rfl)
    (fun _ _ => rfl) fun _ _ => rfl

theorem same_irqEnabled {v : Bool} (q : Part) (h : q ≠ .irqEnabled) : q.same s { s with irqEnabled := v } := by
  cases q with
  | irqEnabled => exact absurd rfl h
  | _ => simp [Part.same, State.blk, State.chan, State.pin, State.envLine]

/-- **An operation that writes the flags of a block** completes, and no reaction touches a flag. -/
theorem exec_modFlags {b : Nat} {f : Block → Block} (he : effectOf i s = .done (s.modBlk b f) .none (some b))
    (hsame : ∀ q : Part, q ≠ .flags b → q.same s (s.modBlk b f)) :
    ∃ t, exec i s = .next t ∧ t.result = .none ∧ (t.blk b).flags = (f (s.blk b)).flags ∧
      RecordsKept i s t ∧ Frame s t (some b) fun q => q = .flags b := by
  obtain ⟨t, hexec, hresult, hrecords, hframe, hkept⟩ := exec_plain (· = .flags b) he rfl rfl rfl rfl hsame
  have hflags : (t.blk b).flags = ((s.modBlk b f).blk b).flags := hkept (.flags b)
  rw [blk_modBlk_self] at hflags
  exact ⟨t, hexec, hresult, hflags, hrecords, hframe⟩

end

/-! ### The flags of a block (43_fifo_irq.md R165) -/

theorem flag_clearFlags (k : Block) (m : Half) (i : Nat) : (k.clearFlags m).flag i = (k.flag i && !m.getLsbD i) := by
  by_cases hi : i < 16
  · simp [Block.clearFlags, Block.flag, hi]
  · simp [Block.flag, BitVec.getLsbD_of_ge _ i (Nat.le_of_not_lt hi)]

theorem flag_raiseFlags (k : Block) (m : Half) (i : Nat) : (k.raiseFlags m).flag i = (k.flag i || m.getLsbD i) :=
  BitVec.getLsbD_or

/-- The mask of a flag names no other flag. -/
theorem eq_of_flagBit {i j : Nat} (h : (flagBit i).getLsbD j = true) : j = i := by
  simp only [flagBit, BitVec.getLsbD_shiftLeft, BitVec.getLsbD_one, Bool.and_eq_true, decide_eq_true_eq,
    Bool.not_eq_true', decide_eq_false_iff_not] at h
  omega

theorem flag_congr {k k' : Block} (h : k'.flags = k.flags) (i : Nat) : k'.flag i = k.flag i :=
  congrArg (BitVec.getLsbD · i) h

/-! ### The FIFOs (43_fifo_irq.md R160 to R163, R176) -/

/-- Settles O13: the three cases of TX_PUSH are the cases of its effect. -/
theorem txPushAppends : Obligations.TxPushAppends := by
  intro b c w s hready
  have heff : effectOf (.txPush b c w) s = _ := (ifProcessor_ready hready.1 _).trans (blockingOp_task hready.2 _)
  refine ⟨fun howned hroom => ?_, fun howned hfull => ?_, fun hfree => ?_⟩
  · rw [if_neg howned, if_pos hroom] at heff
    exact exec_modChan heff
  · rw [if_neg howned, if_neg (Nat.not_lt.mpr hfull)] at heff
    exact exec_hold heff
  · rw [if_pos hfree] at heff
    exact exec_raise heff

/-- Settles O14: a pop takes the head of RX, and there is none to take from an empty one. -/
theorem rxPopReturns : Obligations.RxPopReturns := by
  intro b c s hready
  have heff : effectOf (.rxPop b c) s = _ := (ifProcessor_ready hready.1 _).trans (blockingOp_task hready.2 _)
  refine ⟨fun w ws hrx => ?_, fun hempty => ?_⟩
  · rw [hrx] at heff
    exact exec_modChan heff
  · rw [hempty] at heff
    exact exec_hold heff

/-- Settles O15: CH_WAIT_IDLE writes nothing, and is held exactly while its condition fails. -/
theorem chWaitIdleWaits : Obligations.ChWaitIdleWaits := by
  intro b c s hready
  have heff : effectOf (.chWaitIdle b c) s = _ := (ifProcessor_ready hready.1 _).trans (blockingOp_task hready.2 _)
  refine ⟨fun howned hentry hempty => ?_, fun howned hbusy => ?_, fun hfree => ?_⟩
  · rw [if_neg howned, if_pos ⟨hentry, hempty⟩] at heff
    exact exec_returns heff
  · rw [if_neg howned, if_neg (not_and_or.mpr hbusy)] at heff
    exact exec_hold heff
  · rw [if_pos hfree] at heff
    exact exec_raise heff

/-! ### The interrupt operations (43_fifo_irq.md R166 to R169, R175) -/

/-- Settles O17: each operation writes the flags of its block, bit by bit as its mask says. -/
theorem flagWrites : Obligations.FlagWrites := by
  refine fun b m s => ⟨fun hready => ?_, fun hready => ?_⟩
  · have heff : effectOf (.irqClear b m) s = _ := ifProcessor_ready hready _
    obtain ⟨t, hexec, hresult, hflags, hrecords, hframe⟩ := exec_modFlags heff same_clearFlags
    exact ⟨t, hexec, hresult, fun i => (flag_congr hflags i).trans (flag_clearFlags ..), hrecords, hframe⟩
  · have heff : effectOf (.irqForce b m) s = _ := ifProcessor_ready hready _
    obtain ⟨t, hexec, hresult, hflags, hrecords, hframe⟩ := exec_modFlags heff same_raiseFlags
    exact ⟨t, hexec, hresult, fun i => (flag_congr hflags i).trans (flag_raiseFlags ..), hrecords, hframe⟩

/-- Settles O18: IRQ_READ only returns the status word, whose bits are the flags. -/
theorem irqReadStatus : Obligations.IrqReadStatus := by
  intro b s hready
  have heff : effectOf (.irqRead b) s = _ := ifProcessor_ready hready _
  obtain ⟨t, hexec, hresult, hrecords, hframe⟩ := exec_returns heff
  exact ⟨t, _, hexec, hresult, irqStatus_isStatus _ _, hrecords, hframe⟩

/-- A handler waits while interrupts are disabled (46_engine_sequences.md R272). -/
theorem effHandler_of_disabled {b : Nat} {k : Kind} {s : State} (h : s.irqEnabled = false) : effHandler b k s = .hold := by
  have hno : canTake s b (kindFlag s.par k) (kindHandler k) = false := by simp [canTake, h]
  exact if_neg (Bool.eq_false_iff.mp hno)

/-- Settles O19: each operation is one write that no reaction touches, and the interrupt enable guards every handler. -/
theorem irqRouting : Obligations.IrqRouting := by
  refine ⟨fun b m s hready => ?_, fun v s hready => ?_, fun b s hdisabled => ⟨fun hready => ?_, fun hready => ?_⟩⟩
  · have heff : effectOf (.irqInte b m) s = _ := ifProcessor_ready hready _
    obtain ⟨t, hexec, hresult, hrecords, hframe, hkept⟩ := exec_plain (· = .inte b.toNat) heff rfl rfl rfl rfl same_inte
    have hinte : (t.blk b.toNat).inte = ((s.modBlk b.toNat fun k => { k with inte := m }).blk b.toNat).inte :=
      hkept (.inte b.toNat)
    rw [blk_modBlk_self] at hinte
    exact ⟨t, hexec, hresult, fun i => congrArg (BitVec.getLsbD · i) hinte, hrecords, hframe⟩
  · have heff : effectOf (.irqGlobal v) s = _ := ifProcessor_ready hready _
    obtain ⟨t, hexec, hresult, hrecords, hframe, hkept⟩ := exec_plain (· = .irqEnabled) heff rfl rfl rfl rfl same_irqEnabled
    exact ⟨t, hexec, hresult, hkept .irqEnabled, hrecords, hframe⟩
  · exact exec_hold ((ifProcessor_ready hready _).trans (effHandler_of_disabled hdisabled))
  · exact exec_hold ((ifProcessor_ready hready _).trans (effHandler_of_disabled hdisabled))

end Sys2Proof.Machine
end

section
/-! The shift registers (spec/43_fifo_irq.md R164, R170 to R173): every rule bit by bit. -/

namespace Sys2Proof.Machine

/-- The `n` low bits of a word. -/
theorem getLsbD_lowBits (v : Word) (n k : Nat) :
    (v &&& BitVec.ofNat 32 (2 ^ n - 1)).getLsbD k = (decide (k < n) && v.getLsbD k) := by
  rw [BitVec.getLsbD_and, BitVec.getLsbD_ofNat, Nat.testBit_two_pow_sub_one, Bool.and_comm]
  by_cases hk : k < 32
  · simp [hk]
  · simp [BitVec.getLsbD_of_ge _ k (Nat.le_of_not_lt hk)]

/-! ### IN (43_fifo_irq.md R170, R171) -/

section

variable (ch : Channel) (v : Word) {n : Nat}

/-- With right shift the register moves down and the `n` bits come in at its top. -/
theorem isr_shiftIn_right (hn : n ≤ 32) (hright : ch.cfg.inShift.right = true) {i : Nat} (hi : i < 32) :
    (shiftIn ch v n).isr.getLsbD i = if i + n < 32 then ch.isr.getLsbD (i + n) else v.getLsbD (i + n - 32) := by
  have hisr : (shiftIn ch v n).isr = ch.isr >>> n ||| (v &&& BitVec.ofNat 32 (2 ^ n - 1)) <<< (32 - n) := if_pos hright
  rw [hisr, BitVec.getLsbD_or, BitVec.getLsbD_ushiftRight, BitVec.getLsbD_shiftLeft, getLsbD_lowBits, Nat.add_comm n i]
  split
  · next hin => simp [show i < 32 - n by omega]
  · next hout =>
    rw [BitVec.getLsbD_of_ge ch.isr _ (by omega), show i - (32 - n) = i + n - 32 by omega]
    simp [hi, show ¬ i < 32 - n by omega, show i + n - 32 < n by omega]

/-- With left shift the register moves up and the `n` bits come in at its bottom. -/
theorem isr_shiftIn_left (hleft : ¬ ch.cfg.inShift.right = true) {i : Nat} (hi : i < 32) :
    (shiftIn ch v n).isr.getLsbD i = if i < n then v.getLsbD i else ch.isr.getLsbD (i - n) := by
  have hisr : (shiftIn ch v n).isr = ch.isr <<< n ||| (v &&& BitVec.ofNat 32 (2 ^ n - 1)) := if_neg hleft
  rw [hisr, BitVec.getLsbD_or, BitVec.getLsbD_shiftLeft, getLsbD_lowBits]
  split <;> simp [*]

/-- A sample that pushes. -/
theorem sampleIn_of_due (hdue : pushDue (shiftIn ch v n) = true) :
    sampleIn ch v n = { ch with rx := ch.rx ++ [(shiftIn ch v n).isr], isr := 0, isrCount := 0 } := if_pos hdue

/-- A sample that does not reach the threshold. -/
theorem sampleIn_of_not_due (hdue : ¬ pushDue (shiftIn ch v n) = true) : sampleIn ch v n = shiftIn ch v n := if_neg hdue

theorem pushDue_shiftIn_iff :
    pushDue (shiftIn ch v n) = true ↔
      ch.cfg.inShift.auto = false ∨ ch.cfg.inShift.bits ≤ min 32 (ch.isrCount + n) := by
  rw [pushDue, Bool.or_eq_true, Bool.not_eq_true', decide_eq_true_eq]
  exact Iff.rfl

end

/-! ### The extraction (43_fifo_irq.md R164) -/

/-- The extraction gives the `n` high bits with right shift and the `n` low bits with left shift. -/
theorem extractSample_getLsbD {sh : ShiftCfg} (hbits : sh.bits ≤ 32) (w : Word) (i : Nat) :
    (extractSample sh w).getLsbD i
      = (decide (i < sh.bits) && w.getLsbD (if sh.right then 32 - sh.bits + i else i)) := by
  unfold extractSample
  split
  · rw [BitVec.getLsbD_ushiftRight]
    by_cases hi : i < sh.bits
    · simp [hi]
    · simp [hi, BitVec.getLsbD_of_ge w (32 - sh.bits + i) (by omega)]
  · exact getLsbD_lowBits ..

/-! ### A byte sampled into an empty register -/

section

variable {ch : Channel} (v : Byte) {auto right : Bool}

theorem pushDue_byte (hcount : ch.isrCount = 0) (hcfg : ch.cfg.inShift = ⟨8, right, auto⟩) (w : Word) :
    pushDue (shiftIn ch w 8) = true := by
  rw [pushDue_shiftIn_iff, hcount, hcfg]
  exact .inr (Nat.le_refl 8)

/-- With right shift the byte is at the top of the register. -/
theorem isr_shiftIn_byte_right (hempty : ch.isr = 0) (hright : ch.cfg.inShift.right = true) :
    (shiftIn ch (v.setWidth 32) 8).isr = v.setWidth 32 <<< 24 := by
  refine BitVec.eq_of_getLsbD_eq fun i hi => ?_
  rw [isr_shiftIn_right ch _ (by decide) hright hi, hempty, BitVec.getLsbD_shiftLeft]
  split
  · next hlow => simp [show i < 24 by omega]
  · next hhigh => simp [hi, show ¬ i < 24 by omega, show i + 8 - 32 = i - 24 by omega]

/-- With left shift the byte is at the bottom of the register. -/
theorem isr_shiftIn_byte_left (hempty : ch.isr = 0) (hleft : ¬ ch.cfg.inShift.right = true) :
    (shiftIn ch (v.setWidth 32) 8).isr = v.setWidth 32 := by
  refine BitVec.eq_of_getLsbD_eq fun i hi => ?_
  rw [isr_shiftIn_left ch _ hleft hi, hempty]
  split
  · rfl
  · next hhigh => simp [BitVec.getLsbD_of_ge v i (by omega)]

/-- The extraction gives a byte at the top of a word back. -/
theorem extractSample_byte_right : extractSample ⟨8, true, auto⟩ (v.setWidth 32 <<< 24) = v.setWidth 32 := by
  refine BitVec.eq_of_getLsbD_eq fun i hi => ?_
  rw [extractSample_getLsbD (by show 8 ≤ 32; decide)]
  by_cases hlow : i < 8
  · simp [hlow, hi, show 24 + i < 32 by omega]
  · simp [hlow, BitVec.getLsbD_of_ge v i (by omega)]

/-- The extraction gives a byte at the bottom of a word back. -/
theorem extractSample_byte_left : extractSample ⟨8, false, auto⟩ (v.setWidth 32) = v.setWidth 32 := by
  refine BitVec.eq_of_getLsbD_eq fun i hi => ?_
  rw [extractSample_getLsbD (by show 8 ≤ 32; decide)]
  by_cases hlow : i < 8
  · simp [hlow]
  · simp [hlow, BitVec.getLsbD_of_ge v i (by omega)]

end

/-! ### OUT and the byte of a write cycle (43_fifo_irq.md R172, R173; 45_master_fsm.md R252) -/

/-- OUT gives the `n` low bits with right shift and the `n` high bits with left shift. -/
theorem outBits_getLsbD (ch : Channel) (n i : Nat) :
    (outBits ch n).getLsbD i
      = (decide (i < n) && ch.osr.getLsbD (if ch.cfg.outShift.right then i else 32 - n + i)) := by
  unfold outBits
  split
  · exact getLsbD_lowBits ..
  · rw [BitVec.getLsbD_ushiftRight]
    by_cases hi : i < n
    · simp [hi]
    · simp [hi, BitVec.getLsbD_of_ge ch.osr (32 - n + i) (by omega)]

/-- The bits that OUT leaves move by `n`, with zeros after them. -/
theorem osr_shiftOut_getLsbD (ch : Channel) (n : Nat) {i : Nat} (hi : i < 32) :
    (shiftOut ch n).osr.getLsbD i
      = if ch.cfg.outShift.right then decide (i + n < 32) && ch.osr.getLsbD (i + n)
        else decide (n ≤ i) && ch.osr.getLsbD (i - n) := by
  unfold shiftOut
  dsimp only
  split
  · rw [BitVec.getLsbD_ushiftRight, Nat.add_comm n i]
    by_cases hin : i + n < 32
    · simp [hin]
    · simp [hin, BitVec.getLsbD_of_ge ch.osr (i + n) (by omega)]
  · rw [BitVec.getLsbD_shiftLeft]
    by_cases hin : i < n
    · simp [hin, show ¬ n ≤ i by omega]
    · simp [hi, hin, show n ≤ i by omega]

/-- With right shift the byte of a write cycle is the low byte of its word. -/
theorem byteTaken_right {ch : Channel} (w : Word) (ws : List Word) (hright : ch.cfg.outShift.right = true) :
    byteTaken ch w ws = w.extractLsb' 0 8 := by
  refine BitVec.eq_of_getLsbD_eq fun i hi => ?_
  rw [byteTaken, BitVec.getLsbD_setWidth, outBits_getLsbD]
  simp [pullOsr, hright, hi]

/-- With left shift the byte of a write cycle is the high byte of its word. -/
theorem byteTaken_left {ch : Channel} (w : Word) (ws : List Word) (hleft : ch.cfg.outShift.right = false) :
    byteTaken ch w ws = w.extractLsb' 24 8 := by
  refine BitVec.eq_of_getLsbD_eq fun i hi => ?_
  rw [byteTaken, BitVec.getLsbD_setWidth, outBits_getLsbD]
  simp [pullOsr, hleft, hi]

theorem osr_takeByte_right {ch : Channel} (w : Word) (ws : List Word) (hright : ch.cfg.outShift.right = true) :
    (takeByte ch w ws).osr = w >>> 8 := if_pos hright

theorem osr_takeByte_left {ch : Channel} (w : Word) (ws : List Word) (hleft : ch.cfg.outShift.right = false) :
    (takeByte ch w ws).osr = w <<< 8 := if_neg (Bool.eq_false_iff.mp hleft)

/-- Settles O32: each rule is one of the lemmas above, the two directions apart. -/
theorem shiftRules : Obligations.ShiftRules := by
  refine ⟨fun ch v n _ hn => ⟨rfl, fun i hi => ?inBits⟩, fun ch v n _ _ => ⟨fun hdue => ?push, fun hauto hbelow => ?noPush⟩,
    fun ch v auto hisr hcount hcfg => ⟨?byteRight, ?byteRightBack⟩, fun ch v auto hisr hcount hcfg => ⟨?byteLeft, ?byteLeftBack⟩,
    fun sh w i _ hbits => extractSample_getLsbD hbits w i, fun ch v n right hwide hcount hcfg => ?below,
    fun ch n _ _ => ⟨rfl, fun i hi => ⟨outBits_getLsbD ch n i, osr_shiftOut_getLsbD ch n hi⟩⟩,
    fun ch w ws => ⟨rfl, rfl, fun hright => ⟨byteTaken_right w ws hright, osr_takeByte_right w ws hright⟩,
      fun hleft => ⟨byteTaken_left w ws hleft, osr_takeByte_left w ws hleft⟩⟩⟩
  case inBits =>
    split
    · next hright => exact isr_shiftIn_right ch v hn hright hi
    · next hleft => exact isr_shiftIn_left ch v hleft hi
  case push => exact sampleIn_of_due ch v ((pushDue_shiftIn_iff ch v).mpr hdue)
  case noPush =>
    refine sampleIn_of_not_due ch v fun hdue => ?_
    rcases (pushDue_shiftIn_iff ch v).mp hdue with hno | hreached
    · exact absurd (hauto.symm.trans hno) nofun
    · exact Nat.not_lt.mpr hreached hbelow
  case byteRight =>
    rw [sampleIn_of_due ch _ (pushDue_byte hcount hcfg _), isr_shiftIn_byte_right v hisr (by rw [hcfg])]
  case byteRightBack => rw [hcfg]; exact extractSample_byte_right v
  case byteLeft =>
    rw [sampleIn_of_due ch _ (pushDue_byte hcount hcfg _), isr_shiftIn_byte_left v hisr (by rw [hcfg]; nofun)]
  case byteLeftBack => rw [hcfg]; exact extractSample_byte_left v
  case below =>
    have hdue : ¬ pushDue (shiftIn ch (v.setWidth 32) 8) = true := by
      rw [pushDue_shiftIn_iff, hcount, hcfg]
      rintro (hno | hreached)
      · cases hno
      · exact absurd hreached (by show ¬ n ≤ 8; omega)
    rw [sampleIn_of_not_due ch _ hdue]
    exact ⟨rfl, by rw [shiftIn, hcount]; rfl⟩

end Sys2Proof.Machine
end

section
/-! Who writes the interrupt flags (spec/43_fifo_irq.md R165, R174): the block whose flags each operation writes, and which of
its flags it sets and clears. -/

namespace Sys2Proof.Machine

/-! ### What an effect that is done satisfies -/

/-- If the effect is done, its own writes, its result and the block whose flags it wrote satisfy `P`. -/
def Effect.IfDone (P : State → Result → Option Nat → Prop) : Effect → Prop
  | .done u r wrote => P u r wrote
  | .hold => True
  | .refuse _ => True
  | .raise _ => True

section

variable {P Q : State → Result → Option Nat → Prop} {s : State} {e : Effect}

theorem ifDone_ite {p : Prop} [Decidable p] {e' : Effect} (h : e.IfDone P) (h' : e'.IfDone P) :
    (if p then e else e').IfDone P := by
  split
  · exact h
  · exact h'

theorem ifDone_guarded {g : Bool} (h : e.IfDone P) : (guarded g e).IfDone P := ifDone_ite h trivial

theorem ifDone_onPin {p : Nat} (h : e.IfDone P) : (onPin s p e).IfDone P := ifDone_ite h trivial

theorem ifDone_blockingOp (h : e.IfDone P) : (blockingOp s e).IfDone P := ifDone_ite h trivial

theorem ifDone_masterCall (h : e.IfDone P) : (masterCall s e).IfDone P := ifDone_ite trivial (ifDone_ite trivial h)

theorem ifDone_ifProcessor {i : Instr} (h : e.IfDone P) : (ifProcessor i s e).IfDone P :=
  ifDone_ite trivial (ifDone_ite trivial h)

theorem ifDone_ifTask {i : Instr} (h : e.IfDone P) : (ifTask i s e).IfDone P := ifDone_ifProcessor (ifDone_ite h trivial)

theorem ifDone_ifChannel {i : Instr} {k : Template} {b c : Nat} (h : e.IfDone P) : (ifChannel i k b c s e).IfDone P :=
  ifDone_ite trivial (ifDone_ite trivial h)

theorem ifDone_ifRole {r : Role} (h : e.IfDone P) : (ifRole r s e).IfDone P := ifDone_ite h trivial

theorem ifDone_andThen {f : State → Result → State × Result} (h : e.IfDone Q)
    (hf : ∀ u r wrote, Q u r wrote → P (f u r).1 (f u r).2 wrote) : (e.andThen f).IfDone P := by
  cases e with
  | done u r wrote => exact hf u r wrote h
  | hold => trivial
  | refuse r => trivial
  | raise g => trivial

end

/-! ### The block whose flags an operation writes -/

/-- If the effect is done, `w` is the block whose flags it wrote. -/
def Effect.Marks (w : Option Nat) (e : Effect) : Prop := e.IfDone fun _ _ wrote => wrote = w

section

variable (s : State)

theorem marks_andThen {w : Option Nat} {e : Effect} {f : State → Result → State × Result} (h : e.Marks w) :
    (e.andThen f).Marks w := ifDone_andThen h fun _ _ _ => id

theorem marks_configure (b c : Nat) (d : DescWords) : (effConfigure b c d s).Marks none := by
  unfold effConfigure
  split
  · trivial
  refine ifDone_ite trivial (ifDone_ite trivial (ifDone_ite trivial ?_))
  split <;> rfl

theorem marks_txPush (b c : Nat) (w : Word) : (effTxPush b c w s).Marks none :=
  ifDone_blockingOp (ifDone_ite trivial (ifDone_ite rfl trivial))

theorem marks_rxPop (b c : Nat) : (effRxPop b c s).Marks none := by
  refine ifDone_blockingOp ?_
  split
  · trivial
  · rfl

theorem marks_chWaitIdle (b c : Nat) : (effChWaitIdle b c s).Marks none :=
  ifDone_blockingOp (ifDone_ite trivial (ifDone_ite rfl trivial))

theorem marks_gpioSetFunc (p : Nat) (f : Byte) : (effGpioSetFunc p f s).Marks none := by
  unfold effGpioSetFunc
  split
  · trivial
  · exact ifDone_onPin rfl

theorem marks_gpioSetPull (p : Nat) (u : BitVec 2) : (effGpioSetPull p u s).Marks none := by
  unfold effGpioSetPull
  split
  · trivial
  · exact ifDone_onPin rfl

theorem marks_wcdStart (b c : Nat) : (effWcdStart b c s).Marks none := by
  unfold effWcdStart
  split
  · trivial
  · exact ifDone_guarded rfl

theorem marks_register (b : Nat) (k : Kind) : (effRegister b k s).Marks none := ifDone_ite trivial rfl

theorem marks_handler (b : Nat) (k : Kind) : (effHandler b k s).Marks (some b) := ifDone_ite rfl trivial

/-- The releases are the only steps of a deferred handler that write a flag (46_engine_sequences.md R277, R279). -/
theorem marks_service {v : Service} (hread : v.next ≠ .readRelease) (hwrite : v.next ≠ .writeRelease) :
    (effService v s).Marks none := by
  rw [effService]
  cases hnext : v.next with
  | readRelease => exact absurd hnext hread
  | writeRelease => exact absurd hnext hwrite
  | writeSink => rfl
  | readDirOut | readPut | readDirIn | writeDirIn | writeSample => exact marks_andThen (ifDone_onPin rfl)

theorem marks_masterPush (b : Nat) (v : Byte) : (effMasterPush b v s).Marks none := by
  unfold effMasterPush
  split
  · rfl
  · exact marks_andThen (marks_txPush ..)

theorem marks_masterStep (m : MasterCall) : (effMasterStep m s).Marks none := by
  cases m with
  | readPop b => exact marks_andThen (marks_rxPop ..)
  | readReturn b w => exact ifDone_ite trivial rfl
  | writePush b v => exact marks_andThen (marks_txPush ..)
  | writeWait b => exact marks_andThen (marks_chWaitIdle ..)

theorem marks_init (m : Module) : (effInit m s).Marks none := ifDone_ite rfl (ifDone_ite trivial rfl)

theorem marks_dispatch : (effDispatch s).Marks none := by
  unfold effDispatch
  split
  · trivial
  · trivial
  · split
    · trivial
    · rfl

end

/-- **The block whose flags an operation writes** is the one `flagBlock` names; ENABLE, which writes no flag, is left out, since
it has the enforcers of its block react (log 25). -/
theorem effect_marks {i : Instr} (hi : ∀ b m, i ≠ .enable b m) (s : State) : (effectOf i s).Marks (flagBlock i) := by
  cases i with
  | enable b m => exact absurd rfl (hi b m)
  | configure b c d => exact ifDone_ifProcessor (marks_configure ..)
  | txPush b c w => exact ifDone_ifProcessor (marks_txPush ..)
  | rxPop b c => exact ifDone_ifProcessor (marks_rxPop ..)
  | chWaitIdle b c => exact ifDone_ifProcessor (marks_chWaitIdle ..)
  | disable | irqClear | irqRead | irqForce | irqInte | irqGlobal | post => exact ifDone_ifProcessor rfl
  | gpioSetFunc p f => exact ifDone_ifProcessor (marks_gpioSetFunc ..)
  | gpioSetPull p u => exact ifDone_ifProcessor (marks_gpioSetPull ..)
  | gpioSetDir | gpioPut | gpioGet | busSetDir | busPut | busGet => exact ifDone_ifProcessor (ifDone_onPin rfl)
  | wcdStart b c => exact ifDone_ifChannel (marks_wcdStart ..)
  | rdwFire | rdwRearm | wrwFire | wrwRearm | waiteAssert | waiteRelease | rcdStrobe | rcdSeewait | rcdSample | wcdSeewait
  | wcdFinish => exact ifDone_ifChannel (ifDone_guarded rfl)
  | hostRdBegin | hostSeeWait | hostRdEnd | hostWrBegin | hostWrEnd | perRdAck | perRdReady | perRdDone | perWrAck
  | perWrLatch | perWrDone => exact ifDone_ifRole (ifDone_guarded rfl)
  | register b k => exact ifDone_ifTask (marks_register ..)
  | isrRd b | isrWr b => exact ifDone_ifProcessor (marks_handler ..)
  | serviceRead b | serviceWrite b => exact ifDone_ifTask (ifDone_ite trivial (marks_service s nofun nofun))
  | masterRead b => exact ifDone_ifProcessor (ifDone_masterCall (marks_andThen rfl))
  | masterWrite b v => exact ifDone_ifProcessor (ifDone_masterCall (marks_masterPush ..))
  | periphInit | masterInit => exact ifDone_ifTask (marks_init ..)
  | dispatch => exact ifDone_ifTask (marks_dispatch ..)

/-! ### Writes that set and clear flags -/

/-- From `s` to `u` a flag changes only to a level that `may` allows. -/
def FlagsMove (may : Nat → Nat → Bool → Prop) (s u : State) : Prop :=
  ∀ b j, (u.blk b).flag j = (s.blk b).flag j ∨ may b j ((u.blk b).flag j)

section

variable {may : Nat → Nat → Bool → Prop} {s t : State}

theorem FlagsMove.refl (may : Nat → Nat → Bool → Prop) (s : State) : FlagsMove may s s := fun _ _ => .inl rfl

/-- Writes that leave the flags. -/
theorem FlagsMove.keep {u : State} (h : FlagsMove may s t) (hu : ∀ b, (u.blk b).flags = (t.blk b).flags) :
    FlagsMove may s u := fun b j => by
  rw [flag_congr (hu b) j]
  exact h b j

/-- A write to the flags of a block that changes each as `may` allows. -/
theorem FlagsMove.modBlk {b : Nat} {f : Block → Block} (h : FlagsMove may s t)
    (hf : ∀ k j, (f k).flag j = k.flag j ∨ may b j ((f k).flag j)) : FlagsMove may s (t.modBlk b f) := by
  intro b' j
  rw [blk_modBlk]
  split
  · next hb =>
    subst hb
    rcases hf (t.blk b') j with hsame | hmay
    · rw [hsame]; exact h b' j
    · exact .inr hmay
  · exact h b' j

theorem FlagsMove.clear {b : Nat} {m : Half} (h : FlagsMove may s t) (hm : ∀ j, m.getLsbD j = true → may b j false) :
    FlagsMove may s (t.modBlk b fun k => k.clearFlags m) := by
  refine h.modBlk fun k j => ?_
  rw [flag_clearFlags]
  cases hj : m.getLsbD j with
  | false => simp
  | true => simpa using Or.inr (hm j hj)

theorem FlagsMove.raise {b : Nat} {m : Half} (h : FlagsMove may s t) (hm : ∀ j, m.getLsbD j = true → may b j true) :
    FlagsMove may s (t.modBlk b fun k => k.raiseFlags m) := by
  refine h.modBlk fun k j => ?_
  rw [flag_raiseFlags]
  cases hj : m.getLsbD j with
  | false => simp
  | true => simpa using Or.inr (hm j hj)

/-! ### The effects -/

/-- An effect that is done changes flags only as `may` allows. -/
def Effect.Flags (may : Nat → Nat → Bool → Prop) (s : State) (e : Effect) : Prop := e.IfDone fun u _ _ => FlagsMove may s u

/-- An effect that marks no block changes no flag. -/
theorem flags_of_marks_none {e : Effect} (hwrites : e.writes s) (hmarks : e.Marks none) : e.Flags may s := by
  cases e with
  | done u r wrote =>
    obtain rfl : wrote = none := hmarks
    exact (FlagsMove.refl may s).keep fun b => hwrites.flags b nofun
  | hold => trivial
  | refuse r => trivial
  | raise f => trivial

theorem flags_andThen {e : Effect} {f : State → Result → State × Result} (h : e.Flags may s)
    (hf : ∀ t r, (f t r).1.blks = t.blks) : (e.andThen f).Flags may s :=
  ifDone_andThen h fun u r _ hu => hu.keep fun b => by rw [blk_of_blks (hf u r)]

theorem flags_enable (b : Nat) (m : Half) : (effEnable b m s).Flags may s := by
  unfold effEnable
  split
  · trivial
  · exact (FlagsMove.refl may s).keep fun b' => blk_fold Block.flags (fun _ _ _ => rfl) _ _ s b b'

theorem flags_irqClear {b : Nat} {m : Half} (hm : ∀ j, m.getLsbD j = true → may b j false) :
    (effIrqClear b m s).Flags may s := (FlagsMove.refl may s).clear hm

theorem flags_irqForce {b : Nat} {m : Half} (hm : ∀ j, m.getLsbD j = true → may b j true) :
    (effIrqForce b m s).Flags may s := (FlagsMove.refl may s).raise hm

/-- A watcher's fire raises two flags (44_peripheral_fsm.md R202, R204). -/
theorem flags_fire {g : Bool} {b c x y : Nat} (hx : may b x true) (hy : may b y true) :
    (guarded g (.done (setPc (s.modBlk b fun k => k.raiseFlags (flagBit x ||| flagBit y)) b c .fired) .none
      (some b))).Flags may s := by
  have hraise := (FlagsMove.refl may s).raise (b := b) (m := flagBit x ||| flagBit y) fun j hj => by
    rw [BitVec.getLsbD_or, Bool.or_eq_true] at hj
    rcases hj with hj | hj
    · rwa [eq_of_flagBit hj]
    · rwa [eq_of_flagBit hj]
  exact ifDone_guarded (hraise.keep fun b' => flags_setPc ..)

theorem flags_rcdSample {b c : Nat} (hmay : may b s.par.irqMrd true) : (effRcdSample b c s).Flags may s := by
  refine ifDone_guarded (FlagsMove.keep (FlagsMove.raise ?released fun j hj => ?_) fun b' => flags_setPc ..)
  case released => exact (FlagsMove.refl may s).keep fun b' => by simp
  · rwa [eq_of_flagBit hj]

theorem flags_handler {b : Nat} {k : Kind} (hmay : may b (kindFlag s.par k) false) : (effHandler b k s).Flags may s := by
  refine ifDone_ite ?_ trivial
  have hentered : FlagsMove may s (interruptEntry s b (kindFlag s.par k)) := (FlagsMove.refl may s).keep fun _ => rfl
  have hcleared := hentered.clear (b := b) (m := flagBit (kindFlag s.par k)) fun j hj => by rwa [eq_of_flagBit hj]
  exact hcleared.keep fun _ => rfl

/-- A deferred handler clears the hold flag and no other (46_engine_sequences.md R277, R279). -/
theorem flags_service {v : Service} (hmay : ∀ b, may b s.par.irqHold false) : (effService v s).Flags may s := by
  have hrelease : (effIrqClear v.block (flagBit s.par.irqHold) s).Flags may s :=
    flags_irqClear fun j hj => by rw [eq_of_flagBit hj]; exact hmay _
  by_cases hv : v.next = .readRelease ∨ v.next = .writeRelease
  · rcases hv with hv | hv <;> rw [effService, hv] <;> exact flags_andThen hrelease fun _ _ => rfl
  · exact flags_of_marks_none (writes_service v s) (marks_service s (fun h => hv (.inl h)) fun h => hv (.inr h))

/-- An operation of an initialisation clears no flag (46_engine_sequences.md R284, R285). -/
theorem flags_bootOp (hmay : ∀ b j, may b j true) (o : BootOp) : (o.effect s).Flags may s := by
  refine ifDone_ite ?_ trivial
  cases o with
  | setFuncSio p => exact flags_of_marks_none (writes_bootAct _ s) (marks_gpioSetFunc s p 1)
  | setDirIn p => exact flags_of_marks_none (writes_bootAct _ s) (ifDone_onPin rfl)
  | setPullUp p => exact flags_of_marks_none (writes_bootAct _ s) (marks_gpioSetPull s p 1)
  | configure b c d => exact flags_of_marks_none (writes_bootAct _ s) (marks_configure ..)
  | register b k => exact flags_of_marks_none (writes_bootAct _ s) (marks_register ..)
  | inte | globalOn => exact flags_of_marks_none (writes_bootAct _ s) rfl
  | force b m => exact flags_irqForce fun j _ => hmay b j
  | enable b m => exact flags_enable b m

end

/-! ### Every operation and every resumed step -/

/-- The operations that may set flag `j` of block `b`, or clear it. -/
def FlagWrittenBy (par : Params) (i : Instr) (b j : Nat) : Bool → Prop
  | true =>
    (∃ b' c, b'.toNat = b ∧ ((i = .rdwFire b' c ∧ (j = par.irqRd ∨ j = par.irqHold)) ∨
      (i = .wrwFire b' c ∧ (j = par.irqWr ∨ j = par.irqHold)) ∨ (i = .rcdSample b' c ∧ j = par.irqMrd))) ∨
      ∃ b' m, b'.toNat = b ∧ i = .irqForce b' m ∧ m.getLsbD j = true
  | false =>
    (∃ b' m, b'.toNat = b ∧ i = .irqClear b' m ∧ m.getLsbD j = true) ∨
      ∃ b', b'.toNat = b ∧ ((i = .isrRd b' ∧ j = par.irqRd) ∨ (i = .isrWr b' ∧ j = par.irqWr) ∨
        (i = .masterRead b' ∧ j = par.irqMrd))

/-- The activities whose steps may set flag `j` of a block, or clear it. -/
def FlagResumedBy (par : Params) (a : Activity) (j : Nat) : Bool → Prop
  | true => a = .boot
  | false => a = .consumer ∧ j = par.irqHold

/-- **Every operation** writes the flags as `FlagWrittenBy` says. -/
theorem effect_flags (i : Instr) (s : State) : (effectOf i s).Flags (FlagWrittenBy s.par i) s := by
  cases i with
  | enable b m => exact ifDone_ifProcessor (flags_enable b.toNat m)
  | irqClear b m => exact ifDone_ifProcessor (flags_irqClear fun j hj => .inl ⟨b, m, rfl, rfl, hj⟩)
  | irqForce b m => exact ifDone_ifProcessor (flags_irqForce fun j hj => .inr ⟨b, m, rfl, rfl, hj⟩)
  | rdwFire b c =>
    exact ifDone_ifChannel (flags_fire (.inl ⟨b, c, rfl, .inl ⟨rfl, .inl rfl⟩⟩) (.inl ⟨b, c, rfl, .inl ⟨rfl, .inr rfl⟩⟩))
  | wrwFire b c =>
    exact ifDone_ifChannel (flags_fire (.inl ⟨b, c, rfl, .inr (.inl ⟨rfl, .inl rfl⟩)⟩)
      (.inl ⟨b, c, rfl, .inr (.inl ⟨rfl, .inr rfl⟩)⟩))
  | rcdSample b c => exact ifDone_ifChannel (flags_rcdSample (.inl ⟨b, c, rfl, .inr (.inr ⟨rfl, rfl⟩)⟩))
  | isrRd b => exact ifDone_ifProcessor (flags_handler (.inr ⟨b, rfl, .inl ⟨rfl, rfl⟩⟩))
  | isrWr b => exact ifDone_ifProcessor (flags_handler (.inr ⟨b, rfl, .inr (.inl ⟨rfl, rfl⟩)⟩))
  | masterRead b =>
    refine ifDone_ifProcessor (ifDone_masterCall (flags_andThen (flags_irqClear fun j hj => ?_) fun _ _ => rfl))
    exact .inr ⟨b, rfl, .inr (.inr ⟨rfl, eq_of_flagBit hj⟩)⟩
  | _ => exact flags_of_marks_none (effect_writes ..) (effect_marks (by nofun) s)

/-- **Every resumed step** writes the flags as `FlagResumedBy` says. -/
theorem resume_flags (a : Activity) (s : State) :
    (resumeEffect a s).2.2.Flags (fun _ => FlagResumedBy s.par a) s := by
  cases a <;> simp only [resumeEffect] <;> split
  · trivial
  · split
    · exact (FlagsMove.refl _ s).keep fun _ => rfl
    · have hop := fun o => flags_bootOp (may := fun _ => FlagResumedBy s.par .boot) (s := s) (fun _ _ => rfl) o
      exact ifDone_ite (flags_andThen (hop _) fun t r => (bootNext_blks _ _ t r).1) trivial
  · trivial
  · exact ifDone_ite (flags_service fun _ => ⟨rfl, rfl⟩) trivial
  · trivial
  · exact ifDone_ite (flags_of_marks_none (writes_masterStep ..) (marks_masterStep ..)) trivial

theorem exec_flags {i : Instr} {s t : State} (h : exec i s = .next t) : FlagsMove (FlagWrittenBy s.par i) s t := by
  have hunchanged := FlagsMove.refl (FlagWrittenBy s.par i) s
  rcases exec_cases h with ⟨u, r, wrote, he, rfl⟩ | ⟨-, rfl⟩ | ⟨r, -, rfl⟩ | ⟨f, -, rfl⟩
  · have hu := effect_flags i s
    rw [he] at hu
    exact FlagsMove.keep hu (settle_blk_flags i s u wrote)
  · exact hunchanged.keep fun _ => rfl
  · exact hunchanged.keep fun _ => rfl
  · exact hunchanged.keep fun _ => rfl

theorem resume_moves_flags {a : Activity} {s t : State} (h : resume a s = .next t) :
    FlagsMove (fun _ => FlagResumedBy s.par a) s t := by
  have hunchanged := FlagsMove.refl (fun _ => FlagResumedBy s.par a) s
  obtain ⟨c, m, k, hdrop⟩ := resume_drop a s
  rcases resume_cases h with ⟨u, r, wrote, he, rfl⟩ | rfl | ⟨r, -, rfl⟩ | ⟨f, -, rfl⟩
  · have hu := resume_flags a s
    rw [he] at hu
    exact FlagsMove.keep hu (settle_blk_flags (resumeEffect a s).1 s u wrote)
  · exact hunchanged.keep fun _ => rfl
  · rw [hdrop]; exact hunchanged.keep fun _ => rfl
  · rw [hdrop]; exact hunchanged.keep fun _ => rfl

/-- A flag that was set, or cleared, was so by what may do it. -/
theorem FlagsMove.of_changed {may : Nat → Nat → Bool → Prop} {s t : State} (h : FlagsMove may s t) {b j : Nat} {v : Bool}
    (hs : (s.blk b).flag j = !v) (ht : (t.blk b).flag j = v) : may b j v := by
  have hmove := h b j
  rw [hs, ht] at hmove
  exact hmove.resolve_left (by cases v <;> nofun)

/-- Settles O50: the operations and the activities that may write a flag are those of `FlagWrittenBy` and
`FlagResumedBy`. -/
theorem flagsWrittenBy : Obligations.FlagsWrittenBy :=
  ⟨fun _ _ _ _ _ h => ⟨(exec_flags h).of_changed (v := true), (exec_flags h).of_changed (v := false)⟩,
    fun _ _ _ _ _ h => ⟨(resume_moves_flags h).of_changed (v := true), (resume_moves_flags h).of_changed (v := false)⟩⟩

end Sys2Proof.Machine
end

section
/-! The enforcers (spec/44_peripheral_fsm.md R210 to R216): the own writes of a step leave an enforcer where it was unless it is an
enforcer's own step, and the end of a step that wrote the flags of a block, or enabled an enforcer of it, brings every enabled
enforcer of that block to where its hold flag asks. -/

namespace Sys2Proof.Machine

/-! ### Every step keeps the enforcers at their flags (44_peripheral_fsm.md R216) -/

/-- Channel `c` of block `b`, if it is an enabled enforcer, holds exactly while the hold flag is set. -/
def EnforcerAgrees (s : State) (b c : Nat) : Prop :=
  (s.chan b c).enabled = true → (s.chan b c).owner ≠ .none → (s.chan b c).cfg.template = .waite →
    ((s.chan b c).pc = .holding ↔ (s.blk b).flag s.par.irqHold = true)

/-- An enforcer has two states (10_state.md R30). -/
theorem waite_states {p : TState} (h : p.of .waite = true) : p = .idle ∨ p = .holding := by
  cases p with
  | idle => exact .inl rfl
  | holding => exact .inr rfl
  | _ => cases h

/-- The state of an enforcer that follows a flag says whether the flag is set. -/
theorem holding_iff_flag (hold : Bool) : (if hold then TState.holding else .idle) = .holding ↔ hold = true := by
  cases hold <;> simp

/-- **An own write leaves an enforcer at its flag**, unless it enables the channel. -/
theorem ChannelStep.keeps_agreement {par : Params} {hold : Bool} {ch ch' : Channel} (hstep : ChannelStep par hold ch ch')
    (hon : ch.enabled = false → ch'.enabled = true → ch'.cfg.template ≠ .waite)
    (h : ch.enabled = true → ch.owner ≠ .none → ch.cfg.template = .waite → (ch.pc = .holding ↔ hold = true))
    (henabled : ch'.enabled = true) (howner : ch'.owner ≠ .none) (htemplate : ch'.cfg.template = .waite) :
    ch'.pc = .holding ↔ hold = true := by
  cases hstep with
  | same | push | pop => exact h henabled howner htemplate
  | configure | disable => cases henabled
  | enable =>
    cases hch : ch.enabled with
    | false => exact absurd htemplate (hon hch rfl)
    | true => exact h hch howner htemplate
  | move _ _ _ hother => exact absurd htemplate hother
  | sample v _ _ hrcd =>
    obtain ⟨-, -, hcfg, -⟩ := sampleIn_fields ch v 8
    have hwaite : ch.cfg.template = .waite := hcfg ▸ htemplate
    rw [hrcd] at hwaite
    cases hwaite
  | take _ _ _ _ _ hwcd =>
    have hwaite : ch.cfg.template = .waite := htemplate
    rw [hwcd] at hwaite
    cases hwaite
  | enforce => exact holding_iff_flag hold

/-- The own writes of a step leave the enforcers at their flags, but in the block that will react. -/
theorem Wrote.keeps_agreement {s u : State} {wrote : Option Nat} (hw : Wrote s u wrote) (h : EnforcerInv s) {b : Nat}
    (hb : wrote ≠ some b) (c : Nat) : EnforcerAgrees u b c := by
  unfold EnforcerAgrees
  rw [hw.par, flag_congr (hw.flags b hb)]
  exact (hw.chan b c).keeps_agreement (fun hoff hon ht => hb (hw.enforcer b c hoff hon ht)) (h b c)

/-- No reaction moves an enforcer of a block that does not react. -/
theorem PcReacts.waite_same {t : State} {wrote : Option Nat} {b : Nat} {ch : Channel} {p p' : TState}
    (h : PcReacts t wrote b ch p p') (hb : wrote ≠ some b) (ht : ch.cfg.template = .waite) : p' = p := by
  rcases h with h | ⟨-, -, ⟨-, h, -⟩ | ⟨-, h, -⟩ | ⟨-, h, -⟩ | ⟨-, h, -⟩ | ⟨h, -⟩⟩
  · exact h
  · rw [ht] at h; cases h
  · rw [ht] at h; cases h
  · rw [ht] at h; cases h
  · rw [ht] at h; cases h
  · exact absurd h hb

/-- The end of a step brings the enforcers of the block that reacts to their flag, and leaves the others. -/
theorem settle_enforcerInv {i : Instr} {s u : State} {wrote : Option Nat} (hlegal : ChannelsInv u)
    (h : ∀ b, wrote ≠ some b → ∀ c, EnforcerAgrees u b c) : EnforcerInv (settle i s u wrote) := by
  intro b c henabled howner htemplate
  rw [settle_chan_fields] at henabled howner htemplate
  by_cases hb : wrote = some b
  · subst hb
    obtain ⟨hpc, -, -⟩ := (hlegal b c).owned howner
    obtain ⟨hfollows, -⟩ :=
      settle_follows (i := i) (s := s) (r := .none) (n := 0) henabled howner htemplate rfl (waite_states (htemplate ▸ hpc))
    exact hfollows ▸ holding_iff_flag _
  · rw [(settle_chan_pc i s u wrote b c).waite_same hb htemplate, settle_par, flag_congr (settle_blk_flags i s u wrote b)]
    exact h b hb c henabled howner htemplate

/-- Settles O57: before the end of a step the enforcers of every block but the one that reacts are at their flags; the
reaction brings those of that block there, since a legal enforcer is IDLE or HOLDING. -/
theorem enforcerInvKept : Obligations.EnforcerInvKept := by
  intro s t hlegal hinv h
  have hown : ∀ {s u : State} {wrote : Option Nat}, ChannelsInv s ∧ EnforcerInv s → Wrote s u wrote →
      ChannelsInv u ∧ ∀ b, wrote ≠ some b → ∀ c, EnforcerAgrees u b c := fun hs hw =>
    ⟨hw.keeps_channelsInv hs.1, fun _ hb => hw.keeps_agreement hs.2 hb⟩
  obtain ⟨-, ht⟩ := step_keeps (fun s => ChannelsInv s ∧ EnforcerInv s)
    (fun wrote u => ChannelsInv u ∧ ∀ b, wrote ≠ some b → ∀ c, EnforcerAgrees u b c)
    (fun _ _ _ _ _ _ _ _ _ hs => hs)
    (fun i s u wrote hu => ⟨settle_keeps_channelsInv i s u wrote hu.1, settle_enforcerInv hu.1 hu.2⟩)
    (fun _ _ _ _ _ hs he => hown hs (wrote_of_effect he))
    (fun _ _ _ _ _ hs he => hown hs (wrote_of_resume he)) ⟨hlegal, hinv⟩ h
  exact ht

end Sys2Proof.Machine
end

section
/-! The enforcers in the step that writes the flags of their block or enables one of them (spec/44_peripheral_fsm.md R211 to R214):
such a step's own writes leave them where they were, so that the reaction at its end is their one move. -/

namespace Sys2Proof.Machine

/-! ### Steps that completed -/

section

variable {s t : State}

/-- An operation that completed had an effect that is done. -/
theorem exec_completed {i : Instr} (h : exec i s = .next t) (hc : Completed t.result) :
    ∃ u r wrote, effectOf i s = .done u r wrote ∧ t = { settle i s u wrote with result := r, tick := s.tick + 1 } := by
  obtain ⟨hheld, hfaulted, hrefused⟩ := hc
  rcases exec_cases h with hdone | ⟨-, rfl⟩ | ⟨r, -, rfl⟩ | ⟨f, -, rfl⟩
  · exact hdone
  · exact absurd rfl hheld
  · exact absurd rfl (hrefused r)
  · exact absurd rfl hfaulted

/-- The next step of an activity that completed had an effect that is done. -/
theorem resume_completed {a : Activity} (h : resume a s = .next t) (hc : Completed t.result) :
    ∃ u r wrote, (resumeEffect a s).2.2 = .done u r wrote ∧
      t = { settle (resumeEffect a s).1 s u wrote with result := r, tick := s.tick + 1 } := by
  obtain ⟨hheld, hfaulted, hrefused⟩ := hc
  rcases resume_cases h with hdone | rfl | ⟨r, -, rfl⟩ | ⟨f, -, rfl⟩
  · exact hdone
  · exact absurd rfl hheld
  · exact absurd rfl (hrefused r)
  · exact absurd rfl hfaulted

theorem ifProcessor_done {i : Instr} {e : Effect} {u : State} {r : Result} {wrote : Option Nat}
    (h : ifProcessor i s e = .done u r wrote) : i.wf s.par = true ∧ e = .done u r wrote := by
  unfold ifProcessor at h
  split at h
  · cases h
  · next hwf =>
    split at h
    · cases h
    · exact ⟨by simpa using hwf, h⟩

theorem andThen_done {e : Effect} {f : State → Result → State × Result} {u : State} {r : Result} {wrote : Option Nat}
    (h : e.andThen f = .done u r wrote) : ∃ u' r', e = .done u' r' wrote ∧ u = (f u' r').1 := by
  cases e with
  | done u' r' wrote' => cases h; exact ⟨u', r', rfl, rfl⟩
  | hold => cases h
  | refuse x => cases h
  | raise x => cases h

end

/-! ### Own writes that leave the enforcers -/

/-- The own writes from `s` to `u` leave every channel that runs the enforcer's template. -/
def LeavesEnforcers (s u : State) : Prop := ∀ b c, (s.chan b c).cfg.template = .waite → u.chan b c = s.chan b c

section

variable {s t : State}

theorem LeavesEnforcers.refl (s : State) : LeavesEnforcers s s := fun _ _ _ => rfl

theorem LeavesEnforcers.blks {u : State} (h : LeavesEnforcers s t) (hu : u.blks = t.blks) : LeavesEnforcers s u :=
  fun b c ht => (chan_of_blks hu b c).trans (h b c ht)

theorem LeavesEnforcers.modBlk {b : Nat} {f : Block → Block} (h : LeavesEnforcers s t)
    (hf : ∀ k, (f k).chs = k.chs := by exact fun _ => rfl) : LeavesEnforcers s (t.modBlk b f) :=
  fun b' c' ht => (chan_modBlk_field t b hf b' c').trans (h b' c' ht)

theorem LeavesEnforcers.modChan {b c : Nat} {f : Channel → Channel} (h : LeavesEnforcers s t)
    (hbc : (s.chan b c).cfg.template ≠ .waite) : LeavesEnforcers s (t.modChan b c f) := by
  intro b' c' ht
  rw [state_chan_modChan, if_neg]
  · exact h b' c' ht
  · rintro ⟨rfl, rfl⟩
    exact hbc ht

/-- A template step is performed by a channel of its template only (30_encoding.md R92). -/
theorem ifDone_ifChannel_template {P : State → Result → Option Nat → Prop} {i : Instr} {k : Template} {b c : Nat} {e : Effect}
    (h : (s.chan b c).cfg.template = k → e.IfDone P) : (ifChannel i k b c s e).IfDone P := by
  unfold ifChannel
  split
  · trivial
  · next hn =>
    simp only [not_or, ne_eq, not_not] at hn
    exact ifDone_ite trivial (h hn.2.2)

theorem LeavesEnforcers.clear (s : State) (b : Nat) (m : Half) :
    LeavesEnforcers s (s.modBlk b fun k => k.clearFlags m) := (LeavesEnforcers.refl s).modBlk

theorem leavesEnforcers_handler (b : Nat) (k : Kind) :
    (effHandler b k s).IfDone fun u _ _ => LeavesEnforcers s u :=
  ifDone_ite ((LeavesEnforcers.clear s b (flagBit (kindFlag s.par k))).blks rfl) trivial

theorem leavesEnforcers_fire {b c : Nat} {g : Bool} {m : Half} (ht : (s.chan b c).cfg.template ≠ .waite) :
    (guarded g (.done (setPc (s.modBlk b fun k => k.raiseFlags m) b c .fired) .none (some b))).IfDone
      fun u _ _ => LeavesEnforcers s u :=
  ifDone_guarded ((LeavesEnforcers.refl s).modBlk.modChan ht)

end

/-- **An operation that writes flags** leaves every enforcer as it was. -/
theorem effect_leavesEnforcers {i : Instr} {b : Nat} (hi : flagBlock i = some b) (s : State) :
    (effectOf i s).IfDone fun u _ _ => LeavesEnforcers s u := by
  have hsame := LeavesEnforcers.refl s
  cases i with
  | irqClear | irqForce => exact ifDone_ifProcessor hsame.modBlk
  | rdwFire b c | wrwFire b c =>
    exact ifDone_ifChannel_template fun ht => leavesEnforcers_fire (by rw [ht]; decide)
  | rcdSample b c =>
    refine ifDone_ifChannel_template fun ht => ifDone_guarded ?_
    have hother : (s.chan b.toNat c.toNat).cfg.template ≠ .waite := by rw [ht]; decide
    exact (LeavesEnforcers.modBlk (LeavesEnforcers.modBlk (LeavesEnforcers.modBlk (hsame.modChan hother)))).modChan hother
  | isrRd | isrWr => exact ifDone_ifProcessor (leavesEnforcers_handler ..)
  | masterRead b =>
    exact ifDone_ifProcessor (ifDone_masterCall ((LeavesEnforcers.clear s b.toNat (flagBit s.par.irqMrd)).blks rfl))
  | _ => cases hi

/-! ### The enforcers of the block follow -/

section

variable {s u : State} {b c : Nat}

/-- An enforcer that the own writes leave as it was, but for its enabling, follows the flag if it is then enabled. -/
theorem follows_of_switched {i : Instr} {r : Result} (hu : u.chan b c = { s.chan b c with enabled := true })
    (howner : (s.chan b c).owner ≠ .none) (htemplate : (s.chan b c).cfg.template = .waite)
    (hpc : (s.chan b c).pc = .idle ∨ (s.chan b c).pc = .holding) :
    EnforcerFollows s { settle i s u (some b) with result := r, tick := s.tick + 1 } b c :=
  settle_follows (by rw [hu]) (by rw [hu]; exact howner) (by rw [hu]; exact htemplate) (by rw [hu]) hpc

/-- The same for one that was enabled already. -/
theorem follows_of_same {i : Instr} {r : Result} (hu : LeavesEnforcers s u) (henabled : (s.chan b c).enabled = true)
    (howner : (s.chan b c).owner ≠ .none) (htemplate : (s.chan b c).cfg.template = .waite)
    (hpc : (s.chan b c).pc = .idle ∨ (s.chan b c).pc = .holding) :
    EnforcerFollows s { settle i s u (some b) with result := r, tick := s.tick + 1 } b c :=
  follows_of_switched ((hu b c htemplate).trans (by rw [← henabled])) howner htemplate hpc

/-- An ENABLE whose mask names an enforcer makes its block react, and switches the channels of the mask on
(41_configurator.md R112). -/
theorem effEnable_enforcer {m : Half} {r : Result} {wrote : Option Nat} {e : Nat} (hm : chanMaskOk s.par m = true)
    (h : effEnable b m s = .done u r wrote) (he : m.getLsbD e = true) (ht : (s.chan b e).cfg.template = .waite)
    (hon : m.getLsbD c = true ∨ (s.chan b c).enabled = true) :
    wrote = some b ∧ u.chan b c = { s.chan b c with enabled := true } := by
  have howned : ∀ c ∈ maskChannels s.par m, (s.chan b c).owner ≠ .none := by
    unfold effEnable at h
    split at h
    · cases h
    · next hnone => simpa using hnone
  rw [effEnable_owned howned] at h
  obtain ⟨rfl, -, rfl⟩ := Effect.done.inj h
  refine ⟨if_pos (List.any_eq_true.mpr ⟨e, (mem_maskChannels hm e).mpr he, by simpa using ht⟩), ?_⟩
  rw [chan_switchChannels hm]
  split
  · rfl
  · next hc => rw [← hon.resolve_left hc]

end

/-! ### The steps of the sequences -/

section

variable {s t : State}

/-- The release of WAIT by a deferred handler (46_engine_sequences.md R277, R279). -/
theorem resumeEffect_release {v : Service} {u : State} {r : Result} {wrote : Option Nat}
    (he : (resumeEffect .consumer s).2.2 = .done u r wrote) (hv : s.consumer = some v)
    (hnext : v.next = .readRelease ∨ v.next = .writeRelease) : wrote = some v.block ∧ LeavesEnforcers s u := by
  simp only [resumeEffect, hv] at he
  split at he
  · rcases hnext with hnext | hnext
    all_goals
      rw [effService, hnext] at he
      obtain ⟨u', r', he', rfl⟩ := andThen_done he
      obtain ⟨rfl, -, rfl⟩ := Effect.done.inj he'
      exact ⟨rfl, (LeavesEnforcers.clear s v.block (flagBit s.par.irqHold)).blks rfl⟩
  · cases he

/-- An operation of an initialisation is well formed where its step is done, and its writes to the blocks are the step's. -/
theorem resumeEffect_boot {k : Boot} {o : BootOp} {u : State} {r : Result} {wrote : Option Nat}
    (he : (resumeEffect .boot s).2.2 = .done u r wrote) (hk : s.boot = some k)
    (ho : (bootProgram s.par k.module)[k.next]? = some o) :
    o.instr.wf s.par = true ∧ ∃ u' r', o.act s = .done u' r' wrote ∧ u.blks = u'.blks := by
  simp only [resumeEffect, hk, ho] at he
  split at he
  · obtain ⟨u', r', he', rfl⟩ := andThen_done he
    unfold BootOp.effect at he'
    split at he'
    · next hwf => exact ⟨hwf, u', r', he', (bootNext_blks ..).1⟩
    · cases he'
  · cases he

end

/-- Settles O52: the own writes of each of these steps leave the enforcers but for their enabling, and its end makes those of
the block follow their flag. -/
theorem enforcersFollow : Obligations.EnforcersFollow := by
  refine ⟨?operation, ?enable, ?handler, ?initialisation⟩
  case operation =>
    intro i s t b c h hc hflags henabled howner htemplate hpc
    obtain ⟨u, r, wrote, he, rfl⟩ := exec_completed h hc
    have hmarks := effect_marks (i := i) (by rintro b m rfl; cases hflags) s
    have hleaves := effect_leavesEnforcers hflags s
    rw [he] at hmarks hleaves
    obtain rfl : wrote = some b := hmarks.trans hflags
    exact follows_of_same hleaves henabled howner htemplate hpc
  case enable =>
    intro b m s t e c h hc he ht hon howner htemplate hpc
    obtain ⟨u, r, wrote, heff, rfl⟩ := exec_completed h hc
    obtain ⟨hwf, heff⟩ := ifProcessor_done heff
    obtain ⟨-, hm⟩ := Bool.and_eq_true_iff.mp hwf
    obtain ⟨rfl, hu⟩ := effEnable_enforcer hm heff he ht hon
    exact follows_of_switched hu howner htemplate hpc
  case handler =>
    intro s t v c h hc hv hnext henabled howner htemplate hpc
    obtain ⟨u, r, wrote, he, rfl⟩ := resume_completed h hc
    obtain ⟨rfl, hu⟩ := resumeEffect_release he hv hnext
    exact follows_of_same hu henabled howner htemplate hpc
  case initialisation =>
    intro s t k b m e c h hc hk hop hon howner htemplate hpc
    obtain ⟨u, r, wrote, he, rfl⟩ := resume_completed h hc
    rcases hop with hop | ⟨hop, hmask, ht⟩
    · obtain ⟨-, u', r', hact, hblks⟩ := resumeEffect_boot he hk hop
      obtain ⟨rfl, -, rfl⟩ := Effect.done.inj hact
      have henabled := hon.resolve_right fun ⟨hop', _⟩ => by rw [hop] at hop'; cases hop'
      exact follows_of_same ((LeavesEnforcers.refl s).modBlk.blks hblks) henabled howner htemplate hpc
    · obtain ⟨hwf, u', r', hact, hblks⟩ := resumeEffect_boot he hk hop
      obtain ⟨-, hm⟩ := Bool.and_eq_true_iff.mp hwf
      obtain ⟨rfl, hu⟩ := effEnable_enforcer hm hact hmask ht (hon.symm.imp_left fun ⟨_, hc⟩ => hc)
      exact follows_of_switched ((chan_of_blks hblks b c).trans hu) howner htemplate hpc

end Sys2Proof.Machine
end

section
/-! No reaction is left due at the end of a step (spec/44_peripheral_fsm.md R208, R223; spec/45_master_fsm.md R246): what each
observer sees is what the lines say after the step, where they are steady, and what it would react to it has reacted to. -/

namespace Sys2Proof.Machine

/-! ### Conditions on steady lines (44_peripheral_fsm.md R201) -/

theorem condRd_steady {s t : State} (h1 : SameLine s t .modsel) (h2 : SameLine s t .rd) (hs1 : Steady t .modsel)
    (hs2 : Steady t .rd) (a b : Site) : condRd t a = condRd s b := by
  rw [condRd, condRd, asserted_steady h1 hs1 a b, asserted_steady h2 hs2 a b]

theorem condWr_steady {s t : State} (h1 : SameLine s t .modsel) (h2 : SameLine s t .wr) (hs1 : Steady t .modsel)
    (hs2 : Steady t .wr) (a b : Site) : condWr t a = condWr s b := by
  rw [condWr, condWr, asserted_steady h1 hs1 a b, asserted_steady h2 hs2 a b]

theorem asserted_of_low {s : State} {a : Site} {X : Line} (h : lineLevel s a X = false) : asserted s a X = true := by
  rw [asserted, h]; rfl

@[simp] theorem asserted_observeChans (s : State) (a : Site) (X : Line) :
    asserted (observeChans s) a X = asserted s a X := by rw [asserted, asserted, lineLevel_observeChans]

@[simp] theorem condRd_observeChans (s : State) (a : Site) : condRd (observeChans s) a = condRd s a := by simp [condRd]

@[simp] theorem condWr_observeChans (s : State) (a : Site) : condWr (observeChans s) a = condWr s a := by simp [condWr]

/-! ### The observers after their observations -/

/-- The observation of a channel that reads the lines of `s` at `a` would move it. -/
def ObservationDue (s : State) (a : Site) (ch : Channel) : Prop :=
  (s.par.role = .peripheral ∧ ch.cfg.template = .rdw ∧ ch.pc = .fired ∧ condRd s a = false) ∨
    (s.par.role = .peripheral ∧ ch.cfg.template = .wrw ∧ ch.pc = .fired ∧ condWr s a = false) ∨
    (s.par.role = .master ∧ ch.cfg.template = .rcd ∧ ch.pc = .rWaitLow ∧ asserted s a .wait = true) ∨
    (s.par.role = .master ∧ ch.cfg.template = .wcd ∧ ch.pc = .wWaitLow ∧ asserted s a .wait = true)

/-- A channel whose observation is not due stays. -/
theorem observeChan_of_not_due {s : State} {b c : Nat} {ch : Channel} (h : ¬ ObservationDue s (.channel b c) ch) :
    observeChan s b c ch = ch := by
  rw [observeChan_fields]
  rcases observeChan_pc s b c ch with hsame | ⟨-, -, ⟨hr, ht, hp, hc, -⟩ | ⟨hr, ht, hp, hc, -⟩ | ⟨hr, ht, hp, hc, -⟩ |
    ⟨hr, ht, hp, hc, -⟩⟩
  · rw [hsame]
  · exact absurd (.inl ⟨hr, ht, hp, hc⟩) h
  · exact absurd (.inr (.inl ⟨hr, ht, hp, hc⟩)) h
  · exact absurd (.inr (.inr (.inl ⟨hr, ht, hp, hc⟩))) h
  · exact absurd (.inr (.inr (.inr ⟨hr, ht, hp, hc⟩))) h

/-- The state to which an observation that is due takes a channel: a watcher re-arms, a driver sees WAIT asserted. -/
def TState.observed : TState → TState
  | .fired => .armed
  | .rWaitLow => .rWaitRel
  | .wWaitLow => .wWaitRel
  | p => p

/-- An enabled channel whose observation is due makes it. -/
theorem observeChan_of_due {s : State} {b c : Nat} {ch : Channel} (henabled : ch.enabled = true) (howner : ch.owner ≠ .none)
    (h : ObservationDue s (.channel b c) ch) : observeChan s b c ch = { ch with pc := ch.pc.observed } := by
  rcases h with ⟨hr, ht, hp, hc⟩ | ⟨hr, ht, hp, hc⟩ | ⟨hr, ht, hp, hc⟩ | ⟨hr, ht, hp, hc⟩ <;>
    simp [observeChan, TState.observed, henabled, howner, hr, ht, hp, hc]

/-- **An enabled channel's observation is not due after it.** -/
theorem observeChan_not_due {s : State} {b c : Nat} {ch : Channel} (henabled : ch.enabled = true)
    (howner : ch.owner ≠ .none) : ¬ ObservationDue s (.channel b c) (observeChan s b c ch) := by
  by_cases hdue : ObservationDue s (.channel b c) ch
  · rw [observeChan_of_due henabled howner hdue]
    rcases hdue with ⟨-, -, hp, -⟩ | ⟨-, -, hp, -⟩ | ⟨-, -, hp, -⟩ | ⟨-, -, hp, -⟩ <;>
      simp [ObservationDue, TState.observed, hp]
  · rwa [observeChan_of_not_due hdue]

/-- The host that sees WAIT low waits for it no more. -/
theorem observeEnv_hostPc {s : State} (hr : s.par.role = .peripheral) (ha : asserted s .hostSees .wait = true) :
    (observeEnv s).hostPc ≠ .rdWaitLow ∧ (observeEnv s).hostPc ≠ .wrWaitLow := by
  rw [observeEnv_host hr, ha]
  cases hp : s.hostPc <;> simp [hostSeesWait, hp]

/-- The host latches the byte on the bus where WAIT rises as it waits for that in a read cycle (44_peripheral_fsm.md R223). -/
theorem hostLatches_of_rise {s t : State} (hr : t.par.role = .peripheral) (hp : t.hostPc = .rdWaitRel)
    (hlow : lineLevel s .waitBefore .wait = false) (hhigh : lineLevel t .waitAfter .wait = true) : hostLatches s t
      = { t with hostLatch := dataByte t .latch, hostLatchWritten := true, hostLatched := true } :=
  if_pos ⟨hr, hp, hlow, hhigh⟩

/-- The external peripheral that sees the strobes of the cycle it holds released is idle. -/
theorem observeEnv_perPc {s : State} (hr : s.par.role = .master) :
    (condRd s .perReads = false → (observeEnv s).perPc ≠ .rdHold) ∧
      (condWr s .perReads = false → (observeEnv s).perPc ≠ .wrHold) := by
  cases hp : s.perPc with
  | rdHold =>
    rw [observeEnv_rdHold hr hp]
    refine ⟨fun hc => by rw [hc]; exact nofun, fun _ => ?_⟩
    split
    · rw [hp]; exact nofun
    · exact nofun
  | wrHold =>
    rw [observeEnv_wrHold hr hp]
    refine ⟨fun _ => ?_, fun hc => by rw [hc]; exact nofun⟩
    split
    · rw [hp]; exact nofun
    · exact nofun
  | idle | rdStall | wrStall => simp [observeEnv, hr, hp]

/-! ### The state after the end of a step -/

section

variable {i : Instr} {s u : State} {r : Result} {wrote : Option Nat} {n : Nat}

/-- What the observers saw of a line is what it is after the step, but for the data lines that PER_RD_DONE stops driving. -/
theorem settle_next_sameLine (X : Line)
    (h : u.par.role ≠ .master ∨ u.perPc ≠ .rdHold ∨ (u.par.valid = true ∧ ¬ lineIdx X < 8)) :
    SameLine (observed s u wrote) { settle i s u wrote with result := r, tick := n } X :=
  sameLine_trans (settle_sameLine i s u wrote X h) (sameLine_result _ r n X)

/-- An enabled channel after the end of a step has nothing left to observe. -/
theorem settle_not_due {b c : Nat} (henabled : ((settle i s u wrote).chan b c).enabled = true)
    (howner : ((settle i s u wrote).chan b c).owner ≠ .none) :
    ¬ ObservationDue (observed s u wrote) (.channel b c) ((settle i s u wrote).chan b c) := by
  rw [settle_chan] at henabled howner ⊢
  rw [observeChan_fields] at henabled howner
  exact observeChan_not_due henabled howner

/-- The host latches nothing after the enforcers' reaction. -/
theorem settle_latch (i : Instr) (s u : State) (wrote : Option Nat) :
    (settle i s u wrote).hostLatch = (observed s u wrote).hostLatch ∧
      (settle i s u wrote).hostLatchWritten = (observed s u wrote).hostLatchWritten ∧
      (settle i s u wrote).hostLatched = (observed s u wrote).hostLatched := by
  have hkeep : ∀ v : State, (observeEnv v).hostLatch = v.hostLatch ∧
      (observeEnv v).hostLatchWritten = v.hostLatchWritten ∧ (observeEnv v).hostLatched = v.hostLatched := fun v => by
    rcases observeEnv_cases v with h | ⟨-, -, ⟨-, h⟩ | ⟨-, h⟩⟩ | ⟨-, ⟨-, -, h⟩ | ⟨-, -, h⟩⟩ <;> rw [h] <;> exact ⟨rfl, rfl, rfl⟩
  exact hkeep (observeChans (observed s u wrote))

/-- The contentions and the strobe overlaps of the state after the end of a step are recorded (60_exceptions.md R307, R308). -/
theorem settle_records {t : State} (ht : t = { settle i s u wrote with result := r, tick := n }) :
    (∀ p, p < t.par.numGpio → (engineDrive t p).isSome = true → (envDrive t p).isSome = true →
        ∃ i, .busContention p i ∈ t.faults) ∧
      ∀ b, b < t.par.numBlocks → (t.blk b).out t.par.pins.rd = false → (t.blk b).out t.par.pins.wr = false →
        (t.blk b).oe t.par.pins.rd = true → (t.blk b).oe t.par.pins.wr = true → ∃ i, .strobeOverlap b i ∈ t.faults := by
  have hfaults : ∀ f, EndFault i t f → f ∈ t.faults := fun f hf => by
    subst ht
    exact (settle_faults i s u wrote f).mpr (.inr hf)
  refine ⟨fun p hp hengine henv => ⟨i, hfaults _ (.inl ⟨p, hp, ?_, rfl⟩)⟩,
    fun b hb hrd hwr hrdOe hwrOe => ⟨i, hfaults _ (.inr ⟨b, hb, ?_, rfl⟩)⟩⟩
  · rw [bothDrive, hengine, henv]; rfl
  · rw [strobesOverlap, hrd, hwr, hrdOe, hwrOe]; rfl

/-- The watchers and the host after the end of a step in the PERIPHERAL role (44_peripheral_fsm.md R208). -/
theorem settle_peripheralRole {t : State} (ht : t = { settle i s u wrote with result := r, tick := n })
    (hr : u.par.role = .peripheral) :
    (∀ b c, (t.chan b c).enabled = true → (t.chan b c).owner ≠ .none → (t.chan b c).cfg.template = .rdw →
        Steady t .modsel → Steady t .rd → condRd t .guard = false → (t.chan b c).pc ≠ .fired) ∧
      (∀ b c, (t.chan b c).enabled = true → (t.chan b c).owner ≠ .none → (t.chan b c).cfg.template = .wrw →
        Steady t .modsel → Steady t .wr → condWr t .guard = false → (t.chan b c).pc ≠ .fired) ∧
      (Steady t .wait → lineLevel t .guard .wait = false → t.hostPc ≠ .rdWaitLow ∧ t.hostPc ≠ .wrWaitLow) := by
  have hline : ∀ X, SameLine (observed s u wrote) t X := fun X => by
    subst ht
    exact settle_next_sameLine X (.inl (by rw [hr]; decide))
  have hrole : (observed s u wrote).par.role = .peripheral := by rw [observed_par]; exact hr
  have hdue : ∀ b c, (t.chan b c).enabled = true → (t.chan b c).owner ≠ .none →
      ¬ ObservationDue (observed s u wrote) (.channel b c) (t.chan b c) := by
    subst ht
    exact fun b c => settle_not_due (i := i)
  refine ⟨fun b c hon ho htpl hs1 hs2 hc hp => ?_, fun b c hon ho htpl hs1 hs2 hc hp => ?_, fun hs hlow => ?_⟩
  · rw [condRd_steady (hline _) (hline _) hs1 hs2 _ (.channel b c)] at hc
    exact hdue b c hon ho (.inl ⟨hrole, htpl, hp, hc⟩)
  · rw [condWr_steady (hline _) (hline _) hs1 hs2 _ (.channel b c)] at hc
    exact hdue b c hon ho (.inr (.inl ⟨hrole, htpl, hp, hc⟩))
  · rw [lineLevel_steady (hline _) hs _ .hostSees] at hlow
    subst ht
    exact observeEnv_hostPc (s := observeChans (observed s u wrote)) hrole
      (by rw [asserted_observeChans]; exact asserted_of_low hlow)

/-- The host after a step at whose end WAIT has risen has latched the byte on the bus (44_peripheral_fsm.md R223). -/
theorem settle_latches {t : State} (ht : t = { settle i s u wrote with result := r, tick := n })
    (hr : u.par.role = .peripheral) (hs : Steady s .wait) (hlow : lineLevel s .guard .wait = false) (hst : Steady t .wait)
    (hhigh : lineLevel t .guard .wait = true) (hp : t.hostPc = .rdWaitRel) :
    t.hostLatched = true ∧ t.hostLatchWritten = true ∧
      ∀ j : Fin 8, Steady t (.data j) → t.hostLatch.getLsbD j = lineLevel t .guard (.data j) := by
  have hline : ∀ X, SameLine (enforce u wrote) t X := fun X => by
    subst ht
    exact sameLine_trans (hostLatches_sameLine s (enforce u wrote) X) (settle_next_sameLine X (.inl (by rw [hr]; decide)))
  have hwaiting : u.hostPc = .rdWaitRel := by
    have hreacts : HostReacts t u.hostPc t.hostPc := by
      subst ht
      exact kept_result (q := .hostPc) r n (settle_kept i s u wrote .hostPc)
    rcases hreacts with hsame | ⟨-, hseen, -⟩
    · rw [← hsame, hp]
    · rw [hseen hst] at hhigh; cases hhigh
  have hbefore : lineLevel s .waitBefore .wait = false := (lineLevel_steady (sameLine_self s _) hs _ .guard).trans hlow
  have hafter : lineLevel (enforce u wrote) .waitAfter .wait = true :=
    (lineLevel_steady (hline _) hst .guard .waitAfter).symm.trans hhigh
  have hlatch : observed s u wrote
      = { enforce u wrote with hostLatch := dataByte (enforce u wrote) .latch, hostLatchWritten := true, hostLatched := true } :=
    hostLatches_of_rise (by rw [enforce_par]; exact hr) (by rw [enforce_fields]; exact hwaiting) hbefore hafter
  have hkeep : t.hostLatch = (observed s u wrote).hostLatch ∧
      t.hostLatchWritten = (observed s u wrote).hostLatchWritten ∧ t.hostLatched = (observed s u wrote).hostLatched := by
    subst ht
    exact settle_latch i s u wrote
  rw [hlatch] at hkeep
  obtain ⟨hbyte, hwritten, hlatched⟩ := hkeep
  refine ⟨hlatched, hwritten, fun j hj => ?_⟩
  rw [hbyte, dataByte, byteOf_getLsbD _ _ j.isLt]
  exact (lineLevel_steady (hline (.data j)) hj .guard .latch).symm

/-- The drivers and the external peripheral after the end of a step in the MASTER role (45_master_fsm.md R246). -/
theorem settle_masterRole {t : State} (ht : t = { settle i s u wrote with result := r, tick := n })
    (hr : u.par.role = .master) (hvalid : u.par.valid = true) :
    (∀ b c, (t.chan b c).enabled = true → (t.chan b c).owner ≠ .none → (t.chan b c).cfg.template = .rcd →
        Steady t .wait → lineLevel t .guard .wait = false → (t.chan b c).pc ≠ .rWaitLow) ∧
      (∀ b c, (t.chan b c).enabled = true → (t.chan b c).owner ≠ .none → (t.chan b c).cfg.template = .wcd →
        Steady t .wait → lineLevel t .guard .wait = false → (t.chan b c).pc ≠ .wWaitLow) ∧
      (Steady t .modsel → Steady t .rd → condRd t .guard = false → t.perPc ≠ .rdHold) ∧
      (Steady t .modsel → Steady t .wr → condWr t .guard = false → t.perPc ≠ .wrHold) := by
  have hline : ∀ X, ¬ lineIdx X < 8 → SameLine (observed s u wrote) t X := fun X hX => by
    subst ht
    exact settle_next_sameLine X (.inr (.inr ⟨hvalid, hX⟩))
  have hrole : (observed s u wrote).par.role = .master := by rw [observed_par]; exact hr
  have hdue : ∀ b c, (t.chan b c).enabled = true → (t.chan b c).owner ≠ .none →
      ¬ ObservationDue (observed s u wrote) (.channel b c) (t.chan b c) := by
    subst ht
    exact fun b c => settle_not_due (i := i)
  have hper : (condRd (observed s u wrote) .perReads = false → t.perPc ≠ .rdHold) ∧
      (condWr (observed s u wrote) .perReads = false → t.perPc ≠ .wrHold) := by
    subst ht
    have hobserved := observeEnv_perPc (s := observeChans (observed s u wrote)) hrole
    rwa [condRd_observeChans, condWr_observeChans] at hobserved
  refine ⟨fun b c hon ho htpl hs hlow hp => ?_, fun b c hon ho htpl hs hlow hp => ?_, fun hs1 hs2 hc => ?_,
    fun hs1 hs2 hc => ?_⟩
  · rw [lineLevel_steady (hline _ (by decide)) hs _ (.channel b c)] at hlow
    exact hdue b c hon ho (.inr (.inr (.inl ⟨hrole, htpl, hp, asserted_of_low hlow⟩)))
  · rw [lineLevel_steady (hline _ (by decide)) hs _ (.channel b c)] at hlow
    exact hdue b c hon ho (.inr (.inr (.inr ⟨hrole, htpl, hp, asserted_of_low hlow⟩)))
  · rw [condRd_steady (hline _ (by decide)) (hline _ (by decide)) hs1 hs2 _ .perReads] at hc
    exact hper.1 hc
  · rw [condWr_steady (hline _ (by decide)) (hline _ (by decide)) hs1 hs2 _ .perReads] at hc
    exact hper.2 hc

end

/-- Settles O53: a step that completed ends with `settle`, after which no observation is due and every contention and overlap is
recorded. -/
theorem reactionsPerformed : Obligations.ReactionsPerformed := by
  intro s t hvalid h hc
  obtain ⟨i, u, r, wrote, ht, hpar⟩ : ∃ i u r wrote,
      t = { settle i s u wrote with result := r, tick := s.tick + 1 } ∧ u.par = s.par := by
    rcases h with ⟨i, h⟩ | ⟨a, h⟩
    · obtain ⟨u, r, wrote, he, ht⟩ := exec_completed h hc
      exact ⟨i, u, r, wrote, ht, (wrote_of_effect he).par⟩
    · obtain ⟨u, r, wrote, he, ht⟩ := resume_completed h hc
      exact ⟨_, u, r, wrote, ht, (wrote_of_resume he).par⟩
  have htpar : t.par = s.par := by rw [ht]; exact (settle_par i s u wrote).trans hpar
  have hrecords := settle_records ht
  rw [htpar] at hrecords
  rw [← hpar] at hvalid ⊢
  refine ⟨?_, fun hr => ?_, fun hr => settle_masterRole ht hr hvalid⟩
  · rwa [hpar]
  · obtain ⟨hrd, hwr, hhost⟩ := settle_peripheralRole ht hr
    exact ⟨hrd, hwr, hhost, fun hs hlow hst hhigh hp => settle_latches ht hr hs hlow hst hhigh hp⟩

end Sys2Proof.Machine
end

section
/-! The steps of the watchers and of the enforcers (spec/44_peripheral_fsm.md R202 to R213), and the words that only a reaction
performs (R203, R205, R208, R222; spec/45_master_fsm.md R243, R246, R253; log 33). -/

namespace Sys2Proof.Machine

section

variable {i : Instr} {s : State} {b c : Nat}

/-! ### Guards (44_peripheral_fsm.md R200) -/

/-- A template step of a ready channel holds where its template does. -/
theorem exec_channel_hold {t : Template} {e : Effect} (hready : ChannelReady i t b c s)
    (he : effectOf i s = ifChannel i t b c s e) (hhold : e = .hold) : exec i s = .next s.afterHold :=
  exec_hold (he.trans ((ifChannel_ready hready e).trans hhold))

theorem guarded_pos {g : Bool} (h : g = true) (e : Effect) : guarded g e = e := if_pos h

theorem guarded_neg {g : Bool} (h : g = false) (e : Effect) : guarded g e = .hold := by rw [h]; rfl

/-! ### A watcher fires (44_peripheral_fsm.md R202, R204, R210, R211) -/

theorem chan_raiseFlags (m : Half) (b' c' : Nat) : (s.modBlk b fun k => k.raiseFlags m).chan b' c' = s.chan b' c' :=
  
  chan_modBlk_field s b (f := fun k => k.raiseFlags m) (fun _ => rfl) b' c'

/-- The own writes of a watcher that fires and raises the flags of `m`. -/
def fired (s : State) (b c : Nat) (m : Half) : State := setPc (s.modBlk b fun k => k.raiseFlags m) b c .fired

theorem chan_fired (m : Half) (w : Nat) :
    (fired s b c m).chan b w = if w = c then { s.chan b c with pc := .fired } else s.chan b w := by
  rw [fired, chan_setPc, chan_raiseFlags, chan_raiseFlags]
  simp

theorem flags_fired (m : Half) : ((fired s b c m).blk b).flags = (s.blk b).flags ||| m := by
  rw [fired, flags_setPc, blk_modBlk_self]
  rfl

/-- An idle enforcer of a block whose hold flag a step set holds WAIT low after it. -/
theorem EnforcerFollows.asserts {s t : State} {w : Nat} (h : EnforcerFollows s t b w)
    (hflag : (t.blk b).flag t.par.irqHold = true) (hidle : (s.chan b w).pc = .idle) :
    (t.chan b w).pc = .holding ∧ (t.blk b).out t.par.pins.wait = false := by
  obtain ⟨hpc, hmoved⟩ := h
  rw [hflag] at hpc hmoved
  have hmove : (t.chan b w).pc ≠ (s.chan b w).pc := by rw [hpc, hidle]; exact nofun
  exact ⟨hpc, (hmoved hmove).1⟩

/-- A flag that exists is set by a mask that names it. -/
theorem getLsbD_or_flagBit (x : Half) {j : Nat} (h : j < 16) : (x ||| flagBit j).getLsbD j = true := by
  simp [flagBit, h]

/-- **A watcher that fires** raises its flags and leaves its armed state in one step, in which the enforcers of its block
assert WAIT. -/
theorem exec_fire {x : Half} (he : effectOf i s = .done (fired s b c (x ||| flagBit s.par.irqHold)) .none (some b))
    (ht : (s.chan b c).cfg.template ≠ .waite) :
    ∃ t, exec i s = .next t ∧ t.result = .none ∧
      (t.blk b).flags = (s.blk b).flags ||| (x ||| flagBit s.par.irqHold) ∧
      ChannelReacts t (some b) b { s.chan b c with pc := .fired } (t.chan b c) ∧
      (∀ w, s.par.irqHold < 16 → (s.chan b w).enabled = true → (s.chan b w).owner ≠ .none →
        (s.chan b w).cfg.template = .waite → (s.chan b w).pc = .idle →
        (t.chan b w).pc = .holding ∧ (t.blk b).out s.par.pins.wait = false) ∧
      RecordsKept i s t ∧ Frame s t (some b) fun q => q = .flags b ∨ q = .chan b c := by
  obtain ⟨t, hexec, hresult, hrecords, hframe, hkept⟩ :=
    exec_plain (fun q => q = .flags b ∨ q = .chan b c) he rfl rfl rfl rfl fun q hq => by
      obtain ⟨hflags, hchan⟩ := not_or.mp hq
      exact same_trans (same_raiseFlags q hflags) (same_setPc q hchan)
  have hpar : t.par = s.par := hframe.1
  have hflags : (t.blk b).flags = (s.blk b).flags ||| (x ||| flagBit s.par.irqHold) :=
    (hkept (.flags b)).trans (flags_fired _)
  have hchan : ChannelReacts t (some b) b ((fired s b c _).chan b c) (t.chan b c) := hkept (.chan b c)
  rw [chan_fired, if_pos rfl] at hchan
  refine ⟨t, hexec, hresult, hflags, hchan, fun w hw henabled howner htemplate hidle => ?_, hrecords, hframe⟩
  have hwc : w ≠ c := by rintro rfl; exact ht htemplate
  have hsame : (fired s b c (x ||| flagBit s.par.irqHold)).chan b w = s.chan b w := by rw [chan_fired, if_neg hwc]
  have hfollows : EnforcerFollows s t b w := by
    obtain rfl : t = _ := by injection hexec.symm.trans (exec_next he)
    exact follows_of_switched (hsame.trans (by rw [← henabled])) howner htemplate (.inl hidle)
  have hset : (t.blk b).flag t.par.irqHold = true := by
    rw [hpar, Block.flag, hflags, BitVec.getLsbD_or, getLsbD_or_flagBit x hw, Bool.or_true]
  exact hpar ▸ hfollows.asserts hset hidle

end

/-- Settles O24: each fire is one case of `exec_fire`, and its guard is the watcher's condition. -/
theorem watchersFire : Obligations.WatchersFire := by
  refine fun b c s => ⟨fun hready => ⟨fun hpc hcond => ?_, fun hno => ?_⟩, fun hready => ⟨fun hpc hcond => ?_, fun hno => ?_⟩⟩
  · have heff : effectOf (.rdwFire b c) s = _ :=
      (ifChannel_ready hready _).trans (guarded_pos (by rw [hpc, hcond]; rfl) _)
    exact exec_fire heff (by rw [hready.2.2.1]; decide)
  · exact exec_channel_hold hready rfl (guarded_neg (by simpa [or_iff_not_imp_left] using hno) _)
  · have heff : effectOf (.wrwFire b c) s = _ :=
      (ifChannel_ready hready _).trans (guarded_pos (by rw [hpc, hcond]; rfl) _)
    exact exec_fire heff (by rw [hready.2.2.1]; decide)
  · exact exec_channel_hold hready rfl (guarded_neg (by simpa [or_iff_not_imp_left] using hno) _)

/-! ### Words that only a reaction performs (log 33) -/

section

variable {i : Instr} {s : State}

/-- **A step that writes nothing itself** completes, and the observations at its end are made on the lines of `s`. -/
theorem exec_reactionOnly (he : effectOf i s = reactionOnly s) (own : Part → Prop) :
    ∃ t, exec i s = .next t ∧ t.result = .none ∧ (∀ b c, t.chan b c = observeChan s b c (s.chan b c)) ∧
      t.hostPc = (observeEnv s).hostPc ∧ RecordsKept i s t ∧ Frame s t none own := by
  obtain ⟨t, hexec, hresult, hrecords, hframe, -⟩ := exec_plain own he rfl rfl rfl rfl fun q _ => same_self q
  obtain rfl : t = _ := by injection hexec.symm.trans (exec_next he)
  exact ⟨_, hexec, hresult, settle_chan_none i s s, (settle_env_none i s s).1, hrecords, hframe⟩

/-- A channel's own observation as a word: the channel's template owns the word, and its observation, which is due, moves it to
`p`. -/
theorem exec_observation {k : Template} {b c : Nat} {g : Bool} {p : TState} (hready : ChannelReady i k b c s)
    (he : effectOf i s = ifChannel i k b c s (guarded g (reactionOnly s))) (hg : g = true)
    (hdue : ObservationDue s (.channel b c) (s.chan b c)) (hp : (s.chan b c).pc.observed = p) :
    ∃ t, exec i s = .next t ∧ t.result = .none ∧ t.chan b c = { s.chan b c with pc := p } ∧
      RecordsKept i s t ∧ Frame s t none fun q => q = .chan b c := by
  obtain ⟨t, hexec, hresult, hchan, -, hrecords, hframe⟩ :=
    exec_reactionOnly (he.trans ((ifChannel_ready hready _).trans (guarded_pos hg _))) fun q => q = .chan b c
  obtain ⟨-, howner, -, henabled⟩ := hready
  exact ⟨t, hexec, hresult, hp ▸ (hchan b c).trans (observeChan_of_due henabled howner hdue), hrecords, hframe⟩

end

/-- A guard of three conditions fails with any of them. -/
theorem guard_false {p q g : Bool} (h : p = false ∨ q = false ∨ g = false) : (p && q && g) = false := by
  rcases h with h | h | h <;> simp [h]

/-- Settles O25: the guard is that R208 re-arms the watcher at the end of the step. -/
theorem watchersRearm : Obligations.WatchersRearm := by
  refine fun b c s => ⟨fun hready => ⟨fun hrole hpc hcond => ?_, fun hno => ?_⟩,
    fun hready => ⟨fun hrole hpc hcond => ?_, fun hno => ?_⟩⟩
  · have ⟨_, _, htemplate, _⟩ := hready
    exact exec_observation hready rfl (by simp [hrole, hpc, hcond])
      (.inl ⟨hrole, htemplate, hpc, hcond⟩) (by rw [hpc]; rfl)
  · refine exec_channel_hold hready rfl (guarded_neg (guard_false ?_) _)
    simpa using hno
  · have ⟨_, _, htemplate, _⟩ := hready
    exact exec_observation hready rfl (by simp [hrole, hpc, hcond])
      (.inr (.inl ⟨hrole, htemplate, hpc, hcond⟩)) (by rw [hpc]; rfl)
  · refine exec_channel_hold hready rfl (guarded_neg (guard_false ?_) _)
    simpa using hno

/-! ### The enforcers' own words (44_peripheral_fsm.md R212, R213; log 33) -/

/-- **An enforcer's own step** drives WAIT and moves the enforcer, and no reaction moves it again. -/
theorem exec_enforce {i : Instr} {s : State} {b c : Nat} {v : Bool} {p : TState} (hp : p = .idle ∨ p = .holding)
    (he : effectOf i s = .done (setPc (driveLine s b .wait v) b c p) .none none) :
    ∃ t, exec i s = .next t ∧ t.result = .none ∧ (t.blk b).out s.par.pins.wait = v ∧
      t.chan b c = { s.chan b c with pc := p } ∧ RecordsKept i s t ∧
      Frame s t none fun q => q = .out b s.par.pins.wait ∨ q = .chan b c := by
  obtain ⟨t, hexec, hresult, hrecords, hframe, hkept⟩ :=
    exec_plain (fun q => q = .out b s.par.pins.wait ∨ q = .chan b c) he rfl rfl rfl rfl fun q hq => by
      obtain ⟨hout, hchan⟩ := not_or.mp hq
      exact same_trans (same_driveLine q hout) (same_setPc q hchan)
  have hout : (t.blk b).out s.par.pins.wait = ((driveLine s b .wait v).blk b).out s.par.pins.wait :=
    (out_exact (hkept (.out b s.par.pins.wait))).trans (by simp only [Block.out, pinOut_setPc])
  have hchan : ChannelReacts t none b ((setPc (driveLine s b .wait v) b c p).chan b c) (t.chan b c) :=
    hkept (.chan b c)
  rw [chan_setPc, if_pos ⟨rfl, rfl⟩, chan_driveLine] at hchan
  refine ⟨t, hexec, hresult, hout.trans ((out_driveLine ..).trans (if_pos rfl)), chan_exact hchan fun hpc => ?_, hrecords,
    hframe⟩
  rcases hp with rfl | rfl <;> exact pc_exact hpc nofun nofun nofun

/-- Settles O26: each word is one case of `exec_enforce`, and its guard compares the enforcer with its hold flag. -/
theorem enforcerSteps : Obligations.EnforcerSteps := by
  refine fun b c s => ⟨fun hready => ⟨fun hpc hflag => ?_, fun hno => ?_⟩, fun hready => ⟨fun hpc hflag => ?_, fun hno => ?_⟩⟩
  · have heff : effectOf (.waiteAssert b c) s = _ :=
      (ifChannel_ready hready _).trans (guarded_pos (by rw [hpc, hflag]; rfl) _)
    exact exec_enforce (.inr rfl) heff
  · exact exec_channel_hold hready rfl (guarded_neg (by simpa [or_iff_not_imp_left] using hno) _)
  · have heff : effectOf (.waiteRelease b c) s = _ :=
      (ifChannel_ready hready _).trans (guarded_pos (by rw [hpc, hflag]; rfl) _)
    exact exec_enforce (.inl rfl) heff
  · exact exec_channel_hold hready rfl (guarded_neg (by simpa [or_iff_not_imp_left] using hno) _)

/-! ### An agent that waits for WAIT low sees it (44_peripheral_fsm.md R222; 45_master_fsm.md R243, R253) -/

/-- The host that sees WAIT low goes on in its cycle. -/
theorem observeEnv_sees {s : State} {p p' : HostPc} (hrole : s.par.role = .peripheral)
    (hpp : (p = .rdWaitLow ∧ p' = .rdWaitRel) ∨ (p = .wrWaitLow ∧ p' = .wrWaitRel)) (hp : s.hostPc = p)
    (hlow : asserted s .hostSees .wait = true) : (observeEnv s).hostPc = p' := by
  rw [observeEnv_host hrole]
  rcases hpp with ⟨rfl, rfl⟩ | ⟨rfl, rfl⟩ <;> simp [hp, hlow, hostSeesWait]

/-- Settles O28: the guard of each word is that its agent's observation is due, which the end of the step makes. -/
theorem seeWaitSteps : Obligations.SeeWaitSteps := by
  refine ⟨fun s hrole => ⟨fun p p' hpp hp hlow => ?_, fun hno => ?_⟩,
    fun b c s hready => ⟨fun hrole hpc hlow => ?_, fun hno => ?_⟩,
    fun b c s hready => ⟨fun hrole hpc hlow => ?_, fun hno => ?_⟩⟩
  · have hwaits : s.hostPc = .rdWaitLow ∨ s.hostPc = .wrWaitLow := by
      rw [hp]
      exact hpp.imp And.left And.left
    have heff : effectOf .hostSeeWait s = reactionOnly s :=
      (ifRole_ready hrole _).trans (guarded_pos (by simpa [asserted, hlow] using hwaits) _)
    obtain ⟨t, hexec, hresult, -, hhost, hrecords, hframe⟩ := exec_reactionOnly heff fun q => q = .hostPc
    exact ⟨t, hexec, hresult, hhost.trans (observeEnv_sees hrole hpp hp (asserted_of_low hlow)), hrecords, hframe⟩
  · refine exec_hold ((ifRole_ready hrole _).trans (guarded_neg ?_ _))
    rcases hno with ⟨hrd, hwr⟩ | hhigh
    · simp [hrd, hwr]
    · simp [asserted, hhigh]
  · have ⟨_, _, htemplate, _⟩ := hready
    exact exec_observation hready rfl (by simp [hrole, hpc, asserted, hlow])
      (.inr (.inr (.inl ⟨hrole, htemplate, hpc, asserted_of_low hlow⟩))) (by rw [hpc]; rfl)
  · refine exec_channel_hold hready rfl (guarded_neg (guard_false ?_) _)
    simpa [asserted] using hno
  · have ⟨_, _, htemplate, _⟩ := hready
    exact exec_observation hready rfl (by simp [hrole, hpc, asserted, hlow])
      (.inr (.inr (.inr ⟨hrole, htemplate, hpc, asserted_of_low hlow⟩))) (by rw [hpc]; rfl)
  · refine exec_channel_hold hready rfl (guarded_neg (guard_false ?_) _)
    simpa [asserted] using hno

end Sys2Proof.Machine
end

section
/-! The host's bus cycles (spec/44_peripheral_fsm.md R220 to R227): what each step presents on the lines, and what the reactions at
its end may make of the host (R208, R223). -/

namespace Sys2Proof.Machine

section

variable {i : Instr} {s : State}

/-- A write to the host's own state and to its latch leaves the other pieces. -/
theorem same_host {p : HostPc} {v : Byte} {w l : Bool} (q : Part) (hpc : q ≠ .hostPc) (hlatch : q ≠ .hostLatch) :
    q.same s { s with hostPc := p, hostLatch := v, hostLatchWritten := w, hostLatched := l } := by
  cases q with
  | hostPc => exact absurd rfl hpc
  | hostLatch => exact absurd rfl hlatch
  | _ => simp [Part.same, State.blk, State.chan, State.pin, State.envLine]

theorem same_present {X : Line} {v : Bool} (q : Part) (h : q ≠ .line X) : q.same s (present s X v) := same_modEnv q h

theorem same_driveData {v : Byte} (q : Part) (h : ¬ ∃ i, q = .line (.data i)) : q.same s (driveData s v) :=
  same_modEnvData q h

theorem same_releaseData (q : Part) (h : ¬ ∃ i, q = .line (.data i)) : q.same s (releaseData s) := same_modEnvData q h

theorem envLine_present (X Y : Line) (v : Bool) :
    (present s X v).envLine Y = if Y = X then { s.envLine X with val := v } else s.envLine Y := envLine_modEnv ..

theorem envLine_driveData (v : Byte) (Y : Line) :
    (driveData s v).envLine Y = if lineIdx Y < 8 then ⟨true, v.getLsbD (lineIdx Y)⟩ else s.envLine Y :=
  envLine_modEnvData ..

theorem envLine_releaseData (Y : Line) :
    (releaseData s).envLine Y = if lineIdx Y < 8 then { s.envLine Y with drive := false } else s.envLine Y :=
  envLine_modEnvData ..

/-- **A step of the host**: the lines stand as its own writes left them, and a reaction may follow of the host's state and of its
latch only. -/
theorem exec_host {u : State} {r : Result} {own : Part → Prop} (hrole : s.par.role = .peripheral)
    (he : effectOf i s = .done u r none)
    (hu : u = { s with
      env := u.env, hostPc := u.hostPc, hostLatch := u.hostLatch, hostLatchWritten := u.hostLatchWritten,
      hostLatched := u.hostLatched })
    (hown : ∀ q, ¬ own q → q.same s u) :
    ∃ t, exec i s = .next t ∧ t.result = r ∧ (∀ X, t.envLine X = u.envLine X) ∧ HostReacts t u.hostPc t.hostPc ∧
      LatchReacts s t u.hostLatch u.hostLatchWritten u.hostLatched ∧ RecordsKept i s t ∧ Frame s t none own := by
  obtain ⟨t, hexec, hresult, hrecords, hframe, hkept⟩ :=
    exec_plain own he (by rw [hu]) (by rw [hu]) (by rw [hu]) (by rw [hu]) hown fun h => .inl (by rwa [hu] at h)
  have htrole : t.par.role ≠ .master := by rw [hframe.1, hrole]; decide
  exact ⟨t, hexec, hresult, fun X => line_exact (hkept (.line X)) (.inl htrole), hkept .hostPc, hkept .hostLatch, hrecords,
    hframe⟩

/-- No reaction moves a host that is idle. -/
theorem HostReacts.of_idle {t : State} {p : HostPc} (h : HostReacts t .idle p) : p = .idle := by
  rcases h with h | ⟨-, -, ⟨h, -⟩ | ⟨h, -⟩⟩
  · exact h
  · cases h
  · cases h

end

/-! ### The beginning of a cycle (44_peripheral_fsm.md R221, R225) -/

/-- The lines as HOST_RD_BEGIN presents them. -/
def readPresented (s : State) : State :=
  present (present (present s .ad (Config.adLevel s.tick)) .modsel false) .rd false

theorem same_readPresented {s : State} (q : Part) (had : q ≠ .line .ad) (hmodsel : q ≠ .line .modsel)
    (hrd : q ≠ .line .rd) : q.same s (readPresented s) :=
  same_trans (same_trans (same_present q had) (same_present q hmodsel)) (same_present q hrd)

/-- The lines as HOST_WR_BEGIN presents them. -/
def writePresented (s : State) (v : Byte) : State :=
  present (present (driveData (present s .ad (Config.adLevel s.tick)) v) .modsel false) .wr false

theorem writePresented_env (s : State) (v : Byte) :
    writePresented s v = { s with env := (writePresented s v).env } := by
  simp [writePresented, present, driveData, State.modEnv, State.modEnvData]

theorem same_writePresented {s : State} {v : Byte} (q : Part) (had : q ≠ .line .ad) (hmodsel : q ≠ .line .modsel)
    (hwr : q ≠ .line .wr) (hdata : ¬ ∃ i, q = .line (.data i)) : q.same s (writePresented s v) :=
  same_trans (same_trans (same_trans (same_present q had) (same_driveData q hdata)) (same_present q hmodsel))
    (same_present q hwr)

/-- HOST_RD_BEGIN from H_IDLE. -/
theorem exec_hostRdBegin {s : State} (hrole : s.par.role = .peripheral) (hidle : s.hostPc = .idle) :
    ∃ t a, exec .hostRdBegin s = .next t ∧ t.result = .none ∧
      t.envLine .ad = { s.envLine .ad with val := a } ∧
      t.envLine .modsel = { s.envLine .modsel with val := false } ∧
      t.envLine .rd = { s.envLine .rd with val := false } ∧
      HostReacts t (if s.par.hostHandshake = .full then .rdWaitLow else .rdWaitRel) t.hostPc ∧
      LatchReacts s t s.hostLatch s.hostLatchWritten false ∧
      RecordsKept .hostRdBegin s t ∧
      Frame s t none fun q =>
        q = .line .ad ∨ q = .line .modsel ∨ q = .line .rd ∨ q = .hostPc ∨ q = .hostLatch := by
  have heff : effectOf .hostRdBegin s = .done { readPresented s with
      hostLatched := false, hostPc := if s.par.hostHandshake = .full then .rdWaitLow else .rdWaitRel } .none none :=
    (ifRole_ready hrole _).trans (guarded_pos (decide_eq_true hidle) _)
  obtain ⟨t, hexec, hresult, hline, hhost, hlatch, hrecords, hframe⟩ :=
    exec_host (own := fun q => q = .line .ad ∨ q = .line .modsel ∨ q = .line .rd ∨ q = .hostPc ∨ q = .hostLatch)
      hrole heff rfl fun q hq => by
        obtain ⟨had, hmodsel, hrd, hpc, hlatch⟩ : q ≠ .line .ad ∧ q ≠ .line .modsel ∧ q ≠ .line .rd ∧ q ≠ .hostPc ∧
          q ≠ .hostLatch := by simpa only [not_or] using hq
        exact same_trans (same_readPresented q had hmodsel hrd) (same_host q hpc hlatch)
  have hlines : ∀ X, t.envLine X = (readPresented s).envLine X := hline
  refine ⟨t, Config.adLevel s.tick, hexec, hresult, ?_, ?_, ?_, hhost, hlatch, hrecords, hframe⟩ <;>
    simp [hlines, readPresented, envLine_present]

/-- HOST_WR_BEGIN from H_IDLE. -/
theorem exec_hostWrBegin {s : State} (v : Byte) (hrole : s.par.role = .peripheral) (hidle : s.hostPc = .idle) :
    ∃ t a, exec (.hostWrBegin v) s = .next t ∧ t.result = .none ∧
      t.envLine .ad = { s.envLine .ad with val := a } ∧
      t.envLine .modsel = { s.envLine .modsel with val := false } ∧
      t.envLine .wr = { s.envLine .wr with val := false } ∧
      (∀ i : Fin 8, t.envLine (.data i) = ⟨true, v.getLsbD i⟩) ∧
      HostReacts t (if s.par.hostHandshake = .full then .wrWaitLow else .wrWaitRel) t.hostPc ∧
      RecordsKept (.hostWrBegin v) s t ∧
      Frame s t none fun q =>
        q = .line .ad ∨ q = .line .modsel ∨ q = .line .wr ∨ (∃ i, q = .line (.data i)) ∨ q = .hostPc := by
  have heff : effectOf (.hostWrBegin v) s = .done { writePresented s v with
      hostPc := if s.par.hostHandshake = .full then .wrWaitLow else .wrWaitRel } .none none :=
    (ifRole_ready hrole _).trans (guarded_pos (decide_eq_true hidle) _)
  obtain ⟨t, hexec, hresult, hline, hhost, -, hrecords, hframe⟩ :=
    exec_host
      (own := fun q => q = .line .ad ∨ q = .line .modsel ∨ q = .line .wr ∨ (∃ i, q = .line (.data i)) ∨ q = .hostPc)
      hrole heff (by rw [writePresented_env]) fun q hq => by
        obtain ⟨had, hmodsel, hwr, hdata, hpc⟩ : q ≠ .line .ad ∧ q ≠ .line .modsel ∧ q ≠ .line .wr ∧
          (¬ ∃ i, q = .line (.data i)) ∧ q ≠ .hostPc := by simpa only [not_or] using hq
        exact same_trans (same_writePresented q had hmodsel hwr hdata) (same_hostPc q hpc)
  have hlines : ∀ X, t.envLine X = (writePresented s v).envLine X := hline
  refine ⟨t, Config.adLevel s.tick, hexec, hresult, ?_, ?_, ?_, fun i => ?_, hhost, hrecords, hframe⟩ <;>
    simp [hlines, writePresented, envLine_present, envLine_driveData, lineIdx]

/-- Settles O27: from H_IDLE the two lemmas above, and away from it the guard fails. -/
theorem hostBegins : Obligations.HostBegins := by
  have hold {i : Instr} {s : State} {e : Effect} (hrole : s.par.role = .peripheral)
      (he : effectOf i s = ifRole .peripheral s (guarded (decide (s.hostPc = .idle)) e)) (hbusy : s.hostPc ≠ .idle) :
      exec i s = .next s.afterHold :=
    exec_hold (he.trans ((ifRole_ready hrole _).trans (guarded_neg (decide_eq_false hbusy) _)))
  exact fun s hrole => ⟨exec_hostRdBegin hrole, hold hrole rfl, fun v => ⟨exec_hostWrBegin v hrole, hold hrole rfl⟩⟩

/-! ### The end of a cycle (44_peripheral_fsm.md R224, R226) -/

/-- HOST_RD_END once WAIT is released. -/
theorem exec_hostRdEnd {s : State} (hrole : s.par.role = .peripheral) (hpc : s.hostPc = .rdWaitRel)
    (hwait : lineLevel s .guard .wait = true) :
    ∃ t v, exec .hostRdEnd s = .next t ∧ t.result = .byte v ∧
      v = (if s.hostLatched then s.hostLatch else dataByte s .sample) ∧
      t.hostLatch = v ∧ t.hostLatchWritten = true ∧ t.hostLatched = true ∧ t.hostPc = .idle ∧
      t.envLine .rd = { s.envLine .rd with val := true } ∧
      t.envLine .modsel = { s.envLine .modsel with val := true } ∧
      RecordsKept .hostRdEnd s t ∧
      Frame s t none fun q => q = .line .rd ∨ q = .line .modsel ∨ q = .hostPc ∨ q = .hostLatch := by
  have heff : effectOf .hostRdEnd s = _ :=
    (ifRole_ready hrole _).trans (guarded_pos (by rw [hpc, hwait]; rfl) _)
  obtain ⟨t, hexec, hresult, hline, hhost, hlatch, hrecords, hframe⟩ :=
    exec_host (own := fun q => q = .line .rd ∨ q = .line .modsel ∨ q = .hostPc ∨ q = .hostLatch)
      hrole heff rfl fun q hq => by
        obtain ⟨hrd, hmodsel, hpc, hlatch⟩ : q ≠ .line .rd ∧ q ≠ .line .modsel ∧ q ≠ .hostPc ∧ q ≠ .hostLatch := by
          simpa only [not_or] using hq
        exact same_trans (same_trans (same_present q hrd) (same_present q hmodsel)) (same_host q hpc hlatch)
  have hidle : t.hostPc = .idle := hhost.of_idle
  obtain ⟨hbyte, hwritten, hlatched⟩ := latch_exact hlatch (.inr (by rw [hidle]; exact nofun))
  have hlines : ∀ X, t.envLine X = (present (present s .rd true) .modsel true).envLine X := hline
  refine ⟨t, _, hexec, hresult, rfl, hbyte, hwritten, hlatched, hidle, ?_, ?_, hrecords, hframe⟩ <;>
    simp [hlines, envLine_present]

/-- HOST_WR_END once WAIT is released. -/
theorem exec_hostWrEnd {s : State} (hrole : s.par.role = .peripheral) (hpc : s.hostPc = .wrWaitRel)
    (hwait : lineLevel s .guard .wait = true) :
    ∃ t, exec .hostWrEnd s = .next t ∧ t.result = .none ∧ t.hostPc = .idle ∧
      t.envLine .wr = { s.envLine .wr with val := true } ∧
      t.envLine .modsel = { s.envLine .modsel with val := true } ∧
      (∀ i, t.envLine (.data i) = { s.envLine (.data i) with drive := false }) ∧
      RecordsKept .hostWrEnd s t ∧
      Frame s t none fun q =>
        q = .line .wr ∨ q = .line .modsel ∨ (∃ i, q = .line (.data i)) ∨ q = .hostPc := by
  have heff : effectOf .hostWrEnd s = _ :=
    (ifRole_ready hrole _).trans (guarded_pos (by rw [hpc, hwait]; rfl) _)
  obtain ⟨t, hexec, hresult, hline, hhost, -, hrecords, hframe⟩ :=
    exec_host (own := fun q => q = .line .wr ∨ q = .line .modsel ∨ (∃ i, q = .line (.data i)) ∨ q = .hostPc)
      hrole heff rfl fun q hq => by
        obtain ⟨hwr, hmodsel, hdata, hpc⟩ : q ≠ .line .wr ∧ q ≠ .line .modsel ∧ (¬ ∃ i, q = .line (.data i)) ∧
          q ≠ .hostPc := by simpa only [not_or] using hq
        exact same_trans (same_trans (same_trans (same_present q hwr) (same_present q hmodsel)) (same_releaseData q hdata))
          (same_hostPc q hpc)
  have hlines : ∀ X, t.envLine X = (releaseData (present (present s .wr true) .modsel true)).envLine X := hline
  refine ⟨t, hexec, hresult, hhost.of_idle, ?_, ?_, fun i => ?_, hrecords, hframe⟩ <;>
    simp [hlines, envLine_present, envLine_releaseData, lineIdx]

/-- Settles O29: once WAIT is released the two lemmas above, and before that or in another cycle the guard fails. -/
theorem hostEnds : Obligations.HostEnds := by
  have hold {i : Instr} {s : State} {p : HostPc} {e : Effect} (hrole : s.par.role = .peripheral)
      (he : effectOf i s = ifRole .peripheral s (guarded (decide (s.hostPc = p) && lineLevel s .guard .wait) e))
      (hno : s.hostPc ≠ p ∨ lineLevel s .guard .wait = false) : exec i s = .next s.afterHold :=
    exec_hold (he.trans ((ifRole_ready hrole _).trans (guarded_neg (by simpa [or_iff_not_imp_left] using hno) _)))
  exact fun s hrole => ⟨exec_hostRdEnd hrole, hold hrole rfl, exec_hostWrEnd hrole, hold hrole rfl⟩

end Sys2Proof.Machine
end

section
/-! The master's drivers (spec/45_master_fsm.md R242 to R256): the strobes of a cycle, the byte driven on the bus, the sample, and
the overlap of the strobes that a step leaves. -/

namespace Sys2Proof.Machine

/-! ### What the steps of a driver write -/

section

variable {s : State} {b c : Nat}

theorem out_setPc (p : TState) (b' p' : Nat) : ((setPc s b c p).blk b').out p' = (s.blk b').out p' := by
  simp only [Block.out, pinOut_setPc]

theorem oe_setPc (p : TState) (b' p' : Nat) : ((setPc s b c p).blk b').oe p' = (s.blk b').oe p' := by
  simp only [Block.oe, pinOe_setPc]

theorem oe_driveLine (X : Line) (v : Bool) (b' p' : Nat) :
    ((driveLine s b X v).blk b').oe p' = (s.blk b').oe p' := by
  simp only [Block.oe, pinOe_driveLine]

/-- Moving the template state of a channel leaves the rest of it. -/
theorem chan_setPc_self {ch : Channel} (p : TState) (h : s.chan b c = ch) :
    (setPc s b c p).chan b c = { ch with pc := p } := by
  rw [chan_setPc, if_pos ⟨rfl, rfl⟩, h]

theorem out_driveBus (k : Block) (d0 : Nat) (v : Byte) {i : Nat} (h : i < 8) :
    (k.driveBus d0 v).out (d0 + i) = v.getLsbD i := by
  refine (tabModifyRun_getD ..).trans ((if_pos (by omega)).trans ?_)
  rw [Nat.add_sub_cancel_left]

theorem oe_driveBus (k : Block) (d0 : Nat) (v : Byte) {i : Nat} (h : i < 8) : (k.driveBus d0 v).oe (d0 + i) = true :=
  (tabModifyRun_getD ..).trans (if_pos (by omega))

theorem chan_driveBus (d0 : Nat) (v : Byte) (b' c' : Nat) :
    (s.modBlk b fun k => k.driveBus d0 v).chan b' c' = s.chan b' c' :=
  chan_modBlk_field s b (f := fun k => k.driveBus d0 v) (fun _ => rfl) b' c'

/-- A byte driven on the bus writes the eight data pins and their directions. -/
theorem same_driveBus {d0 : Nat} {v : Byte} (q : Part)
    (h : ¬ ∃ i : Nat, i < 8 ∧ (q = .out b (d0 + i) ∨ q = .oe b (d0 + i))) :
    q.same s (s.modBlk b fun k => k.driveBus d0 v) := by
  have hpin : ∀ p, q = .out b p ∨ q = .oe b p → ¬ (d0 ≤ p ∧ p < d0 + 8) := fun p hq ⟨hlo, hhi⟩ =>
    h ⟨p - d0, by omega, by rwa [Nat.add_sub_cancel' hlo]⟩
  exact same_modBlk q (fun _ _ => rfl) (fun _ _ => rfl) (fun _ => rfl) (fun _ => rfl)
    (fun p hq => (tabModifyRun_getD ..).trans (if_neg (hpin p (.inl hq))))
    (fun p hq => (tabModifyRun_getD ..).trans (if_neg (hpin p (.inr hq)))) (fun _ _ => rfl) fun _ _ => rfl

end

/-! ### The overlap of the strobes (45_master_fsm.md R256) -/

/-- A step records STROBE_OVERLAP of a block exactly if after it the block drives both strobes low. -/
theorem RecordsKept.strobeOverlap {i : Instr} {s t : State} {b : Nat} (h : RecordsKept i s t) (hb : b < t.par.numBlocks) :
    .strobeOverlap b i ∈ t.faults ↔ .strobeOverlap b i ∈ s.faults ∨
      ((t.blk b).out t.par.pins.rd = false ∧ (t.blk b).out t.par.pins.wr = false ∧
        (t.blk b).oe t.par.pins.rd = true ∧ (t.blk b).oe t.par.pins.wr = true) := by
  rw [h.2, endFault_strobeOverlap]
  simp [hb, strobesOverlap, and_assoc]

theorem block_of_wf {par : Params} {b c : Nibble} (h : (blockOk par b && chanOk par c) = true) : b.toNat < par.numBlocks :=
  of_decide_eq_true (Bool.and_eq_true_iff.mp h).1

/-! ### A read cycle begins (45_master_fsm.md R242) -/

/-- The own writes of RCD_STROBE. -/
def readStrobed (s : State) (b c : Nat) : State :=
  setPc (driveLine (driveLine s b .modsel false) b .rd false) b c
    (if s.par.masterHandshake = .full then .rWaitLow else .rWaitRel)

theorem out_readStrobed (s : State) (b c p : Nat) :
    ((readStrobed s b c).blk b).out p
      = if p = s.par.pins.rd then false else if p = s.par.pins.modsel then false else (s.blk b).out p := by
  rw [readStrobed, out_setPc, out_driveLine, out_driveLine]
  rfl

theorem same_readStrobed {s : State} {b c : Nat} (q : Part)
    (h : ¬ (q = .out b s.par.pins.modsel ∨ q = .out b s.par.pins.rd ∨ q = .chan b c)) : q.same s (readStrobed s b c) := by
  simp only [not_or] at h
  obtain ⟨hmodsel, hrd, hchan⟩ := h
  exact same_trans (same_trans (same_driveLine q hmodsel) (same_driveLine q hrd)) (same_setPc q hchan)

/-- Settles O30: the strobes stand as the step wrote them, as no reaction of a step that writes no flags drives a pin, and the
overlap is read off the state after it. -/
theorem readStrobes : Obligations.ReadStrobes := by
  refine fun b c s hready => ⟨fun hpc hflag => ?_, fun hno => ?_⟩
  · have heff : effectOf (.rcdStrobe b c) s = .done (readStrobed s b.toNat c.toNat) .none none :=
      (ifChannel_ready hready _).trans (guarded_pos (by rw [hpc, hflag]; rfl) _)
    obtain ⟨t, hexec, hresult, hrecords, hframe, hkept⟩ := exec_plain _ heff rfl rfl rfl rfl same_readStrobed
    have hpar : t.par = s.par := hframe.1
    have hout : ∀ p, (t.blk b.toNat).out p = ((readStrobed s b.toNat c.toNat).blk b.toNat).out p :=
      fun p => out_exact (hkept (.out b.toNat p))
    have hmodsel : (t.blk b.toNat).out s.par.pins.modsel = false := by rw [hout, out_readStrobed]; simp
    have hrd : (t.blk b.toNat).out s.par.pins.rd = false := by rw [hout, out_readStrobed]; simp
    have hchan : ChannelReacts t none b.toNat ((readStrobed s b.toNat c.toNat).chan b.toNat c.toNat)
        (t.chan b.toNat c.toNat) := hkept (.chan b.toNat c.toNat)
    rw [readStrobed, chan_setPc_self _ (by rw [chan_driveLine, chan_driveLine])] at hchan
    have hoverlap := hrecords.strobeOverlap (b := b.toNat) (by rw [hpar]; exact block_of_wf hready.1)
    rw [hpar] at hoverlap
    simp only [hrd, true_and] at hoverlap
    exact ⟨t, hexec, hresult, hmodsel, hrd, hchan, hrecords, hoverlap, hframe⟩
  · exact exec_channel_hold hready rfl (guarded_neg (by simpa [or_iff_not_imp_left] using hno) _)

/-! ### A read cycle ends (45_master_fsm.md R244) -/

/-- The own writes of RCD_SAMPLE, which shifts `v` in. -/
def sampled (s : State) (b c : Nat) (v : Word) : State :=
  setPc
    ((driveLine (driveLine (s.modChan b c fun ch => sampleIn ch v 8) b .rd true) b .modsel true).modBlk b
      fun k => k.raiseFlags (flagBit s.par.irqMrd))
    b c .rIdle

theorem out_sampled (s : State) (b c : Nat) (v : Word) (p : Nat) :
    ((sampled s b c v).blk b).out p
      = if p = s.par.pins.modsel then true else if p = s.par.pins.rd then true else (s.blk b).out p := by
  rw [sampled, out_setPc, blk_modBlk_self]
  show ((driveLine _ b .modsel true).blk b).out p = _
  rw [out_driveLine, out_driveLine, Block.out, blk_modChan_pinOut]
  rfl

theorem flags_sampled (s : State) (b c : Nat) (v : Word) :
    ((sampled s b c v).blk b).flags = (s.blk b).flags ||| flagBit s.par.irqMrd := by
  rw [sampled, flags_setPc, blk_modBlk_self]
  show ((driveLine _ b .modsel true).blk b).flags ||| _ = _
  rw [flags_driveLine, flags_driveLine, blk_modChan_flags]

theorem chan_sampled (s : State) (b c : Nat) (v : Word) :
    (sampled s b c v).chan b c = { sampleIn (s.chan b c) v 8 with pc := .rIdle } := by
  refine chan_setPc_self _ ?_
  rw [chan_raiseFlags, chan_driveLine, chan_driveLine, state_chan_modChan_self]

theorem same_sampled {s : State} {b c : Nat} {v : Word} (q : Part)
    (h : ¬ (q = .out b s.par.pins.rd ∨ q = .out b s.par.pins.modsel ∨ q = .flags b ∨ q = .chan b c)) :
    q.same s (sampled s b c v) := by
  simp only [not_or] at h
  obtain ⟨hrd, hmodsel, hflags, hchan⟩ := h
  exact same_trans (same_trans (same_trans (same_trans (same_modChan q hchan) (same_driveLine q hrd))
    (same_driveLine q hmodsel)) (same_raiseFlags q hflags)) (same_setPc q hchan)

/-- An enforcer drives no pin but WAIT's. -/
theorem OutReacts.of_ne_wait {t : State} {wrote : Option Nat} {b p : Nat} {v v' : Bool} (h : OutReacts t wrote b p v v')
    (hp : p ≠ t.par.pins.wait) : v' = v := h.resolve_right fun ⟨_, hwait, _⟩ => hp hwait

/-- No reaction moves a driver that is idle. -/
theorem PcReacts.of_rIdle {t : State} {wrote : Option Nat} {b : Nat} {ch : Channel} {p : TState}
    (h : PcReacts t wrote b ch .rIdle p) : p = .rIdle := by
  rcases h with h | ⟨-, -, ⟨-, -, -, h, -⟩ | ⟨-, -, -, h, -⟩ | ⟨-, -, -, h, -⟩ | ⟨-, -, -, h, -⟩ | ⟨-, -, ⟨h, -⟩ | ⟨h, -⟩⟩⟩
  · exact h
  all_goals cases h

/-- Settles O31: the reactions follow the writes of `sampled`, and only the enforcers' reaches an output, which is WAIT's. -/
theorem readSamples : Obligations.ReadSamples := by
  refine fun b c s hvalid hready => ⟨fun hpc hwait hfits => ?_, fun hno => ?_⟩
  · have heff : effectOf (.rcdSample b c) s
        = .done (sampled s b.toNat c.toNat ((dataByte s .sample).setWidth 32)) .none (some b.toNat) :=
      (ifChannel_ready hready _).trans (guarded_pos (by rw [hpc, hwait, hfits]; rfl) _)
    obtain ⟨t, hexec, hresult, hrecords, hframe, hkept⟩ := exec_plain _ heff rfl rfl rfl rfl same_sampled
    have hout : ∀ X, X ≠ .wait → (t.blk b.toNat).out (s.par.pin X)
        = ((sampled s b.toNat c.toNat ((dataByte s .sample).setWidth 32)).blk b.toNat).out (s.par.pin X) := fun X hX =>
      (hkept (.out b.toNat (s.par.pin X))).of_ne_wait (by rw [hframe.1]; exact pin_ne_of_valid hvalid hX)
    have hchan : ChannelReacts t (some b.toNat) b.toNat
        ((sampled s b.toNat c.toNat ((dataByte s .sample).setWidth 32)).chan b.toNat c.toNat) (t.chan b.toNat c.toNat) :=
      hkept (.chan b.toNat c.toNat)
    rw [chan_sampled] at hchan
    refine ⟨t, hexec, hresult, (hout .rd nofun).trans ?_, (hout .modsel nofun).trans ?_,
      (hkept (.flags b.toNat)).trans (flags_sampled ..), chan_exact hchan PcReacts.of_rIdle, hrecords, hframe⟩
    · simp [out_sampled]
    · simp [out_sampled]
  · exact exec_channel_hold hready rfl (guarded_neg (guard_false (by simpa using hno)) _)

/-! ### A write cycle begins (45_master_fsm.md R252) -/

/-- The own writes of WCD_START, which takes `w` from a TX whose rest is `ws`. -/
def writeStarted (s : State) (b c : Nat) (w : Word) (ws : List Word) : State :=
  setPc
    (driveLine
      (driveLine
        ((s.modChan b c fun ch => takeByte ch w ws).modBlk b fun k => k.driveBus s.par.pins.d0 (byteTaken (s.chan b c) w ws))
        b .modsel false)
      b .wr false)
    b c (if s.par.masterHandshake = .full then .wWaitLow else .wWaitRel)

theorem out_writeStarted (s : State) (b c : Nat) (w : Word) (ws : List Word) (p : Nat) :
    ((writeStarted s b c w ws).blk b).out p
      = if p = s.par.pins.wr then false else if p = s.par.pins.modsel then false
        else (((s.modChan b c fun ch => takeByte ch w ws).blk b).driveBus s.par.pins.d0 (byteTaken (s.chan b c) w ws)).out p := by
  rw [writeStarted, out_setPc, out_driveLine, out_driveLine, blk_modBlk_self]
  rfl

theorem oe_writeStarted (s : State) (b c : Nat) (w : Word) (ws : List Word) (p : Nat) :
    ((writeStarted s b c w ws).blk b).oe p
      = (((s.modChan b c fun ch => takeByte ch w ws).blk b).driveBus s.par.pins.d0 (byteTaken (s.chan b c) w ws)).oe p := by
  rw [writeStarted, oe_setPc, oe_driveLine, oe_driveLine, blk_modBlk_self]

theorem chan_writeStarted (s : State) (b c : Nat) (w : Word) (ws : List Word) :
    (writeStarted s b c w ws).chan b c
      = { takeByte (s.chan b c) w ws with pc := if s.par.masterHandshake = .full then .wWaitLow else .wWaitRel } := by
  refine chan_setPc_self _ ?_
  rw [chan_driveLine, chan_driveLine, chan_driveBus, state_chan_modChan_self]

/-- The pieces that WCD_START writes. -/
theorem same_writeStarted {s : State} {b c : Nat} {w : Word} {ws : List Word} (q : Part)
    (h : ¬ (q = .chan b c ∨ q = .out b s.par.pins.modsel ∨ q = .out b s.par.pins.wr ∨
      ∃ i : Nat, i < 8 ∧ (q = .out b (s.par.pins.d0 + i) ∨ q = .oe b (s.par.pins.d0 + i)))) :
    q.same s (writeStarted s b c w ws) := by
  rw [not_or, not_or, not_or] at h
  obtain ⟨hchan, hmodsel, hwr, hbus⟩ := h
  exact same_trans (same_trans (same_trans (same_trans (same_modChan q hchan) (same_driveBus q hbus))
    (same_driveLine q hmodsel)) (same_driveLine q hwr)) (same_setPc q hchan)

/-- The data pins after WCD_START: the strobes' pins are none of them (42_pin_binder.md R131). -/
theorem bus_writeStarted {s : State} (hvalid : s.par.valid = true) (b c : Nat) (w : Word) (ws : List Word) {i : Nat}
    (hi : i < 8) : ((writeStarted s b c w ws).blk b).out (s.par.pins.d0 + i) = (byteTaken (s.chan b c) w ws).getLsbD i ∧
      ((writeStarted s b c w ws).blk b).oe (s.par.pins.d0 + i) = true := by
  have hwr : s.par.pins.d0 + i ≠ s.par.pins.wr := pin_ne_of_valid hvalid (X := .data ⟨i, hi⟩) (Y := .wr) nofun
  have hmodsel : s.par.pins.d0 + i ≠ s.par.pins.modsel := pin_ne_of_valid hvalid (X := .data ⟨i, hi⟩) (Y := .modsel) nofun
  rw [out_writeStarted, oe_writeStarted, if_neg hwr, if_neg hmodsel]
  exact ⟨out_driveBus _ _ _ hi, oe_driveBus _ _ _ hi⟩

theorem effWcdStart_cons {s : State} {b c : Nat} {w : Word} {ws : List Word} (hpc : (s.chan b c).pc = .wIdle)
    (htx : (s.chan b c).tx = w :: ws) : effWcdStart b c s = .done (writeStarted s b c w ws) .none none := by
  rw [effWcdStart, htx]
  exact guarded_pos (decide_eq_true hpc) _

theorem effWcdStart_hold {s : State} {b c : Nat} (h : (s.chan b c).pc ≠ .wIdle ∨ (s.chan b c).tx = []) :
    effWcdStart b c s = .hold := by
  unfold effWcdStart
  split
  · rfl
  · next hcons =>
    refine guarded_neg (decide_eq_false (h.resolve_right fun hnil => ?_)) _
    rw [hnil] at hcons
    cases hcons

/-- Settles O33: the pins stand as `writeStarted` leaves them, as no reaction of a step that writes no flags drives a pin, and
the overlap is read off the state after it. -/
theorem writeStarts : Obligations.WriteStarts := by
  refine fun b c s hvalid hready => ⟨fun w ws hpc htx => ?_, fun hno => exec_channel_hold hready rfl (effWcdStart_hold hno)⟩
  have heff : effectOf (.wcdStart b c) s = .done (writeStarted s b.toNat c.toNat w ws) .none none :=
    (ifChannel_ready hready _).trans (effWcdStart_cons hpc htx)
  obtain ⟨t, hexec, hresult, hrecords, hframe, hkept⟩ := exec_plain _ heff rfl rfl rfl rfl same_writeStarted
  have hpar : t.par = s.par := hframe.1
  have hout : ∀ p, (t.blk b.toNat).out p = ((writeStarted s b.toNat c.toNat w ws).blk b.toNat).out p :=
    fun p => out_exact (hkept (.out b.toNat p))
  have hoe : ∀ p, (t.blk b.toNat).oe p = ((writeStarted s b.toNat c.toNat w ws).blk b.toNat).oe p :=
    fun p => hkept (.oe b.toNat p)
  have hmodsel : (t.blk b.toNat).out s.par.pins.modsel = false := by rw [hout, out_writeStarted]; simp
  have hwr : (t.blk b.toNat).out s.par.pins.wr = false := by rw [hout, out_writeStarted]; simp
  have hchan : ChannelReacts t none b.toNat ((writeStarted s b.toNat c.toNat w ws).chan b.toNat c.toNat)
      (t.chan b.toNat c.toNat) := hkept (.chan b.toNat c.toNat)
  rw [chan_writeStarted] at hchan
  have hoverlap := hrecords.strobeOverlap (b := b.toNat) (by rw [hpar]; exact block_of_wf hready.1)
  rw [hpar] at hoverlap
  simp only [hwr, true_and] at hoverlap
  exact ⟨t, hexec, hresult, fun i hi => by rw [hout, hoe]; exact bus_writeStarted hvalid _ _ w ws hi, hmodsel, hwr, hchan, rfl,
    hrecords, hoverlap, hframe⟩

end Sys2Proof.Machine
end

section
/-! The end of a write cycle and the external peripheral (spec/45_master_fsm.md R246, R254, R260 to R266): what each step leaves on
the pins and on the lines, and how the observation at its end ends a cycle whose strobes are released. -/

namespace Sys2Proof.Machine

/-! ### A write cycle ends (45_master_fsm.md R254) -/

section

variable {s : State} {b c : Nat}

theorem oe_releaseBus (k : Block) (d0 : Nat) {i : Nat} (h : i < 8) : (k.releaseBus d0).oe (d0 + i) = false :=
  (tabModifyRun_getD ..).trans (if_pos (by omega))

theorem chan_releaseBus (d0 b' c' : Nat) : (s.modBlk b fun k => k.releaseBus d0).chan b' c' = s.chan b' c' :=
  chan_modBlk_field s b (f := fun k => k.releaseBus d0) (fun _ => rfl) b' c'

/-- The release of the bus writes the directions of the eight data pins. -/
theorem same_releaseBus {d0 : Nat} (q : Part) (h : ¬ ∃ i : Nat, i < 8 ∧ q = .oe b (d0 + i)) :
    q.same s (s.modBlk b fun k => k.releaseBus d0) := by
  have hpin : ∀ p, q = .oe b p → ¬ (d0 ≤ p ∧ p < d0 + 8) := fun p hq ⟨hlo, hhi⟩ =>
    h ⟨p - d0, by omega, by rwa [Nat.add_sub_cancel' hlo]⟩
  exact same_modBlk q (fun _ _ => rfl) (fun _ _ => rfl) (fun _ => rfl) (fun _ => rfl) (fun _ _ => rfl)
    (fun p hq => (tabModifyRun_getD ..).trans (if_neg (hpin p hq))) (fun _ _ => rfl) fun _ _ => rfl

/-- The own writes of WCD_FINISH. -/
def writeFinished (s : State) (b c : Nat) : State :=
  setPc ((driveLine (driveLine s b .wr true) b .modsel true).modBlk b fun k => k.releaseBus s.par.pins.d0) b c .wIdle

theorem out_writeFinished (s : State) (b c p : Nat) :
    ((writeFinished s b c).blk b).out p
      = if p = s.par.pins.modsel then true else if p = s.par.pins.wr then true else (s.blk b).out p := by
  rw [writeFinished, out_setPc, blk_modBlk_self]
  show ((driveLine _ b .modsel true).blk b).out p = _
  rw [out_driveLine, out_driveLine]
  rfl

theorem oe_writeFinished (s : State) (b c : Nat) {i : Nat} (h : i < 8) :
    ((writeFinished s b c).blk b).oe (s.par.pins.d0 + i) = false := by
  rw [writeFinished, oe_setPc, blk_modBlk_self, oe_releaseBus _ _ h]

theorem chan_writeFinished (s : State) (b c : Nat) :
    (writeFinished s b c).chan b c = { s.chan b c with pc := .wIdle } :=
  chan_setPc_self _ (by rw [chan_releaseBus, chan_driveLine, chan_driveLine])

/-- The pieces that WCD_FINISH writes. -/
theorem same_writeFinished (q : Part)
    (h : ¬ (q = .chan b c ∨ q = .out b s.par.pins.wr ∨ q = .out b s.par.pins.modsel ∨
      ∃ i : Nat, i < 8 ∧ q = .oe b (s.par.pins.d0 + i))) : q.same s (writeFinished s b c) := by
  rw [not_or, not_or, not_or] at h
  obtain ⟨hchan, hwr, hmodsel, hbus⟩ := h
  exact same_trans (same_trans (same_trans (same_driveLine q hwr) (same_driveLine q hmodsel)) (same_releaseBus q hbus))
    (same_setPc q hchan)

end

/-- Settles O34: the pins stand as `writeFinished` leaves them, as no reaction of a step that writes no flags drives a pin or
moves an idle driver. -/
theorem writeFinishes : Obligations.WriteFinishes := by
  refine fun b c s hready => ⟨fun hpc hwait => ?_, fun hno => ?_⟩
  · have heff : effectOf (.wcdFinish b c) s = .done (writeFinished s b.toNat c.toNat) .none none :=
      (ifChannel_ready hready _).trans (guarded_pos (by rw [hpc, hwait]; rfl) _)
    obtain ⟨t, hexec, hresult, hrecords, hframe, hkept⟩ := exec_plain _ heff rfl rfl rfl rfl same_writeFinished
    have hout : ∀ p, (t.blk b.toNat).out p = ((writeFinished s b.toNat c.toNat).blk b.toNat).out p :=
      fun p => out_exact (hkept (.out b.toNat p))
    have hchan : ChannelReacts t none b.toNat ((writeFinished s b.toNat c.toNat).chan b.toNat c.toNat)
        (t.chan b.toNat c.toNat) := hkept (.chan b.toNat c.toNat)
    rw [chan_writeFinished] at hchan
    refine ⟨t, hexec, hresult, (hout _).trans ?_, (hout _).trans ?_,
      fun i hi => (hkept (.oe b.toNat (s.par.pins.d0 + i))).trans (oe_writeFinished s _ _ hi),
      chan_exact hchan fun h => pc_exact h nofun nofun nofun, hrecords, hframe⟩
    · simp [out_writeFinished]
    · simp [out_writeFinished]
  · exact exec_channel_hold hready rfl (guarded_neg (by simpa [or_iff_not_imp_left] using hno) _)

/-! ### The steps of the external peripheral (45_master_fsm.md R260) -/

section

variable {i : Instr} {s : State}

/-- A step of an environment agent holds where its guard fails. -/
theorem exec_role_hold {k : Role} {g : Bool} {e : Effect} (hrole : s.par.role = k)
    (he : effectOf i s = ifRole k s (guarded g e)) (hg : g = false) : exec i s = .next s.afterHold :=
  exec_hold (he.trans ((ifRole_ready hrole _).trans (guarded_neg hg _)))

/-- A write to the external peripheral's own state and to its echo byte leaves the other pieces. -/
theorem same_peripheral {p : PerPc} {v : Byte} (q : Part) (hpc : q ≠ .perPc) (hecho : q ≠ .echo) :
    q.same s { s with perPc := p, echo := v } := by
  cases q with
  | perPc => exact absurd rfl hpc
  | echo => exact absurd rfl hecho
  | _ => simp [Part.same, State.blk, State.chan, State.pin, State.envLine]

theorem envLine_perReadDone (X : Line) :
    (perReadDone s).envLine X = if lineIdx X < 8 then { s.envLine X with drive := false } else s.envLine X := by
  show (releaseData s).envLine X = _
  exact envLine_releaseData X

/-- **A step of the external peripheral**: its own state and the lines stand as the observation at the end of the step leaves
them, and the observation touches no line but the data lines. -/
theorem exec_peripheral {u : State} {own : Part → Prop} (he : effectOf i s = .done u .none none)
    (hu : u = { s with env := u.env, perPc := u.perPc, echo := u.echo }) (hown : ∀ q, ¬ own q → q.same s u)
    (hper : u.perPc = .rdHold → s.perPc = .rdHold ∨ ∀ j, own (.line (.data j))) :
    ∃ t, exec i s = .next t ∧ t.result = .none ∧ t.perPc = (observeEnv u).perPc ∧
      (∀ X, t.envLine X = (observeEnv u).envLine X) ∧ PerReacts t u.perPc t.perPc ∧ t.envLine .wait = u.envLine .wait ∧
      t.echo = u.echo ∧ RecordsKept i s t ∧ Frame s t none own := by
  obtain ⟨t, hexec, hresult, hrecords, hframe, hkept⟩ :=
    exec_plain own he (by rw [hu]) (by rw [hu]) (by rw [hu]) (by rw [hu]) hown hper
  have hwait : t.envLine .wait = u.envLine .wait := line_exact (hkept (.line .wait)) (.inr (.inl (by decide)))
  obtain rfl : t = _ := by injection hexec.symm.trans (exec_next he)
  obtain ⟨-, hpc, henv⟩ := settle_env_none i s u
  exact ⟨_, hexec, hresult, hpc, fun X => congrArg (fun l => l.getD (lineIdx X) EnvLine.off) henv, hkept .perPc, hwait,
    hkept .echo, hrecords, hframe⟩

/-- The external peripheral leaves its read hold only where the read strobes are released (45_master_fsm.md R246, R263). -/
theorem PerReacts.of_rdHold {t : State} {p : PerPc} (h : PerReacts t .rdHold p) :
    p = .rdHold ∨ (p = .idle ∧ (t.par.valid = true → RdEnded t)) := by
  rcases h with h | ⟨-, hidle, ⟨-, hended⟩ | ⟨hwr, -⟩⟩
  · exact .inl h
  · exact .inr ⟨hidle, hended⟩
  · cases hwr

/-- The external peripheral leaves its write hold only where the write strobes are released (45_master_fsm.md R246, R266). -/
theorem PerReacts.of_wrHold {t : State} {p : PerPc} (h : PerReacts t .wrHold p) :
    p = .wrHold ∨ (p = .idle ∧ WrEnded t) := by
  rcases h with h | ⟨-, hidle, ⟨hrd, -⟩ | ⟨-, hended⟩⟩
  · exact .inl h
  · cases hrd
  · exact .inr ⟨hidle, hended⟩

/-! ### A cycle begins (45_master_fsm.md R261, R264) -/

/-- **An acknowledgement** asserts WAIT and stalls the master, and no reaction ends a cycle that is stalled. -/
theorem exec_acknowledge {p : PerPc} (hrd : p ≠ .rdHold) (hwr : p ≠ .wrHold)
    (he : effectOf i s = .done { present s .wait false with perPc := p } .none none) :
    ∃ t, exec i s = .next t ∧ t.result = .none ∧ t.perPc = p ∧
      t.envLine .wait = { s.envLine .wait with val := false } ∧
      RecordsKept i s t ∧ Frame s t none fun q => q = .line .wait ∨ q = .perPc := by
  obtain ⟨t, hexec, hresult, -, -, hpc, hwait, -, hrecords, hframe⟩ :=
    exec_peripheral (own := fun q => q = .line .wait ∨ q = .perPc) he rfl
      (fun q hq => by
        obtain ⟨hline, hpc⟩ := not_or.mp hq
        exact same_trans (same_present q hline) (same_perPc q hpc))
      fun h => absurd h hrd
  have hstalled : t.perPc = p := hpc.resolve_right fun ⟨_, _, hheld⟩ =>
    hheld.elim (fun h => hrd h.1) fun h => hwr h.1
  exact ⟨t, hexec, hresult, hstalled, hwait.trans ((envLine_present ..).trans (if_pos rfl)), hrecords, hframe⟩

end

/-- Settles O35: each acknowledgement is one case of `exec_acknowledge`, and its guard is the idle peripheral's condition. -/
theorem peripheralAcks : Obligations.PeripheralAcks := by
  refine fun s hrole => ⟨fun hpc hcond => ?_, fun hno => ?_, fun hpc hcond => ?_, fun hno => ?_⟩
  · have heff : effectOf .perRdAck s = _ := (ifRole_ready hrole _).trans (guarded_pos (by rw [hpc, hcond]; rfl) _)
    exact exec_acknowledge nofun nofun heff
  · exact exec_role_hold hrole rfl (by simpa [or_iff_not_imp_left] using hno)
  · have heff : effectOf .perWrAck s = _ := (ifRole_ready hrole _).trans (guarded_pos (by rw [hpc, hcond]; rfl) _)
    exact exec_acknowledge nofun nofun heff
  · exact exec_role_hold hrole rfl (by simpa [or_iff_not_imp_left] using hno)

/-! ### A cycle goes on and ends (45_master_fsm.md R246, R262, R263, R265, R266) -/

section

variable {s : State}

/-- The own writes of PER_RD_READY. -/
def byteOffered (s : State) : State := { present (driveData s s.echo) .wait true with perPc := .rdHold }

theorem envLine_byteOffered (X : Line) : (byteOffered s).envLine X
    = if X = .wait then { (driveData s s.echo).envLine .wait with val := true } else (driveData s s.echo).envLine X :=
  envLine_present ..

theorem data_byteOffered (j : Fin 8) : (byteOffered s).envLine (.data j) = ⟨true, s.echo.getLsbD j⟩ := by
  rw [envLine_byteOffered, if_neg nofun, envLine_driveData]
  exact if_pos j.isLt

theorem wait_byteOffered : (byteOffered s).envLine .wait = { s.envLine .wait with val := true } := by
  rw [envLine_byteOffered, if_pos rfl, envLine_driveData, if_neg (by decide)]

theorem byteOffered_env : byteOffered s = { s with env := (byteOffered s).env, perPc := .rdHold } := by
  simp [byteOffered, present, driveData, State.modEnv, State.modEnvData]

/-- The pieces that PER_RD_READY writes. -/
theorem same_byteOffered (q : Part) (h : ¬ (q = .line .wait ∨ q = .perPc ∨ ∃ j, q = .line (.data j))) :
    q.same s (byteOffered s) := by
  rw [not_or, not_or] at h
  obtain ⟨hwait, hpc, hdata⟩ := h
  have hlines : q.same s (present (driveData s s.echo) .wait true) :=
    same_trans (same_driveData q hdata) (same_present q hwait)
  exact same_trans hlines (same_perPc q hpc)

/-- PER_RD_READY of a stalled read. The observation at its end either leaves the lines and the hold, or ends the cycle and with it
the driving of the data lines. -/
theorem exec_perRdReady (hrole : s.par.role = .master) (hpc : s.perPc = .rdStall) :
    ∃ t, exec .perRdReady s = .next t ∧ t.result = .none ∧
      ((t.perPc = .rdHold ∧ ∀ j : Fin 8, t.envLine (.data j) = ⟨true, s.echo.getLsbD j⟩) ∨
        (t.perPc = .idle ∧ (t.par.valid = true → RdEnded t) ∧
          ∀ j : Fin 8, t.envLine (.data j) = ⟨false, s.echo.getLsbD j⟩)) ∧
      t.envLine .wait = { s.envLine .wait with val := true } ∧
      RecordsKept .perRdReady s t ∧
      Frame s t none fun q => q = .line .wait ∨ q = .perPc ∨ ∃ j, q = .line (.data j) := by
  have heff : effectOf .perRdReady s = .done (byteOffered s) .none none :=
    (ifRole_ready hrole _).trans (guarded_pos (decide_eq_true hpc) _)
  obtain ⟨t, hexec, hresult, hobserved, hlines, hreacts, hwait, -, hrecords, hframe⟩ :=
    exec_peripheral (own := fun q => q = .line .wait ∨ q = .perPc ∨ ∃ j, q = .line (.data j)) heff (by rw [byteOffered_env])
      same_byteOffered fun _ => .inr fun j => .inr (.inr ⟨j, rfl⟩)
  refine ⟨t, hexec, hresult, ?_, hwait.trans wait_byteOffered, hrecords, hframe⟩
  rw [observeEnv_rdHold (s := byteOffered s) hrole rfl] at hobserved hlines
  split at hobserved
  · next hcond =>
    rw [if_pos hcond] at hlines
    exact .inl ⟨hobserved, fun j => (hlines _).trans (data_byteOffered j)⟩
  · next hcond =>
    rw [if_neg hcond] at hlines
    have hidle : t.perPc = .idle := hobserved
    obtain ⟨-, hended⟩ := hreacts.of_rdHold.resolve_left (by rw [hidle]; exact nofun)
    refine .inr ⟨hidle, hended, fun j => ?_⟩
    rw [hlines, envLine_perReadDone, data_byteOffered]
    exact if_pos j.isLt

/-- PER_WR_LATCH of a stalled write. -/
theorem exec_perWrLatch (hrole : s.par.role = .master) (hpc : s.perPc = .wrStall) :
    ∃ t, exec .perWrLatch s = .next t ∧ t.result = .none ∧
      (t.perPc = .wrHold ∨ (t.perPc = .idle ∧ WrEnded t)) ∧
      t.echo = dataByte s .sample ∧ t.envLine .wait = { s.envLine .wait with val := true } ∧
      RecordsKept .perWrLatch s t ∧
      Frame s t none fun q => q = .line .wait ∨ q = .perPc ∨ q = .echo := by
  have heff : effectOf .perWrLatch s
      = .done { present s .wait true with echo := dataByte s .sample, perPc := .wrHold } .none none :=
    (ifRole_ready hrole _).trans (guarded_pos (decide_eq_true hpc) _)
  obtain ⟨t, hexec, hresult, -, -, hreacts, hwait, hecho, hrecords, hframe⟩ :=
    exec_peripheral (own := fun q => q = .line .wait ∨ q = .perPc ∨ q = .echo) heff rfl
      (fun q hq => by
        obtain ⟨hwait, hpc, hecho⟩ : q ≠ .line .wait ∧ q ≠ .perPc ∧ q ≠ .echo := by simpa only [not_or] using hq
        exact same_trans (same_present q hwait) (same_peripheral q hpc hecho))
      nofun
  exact ⟨t, hexec, hresult, hreacts.of_wrHold, hecho, hwait.trans ((envLine_present ..).trans (if_pos rfl)), hrecords, hframe⟩

/-- PER_RD_DONE of a held read whose strobes are released. -/
theorem exec_perRdDone (hrole : s.par.role = .master) (hpc : s.perPc = .rdHold) (hcond : condRd s .perReads = false) :
    ∃ t, exec .perRdDone s = .next t ∧ t.result = .none ∧ t.perPc = .idle ∧
      (∀ j, t.envLine (.data j) = { s.envLine (.data j) with drive := false }) ∧
      RecordsKept .perRdDone s t ∧ Frame s t none fun q => q = .perPc ∨ ∃ j, q = .line (.data j) := by
  have heff : effectOf .perRdDone s = .done s .none none :=
    (ifRole_ready hrole _).trans (guarded_pos (by rw [hpc, hcond]; rfl) _)
  obtain ⟨t, hexec, hresult, hobserved, hlines, -, -, -, hrecords, hframe⟩ :=
    exec_peripheral (own := fun q => q = .perPc ∨ ∃ j, q = .line (.data j)) heff rfl (fun q _ => same_self q) .inl
  have hends : observeEnv s = perReadDone s := (observeEnv_rdHold hrole hpc).trans (if_neg (by simp [hcond]))
  rw [hends] at hobserved hlines
  exact ⟨t, hexec, hresult, hobserved, fun j => (hlines _).trans ((envLine_perReadDone _).trans (if_pos j.isLt)), hrecords,
    hframe⟩

/-- PER_WR_DONE of a held write whose strobes are released. -/
theorem exec_perWrDone (hrole : s.par.role = .master) (hpc : s.perPc = .wrHold) (hcond : condWr s .perReads = false) :
    ∃ t, exec .perWrDone s = .next t ∧ t.result = .none ∧ t.perPc = .idle ∧
      RecordsKept .perWrDone s t ∧ Frame s t none fun q => q = .perPc := by
  have heff : effectOf .perWrDone s = .done s .none none :=
    (ifRole_ready hrole _).trans (guarded_pos (by rw [hpc, hcond]; rfl) _)
  obtain ⟨t, hexec, hresult, hobserved, -, -, -, -, hrecords, hframe⟩ :=
    exec_peripheral (own := fun q => q = .perPc) heff rfl (fun q _ => same_self q) .inl
  have hends : observeEnv s = perWriteDone s := (observeEnv_wrHold hrole hpc).trans (if_neg (by simp [hcond]))
  rw [hends] at hobserved
  exact ⟨t, hexec, hresult, hobserved, hrecords, hframe⟩

end

/-- Settles O36: the four lemmas above, and away from its state, or while the strobes last, the guard of each step fails. -/
theorem peripheralGoesOn : Obligations.PeripheralGoesOn := fun _ hrole =>
  ⟨exec_perRdReady hrole, fun hno => exec_role_hold hrole rfl (decide_eq_false hno),
    exec_perWrLatch hrole, fun hno => exec_role_hold hrole rfl (decide_eq_false hno),
    exec_perRdDone hrole, fun hno => exec_role_hold hrole rfl (by simpa [or_iff_not_imp_left] using hno),
    exec_perWrDone hrole, fun hno => exec_role_hold hrole rfl (by simpa [or_iff_not_imp_left] using hno)⟩

end Sys2Proof.Machine
end

section
/-! The scheduler interface and the interrupt handlers (spec/46_engine_sequences.md R270 to R276). Before them, what a step that
completes does: it is said once for the word that starts a sequence and for the turn that resumes it. -/

namespace Sys2Proof.Machine

section

variable {o : Host.Outcome State Fault Refusal} {i : Instr} {s u : State} {r : Result} {wrote : Option Nat}

/-! ### Reads after the writes of a step -/

/-- The pins of a run after a change of the run. -/
theorem pin_modPins_run {base n k : Nat} {f : Nat → Pin → Pin} (hk : k < n) :
    (s.modPins base n f).pin (base + k) = f k (s.pin (base + k)) := by
  rw [pin_modPins, if_pos (by omega), Nat.add_sub_cancel_left]

theorem flags_clear (s : State) (b : Nat) (m : Half) :
    ((s.modBlk b fun k => k.clearFlags m).blk b).flags = (s.blk b).flags &&& ~~~m := by
  rw [blk_modBlk_self]
  rfl

/-! ### A step that completes, as a word or as a turn of a running sequence -/

theorem exec_concludes (he : effectOf i s = .done u r wrote) : exec i s = conclude i s (.done u r wrote) := by
  rw [exec_eq, he]

/-- **A step that completes**, and whose own writes touch no record and not the external peripheral, has the frame of these
writes. -/
theorem conclude_plain (own : Part → Prop) (ho : o = conclude i s (.done u r wrote)) (hpar : u.par = s.par)
    (hsched : u.schedule = s.schedule) (href : u.refused = s.refused) (hfaults : u.faults = s.faults)
    (hper : u.perPc = s.perPc) (hown : ∀ q, ¬ own q → q.same s u) :
    ∃ t, o = .next t ∧ t.result = r ∧ RecordsKept i s t ∧ Frame s t wrote own ∧ ∀ q : Part, q.keptFrom wrote s u t := by
  refine ⟨{ settle i s u wrote with result := r, tick := s.tick + 1 }, ho, rfl, ⟨?_, fun f => ?_⟩,
    frame_of_own hpar hsched hown fun h => .inl (hper ▸ h), fun q => kept_result _ _ (settle_kept i s u wrote q)⟩
  · exact (settle_refused i s u wrote).trans href
  · rw [← hfaults]
    exact settle_faults i s u wrote f

/-! ### A step of a master call: it writes the call beside what its operation writes -/

/-- A step that only moves the master call. -/
theorem conclude_master {m : Option MasterCall} (ho : o = conclude i s (.done { s with master := m } r none)) :
    ∃ t, o = .next t ∧ t.result = r ∧ t.master = m ∧ RecordsKept i s t ∧ Frame s t none fun q => q = .master := by
  obtain ⟨t, hnext, hresult, hrecords, hframe, hkept⟩ :=
    conclude_plain (· = .master) ho rfl rfl rfl rfl rfl same_master
  exact ⟨t, hnext, hresult, hkept .master, hrecords, hframe⟩

/-- A step that changes one channel and moves the master call: only a reaction of that channel can follow. -/
theorem conclude_modChan_master {b c : Nat} {f : Channel → Channel} {m : Option MasterCall}
    (ho : o = conclude i s (.done { s.modChan b c f with master := m } r none)) :
    ∃ t, o = .next t ∧ t.result = r ∧ t.master = m ∧ ChannelReacts t none b (f (s.chan b c)) (t.chan b c) ∧
      RecordsKept i s t ∧ Frame s t none fun q => q = .chan b c ∨ q = .master := by
  obtain ⟨t, hnext, hresult, hrecords, hframe, hkept⟩ :=
    conclude_plain (fun q => q = .chan b c ∨ q = .master) ho rfl rfl rfl rfl rfl fun q hq => by
      obtain ⟨hchan, hmaster⟩ := not_or.mp hq
      exact same_trans (same_modChan q hchan) (same_master q hmaster)
  have hchan : ChannelReacts t none b ((s.modChan b c f).chan b c) (t.chan b c) := hkept (.chan b c)
  rw [state_chan_modChan_self] at hchan
  exact ⟨t, hnext, hresult, hkept .master, hchan, hrecords, hframe⟩

/-! ### A step of a deferred handler: it writes the handler beside what its operation writes -/

/-- A step that only moves the deferred handler. -/
theorem conclude_consumer {v : Option Service} (ho : o = conclude i s (.done { s with consumer := v } r none)) :
    ∃ t, o = .next t ∧ t.result = r ∧ t.consumer = v ∧ RecordsKept i s t ∧ Frame s t none fun q => q = .consumer := by
  obtain ⟨t, hnext, hresult, hrecords, hframe, hkept⟩ :=
    conclude_plain (· = .consumer) ho rfl rfl rfl rfl rfl same_consumer
  exact ⟨t, hnext, hresult, hkept .consumer, hrecords, hframe⟩

end

/-! ### POST, REGISTER and DISPATCH (46_engine_sequences.md R270, R271, R276) -/

/-- Settles O37: POST is one write to the queue, which no reaction touches. -/
theorem postAppends : Obligations.PostAppends := by
  intro k s hready
  have heff : effectOf (.post k) s = _ := ifProcessor_ready hready _
  obtain ⟨t, hexec, hresult, hrecords, hframe, hkept⟩ := exec_plain (· = .queue) heff rfl rfl rfl rfl same_queue
  exact ⟨t, _, hexec, hresult, hkept .queue, hrecords, hframe⟩

section

variable {s : State}

/-- The handlers that are registered, and the blocks with their vectors, are all that REGISTER writes. -/
theorem same_setRegistered {b : Nat} {k : Kind} (q : Part) (h : q ≠ .handlers) : q.same s (setRegistered s b k) := by
  cases q with
  | handlers => exact absurd rfl h
  | _ => cases k <;> simp [setRegistered, Part.same, State.blk, State.chan, State.pin, State.envLine]

theorem vector_bindVector (s : State) (b i : Nat) (h : Handler) : ((bindVector s b i h).blk b).vector i = some h := by
  rw [bindVector, blk_modBlk_self, Block.vector, tabSet_getD, if_pos rfl]

/-- REGISTER of a kind that has no handler binds the handler and the vector of the kind's flag. -/
theorem exec_register {b : Nibble} {k : Kind} (hready : TaskReady (.register b k) s) (hfree : registered s k = none) :
    ∃ t, exec (.register b k) s = .next t ∧ t.result = .none ∧
      (t.handlerRead = (setRegistered s b.toNat k).handlerRead ∧
        t.handlerWrite = (setRegistered s b.toNat k).handlerWrite) ∧
      (t.blk b.toNat).vector (kindFlag s.par k) = some (kindHandler k) ∧ RecordsKept (.register b k) s t ∧
      Frame s t none fun q => q = .handlers ∨ q = .vec b.toNat (kindFlag s.par k) := by
  have heff : effectOf (.register b k) s
      = .done (bindVector (setRegistered s b.toNat k) b.toNat (kindFlag s.par k) (kindHandler k)) .none none :=
    (ifTask_ready hready _).trans (if_neg (by rw [hfree]; decide))
  obtain ⟨hpar, hsched, href, hfaults, hper⟩ : (setRegistered s b.toNat k).par = s.par ∧
      (setRegistered s b.toNat k).schedule = s.schedule ∧ (setRegistered s b.toNat k).refused = s.refused ∧
      (setRegistered s b.toNat k).faults = s.faults ∧ (setRegistered s b.toNat k).perPc = s.perPc := by
    cases k <;> exact ⟨rfl, rfl, rfl, rfl, rfl⟩
  obtain ⟨t, hexec, hresult, hrecords, hframe, hkept⟩ :=
    conclude_plain (fun q => q = .handlers ∨ q = .vec b.toNat (kindFlag s.par k)) (exec_concludes heff) hpar hsched href
      hfaults hper fun q hq => by
        obtain ⟨hhandlers, hvec⟩ := not_or.mp hq
        exact same_trans (same_setRegistered q hhandlers) (same_bindVector q hvec)
  exact ⟨t, hexec, hresult, hkept .handlers, (hkept (.vec _ _)).trans (vector_bindVector ..), hrecords, hframe⟩

theorem exec_register_twice {b : Nibble} {k : Kind} (hready : TaskReady (.register b k) s)
    (htaken : registered s k ≠ none) : exec (.register b k) s = .next (s.afterRefusal .doubleRegister) :=
  exec_refuse ((ifTask_ready hready _).trans (if_pos (Option.isSome_iff_ne_none.mpr htaken)))

/-- Settles O38: the two kinds are two cases of the lemmas above. -/
theorem registerBinds : Obligations.RegisterBinds := by
  refine fun b s => ⟨fun hready => ⟨fun hfree => ?_, exec_register_twice hready⟩,
    fun hready => ⟨fun hfree => ?_, exec_register_twice hready⟩⟩
  · obtain ⟨t, hexec, hresult, ⟨hread, hwrite⟩, hrest⟩ := exec_register hready hfree
    exact ⟨t, hexec, hresult, hread, hwrite, hrest⟩
  · obtain ⟨t, hexec, hresult, ⟨hread, hwrite⟩, hrest⟩ := exec_register hready hfree
    exact ⟨t, hexec, hresult, hwrite, hread, hrest⟩

/-- The first step of the handler of a kind (46_engine_sequences.md R277, R279). -/
def firstStep : Kind → ServiceStep
  | .read => .readDirOut
  | .write => .writeDirIn

section

variable {item : WorkItem} {rest : List WorkItem} (hfree : s.consumer = none) (hqueue : s.queue = item :: rest)

include hfree hqueue

theorem effDispatch_starts {b : Nat} (hb : registered s item.kind = some b) : effDispatch s
    = .done { s with queue := rest, consumer := some ⟨b, firstStep item.kind, 0⟩ } .running none := by
  simp only [effDispatch, hfree, hqueue, hb]
  rfl

theorem effDispatch_noHandler (hnone : registered s item.kind = none) : effDispatch s = .refuse .noHandler := by
  simp only [effDispatch, hfree, hqueue, hnone]

end

theorem effDispatch_hold (h : s.consumer ≠ none ∨ s.queue = []) : effDispatch s = .hold := by
  rw [effDispatch]
  cases hconsumer : s.consumer with
  | some v => rfl
  | none => rw [h.resolve_left (absurd hconsumer)]

theorem exec_dispatch {item : WorkItem} {rest : List WorkItem} {b : Nat} (hready : TaskReady .dispatch s)
    (hfree : s.consumer = none) (hqueue : s.queue = item :: rest) (hb : registered s item.kind = some b) :
    ∃ t, exec .dispatch s = .next t ∧ t.result = .running ∧ t.queue = rest ∧
      t.consumer = some ⟨b, firstStep item.kind, 0⟩ ∧
      RecordsKept .dispatch s t ∧ Frame s t none fun q => q = .queue ∨ q = .consumer := by
  have heff : effectOf .dispatch s = _ := (ifTask_ready hready _).trans (effDispatch_starts hfree hqueue hb)
  obtain ⟨t, hexec, hresult, hrecords, hframe, hkept⟩ :=
    conclude_plain (fun q => q = .queue ∨ q = .consumer) (exec_concludes heff) rfl rfl rfl rfl rfl fun q hq => by
      obtain ⟨hqueue, hconsumer⟩ := not_or.mp hq
      exact same_trans (same_queue q hqueue) (same_consumer (s := { s with queue := rest }) q hconsumer)
  exact ⟨t, hexec, hresult, hkept .queue, hkept .consumer, hrecords, hframe⟩

end

/-- What is registered for a kind, spelled out for the two kinds. -/
theorem registered_of_kind {s : State} {k : Kind} {x : Option Nat}
    (h : (k = .read ∧ s.handlerRead = x) ∨ (k = .write ∧ s.handlerWrite = x)) : registered s k = x := by
  rcases h with ⟨rfl, h⟩ | ⟨rfl, h⟩ <;> exact h

/-- Settles O40: DISPATCH looks at the running handler, at the queue and at what is registered for the kind of its head. -/
theorem dispatchStarts : Obligations.DispatchStarts := by
  refine fun s hready => ⟨fun item rest b hfree hqueue hb => ?_, fun item rest hfree hqueue hnone => ?_, fun hno => ?_⟩
  · obtain ⟨t, hexec, hresult, hrest, hconsumer, hframe⟩ := exec_dispatch hready hfree hqueue (registered_of_kind hb)
    exact ⟨t, hexec, hresult, hrest, fun hkind => by rw [hconsumer, hkind]; rfl,
      fun hkind => by rw [hconsumer, hkind]; rfl, hframe⟩
  · exact exec_refuse ((ifTask_ready hready _).trans (effDispatch_noHandler hfree hqueue (registered_of_kind hnone)))
  · exact exec_hold ((ifTask_ready hready _).trans (effDispatch_hold hno))

/-! ### The interrupt handlers (46_engine_sequences.md R272 to R274) -/

section

variable {s : State} {b : Nat} {k : Kind}

/-- The own writes of a handler that runs in task context, where it returns to. -/
theorem effHandler_taken (htask : s.ctx = .task) (htake : canTake s b (kindFlag s.par k) (kindHandler k) = true) :
    effHandler b k s
      = .done (postItem (s.modBlk b fun blk => blk.clearFlags (flagBit (kindFlag s.par k))) k (irqStatus s.par (s.blk b)))
          .none (some b) := by
  have hreturn : interruptReturn (interruptEntry s b (kindFlag s.par k)) = s := by
    rw [interruptReturn, interruptEntry, ← htask]
  calc effHandler b k s
    _ = .done (postItem ((interruptReturn (interruptEntry s b (kindFlag s.par k))).modBlk b fun blk =>
          blk.clearFlags (flagBit (kindFlag s.par k))) k (irqStatus s.par (s.blk b))) .none (some b) := if_pos htake
    _ = _ := by rw [hreturn]

/-- The mask of a flag that is set clears that flag and no other. -/
theorem flag_clearFlag {blk : Block} {j : Nat} (hset : blk.flag j = true) (i : Nat) :
    (blk.clearFlags (flagBit j)).flag i = (blk.flag i && decide (i ≠ j)) := by
  have hj : j < 16 := by
    by_contra hge
    rw [Block.flag, BitVec.getLsbD_of_ge _ j (Nat.le_of_not_lt hge)] at hset
    cases hset
  rw [flag_clearFlags]
  by_cases hij : i = j
  · subst hij
    simp [flagBit, hj]
  · have hno : (flagBit j).getLsbD i = false := Bool.eq_false_iff.mpr fun h => hij (eq_of_flagBit h)
    simp [hno, hij]

/-- **A handler that may be taken** runs as one step. -/
theorem exec_handler {i : Instr} (he : effectOf i s = effHandler b k s) (henabled : s.irqEnabled = true)
    (htask : s.ctx = .task) (hflag : (s.blk b).flag (kindFlag s.par k) = true)
    (hrouted : (s.blk b).routed (kindFlag s.par k) = true)
    (hvector : (s.blk b).vector (kindFlag s.par k) = some (kindHandler k)) :
    ∃ t w, exec i s = .next t ∧ t.result = .none ∧ t.ctx = .task ∧ IsStatus s.par (s.blk b) w ∧
      t.queue = s.queue ++ [⟨k, w⟩] ∧
      (∀ j : Nat, (t.blk b).flag j = ((s.blk b).flag j && decide (j ≠ kindFlag s.par k))) ∧
      RecordsKept i s t ∧ Frame s t (some b) fun q => q = .flags b ∨ q = .queue := by
  have htake : canTake s b (kindFlag s.par k) (kindHandler k) = true := by
    simp [canTake, Block.pending, henabled, htask, hflag, hrouted, hvector]
  obtain ⟨t, hexec, hresult, hrecords, hframe, hkept⟩ :=
    conclude_plain (fun q => q = .flags b ∨ q = .queue) (exec_concludes (he.trans (effHandler_taken htask htake)))
      rfl rfl rfl rfl rfl fun q hq => by
        obtain ⟨hflags, hqueue⟩ := not_or.mp hq
        exact same_trans (same_clearFlags q hflags) (same_queue q hqueue)
  have hctx : t.ctx = s.ctx := hkept .ctx
  have hflags : (t.blk b).flags = ((s.blk b).clearFlags (flagBit (kindFlag s.par k))).flags :=
    (hkept (.flags b)).trans (flags_clear ..)
  exact ⟨t, _, hexec, hresult, hctx.trans htask, irqStatus_isStatus _ _, hkept .queue,
    fun j => (flag_congr hflags j).trans (flag_clearFlag hflag j), hrecords, hframe⟩

/-- A handler waits while any of its conditions fails (46_engine_sequences.md R272). -/
theorem exec_handler_hold {i : Instr} (he : effectOf i s = effHandler b k s)
    (hno : s.irqEnabled = false ∨ s.ctx ≠ .task ∨ (s.blk b).flag (kindFlag s.par k) = false ∨
      (s.blk b).routed (kindFlag s.par k) = false ∨ (s.blk b).vector (kindFlag s.par k) ≠ some (kindHandler k)) :
    exec i s = .next s.afterHold := by
  have htake : ¬ canTake s b (kindFlag s.par k) (kindHandler k) = true := by
    simp only [canTake, Block.pending, Bool.and_eq_true, decide_eq_true_eq]
    rintro ⟨⟨⟨henabled, htask⟩, hflag, hrouted⟩, hvector⟩
    simp [henabled, htask, hflag, hrouted, hvector] at hno
  exact exec_hold (he.trans (if_neg htake))

end

/-- Settles O39: ISR_RD and ISR_WR are the handlers of the two kinds. -/
theorem handlersRun : Obligations.HandlersRun := by
  refine fun b s => ⟨fun hready => ?_, fun hready => ?_⟩
  · have heff : effectOf (.isrRd b) s = effHandler b.toNat .read s := ifProcessor_ready hready _
    exact ⟨exec_handler heff, exec_handler_hold heff⟩
  · have heff : effectOf (.isrWr b) s = effHandler b.toNat .write s := ifProcessor_ready hready _
    exact ⟨exec_handler heff, exec_handler_hold heff⟩

end Sys2Proof.Machine
end

section
/-! The deferred service (spec/46_engine_sequences.md R277 to R280): the steps of SERVICE_READ and SERVICE_WRITE, each with
the pieces it writes. -/

namespace Sys2Proof.Machine

section

variable {s : State}

/-! ### The effect of each step of a deferred handler -/

/-- Going on from an effect that is done. -/
theorem andThen_of_done {e : Effect} {u : State} {r : Result} {wrote : Option Nat} (he : e = .done u r wrote)
    (f : State → Result → State × Result) : e.andThen f = .done (f u r).1 (f u r).2 wrote := by rw [he]; rfl

/-- The software direction of the data pins, as a change of the run of eight pins from D0 (42_pin_binder.md R145). -/
def directBus (s : State) (oe : Bool) (v : Option Service) : State :=
  { s.modPins s.par.pins.d0 8 (fun _ q => { q with sioOe := oe }) with consumer := v }

theorem startService_free (h : s.consumer = none) (v : Service) : startService v s = effService v s :=
  if_neg (by rw [h]; decide)

theorem startService_busy (h : s.consumer ≠ none) (v : Service) : startService v s = .hold :=
  if_pos (Option.isSome_iff_ne_none.mpr h)

/-- A change of the byte source's counter and of the running handler. -/
theorem same_counted {n : Byte} {v : Option Service} (q : Part) (hcounter : q ≠ .counter) (hconsumer : q ≠ .consumer) :
    q.same s { s with counter := n, consumer := v } := by
  cases q with
  | counter => exact absurd rfl hcounter
  | consumer => exact absurd rfl hconsumer
  | _ => simp [Part.same, State.blk, State.chan, State.pin, State.envLine]

/-- A change of the byte sink's list and of the running handler. -/
theorem same_logged {l : List Byte} {v : Option Service} (q : Part) (hsink : q ≠ .sink) (hconsumer : q ≠ .consumer) :
    q.same s { s with sink := l, consumer := v } := by
  cases q with
  | sink => exact absurd rfl hsink
  | consumer => exact absurd rfl hconsumer
  | _ => simp [Part.same, State.blk, State.chan, State.pin, State.envLine]

variable (b : Nat) (x : Byte)

theorem effService_readDirOut (hbus : s.par.pins.d0 + 7 < s.par.numGpio) : effService ⟨b, .readDirOut, x⟩ s
    = .done (directBus s true (some ⟨b, .readPut, x⟩)) .running none :=
  andThen_of_done (onBus_of_lt hbus _) _

theorem effService_writeDirIn (hbus : s.par.pins.d0 + 7 < s.par.numGpio) : effService ⟨b, .writeDirIn, x⟩ s
    = .done (directBus s false (some ⟨b, .writeSample, x⟩)) .running none :=
  andThen_of_done (onBus_of_lt hbus _) _

theorem effService_readDirIn (hbus : s.par.pins.d0 + 7 < s.par.numGpio) : effService ⟨b, .readDirIn, x⟩ s
    = .done (directBus s false none) .none none :=
  andThen_of_done (onBus_of_lt hbus _) _

/-- The own writes of the step that puts the reference counter's byte on the bus and counts down. -/
def counterPut (s : State) (v : Option Service) : State :=
  { s.modPins s.par.pins.d0 8 (fun i q => { q with sioOut := s.counter.getLsbD i }) with
    counter := s.counter - 1, consumer := v }

theorem effService_readPut (hbus : s.par.pins.d0 + 7 < s.par.numGpio) (hsource : s.par.byteSource = .counter) :
    effService ⟨b, .readPut, x⟩ s = .done (counterPut s (some ⟨b, .readRelease, x⟩)) .running none := by
  have hbyte : sourceByte s = s.counter := by rw [sourceByte, hsource]
  have hnext : sourceNext s = { s with counter := s.counter - 1 } := by rw [sourceNext, hsource]
  show (effBusPut (sourceByte s) (sourceNext s)).andThen _ = _
  rw [hbyte, hnext]
  exact andThen_of_done (onBus_of_lt (s := { s with counter := s.counter - 1 }) hbus _) _

/-- The own writes of the step that releases WAIT: the hold flag is cleared. -/
def holdCleared (s : State) (b : Nat) (v : Option Service) : State :=
  { s.modBlk b (fun k => k.clearFlags (flagBit s.par.irqHold)) with consumer := v }

theorem effService_readRelease : effService ⟨b, .readRelease, x⟩ s
    = .done (holdCleared s b (some ⟨b, .readDirIn, x⟩)) .running (some b) := rfl

theorem effService_writeRelease : effService ⟨b, .writeRelease, x⟩ s
    = .done (holdCleared s b (some ⟨b, .writeSink, x⟩)) .running (some b) := rfl

theorem effService_writeSample (hbus : s.par.pins.d0 + 7 < s.par.numGpio) : effService ⟨b, .writeSample, x⟩ s
    = .done { s with consumer := some ⟨b, .writeRelease, dataByte s .sample⟩ } .running none :=
  andThen_of_done (onBus_of_lt hbus _) _

theorem effService_writeSink (hsink : s.par.byteSink = .log) : effService ⟨b, .writeSink, x⟩ s
    = .done { s with sink := s.sink ++ [x], consumer := none } .none none := by
  have hlog : sinkByte s x = { s with sink := s.sink ++ [x] } := by rw [sinkByte, hsink]
  show Effect.done { sinkByte s x with consumer := none } .none none = _
  rw [hlog]

/-- A resumed handler whose next step completes. -/
theorem resume_consumer_concludes {v : Service} {i : Instr} {u : State} {r : Result} {wrote : Option Nat}
    (hhalt : s.halted = false) (htask : s.ctx = .task) (hv : s.consumer = some v) (hi : serviceInstr s v = i)
    (he : effService v s = .done u r wrote) : resume .consumer s = conclude i s (.done u r wrote) := by
  rw [resume, resumeConsumer, hv]
  dsimp only
  rw [if_pos ⟨hhalt, htask⟩, hi, he]
  rfl

/-- The step that makes the data bus output or input: no reaction touches a pin. -/
theorem conclude_directBus {o : Host.Outcome State Fault Refusal} {i : Instr} {r : Result} {oe : Bool} {v : Option Service}
    (ho : o = conclude i s (.done (directBus s oe v) r none)) :
    ∃ t, o = .next t ∧ t.result = r ∧ t.consumer = v ∧
      (∀ k : Nat, k < 8 → t.pin (s.par.pins.d0 + k) = { s.pin (s.par.pins.d0 + k) with sioOe := oe }) ∧
      RecordsKept i s t ∧ Frame s t none fun q => q = .consumer ∨ ∃ k : Nat, k < 8 ∧ q = .pin (s.par.pins.d0 + k) := by
  obtain ⟨t, hnext, hresult, hrecords, hframe, hkept⟩ :=
    conclude_plain (fun q => q = .consumer ∨ ∃ k : Nat, k < 8 ∧ q = .pin (s.par.pins.d0 + k)) ho
      rfl rfl rfl rfl rfl fun q hq => by
        obtain ⟨hconsumer, hpins⟩ := not_or.mp hq
        exact same_trans (same_modPins q hpins) (same_consumer q hconsumer)
  refine ⟨t, hnext, hresult, hkept .consumer, fun k hk => ?_, hrecords, hframe⟩
  exact (hkept (.pin (s.par.pins.d0 + k))).trans (pin_modPins_run hk)

/-- The step that releases WAIT: no reaction touches a flag. -/
theorem conclude_holdCleared {o : Host.Outcome State Fault Refusal} {i : Instr} {r : Result} {v : Option Service}
    (ho : o = conclude i s (.done (holdCleared s b v) r (some b))) :
    ∃ t, o = .next t ∧ t.result = r ∧ t.consumer = v ∧
      (t.blk b).flags = (s.blk b).flags &&& ~~~(flagBit s.par.irqHold) ∧
      RecordsKept i s t ∧ Frame s t (some b) fun q => q = .consumer ∨ q = .flags b := by
  obtain ⟨t, hnext, hresult, hrecords, hframe, hkept⟩ :=
    conclude_plain (fun q => q = .consumer ∨ q = .flags b) ho rfl rfl rfl rfl rfl fun q hq => by
      obtain ⟨hconsumer, hflags⟩ := not_or.mp hq
      exact same_trans (same_clearFlags q hflags) (same_consumer q hconsumer)
  exact ⟨t, hnext, hresult, hkept .consumer, (hkept (.flags b)).trans (flags_clear ..), hrecords, hframe⟩

/-- The step that puts the counter's byte on the bus: no reaction touches a pin. -/
theorem conclude_counterPut {o : Host.Outcome State Fault Refusal} {i : Instr} {r : Result} {v : Option Service}
    (ho : o = conclude i s (.done (counterPut s v) r none)) :
    ∃ t, o = .next t ∧ t.result = r ∧ t.consumer = v ∧
      (∀ k : Nat, k < 8 →
        t.pin (s.par.pins.d0 + k) = { s.pin (s.par.pins.d0 + k) with sioOut := s.counter.getLsbD k }) ∧
      t.counter = s.counter - 1 ∧ RecordsKept i s t ∧
      Frame s t none fun q => q = .consumer ∨ q = .counter ∨ ∃ k : Nat, k < 8 ∧ q = .pin (s.par.pins.d0 + k) := by
  obtain ⟨t, hnext, hresult, hrecords, hframe, hkept⟩ :=
    conclude_plain (fun q => q = .consumer ∨ q = .counter ∨ ∃ k : Nat, k < 8 ∧ q = .pin (s.par.pins.d0 + k)) ho
      rfl rfl rfl rfl rfl fun q hq => by
        obtain ⟨hconsumer, hcounter, hpins⟩ : q ≠ .consumer ∧ q ≠ .counter ∧ ¬ _ := by simpa only [not_or] using hq
        exact same_trans (same_modPins q hpins) (same_counted q hcounter hconsumer)
  refine ⟨t, hnext, hresult, hkept .consumer, fun k hk => ?_, hkept .counter, hrecords, hframe⟩
  exact (hkept (.pin (s.par.pins.d0 + k))).trans (pin_modPins_run hk)

end

/-! ### The statements -/

/-- Settles O41: the first step of each handler is a change of the eight data pins. -/
theorem serviceStarts : Obligations.ServiceStarts := by
  refine fun b s => ⟨fun hready => ⟨fun hfree hbus => ?_, fun hbusy => ?_⟩,
    fun hready => ⟨fun hfree hbus => ?_, fun hbusy => ?_⟩⟩
  · have heff : effectOf (.serviceRead b) s = effService (readService b.toNat) s :=
      (ifTask_ready hready _).trans (startService_free hfree _)
    exact conclude_directBus (exec_concludes (heff.trans (effService_readDirOut b.toNat 0 hbus)))
  · exact exec_hold ((ifTask_ready hready _).trans (startService_busy hbusy (readService b.toNat)))
  · have heff : effectOf (.serviceWrite b) s = effService (writeService b.toNat) s :=
      (ifTask_ready hready _).trans (startService_free hfree _)
    exact conclude_directBus (exec_concludes (heff.trans (effService_writeDirIn b.toNat 0 hbus)))
  · exact exec_hold ((ifTask_ready hready _).trans (startService_busy hbusy (writeService b.toNat)))

/-- Settles O42: each step is the lemma about its own writes, applied to the step's effect. -/
theorem serviceGoesOn : Obligations.ServiceGoesOn := by
  intro s b x hhalt htask hbus
  refine ⟨fun hv hsource => ?readPut, fun hv => ?readRelease, fun hv => ?readDirIn, fun hv => ?writeSample,
    fun hv => ?writeRelease, fun hv hsink => ?writeSink⟩
  case readPut =>
    have hinstr : serviceInstr s ⟨b, .readPut, x⟩ = .busPut s.counter := by rw [serviceInstr, sourceByte, hsource]
    exact conclude_counterPut (resume_consumer_concludes hhalt htask hv hinstr (effService_readPut b x hbus hsource))
  case readRelease =>
    exact conclude_holdCleared b (resume_consumer_concludes hhalt htask hv rfl (effService_readRelease b x))
  case readDirIn =>
    exact conclude_directBus (resume_consumer_concludes hhalt htask hv rfl (effService_readDirIn b x hbus))
  case writeSample =>
    exact conclude_consumer (resume_consumer_concludes hhalt htask hv rfl (effService_writeSample b x hbus))
  case writeRelease =>
    exact conclude_holdCleared b (resume_consumer_concludes hhalt htask hv rfl (effService_writeRelease b x))
  case writeSink =>
    obtain ⟨t, hnext, hresult, hrecords, hframe, hkept⟩ :=
      conclude_plain (fun q => q = .consumer ∨ q = .sink)
        (resume_consumer_concludes hhalt htask hv rfl (effService_writeSink b x hsink)) rfl rfl rfl rfl rfl fun q hq => by
          obtain ⟨hconsumer, hsinkPart⟩ := not_or.mp hq
          exact same_logged q hsinkPart hconsumer
    exact ⟨t, hnext, hresult, hkept .consumer, hkept .sink, hrecords, hframe⟩

end Sys2Proof.Machine
end

section
/-! The read handover (spec/46_engine_sequences.md R277, spec/44_peripheral_fsm.md R213, R223): clearing the hold flag makes the
enforcer release WAIT in the same step, and in that step the host takes the byte that the handler has put on the bus. -/

namespace Sys2Proof.Machine

/-- The byte on the bus is the one that the engine drives, if nobody else drives it (10_state.md R31, R32). -/
theorem dataByte_of_engine {s : State} {v : Byte} (site : Site)
    (h : ∀ k : Nat, k < 8 → engineDrive s (s.par.pins.d0 + k) = some (v.getLsbD k) ∧ envDrive s (s.par.pins.d0 + k) = none) :
    dataByte s site = v := by
  refine BitVec.eq_of_getLsbD_eq fun k hk => ?_
  obtain ⟨hengine, henv⟩ := h k hk
  rw [dataByte, byteOf_getLsbD _ k hk, level_of_engine site hengine henv]

section

variable {i : Instr} {s u : State} {wrote : Option Nat}

/-- The outputs of a block at the end of a step are those after the enforcers' reaction. -/
theorem settle_out (b p : Nat) : ((settle i s u wrote).blk b).out p = ((enforce u wrote).blk b).out p := by
  rw [settle_blk, enforce_blk]
  rfl

/-- The host latches in the step at whose end the enforcers' reaction has released WAIT (44_peripheral_fsm.md R223). -/
theorem settle_hostLatch (hrole : u.par.role = .peripheral) (hwaits : u.hostPc = .rdWaitRel)
    (hlow : lineLevel s .waitBefore .wait = false) (hhigh : lineLevel (enforce u wrote) .waitAfter .wait = true) :
    (settle i s u wrote).hostLatch = dataByte (enforce u wrote) .latch ∧
      (settle i s u wrote).hostLatchWritten = true ∧ (settle i s u wrote).hostLatched = true := by
  have hlatch : observed s u wrote = _ := hostLatches_of_rise (by rw [enforce_par]; exact hrole)
    (by rw [enforce_fields]; exact hwaits) hlow hhigh
  have hkept := settle_latch i s u wrote
  rwa [hlatch] at hkept

end

/-- A flag that exists is clear after its mask has cleared it. -/
theorem flag_clearFlag_self (k : Block) {j : Nat} (hj : j < 16) : (k.clearFlags (flagBit j)).flag j = false := by
  rw [flag_clearFlags]
  simp [flagBit, hj]

theorem irqHold_lt {p : Params} (h : p.valid = true) : p.irqHold < 16 := by
  simp only [Params.valid, Bool.and_eq_true, decide_eq_true_eq] at h
  omega

/-- A holding enforcer of a block whose hold flag a step cleared releases WAIT in it. -/
theorem EnforcerFollows.releases {s t : State} {b c : Nat} (h : EnforcerFollows s t b c)
    (hflag : (t.blk b).flag t.par.irqHold = false) (hholding : (s.chan b c).pc = .holding) :
    (t.chan b c).pc = .idle ∧ (t.blk b).out t.par.pins.wait = true := by
  obtain ⟨hpc, hmoved⟩ := h
  rw [hflag] at hpc hmoved
  have hmove : (t.chan b c).pc ≠ (s.chan b c).pc := by rw [hpc, hholding]; exact nofun
  exact ⟨hpc, (hmoved hmove).1⟩

section

variable {s : State} {b : Nat} {v : Option Service}

theorem blk_holdCleared : (holdCleared s b v).blk b = (s.blk b).clearFlags (flagBit s.par.irqHold) :=
  blk_modBlk_self s b fun k => k.clearFlags (flagBit s.par.irqHold)

/-- The step that clears the hold flag makes a holding enforcer release WAIT. -/
theorem holdCleared_releases (i : Instr) {c : Nat} (hhold : s.par.irqHold < 16) (henabled : (s.chan b c).enabled = true)
    (howner : (s.chan b c).owner ≠ .none) (htemplate : (s.chan b c).cfg.template = .waite)
    (hholding : (s.chan b c).pc = .holding) :
    ((settle i s (holdCleared s b v) (some b)).blk b).flag s.par.irqHold = false ∧
      ((settle i s (holdCleared s b v) (some b)).chan b c).pc = .idle ∧
      ((settle i s (holdCleared s b v) (some b)).blk b).out s.par.pins.wait = true := by
  have hpar : (settle i s (holdCleared s b v) (some b)).par = s.par := settle_par ..
  have hflag : ((settle i s (holdCleared s b v) (some b)).blk b).flag s.par.irqHold = false := by
    rw [flag_congr (settle_blk_flags ..), blk_holdCleared, flag_clearFlag_self _ hhold]
  have hfollows : EnforcerFollows s
      { settle i s (holdCleared s b v) (some b) with result := .running, tick := s.tick + 1 } b c :=
    follows_of_same ((LeavesEnforcers.clear s b _).blks rfl) henabled howner htemplate (.inr hholding)
  obtain ⟨hidle, hout⟩ := hfollows.releases (hpar.symm ▸ hflag) hholding
  exact ⟨hflag, hidle, hpar ▸ hout⟩

/-- The reaction to the cleared flag enables and disables no output. -/
theorem oe_enforce_holdCleared (p : Nat) : ((enforce (holdCleared s b v) (some b)).blk b).oe p = (s.blk b).oe p := by
  rw [enforce_blk, if_pos rfl, blk_holdCleared, Block.oe, enforce_block_pinOe, clearFlags_pinOe]
  rfl

/-- The reaction to the cleared flag touches no pin that software drives. -/
theorem engineDrive_enforce_sio {p : Nat} {x : Bool} (hfunc : (s.pin p).func = .sio) (hoe : (s.pin p).sioOe = true)
    (hout : (s.pin p).sioOut = x) : engineDrive (enforce (holdCleared s b v) (some b)) p = some x := by
  have hpin : (enforce (holdCleared s b v) (some b)).pin p = s.pin p := rfl
  simp [engineDrive, hpin, hfunc, hoe, hout]

end

/-- Settles O43: the enforcer follows the flag that the step clears, its output raises WAIT, and the host, which waits for
that, latches the byte that the engine drives on the data pins. -/
theorem readServiceDelivers : Obligations.ReadServiceDelivers := by
  intro s b c x v hvalid hrole hhalt htask hconsumer hdata hfunc hoe hout henv henabled howner htemplate hholding hhost
  have hturn := resume_consumer_concludes hhalt htask hconsumer rfl (effService_readRelease b x)
  generalize serviceInstr s ⟨b, .readRelease, x⟩ = i at hturn
  generalize some (⟨b, .readDirIn, x⟩ : Service) = going at hturn
  obtain ⟨hflag, hidle, hrelease⟩ :=
    holdCleared_releases (v := going) i (irqHold_lt hvalid) henabled howner htemplate hholding
  have hlow : lineLevel s .waitBefore .wait = false := wait_of_block _ hfunc hoe henv hout
  have hhigh : lineLevel (enforce (holdCleared s b going) (some b)) .waitAfter .wait = true :=
    wait_of_block _ hfunc ((oe_enforce_holdCleared _).trans hoe) henv ((settle_out ..).symm.trans hrelease)
  have hbyte : dataByte (enforce (holdCleared s b going) (some b)) .latch = v :=
    dataByte_of_engine _ fun k hk => by
      obtain ⟨hsio, hdrives, hlevel, hundriven⟩ := hdata k hk
      exact ⟨engineDrive_enforce_sio hsio hdrives hlevel, hundriven⟩
  obtain ⟨hlatch, hwritten, hlatched⟩ :=
    settle_hostLatch (i := i) (u := holdCleared s b going) hrole hhost hlow hhigh
  exact ⟨_, hturn, hflag, hidle, hrelease, hlatch.trans hbyte, hlatched, hwritten⟩

end Sys2Proof.Machine
end

section
/-! The master calls (spec/46_engine_sequences.md R281 to R283): read() and write(), whose steps are the FIFO and flag operations
on the drivers' channels. -/

namespace Sys2Proof.Machine

section

variable {s : State} {b : Nat}

/-! ### The FIFO operations of a call, in task context (43_fifo_irq.md R160, R163, R176) -/

section

variable {c : Nat} {w : Word} (htask : s.ctx = .task)

include htask

theorem effTxPush_room (howned : (s.chan b c).owner ≠ .none) (hroom : (s.chan b c).tx.length < capTx s.par (s.chan b c)) :
    effTxPush b c w s = .done (s.modChan b c fun ch => { ch with tx := ch.tx ++ [w] }) .none none :=
  (blockingOp_task htask _).trans ((if_neg howned).trans (if_pos hroom))

theorem effTxPush_full (howned : (s.chan b c).owner ≠ .none) (hfull : capTx s.par (s.chan b c) ≤ (s.chan b c).tx.length) :
    effTxPush b c w s = .hold :=
  (blockingOp_task htask _).trans ((if_neg howned).trans (if_neg (Nat.not_lt.mpr hfull)))

theorem effTxPush_unowned (hfree : (s.chan b c).owner = .none) :
    effTxPush b c w s = .raise (.unwrittenRead (.cfg b c)) := (blockingOp_task htask _).trans (if_pos hfree)

theorem effRxPop_cons {ws : List Word} (hrx : (s.chan b c).rx = w :: ws) :
    effRxPop b c s = .done (s.modChan b c fun ch => { ch with rx := ws }) (.word w) none := by
  rw [effRxPop, blockingOp_task htask, hrx]

theorem effRxPop_nil (hempty : (s.chan b c).rx = []) : effRxPop b c s = .hold := by
  rw [effRxPop, blockingOp_task htask, hempty]

theorem effChWaitIdle_idle (howned : (s.chan b c).owner ≠ .none)
    (hentry : (s.chan b c).pc = entryState (s.chan b c).cfg.template) (hempty : (s.chan b c).tx = []) :
    effChWaitIdle b c s = .done s .none none :=
  (blockingOp_task htask _).trans ((if_neg howned).trans (if_pos ⟨hentry, hempty⟩))

theorem effChWaitIdle_busy (howned : (s.chan b c).owner ≠ .none)
    (hbusy : (s.chan b c).pc ≠ entryState (s.chan b c).cfg.template ∨ (s.chan b c).tx ≠ []) :
    effChWaitIdle b c s = .hold :=
  (blockingOp_task htask _).trans ((if_neg howned).trans (if_neg (not_and_or.mpr hbusy)))

theorem effChWaitIdle_unowned (hfree : (s.chan b c).owner = .none) :
    effChWaitIdle b c s = .raise (.unwrittenRead (.pc b c)) := (blockingOp_task htask _).trans (if_pos hfree)

end

/-! ### The start of a call -/

theorem masterCall_free (htask : s.ctx = .task) (hfree : s.master = none) (e : Effect) : masterCall s e = e :=
  (if_neg (not_not.mpr htask)).trans (if_neg (by rw [hfree]; decide))

theorem masterCall_busy (htask : s.ctx = .task) (hbusy : s.master ≠ none) (e : Effect) :
    masterCall s e = .refuse .concurrentMasterCall :=
  (if_neg (not_not.mpr htask)).trans (if_pos (Option.isSome_iff_ne_none.mpr hbusy))

/-- The own writes of the first step of read(): the start flag is cleared. -/
def startCleared (s : State) (b : Nat) : State :=
  { s.modBlk b (fun k => k.clearFlags (flagBit s.par.irqMrd)) with master := some (.readPop b) }

/-- The first step of read(): no reaction touches a flag. -/
theorem conclude_startCleared {o : Host.Outcome State Fault Refusal} {i : Instr} {r : Result} (b : Nat)
    (ho : o = conclude i s (.done (startCleared s b) r (some b))) :
    ∃ t, o = .next t ∧ t.result = r ∧ t.master = some (.readPop b) ∧
      (t.blk b).flags = (s.blk b).flags &&& ~~~(flagBit s.par.irqMrd) ∧
      RecordsKept i s t ∧ Frame s t (some b) fun q => q = .flags b ∨ q = .master := by
  obtain ⟨t, hnext, hresult, hrecords, hframe, hkept⟩ :=
    conclude_plain (fun q => q = .flags b ∨ q = .master) ho rfl rfl rfl rfl rfl fun q hq => by
      obtain ⟨hflags, hmaster⟩ := not_or.mp hq
      exact same_trans (same_clearFlags q hflags) (same_master q hmaster)
  exact ⟨t, hnext, hresult, hkept .master, (hkept (.flags b)).trans (flags_clear ..), hrecords, hframe⟩

/-- The state of a call that has pushed its byte. -/
def bytePushed (s : State) (b : Nat) (v : Byte) : State :=
  { s.modChan b Config.cWcd (fun ch => { ch with tx := ch.tx ++ [v.setWidth 32] }) with master := some (.writeWait b) }

section

variable {v : Byte} (htask : s.ctx = .task)

include htask

theorem effMasterPush_room (howned : (s.chan b Config.cWcd).owner ≠ .none)
    (hroom : (s.chan b Config.cWcd).tx.length < capTx s.par (s.chan b Config.cWcd)) :
    effMasterPush b v s = .done (bytePushed s b v) .running none := by
  rw [effMasterPush, effTxPush_room htask howned hroom]
  rfl

theorem effMasterPush_full (howned : (s.chan b Config.cWcd).owner ≠ .none)
    (hfull : capTx s.par (s.chan b Config.cWcd) ≤ (s.chan b Config.cWcd).tx.length) :
    effMasterPush b v s = .done { s with master := some (.writePush b v) } .held none := by
  rw [effMasterPush, effTxPush_full htask howned hfull]

theorem effMasterPush_unowned (hfree : (s.chan b Config.cWcd).owner = .none) :
    effMasterPush b v s = .raise (.unwrittenRead (.cfg b Config.cWcd)) := by
  rw [effMasterPush, effTxPush_unowned htask hfree]
  rfl

end

end

theorem effectOf_masterWrite {s : State} {b : Nibble} {v : Byte} (hready : Ready (.masterWrite b v) s)
    (htask : s.ctx = .task) (hfree : s.master = none) : effectOf (.masterWrite b v) s = effMasterPush b.toNat v s :=
  (ifProcessor_ready hready _).trans (masterCall_free htask hfree _)

/-- Settles O44: both calls are refused while one runs; the first step of read() clears a flag, that of write() is the push. -/
theorem masterCallsStart : Obligations.MasterCallsStart := by
  refine fun b s => ⟨fun ⟨hready, htask⟩ => ⟨fun hfree => ?read, fun hbusy => ?readBusy⟩,
    fun v ⟨hready, htask⟩ => ⟨fun hfree howned hroom => ?push, fun hfree howned hfull => ?wait,
      fun hfree hunowned => ?fault, fun hbusy => ?writeBusy⟩⟩
  case read =>
    have heff : effectOf (.masterRead b) s = .done (startCleared s b.toNat) .running (some b.toNat) :=
      (ifProcessor_ready hready _).trans (masterCall_free htask hfree _)
    exact conclude_startCleared b.toNat (exec_concludes heff)
  case readBusy => exact exec_refuse ((ifProcessor_ready hready _).trans (masterCall_busy htask hbusy _))
  case push =>
    have heff := (effectOf_masterWrite hready htask hfree).trans (effMasterPush_room htask howned hroom)
    exact conclude_modChan_master (exec_concludes heff)
  case wait =>
    have heff := (effectOf_masterWrite hready htask hfree).trans (effMasterPush_full htask howned hfull)
    exact conclude_master (exec_concludes heff)
  case fault =>
    exact exec_raise ((effectOf_masterWrite hready htask hfree).trans (effMasterPush_unowned htask hunowned))
  case writeBusy => exact exec_refuse ((ifProcessor_ready hready _).trans (masterCall_busy htask hbusy _))

/-! ### The later steps of a call -/

section

variable {s : State} {b : Nat} {m : MasterCall}

/-- A resumed call performs its next step. -/
theorem resume_master_eq (hhalt : s.halted = false) (htask : s.ctx = .task) (hm : s.master = some m) :
    resume .master s = concludeStep (masterInstr m) s dropMaster (effMasterStep m s) := by
  rw [resume, resumeMaster, hm]
  exact if_pos ⟨hhalt, htask⟩

section

variable (hhalt : s.halted = false) (htask : s.ctx = .task) (hm : s.master = some m)

include hhalt htask hm

theorem resume_master_concludes {i : Instr} {u : State} {r : Result} {wrote : Option Nat} (hi : masterInstr m = i)
    (he : effMasterStep m s = .done u r wrote) : resume .master s = conclude i s (.done u r wrote) := by
  rw [resume_master_eq hhalt htask hm, hi, he]
  rfl

theorem resume_master_hold (he : effMasterStep m s = .hold) : resume .master s = .next s.afterHold := by
  rw [resume_master_eq hhalt htask hm, he]
  rfl

/-- A fault ends the call (log 15). -/
theorem resume_master_raise {f : FaultRec} (he : effMasterStep m s = .raise f) :
    resume .master s = .next (({ s with master := none } : State).afterFault f) := by
  rw [resume_master_eq hhalt htask hm, he]
  rfl

end

theorem andThen_hold {e : Effect} (he : e = .hold) (f : State → Result → State × Result) : e.andThen f = .hold := by
  rw [he]; rfl

theorem andThen_raise {e : Effect} {g : FaultRec} (he : e = .raise g) (f : State → Result → State × Result) :
    e.andThen f = .raise g := by
  rw [he]; rfl

/-- The state of a call that has popped its word. -/
def wordPopped (s : State) (b : Nat) (w : Word) (ws : List Word) : State :=
  { s.modChan b Config.cRcd (fun ch => { ch with rx := ws }) with master := some (.readReturn b w) }

end

/-- Settles O45: a later step of a call is the FIFO operation it names, so it completes, holds or faults with that. -/
theorem masterCallsGoOn : Obligations.MasterCallsGoOn := by
  refine fun s b hhalt htask => ⟨fun hm => ⟨fun w ws hrx => ?pop, fun hempty => ?popHold⟩,
    fun w hm => ⟨fun howned => ?extract, fun hfree => ?extractFault⟩,
    fun v hm => ⟨fun howned hroom => ?push, fun howned hfull => ?pushHold, fun hfree => ?pushFault⟩,
    fun hm => ⟨fun howned hentry hempty => ?wait, fun howned hbusy => ?waitHold, fun hfree => ?waitFault⟩⟩
  case pop =>
    have heff : effMasterStep (.readPop b) s = .done (wordPopped s b w ws) .running none :=
      andThen_of_done (effRxPop_cons htask hrx) _
    exact conclude_modChan_master (resume_master_concludes hhalt htask hm rfl heff)
  case popHold => exact resume_master_hold hhalt htask hm (andThen_hold (effRxPop_nil htask hempty) _)
  case extract => exact conclude_master (resume_master_concludes hhalt htask hm rfl (if_neg howned))
  case extractFault => exact resume_master_raise hhalt htask hm (if_pos hfree)
  case push =>
    have heff : effMasterStep (.writePush b v) s = .done (bytePushed s b v) .running none :=
      andThen_of_done (effTxPush_room htask howned hroom) _
    exact conclude_modChan_master (resume_master_concludes hhalt htask hm rfl heff)
  case pushHold => exact resume_master_hold hhalt htask hm (andThen_hold (effTxPush_full htask howned hfull) _)
  case pushFault => exact resume_master_raise hhalt htask hm (andThen_raise (effTxPush_unowned htask hfree) _)
  case wait =>
    have heff : effMasterStep (.writeWait b) s = .done { s with master := none } .none none :=
      andThen_of_done (effChWaitIdle_idle htask howned hentry hempty) _
    exact conclude_master (resume_master_concludes hhalt htask hm rfl heff)
  case waitHold => exact resume_master_hold hhalt htask hm (andThen_hold (effChWaitIdle_busy htask howned hbusy) _)
  case waitFault => exact resume_master_raise hhalt htask hm (andThen_raise (effChWaitIdle_unowned htask hfree) _)

end Sys2Proof.Machine
end

section
/-! The engine initialisations (spec/46_engine_sequences.md R284 to R287): the start and the second call, and the operations that
the turns of a running initialisation perform in their order. -/

namespace Sys2Proof.Machine

/-! ### The start of an initialisation (46_engine_sequences.md R284 to R286) -/

section

variable {s : State} {m : Module} {i : Instr}

/-- The own writes of the first step: the module is done before anything is configured. -/
def initBegun (s : State) (m : Module) : State := { setInit s m with boot := some ⟨m, 0⟩ }

/-- The own writes of a second call (60_exceptions.md R302, R310). -/
def initRepeated (s : State) (m : Module) : State :=
  { fatal s (moduleName m) with faults := addFault s.faults (.doubleInit m) }

theorem effInit_first (hfirst : initOf s m = .uninit) (hidle : s.boot = none) :
    effInit m s = .done (initBegun s m) .running none :=
  (if_neg (by rw [hfirst]; decide)).trans (if_neg (by rw [hidle]; decide))

theorem effInit_again (hdone : initOf s m = .done) : effInit m s = .done (initRepeated s m) .faulted none := if_pos hdone

theorem same_initBegun (q : Part) (hinits : q ≠ .inits) (hboot : q ≠ .boot) : q.same s (initBegun s m) := by
  cases q with
  | inits => exact absurd rfl hinits
  | boot => exact absurd rfl hboot
  | _ => cases m <;> simp [initBegun, setInit, Part.same, State.blk, State.chan, State.pin, State.envLine]

theorem same_initRepeated (q : Part) (h : q ≠ .halt) : q.same s (initRepeated s m) := by
  cases q with
  | halt => exact absurd rfl h
  | _ => simp [initRepeated, fatal, Part.same, State.blk, State.chan, State.pin, State.envLine]

/-- The first call of an initialisation. -/
theorem exec_init_first (heff : effectOf i s = effInit m s) (hfirst : initOf s m = .uninit) (hidle : s.boot = none) :
    ∃ t, exec i s = .next t ∧ t.result = .running ∧
      (t.initPeripheral = (setInit s m).initPeripheral ∧ t.initMaster = (setInit s m).initMaster) ∧
      t.boot = some ⟨m, 0⟩ ∧ RecordsKept i s t ∧ Frame s t none fun q => q = .inits ∨ q = .boot := by
  obtain ⟨hpar, hsched, href, hfaults, hper⟩ : (initBegun s m).par = s.par ∧ (initBegun s m).schedule = s.schedule ∧
      (initBegun s m).refused = s.refused ∧ (initBegun s m).faults = s.faults ∧ (initBegun s m).perPc = s.perPc := by
    cases m <;> exact ⟨rfl, rfl, rfl, rfl, rfl⟩
  obtain ⟨t, hexec, hresult, hrecords, hframe, hkept⟩ :=
    conclude_plain (fun q => q = .inits ∨ q = .boot) (exec_concludes (heff.trans (effInit_first hfirst hidle)))
      hpar hsched href hfaults hper fun q hq => by
        obtain ⟨hinits, hboot⟩ := not_or.mp hq
        exact same_initBegun q hinits hboot
  exact ⟨t, hexec, hresult, hkept .inits, hkept .boot, hrecords, hframe⟩

/-- A second call records its fault and halts. -/
theorem exec_init_again (heff : effectOf i s = effInit m s) (hdone : initOf s m = .done) :
    ∃ t, exec i s = .next t ∧ .doubleInit m ∈ t.faults ∧ (∀ f ∈ s.faults, f ∈ t.faults) ∧
      t.halted = true ∧ t.errorLed = true ∧ t.diag = some (moduleName m) ∧ t.refused = s.refused ∧
      Frame s t none fun q => q = .halt := by
  obtain ⟨t, hexec, -, hframe, hrefused, hfaults, hkept⟩ :=
    exec_done (· = .halt) (heff.trans (effInit_again hdone)) rfl rfl same_initRepeated
  obtain ⟨hhalted, hled, hdiag⟩ : t.halted = true ∧ t.errorLed = true ∧ t.diag = some (moduleName m) := hkept .halt
  exact ⟨t, hexec, (hfaults _).mpr (.inl (mem_addFault.mpr (.inr rfl))),
    fun f hf => (hfaults f).mpr (.inl (mem_addFault.mpr (.inl hf))), hhalted, hled, hdiag, hrefused, hframe⟩

/-- With nothing scheduled the machine starts the initialisation of its role (70_reset_and_hazards.md R350). -/
theorem step_starts_init (hempty : s.schedule = []) (hidle : s.boot = none)
    (hfirst : initOf s (roleModule s.par.role) = .uninit) : step s = startInit (roleModule s.par.role) s := by
  rw [step, hempty]
  exact (if_neg (by rw [hidle]; decide)).trans (if_pos hfirst)

end

/-- Settles O46: PERIPH_INIT and MASTER_INIT are the initialisations of the two modules. -/
theorem initStarts : Obligations.InitStarts := by
  refine fun s => ⟨fun hready => ⟨fun hfirst hidle => ?peripheral, ?peripheralAgain⟩,
    fun hready => ⟨fun hfirst hidle => ?master, ?masterAgain⟩,
    fun hempty hidle => ⟨fun hrole hfirst => ?peripheralRole, fun hrole hfirst => ?masterRole⟩⟩
  case peripheral =>
    obtain ⟨t, hexec, hresult, ⟨hperipheral, hmaster⟩, hrest⟩ :=
      exec_init_first (i := .periphInit) (m := .peripheral) (ifTask_ready hready _) hfirst hidle
    exact ⟨t, hexec, hresult, hperipheral, hmaster, hrest⟩
  case master =>
    obtain ⟨t, hexec, hresult, ⟨hperipheral, hmaster⟩, hrest⟩ :=
      exec_init_first (i := .masterInit) (m := .master) (ifTask_ready hready _) hfirst hidle
    exact ⟨t, hexec, hresult, hmaster, hperipheral, hrest⟩
  case peripheralAgain => exact exec_init_again (m := .peripheral) (ifTask_ready hready _)
  case masterAgain => exact exec_init_again (m := .master) (ifTask_ready hready _)
  case peripheralRole =>
    have hstep := step_starts_init hempty hidle (by rw [hrole]; exact hfirst)
    rw [hrole] at hstep
    exact hstep
  case masterRole =>
    have hstep := step_starts_init hempty hidle (by rw [hrole]; exact hfirst)
    rw [hrole] at hstep
    exact hstep

/-! ### The operations of an initialisation (46_engine_sequences.md R284, R285) -/

/-- The numbers of an operation fit the fields of its word (30_encoding.md R82). -/
def BootOp.Fits : BootOp → Prop
  | .setFuncSio p => p < 256
  | .setDirIn p => p < 256
  | .setPullUp p => p < 256
  | .configure b c _ => b < 16 ∧ c < 16
  | .register b _ => b < 16
  | .inte b _ => b < 16
  | .force b _ => b < 16
  | .enable b _ => b < 16
  | .globalOn => True

/-- The data pins have numbers that a word can name (42_pin_binder.md R131). -/
theorem dataPin_lt {p : Params} (h : p.valid = true) {k : Nat} (hk : k < 8) : p.pins.d0 + k < 256 := by
  simp only [Params.valid, Bool.and_eq_true, decide_eq_true_eq, List.all_eq_true] at h
  obtain ⟨⟨hbounds, hpins⟩, -⟩ := h
  have hpin := hpins (.data ⟨k, hk⟩) (mem_lineAll _)
  rw [pin_data] at hpin
  exact lt_of_lt_of_le hpin (by omega)

/-- With valid parameters the numbers of every operation fit its word. -/
theorem fits_of_mem_bootProgram {par : Params} (hvalid : par.valid = true) {m : Module} {o : BootOp}
    (ho : o ∈ bootProgram par m) : o.Fits := by
  cases m with
  | peripheral =>
    obtain hpin | hrest := List.mem_append.mp ho
    · obtain ⟨l, hl, hol⟩ := List.mem_flatten.mp hpin
      obtain ⟨k, hk, rfl⟩ := List.mem_map.mp hl
      have hlt := dataPin_lt hvalid (List.mem_range.mp hk)
      simp only [bringUpPin, List.mem_cons, List.not_mem_nil, or_false] at hol
      rcases hol with rfl | rfl | rfl <;> exact hlt
    · simp only [List.mem_cons, List.not_mem_nil, or_false] at hrest
      rcases hrest with rfl | rfl | rfl | rfl | rfl | rfl | rfl | rfl <;> simp [BootOp.Fits]
  | master =>
    obtain hpin | hrest := List.mem_append.mp ho
    · obtain ⟨k, hk, rfl⟩ := List.mem_map.mp hpin
      exact dataPin_lt hvalid (List.mem_range.mp hk)
    · simp only [List.mem_cons, List.not_mem_nil, or_false] at hrest
      rcases hrest with rfl | rfl | rfl | rfl <;> simp [BootOp.Fits, Config.cWcd, Config.cRcd]

section

variable {s : State} {o : BootOp}

/-- The word of an operation does what the operation does. -/
theorem effectOf_bootOp (hfits : o.Fits) (hhalt : s.halted = false) (htask : s.ctx = .task) :
    effectOf o.instr s = o.effect s := by
  have hnibble : ∀ {n : Nat}, n < 16 → (BitVec.ofNat 4 n).toNat = n := Nat.mod_eq_of_lt
  have hbyte : ∀ {n : Nat}, n < 256 → (BitVec.ofNat 8 n).toNat = n := Nat.mod_eq_of_lt
  have hword : effectOf o.instr s = ifProcessor o.instr s (o.act s) := by
    cases o with
    | setFuncSio p | setDirIn p | setPullUp p => simp only [BootOp.instr, effectOf, BootOp.act, hbyte hfits]
    | configure b c d => simp only [BootOp.instr, effectOf, BootOp.act, hnibble hfits.1, hnibble hfits.2]
    | register b k => simp only [BootOp.instr, effectOf, ifTask, htask, if_true, BootOp.act, hnibble hfits]
    | inte b m | force b m | enable b m => simp only [BootOp.instr, effectOf, BootOp.act, hnibble hfits]
    | globalOn => rfl
  rw [hword, ifProcessor, BootOp.effect, hhalt]
  cases o.instr.wf s.par <;> rfl

/-- An effect that completes with no value or with a binding, is refused or faults, but does not hold. -/
def Effect.Resolves : Effect → Prop
  | .done _ r _ => r = .none ∨ ∃ bnd, r = .binding bnd
  | .hold => False
  | .refuse _ => True
  | .raise _ => True

theorem resolves_ite {p : Prop} [Decidable p] {e e' : Effect} (h : e.Resolves) (h' : e'.Resolves) :
    (if p then e else e').Resolves := by
  split
  · exact h
  · exact h'

theorem resolves_configure (b c : Nat) (d : DescWords) : (effConfigure b c d s).Resolves := by
  unfold effConfigure
  split
  · trivial
  refine resolves_ite trivial (resolves_ite trivial (resolves_ite trivial ?_))
  split <;> exact .inr ⟨_, rfl⟩

theorem resolves_enable (b : Nat) (m : Half) : (effEnable b m s).Resolves := by
  unfold effEnable
  split
  · trivial
  · exact .inl rfl

/-- No operation of an initialisation holds (46_engine_sequences.md R284, R285). -/
theorem bootOp_resolves (o : BootOp) (s : State) : (o.effect s).Resolves := by
  refine resolves_ite ?_ trivial
  cases o with
  | setFuncSio p | setDirIn p | setPullUp p => exact resolves_ite (.inl rfl) trivial
  | configure b c d => exact resolves_configure b c d
  | register b k => exact resolves_ite trivial (.inl rfl)
  | enable b m => exact resolves_enable b m
  | inte b m | force b m | globalOn => exact .inl rfl

theorem Effect.Resolves.completed {u : State} {r : Result} {wrote : Option Nat} (h : (Effect.done u r wrote).Resolves) :
    Completed r := by
  rcases h with rfl | ⟨bnd, rfl⟩ <;> exact ⟨nofun, nofun, nofun⟩

/-! ### How an initialisation goes on (46_engine_sequences.md R284, R285, R287) -/

theorem failureStatus_ne_zero (n : Nat) : failureStatus n ≠ 0 := by
  unfold failureStatus
  split
  · decide
  · assumption

section

variable {par : Params} {k : Boot} {t : State} {r : Result}

/-- A CONFIGURE that found no space ends the initialisation. -/
theorem bootNext_failed {bnd : Binding} (h : bnd.cfg.offset < 0) : bootNext par k t (.binding bnd)
    = ({ t with boot := none }, .status (failureStatus t.tick)) := if_pos h

/-- Any other operation that completes leaves it at the next operation, or at its end. -/
theorem bootNext_goesOn (h : ∀ bnd, r = .binding bnd → 0 ≤ bnd.cfg.offset) : bootNext par k t r
    = if k.next + 1 < (bootProgram par k.module).length then
        ({ t with boot := some ⟨k.module, k.next + 1⟩ }, .running)
      else ({ t with boot := none }, .status 0) := by
  cases r with
  | binding bnd => exact if_neg (Int.not_lt.mpr (h bnd rfl))
  | _ => rfl

theorem bootNext_next (h : ∀ bnd, r = .binding bnd → 0 ≤ bnd.cfg.offset)
    (hmore : k.next + 1 < (bootProgram par k.module).length) :
    bootNext par k t r = ({ t with boot := some ⟨k.module, k.next + 1⟩ }, .running) :=
  (bootNext_goesOn h).trans (if_pos hmore)

theorem bootNext_last (h : ∀ bnd, r = .binding bnd → 0 ≤ bnd.cfg.offset)
    (hlast : k.next + 1 = (bootProgram par k.module).length) :
    bootNext par k t r = ({ t with boot := none }, .status 0) :=
  (bootNext_goesOn h).trans (if_neg (by omega))

end

section

variable {k : Boot} (hhalt : s.halted = false) (htask : s.ctx = .task) (hk : s.boot = some k)
  (ho : (bootProgram s.par k.module)[k.next]? = some o)

include hhalt htask hk ho

/-- A running initialisation performs its next operation. -/
theorem resume_boot_eq : resume .boot s = concludeStep o.instr s dropBoot ((o.effect s).andThen (bootNext s.par k)) := by
  rw [resume, resumeBoot, hk]
  dsimp only
  rw [ho]
  exact if_pos ⟨hhalt, htask⟩

/-- A resumed initialisation whose next operation completes. -/
theorem resume_boot_concludes {u v : State} {r q : Result} {wrote : Option Nat} (he : o.effect s = .done u r wrote)
    (hnext : bootNext s.par k u r = (v, q)) : resume .boot s = conclude o.instr s (.done v q wrote) := by
  rw [resume_boot_eq hhalt htask hk ho, he]
  show conclude o.instr s (.done (bootNext s.par k u r).1 (bootNext s.par k u r).2 wrote) = _
  rw [hnext]

/-- The state of a resumed initialisation is the one its operation leaves as a word, but for the place it goes on at and what
the turn returns. -/
theorem resume_boot_next {u : State} {r q : Result} {wrote : Option Nat} {k' : Option Boot}
    (he : o.effect s = .done u r wrote) (hnext : bootNext s.par k u r = ({ u with boot := k' }, q)) :
    resume .boot s
      = .next { settle o.instr s u wrote with boot := k', result := q, tick := s.tick + 1 } := by
  rw [resume_boot_concludes hhalt htask hk ho he hnext, conclude, settle_withBoot]

end

/-- **A turn of an initialisation** does what its operation does as a word, and goes on at the next operation or ends. -/
theorem resume_boot_as_word {m : Module} {k : Nat} (hhalt : s.halted = false) (htask : s.ctx = .task)
    (hvalid : s.par.valid = true) (hk : s.boot = some ⟨m, k⟩) (ho : (bootProgram s.par m)[k]? = some o) :
    ∃ u, exec o.instr s = .next u ∧
      ((∃ bnd, u.result = .binding bnd ∧ bnd.cfg.offset < 0) →
        ∃ w, w ≠ 0 ∧ resume .boot s = .next { u with boot := none, result := .status w }) ∧
      (Completed u.result → (∀ bnd, u.result = .binding bnd → 0 ≤ bnd.cfg.offset) →
        (k + 1 < (bootProgram s.par m).length →
          resume .boot s = .next { u with boot := some ⟨m, k + 1⟩, result := .running }) ∧
        (k + 1 = (bootProgram s.par m).length →
          resume .boot s = .next { u with boot := none, result := .status 0 })) ∧
      (¬ Completed u.result → resume .boot s = .next { u with boot := none }) := by
  have hword := effectOf_bootOp (fits_of_mem_bootProgram hvalid (List.mem_of_getElem? ho)) hhalt htask
  have hresolves := bootOp_resolves o s
  cases he : o.effect s with
  | done u r wrote =>
    rw [he] at hresolves
    refine ⟨_, exec_next (hword.trans he), fun ⟨bnd, hbnd, hneg⟩ => ?_, fun _ hoffset => ⟨fun hmore => ?_, fun hlast => ?_⟩,
      absurd hresolves.completed⟩
    · obtain rfl : r = .binding bnd := hbnd
      exact ⟨_, failureStatus_ne_zero u.tick, resume_boot_next hhalt htask hk ho he (bootNext_failed hneg)⟩
    · exact resume_boot_next hhalt htask hk ho he (bootNext_next hoffset hmore)
    · exact resume_boot_next hhalt htask hk ho he (bootNext_last hoffset hlast)
  | hold =>
    rw [he] at hresolves
    exact hresolves.elim
  | refuse x =>
    have hno : ¬ Completed (s.afterRefusal x).result := fun ⟨_, _, hrefused⟩ => hrefused x rfl
    refine ⟨s.afterRefusal x, exec_refuse (hword.trans he), ?_, fun h => absurd h hno, fun _ => ?_⟩
    · rintro ⟨bnd, hbnd, -⟩
      cases hbnd
    · rw [resume_boot_eq hhalt htask hk ho, he]
      rfl
  | raise f =>
    have hno : ¬ Completed (s.afterFault f).result := fun ⟨_, hfaulted, _⟩ => hfaulted rfl
    refine ⟨s.afterFault f, exec_raise (hword.trans he), ?_, fun h => absurd h hno, fun _ => ?_⟩
    · rintro ⟨bnd, hbnd, -⟩
      cases hbnd
    · rw [resume_boot_eq hhalt htask hk ho, he]
      rfl

/-! ### The operations that end an initialisation -/

theorem freeOffsets_eq_nil {par : Params} {k : Block} {n : Nat}
    (h : ∀ o, o + n ≤ par.imemWords → ∃ j, j < n ∧ k.tag (o + j) ≠ .free) : freeOffsets par k n = [] := by
  refine List.eq_nil_iff_forall_not_mem.mpr fun o ho => ?_
  obtain ⟨hfits, hfree⟩ := mem_freeOffsets.mp ho
  obtain ⟨j, hj, hused⟩ := h o hfits
  exact hused (hfree j hj)

theorem periphProgram_last (par : Params) : (bootProgram par .peripheral)[31]? = some .globalOn := rfl

theorem periphProgram_length (par : Params) : (bootProgram par .peripheral).length = 32 := rfl

theorem masterProgram_last (par : Params) : (bootProgram par .master)[11]? = some (.enable 0 3) := rfl

theorem masterProgram_length (par : Params) : (bootProgram par .master).length = 12 := rfl

theorem bootNext_periphProgram_last (par : Params) (t : State) :
    bootNext par ⟨.peripheral, 31⟩ t .none = ({ t with boot := none }, .status 0) :=
  bootNext_last (fun _ => nofun) (periphProgram_length par).symm

theorem bootNext_masterProgram_last (par : Params) (t : State) :
    bootNext par ⟨.master, 11⟩ t .none = ({ t with boot := none }, .status 0) :=
  bootNext_last (fun _ => nofun) (masterProgram_length par).symm

/-- A CONFIGURE without space for its program ends the initialisation with a nonzero status. -/
theorem resume_boot_noSpace {m : Module} {k b c : Nat} {d : DescWords} {cfg : ChanCfg} (hhalt : s.halted = false)
    (htask : s.ctx = .task) (hk : s.boot = some ⟨m, k⟩) (ho : (bootProgram s.par m)[k]? = some (.configure b c d))
    (hwf : (BootOp.configure b c d).instr.wf s.par = true) (hcfg : Configurable b c d cfg s)
    (hno : freeOffsets s.par (s.blk b) (s.par.len cfg.template) = []) :
    ∃ t w, resume .boot s = .next t ∧ t.result = .status w ∧ w ≠ 0 ∧ t.boot = none ∧
      t.chan b c = { s.chan b c with enabled := false } ∧ RecordsKept (BootOp.configure b c d).instr s t ∧
      Frame s t none fun q => q = .chan b c ∨ q = .boot := by
  obtain ⟨hoffset, -⟩ := decodeDescriptor_spec hcfg.decodes
  have heff : (BootOp.configure b c d).effect s = .done (disableChannel s b c) (.binding ⟨b, c, cfg⟩) none :=
    (if_pos hwf).trans (hcfg.effConfigure_noSpace hno)
  have hturn := resume_boot_concludes hhalt htask hk ho heff (bootNext_failed (by rw [hoffset]; decide))
  obtain ⟨t, hnext, hresult, hrecords, hframe, hkept⟩ :=
    conclude_plain (fun q => q = .chan b c ∨ q = .boot) hturn rfl rfl rfl rfl rfl fun q hq => by
      obtain ⟨hchan, hboot⟩ := not_or.mp hq
      exact same_trans (same_modChan q hchan) (same_boot q hboot)
  have hchan : ChannelReacts t none b ((disableChannel s b c).chan b c) (t.chan b c) := hkept (.chan b c)
  rw [disableChannel, state_chan_modChan_self] at hchan
  exact ⟨t, _, hnext, hresult, failureStatus_ne_zero _, hkept .boot, hchan.of_disabled rfl, hrecords, hframe⟩

/-- The last operation of PERIPH_INIT enables the interrupts and returns 0. -/
theorem resume_boot_globalOn (hhalt : s.halted = false) (htask : s.ctx = .task) (hk : s.boot = some ⟨.peripheral, 31⟩) :
    ∃ t, resume .boot s = .next t ∧ t.result = .status 0 ∧ t.boot = none ∧ t.irqEnabled = true ∧
      RecordsKept (.irqGlobal true) s t ∧ Frame s t none fun q => q = .irqEnabled ∨ q = .boot := by
  have heff : BootOp.globalOn.effect s = .done { s with irqEnabled := true } .none none := if_pos rfl
  have hturn := resume_boot_concludes hhalt htask hk (periphProgram_last s.par) heff (bootNext_periphProgram_last _ _)
  obtain ⟨t, hnext, hresult, hrecords, hframe, hkept⟩ :=
    conclude_plain (fun q => q = .irqEnabled ∨ q = .boot) hturn rfl rfl rfl rfl rfl fun q hq => by
      obtain ⟨hglobal, hboot⟩ := not_or.mp hq
      exact same_trans (same_irqEnabled q hglobal) (same_boot q hboot)
  exact ⟨t, hnext, hresult, hkept .boot, hkept .irqEnabled, hrecords, hframe⟩

/-- The mask of the two drivers' channels. -/
theorem getLsbD_three {c : Nat} : (3 : Half).getLsbD c = true ↔ c = 0 ∨ c = 1 := by
  have hbit : (3 : Half).getLsbD c = (decide (c < 16) && Nat.testBit (2 ^ 2 - 1) c) := BitVec.getLsbD_ofNat ..
  rw [hbit, Nat.testBit_two_pow_sub_one]
  simp only [Bool.and_eq_true, decide_eq_true_eq]
  omega

theorem driverMask_ok {par : Params} (h : 2 ≤ par.numCh) : chanMaskOk par 3 = true := by
  have hpow : 2 ^ 2 ≤ 2 ^ par.numCh := Nat.pow_le_pow_right (by omega) h
  exact decide_eq_true (show 3 < 2 ^ par.numCh by omega)

theorem mem_driverMask {par : Params} (h : 2 ≤ par.numCh) (c : Nat) : c ∈ maskChannels par 3 ↔ c = 0 ∨ c = 1 :=
  (mem_maskChannels (driverMask_ok h) c).trans getLsbD_three

/-- The ENABLE of MASTER_INIT where both drivers have a binding (41_configurator.md R112). -/
theorem effect_enableDrivers (hblock : 1 ≤ s.par.numBlocks) (hchannels : 2 ≤ s.par.numCh)
    (hrcd : (s.chan 0 0).owner ≠ .none) (hwcd : (s.chan 0 1).owner ≠ .none) :
    (BootOp.enable 0 3).effect s = .done (switchChannels 0 3 true s) .none
      (if (s.chan 0 0).cfg.template = .waite ∨ (s.chan 0 1).cfg.template = .waite then some 0 else none) := by
  have hmem := mem_driverMask hchannels
  have hwf : (BootOp.enable 0 3).instr.wf s.par = true :=
    Bool.and_eq_true_iff.mpr ⟨decide_eq_true hblock, driverMask_ok hchannels⟩
  have howned : ∀ c ∈ maskChannels s.par 3, (s.chan 0 c).owner ≠ .none := fun c hc => by
    rcases (hmem c).mp hc with rfl | rfl
    · exact hrcd
    · exact hwcd
  have hany : (maskChannels s.par 3).any (fun c => decide ((s.chan 0 c).cfg.template = .waite)) = true ↔
      (s.chan 0 0).cfg.template = .waite ∨ (s.chan 0 1).cfg.template = .waite := by
    simp only [List.any_eq_true, decide_eq_true_eq, hmem, or_and_right, exists_or, exists_eq_left]
  calc (BootOp.enable 0 3).effect s
    _ = effEnable 0 3 s := if_pos hwf
    _ = _ := effEnable_owned howned
    _ = _ := by rw [if_congr hany rfl rfl]

/-- The last operation of MASTER_INIT enables both drivers and returns 0. -/
theorem resume_boot_enable {wrote : Option Nat} (hhalt : s.halted = false) (htask : s.ctx = .task)
    (hk : s.boot = some ⟨.master, 11⟩) (hblock : 1 ≤ s.par.numBlocks) (hchannels : 2 ≤ s.par.numCh)
    (hrcd : (s.chan 0 0).owner ≠ .none) (hwcd : (s.chan 0 1).owner ≠ .none)
    (hwrote : wrote = if (s.chan 0 0).cfg.template = .waite ∨ (s.chan 0 1).cfg.template = .waite then some 0 else none) :
    ∃ t, resume .boot s = .next t ∧ t.result = .status 0 ∧ t.boot = none ∧
      (t.chan 0 0).enabled = true ∧ (t.chan 0 1).enabled = true ∧
      RecordsKept (.enable 0 3) s t ∧ Frame s t wrote fun q => q = .chan 0 0 ∨ q = .chan 0 1 ∨ q = .boot := by
  have hm := driverMask_ok hchannels
  have heff := effect_enableDrivers hblock hchannels hrcd hwcd
  rw [← hwrote] at heff
  have hturn := resume_boot_concludes hhalt htask hk (masterProgram_last s.par) heff (bootNext_masterProgram_last _ _)
  obtain ⟨bl, hbl⟩ := switchChannels_fields (s := s) (b := 0) (m := 3) (v := true)
  obtain ⟨t, hnext, hresult, hrecords, hframe, hkept⟩ :=
    conclude_plain (fun q => q = .chan 0 0 ∨ q = .chan 0 1 ∨ q = .boot) hturn (by rw [hbl]) (by rw [hbl]) (by rw [hbl])
      (by rw [hbl]) (by rw [hbl]) fun q hq => by
        obtain ⟨h0, h1, hboot⟩ : q ≠ .chan 0 0 ∧ q ≠ .chan 0 1 ∧ q ≠ .boot := by simpa only [not_or] using hq
        refine same_trans (same_switchChannels hm q ?_) (same_boot q hboot)
        rintro ⟨c, hc, rfl⟩
        rcases getLsbD_three.mp hc with rfl | rfl
        · exact h0 rfl
        · exact h1 rfl
  have hon : ∀ c : Nat, (3 : Half).getLsbD c = true → (t.chan 0 c).enabled = true := fun c hc => by
    have hchan : ChannelReacts t wrote 0 ((switchChannels 0 3 true s).chan 0 c) (t.chan 0 c) := hkept (.chan 0 c)
    rw [chan_switchChannels hm, if_pos hc] at hchan
    rw [hchan.2]
  exact ⟨t, hnext, hresult, hkept .boot, hon 0 rfl, hon 1 rfl, hrecords, hframe⟩

end

/-- Settles O47: the operations of the default build are computed, a turn does what its operation does as a word, and the three
operations that can be a last one are said above. -/
theorem initSequence : Obligations.InitSequence := by
  refine ⟨rfl, rfl, fun s hhalt htask => ⟨fun m k o hvalid => resume_boot_as_word hhalt htask hvalid,
    fun m k b c d cfg hk ho hwf hdec howner hgroups hpins hfull => ?_, resume_boot_globalOn hhalt htask,
    fun wrote => resume_boot_enable hhalt htask⟩⟩
  exact resume_boot_noSpace hhalt htask hk ho hwf ⟨hdec, howner, hgroups, hpins⟩ (freeOffsets_eq_nil hfull)

end Sys2Proof.Machine
end

section
/-! What the exceptional outcomes leave of an operation (spec/60_exceptions.md R303 to R310): an ENABLE of a channel with no
binding, a call that a handler may not make, a pin that does not exist, and the halted processor. -/

namespace Sys2Proof.Machine

section

variable {s : State} {i : Instr}

/-- **A ready operation whose own effect is a refusal** is refused. -/
theorem exec_refused_of_ready {e : Effect} {r : Reason} (hready : Ready i s) (heff : effectOf i s = ifProcessor i s e)
    (he : e = .refuse r) : exec i s = .next (s.afterRefusal r) :=
  exec_refuse (heff.trans ((ifProcessor_ready hready e).trans he))

/-! ### ENABLE of a channel with no binding (60_exceptions.md R304, R305; log 43) -/

/-- The lowest channel of the mask that has no binding is the one the search finds. -/
theorem find_unbound {b c : Nat} {m : Half} (hm : chanMaskOk s.par m = true) (hc : m.getLsbD c = true)
    (hfree : (s.chan b c).owner = .none)
    (hlowest : ∀ c' : Nat, c' < c → m.getLsbD c' = true → (s.chan b c').owner ≠ .none) :
    (maskChannels s.par m).find? (fun c' => decide ((s.chan b c').owner = .none)) = some c := by
  have hrange : c ∈ List.range s.par.numCh := List.mem_of_mem_filter ((mem_maskChannels hm c).mpr hc)
  rw [maskChannels, List.find?_filter, List.find?_range_eq_some]
  refine ⟨by simp [hc, hfree], hrange, fun c' hlt => ?_⟩
  simpa [or_iff_not_imp_left] using hlowest c' hlt

theorem effEnable_unbound {b c : Nat} {m : Half} (hm : chanMaskOk s.par m = true) (hc : m.getLsbD c = true)
    (hfree : (s.chan b c).owner = .none)
    (hlowest : ∀ c' : Nat, c' < c → m.getLsbD c' = true → (s.chan b c').owner ≠ .none) :
    effEnable b m s = .raise (.enableInvalid b c) := by
  rw [effEnable, find_unbound hm hc hfree hlowest]

/-! ### Calls that a handler may not make (60_exceptions.md R309) -/

theorem blockingOp_isr (hisr : s.ctx ≠ .task) (e : Effect) : blockingOp s e = .refuse .blockingInIsr := if_neg hisr

theorem masterCall_isr (hisr : s.ctx ≠ .task) (e : Effect) : masterCall s e = .refuse .masterInIsr := if_pos hisr

/-! ### Pins that do not exist (60_exceptions.md R306; log 34) -/

section

variable {p : Nat} (hp : s.par.numGpio ≤ p)

include hp

theorem onPin_of_ge (e : Effect) : onPin s p e = .refuse .pinRange := if_neg (Nat.not_lt.mpr hp)

/-- A function code that is well formed names a function, so that only the pin is refused. -/
theorem effGpioSetFunc_noPin {f : Byte} (hf : (pinFuncOf s.par f).isSome = true) :
    effGpioSetFunc p f s = .refuse .pinRange := by
  obtain ⟨g, hg⟩ := Option.isSome_iff_exists.mp hf
  rw [effGpioSetFunc, hg]
  exact onPin_of_ge hp _

/-- A pull code that is well formed names a pull, so that only the pin is refused. -/
theorem effGpioSetPull_noPin {code : BitVec 2} (hcode : (pullOf code).isSome = true) :
    effGpioSetPull p code s = .refuse .pinRange := by
  obtain ⟨u, hu⟩ := Option.isSome_iff_exists.mp hcode
  rw [effGpioSetPull, hu]
  exact onPin_of_ge hp _

end

theorem onBus_of_ge (hbus : s.par.numGpio ≤ s.par.pins.d0 + 7) (e : Effect) : onBus s e = .refuse .pinRange :=
  onPin_of_ge hbus e

/-! ### The halted processor (60_exceptions.md R310) -/

section

variable {a : Activity} (hhalted : s.halted = true)

include hhalted

theorem ifProcessor_halted (hwf : i.wf s.par = true) (e : Effect) : ifProcessor i s e = .hold :=
  (if_neg (by simp [hwf])).trans (if_pos hhalted)

/-- **No activity goes on** once the processor is halted; an initialisation must have an operation left, since one with none
only ends (46_engine_sequences.md R284, R285). -/
theorem resumeEffect_halted (hboot : a = .boot → ∀ k, s.boot = some k → k.next < (bootProgram s.par k.module).length) :
    (resumeEffect a s).2.2 = .hold := by
  have hstopped : ¬ (s.halted = false ∧ s.ctx = .task) := by simp [hhalted]
  cases a with
  | consumer => cases hv : s.consumer <;> simp [resumeEffect, hv, hstopped]
  | master => cases hm : s.master <;> simp [resumeEffect, hm, hstopped]
  | boot =>
    cases hk : s.boot with
    | none => simp [resumeEffect, hk]
    | some k =>
      have hnext : (bootProgram s.par k.module)[k.next]? = some _ := List.getElem?_eq_getElem (hboot rfl k hk)
      simp [resumeEffect, hk, hnext, hstopped]

theorem resume_halted (hboot : a = .boot → ∀ k, s.boot = some k → k.next < (bootProgram s.par k.module).length) :
    resume a s = .next s.afterHold := by
  rw [resume_eq, resumeEffect_halted hhalted hboot]
  rfl

end

end

/-! ### The statements -/

/-- Settles O11: the search of ENABLE stops at the lowest channel of the mask that has no binding. -/
theorem enableInvalid : Obligations.EnableInvalid := by
  intro b m s c hready hc hfree hlowest
  obtain ⟨-, hm⟩ := Bool.and_eq_true_iff.mp hready.1
  exact exec_raise ((ifProcessor_ready hready _).trans (effEnable_unbound hm hc hfree hlowest))

/-- Settles O16: the context is checked before anything else the operation reads. -/
theorem blockingRefusedInIsr : Obligations.BlockingRefusedInIsr := by
  refine fun i s hready hisr => ⟨fun hi => ?blocking, fun hi => ?master⟩
  case blocking =>
    rcases hi with ⟨b, c, w, rfl⟩ | ⟨b, c, rfl⟩ | ⟨b, c, rfl⟩ <;>
      exact exec_refused_of_ready hready rfl (blockingOp_isr hisr _)
  case master =>
    rcases hi with ⟨b, rfl⟩ | ⟨b, v, rfl⟩ <;>
      exact exec_refused_of_ready hready rfl (masterCall_isr hisr _)

/-- Settles O23: a well-formed operation on pins is refused for the pin alone; the bus is the run of pins that ends at D7. -/
theorem pinRangeRefused : Obligations.PinRangeRefused := by
  refine fun i s hready => ⟨fun p hp hi => ?pin, fun hbus hi => ?bus⟩
  case pin =>
    obtain ⟨f, rfl⟩ | ⟨oe, rfl⟩ | ⟨v, rfl⟩ | rfl | ⟨u, rfl⟩ := hi
    · exact exec_refused_of_ready hready rfl (effGpioSetFunc_noPin hp hready.1)
    · exact exec_refused_of_ready hready rfl (onPin_of_ge hp _)
    · exact exec_refused_of_ready hready rfl (onPin_of_ge hp _)
    · exact exec_refused_of_ready hready rfl (onPin_of_ge hp _)
    · exact exec_refused_of_ready hready rfl (effGpioSetPull_noPin hp hready.1)
  case bus =>
    rcases hi with ⟨oe, rfl⟩ | ⟨v, rfl⟩ | rfl <;>
      exact exec_refused_of_ready hready rfl (onBus_of_ge hbus _)

/-- Settles O48: the halt is among the checks of every operation a processor performs, whatever the effect behind them, and of
every activity that goes on. -/
theorem haltedHolds : Obligations.HaltedHolds := by
  refine fun s hhalted => ⟨fun i hp hwf => ?_, resume_halted hhalted nofun, resume_halted hhalted nofun,
    fun hboot => resume_halted hhalted fun _ => hboot⟩
  obtain ⟨e, he⟩ := exec_checked i s
  rw [he, hp, ifPerformer, ifProcessor_halted hhalted hwf]
  rfl

end Sys2Proof.Machine
end

section
/-! What reset leaves (spec/70_reset_and_hazards.md R341 to R346): each read of the reset state's tables. A table of reset
values reads as the reset value past its end too, so no read of a block needs a bound on its number. -/

namespace Sys2Proof.Machine

/-- A table of one value reads as that value, past its end too. -/
theorem replicate_getD {α : Type} (d : α) (n i : Nat) : (List.replicate n d).getD i d = d := by
  rw [List.getD_eq_getElem?_getD, List.getElem?_getD_replicate_default_eq]

section

variable (par : Params)

/-! ### Blocks and channels -/

/-- A block at reset is tables of reset values; only their lengths tell a block that exists from one past the last. -/
theorem blk_resetWith (b : Nat) : ∃ words pins flags chs, (State.resetWith par).blk b =
    { imem := []
      tags := List.replicate words .free
      flags := 0
      inte := 0
      pinOut := List.replicate pins false
      pinOe := List.replicate pins false
      vec := List.replicate flags none
      chs := List.replicate chs Channel.reset } := by
  by_cases hb : b < par.numBlocks
  case pos =>
    exact ⟨par.imemWords, par.numGpio, par.numFlags, par.numCh, by simp [State.blk, State.resetWith, hb, Block.reset]⟩
  case neg =>
    exact ⟨0, 0, 0, 0, by simp [State.blk, State.resetWith, hb, Block.reset]⟩

@[simp] theorem blk_resetWith_imem (b : Nat) : ((State.resetWith par).blk b).imem = [] := by
  obtain ⟨_, _, _, _, hblk⟩ := blk_resetWith par b
  rw [hblk]

@[simp] theorem blk_resetWith_flags (b : Nat) : ((State.resetWith par).blk b).flags = 0 := by
  obtain ⟨_, _, _, _, hblk⟩ := blk_resetWith par b
  rw [hblk]

@[simp] theorem blk_resetWith_inte (b : Nat) : ((State.resetWith par).blk b).inte = 0 := by
  obtain ⟨_, _, _, _, hblk⟩ := blk_resetWith par b
  rw [hblk]

@[simp] theorem tag_resetWith (b a : Nat) : ((State.resetWith par).blk b).tag a = .free := by
  obtain ⟨_, _, _, _, hblk⟩ := blk_resetWith par b
  rw [hblk, Block.tag, replicate_getD]

@[simp] theorem out_resetWith (b p : Nat) : ((State.resetWith par).blk b).out p = false := by
  obtain ⟨_, _, _, _, hblk⟩ := blk_resetWith par b
  rw [hblk, Block.out, replicate_getD]

@[simp] theorem oe_resetWith (b p : Nat) : ((State.resetWith par).blk b).oe p = false := by
  obtain ⟨_, _, _, _, hblk⟩ := blk_resetWith par b
  rw [hblk, Block.oe, replicate_getD]

@[simp] theorem vector_resetWith (b i : Nat) : ((State.resetWith par).blk b).vector i = none := by
  obtain ⟨_, _, _, _, hblk⟩ := blk_resetWith par b
  rw [hblk, Block.vector, replicate_getD]

@[simp] theorem chan_resetWith (b c : Nat) : (State.resetWith par).chan b c = Channel.reset := by
  obtain ⟨_, _, _, _, hblk⟩ := blk_resetWith par b
  rw [State.chan, hblk, Block.chan, replicate_getD]

/-! ### Pins -/

theorem pin_resetWith {p : Nat} (hp : p < par.numGpio) :
    (State.resetWith par).pin p = { Pin.reset with pull := resetPull par p } := by
  simp [State.pin, State.resetWith, hp]

theorem resetPull_data {p : Nat} (hlo : par.pins.d0 ≤ p) (hhi : p < par.pins.d0 + 8) : resetPull par p = .up :=
  if_pos ⟨hlo, hhi⟩

theorem resetPull_other {p : Nat} (h : p < par.pins.d0 ∨ par.pins.d0 + 8 ≤ p) :
    resetPull par p = par.pulls.getD p .none :=
  if_neg (by omega)

/-! ### The environment's lines -/

theorem envLine_resetWith (X : Line) :
    (State.resetWith par).envLine X = (resetEnv par.role).getD (lineIdx X) EnvLine.off := rfl

/-- No environment drives the data bus at reset (70_reset_and_hazards.md R345, R346). -/
theorem envLine_resetWith_data (i : Fin 8) : (State.resetWith par).envLine (.data i) = EnvLine.off := by
  rw [envLine_resetWith]
  cases par.role <;> fin_cases i <;> rfl

/-- At reset the external peripheral drives WAIT alone (70_reset_and_hazards.md R346). -/
theorem envLine_resetWith_master (hrole : par.role = .master) {X : Line} (hX : X ≠ .wait) :
    (State.resetWith par).envLine X = EnvLine.off := by
  cases X with
  | data i => exact envLine_resetWith_data par i
  | wait => exact absurd rfl hX
  | _ => rw [envLine_resetWith, hrole]; rfl

/-! ### The invariants -/

theorem channelLegal_reset : ChannelLegal par Channel.reset :=
  ⟨Nat.zero_le 32, Nat.le_refl 32, fun _ => ⟨rfl, rfl, rfl⟩, fun howned => absurd rfl howned⟩

theorem memoryInv_resetWith : MemoryInv (State.resetWith par) := fun b => by
  rw [blk_resetWith_imem]; rfl

theorem channelsInv_resetWith : ChannelsInv (State.resetWith par) := fun b c => by
  rw [chan_resetWith]; exact channelLegal_reset par

/-- No channel is enabled at reset, so no enforcer has a flag to follow. -/
theorem enforcerInv_resetWith : EnforcerInv (State.resetWith par) := fun b c henabled => by
  rw [chan_resetWith] at henabled; cases henabled

/-- No channel is owned at reset, so there is no program. -/
theorem programsInv_resetWith : ProgramsInv (State.resetWith par) := fun b c howned => by
  rw [chan_resetWith] at howned; exact absurd rfl howned

end

/-! ### The statements -/

/-- Settles O59: no channel is owned or enabled and no word of instruction memory is written, so each invariant holds. -/
theorem resetInvariants : Obligations.ResetInvariants :=
  ⟨fun par => ⟨memoryInv_resetWith par, ⟨rfl, channelsInv_resetWith par⟩, enforcerInv_resetWith par,
    programsInv_resetWith par⟩, rfl⟩

/-- Settles O60: each table read is the reset value of its entries, and every other field is as `State.resetWith` writes it. -/
theorem resetValues : Obligations.ResetValues := by
  refine fun par => ⟨fun b c => ?channels, fun b => ?blocks, fun p hp => ?pins, ?processor, fun hrole => ?host,
    fun hrole => ?peripheral⟩
  case channels => simp [Channel.reset]
  case blocks => simp
  case pins =>
    rw [pin_resetWith par hp]
    exact ⟨rfl, rfl, rfl, resetPull_data par, resetPull_other par⟩
  case processor => simp [State.resetWith]
  case host =>
    have hdata : ∀ i, ((State.resetWith par).envLine (.data i)).drive = false := fun i => by
      rw [envLine_resetWith_data]; rfl
    refine ⟨rfl, rfl, ?_, ?_, ?_, ?_, ?_, hdata⟩ <;> rw [envLine_resetWith, hrole] <;> rfl
  case peripheral =>
    refine ⟨rfl, by rw [envLine_resetWith, hrole]; rfl, fun X hX => ?_⟩
    rw [envLine_resetWith_master par hrole hX]; rfl

end Sys2Proof.Machine
end
